-- ==== Sys2Proof/Word.lean ====
section
/-! DEFINITION. The bit-vector types the DSP3210 spec names (10_state.md, 20_memory.md R91). -/

namespace Sys2Proof

/-- A 32-bit word (R10, R91): a CAU register, an address, an instruction word. -/
abbrev Word := BitVec 32

/-- A 16-bit halfword (R91): the field N, the IO registers ps, emr and pcw. -/
abbrev Half := BitVec 16

/-- An 8-bit byte (R91): the smallest addressable unit. -/
abbrev Byte := BitVec 8

/-- A 40-bit accumulator value (R29): bits 39:8 are the 32-bit image, bits 7:0 the guard bits. -/
abbrev Acc40 := BitVec 40

/-- A CAU register number, r0 to r22 (R20). -/
abbrev Reg := Fin 23

/-- An accumulator number, a0 to a3 (R29). -/
abbrev AccNo := Fin 4

end Sys2Proof
end

