-- ==== Sys2Proof/Config.lean ====
section
/-! DEFINITION. What an implementation fixes (the spec's open parameters, R9) and the free values.

`Params` is plain data and stands in State, so that a statement about every state holds for every
choice of the open parameters.  The free values, and the functions of a number format or a companding
law other than the default, are constants with no body: nothing can be proved of what they are
(notes/assumptions/1.md, notes/assumptions/9.md). -/

namespace Sys2Proof

/-- What a misaligned access does: the open parameter `MISALIGNED` (R95). -/
inductive Misaligned where
  /-- raise Address Error, exception 4 -/
  | addressError
  /-- perform the access byte by byte -/
  | split
  /-- the spec's default: the model makes no claim -/
  | refuse
deriving DecidableEq, Repr

/-- The memory-mapped registers the spec names (R54, R64, R68). -/
inductive MmioReg where
  | ioc | dmac | tcon | bioc | bio
  | timerCount | timerInit
  | ibuf | obuf | idp | odp | icnt | ocnt | icounter | ocounter
deriving DecidableEq, Repr

/-- One row of the open parameter `MMIO_ADDR` (R54): a register, its offset in the on-chip region,
and its width in bytes where the spec states none. -/
structure MmioEntry where
  reg : MmioReg
  offset : Nat
  bytes : Nat
deriving DecidableEq, Repr

/-- A range of addresses or offsets: `size` bytes from `lo` on. -/
structure Range where
  lo : Nat
  size : Nat
deriving DecidableEq, Repr

/-- The open parameter `DSP_FLOAT` (R322). -/
inductive FloatFormat where
  /-- the spec's default (R323, R324) -/
  | excess128
  /-- any other format, by a number: its functions have no body -/
  | other (k : Nat)
deriving DecidableEq, Repr

/-- The open parameter `COMPAND` (R355, R363). -/
inductive CompandTables where
  /-- the spec's default, ITU-T G.711 -/
  | g711
  /-- any other tables, by a number: they have no body -/
  | other (k : Nat)
deriving DecidableEq, Repr

/-- What the entry of an error does to pcsh and the shadow set: "not stated" (R390). -/
inductive ErrorShadow where
  /-- the spec's default: they are free values -/
  | unknown
  /-- it writes them as an interrupt does -/
  | written
  /-- it leaves them -/
  | kept
deriving DecidableEq, Repr

/-- The open parameter `EXC_ENTRY`: what an exception entry saves beyond R386's certain part.  Which
alternatives it has is a DESIGN CHOICE, notes/assumptions/27.md. -/
structure ExcEntry where
  /-- sh_flags holds the DAU flag results in flight (R386) -/
  inFlight : Bool
  errorShadow : ErrorShadow
deriving DecidableEq, Repr

/-- The open parameters of the encoding: `F_HIGH` (R152), `DA_LAYOUT` (R160, R161), `DA_FORMAT_MAP`
(R320, R321) and `DO_LAYOUT` (R136).  Which alternatives they have is a DESIGN CHOICE,
notes/assumptions/34.md. -/
structure Encoding where
  /-- `F_HIGH`: the ALU function of code 1000 + i, named by 8 less than its default code -/
  fHigh : Vector (Fin 8) 8
  /-- `DO_LAYOUT`: the lowest bit of K, of L (3b) and of rM (3c) -/
  doK : Nat
  doL : Nat
  doR : Nat
  /-- `DO_LAYOUT`: what (B, M) selects: 0 do, 1 dolock, 2 doblock, 3 nothing -/
  doModes : Vector (BitVec 2) 4
  /-- `DA_LAYOUT`: the lowest bit of M (formats 1 to 3), of F and S (formats 1 to 4), of N, X, Y and Z, and
  of G (format 5); the bit that no field holds is the unused one -/
  daM : Nat
  daF : Nat
  daS : Nat
  daN : Nat
  daX : Nat
  daY : Nat
  daZ : Nat
  daG : Nat
  /-- `DA_LAYOUT`: p is the low part of an operand field, not the high one (R161) -/
  daPLow : Bool
  /-- `DA_FORMAT_MAP`: the form of format 1 + i, named by the number of its default format less 1 -/
  daForms : Vector (Fin 4) 4
  /-- `DA_FORMAT_MAP`: what stands for M where format 4, which has no such field, spells a form with one -/
  daImplied : BitVec 3
  /-- `DA_FORMAT_MAP`: S, not F, is the sign of the first term -/
  daSignSwap : Bool
deriving DecidableEq, Repr

/-- The open parameters of R9.  `RESET_REGS` is notes/assumptions/3.md. -/
structure Params where
  /-- `MISALIGNED` (R95) -/
  misaligned : Misaligned
  /-- `IFA_LATENCY` (R367): true when ifalt, ifaeq and ifagt test the settled flags -/
  ifaSettled : Bool
  /-- `ONCHIP_MAP` (R101): the size of the on-chip region in bytes -/
  onchipSize : Nat
  /-- `ONCHIP_MAP`: the size of the Boot ROM in bytes -/
  romSize : Nat
  /-- `ONCHIP_MAP`: the offsets that are read-write memory -/
  ram : List Range
  /-- `MMIO_ADDR` (R54) -/
  mmio : List MmioEntry
  /-- `DSP_FLOAT` (R322) -/
  float : FloatFormat
  /-- `COMPAND` (R355) -/
  compand : CompandTables
  /-- `EXC_ENTRY` (60_exceptions.md) -/
  exc : ExcEntry
  /-- `F_HIGH`, `DA_LAYOUT`, `DA_FORMAT_MAP` and `DO_LAYOUT` -/
  encoding : Encoding
deriving DecidableEq, Repr

namespace Config

/-- The free value number `n`, `w` bits wide: what the spec calls `draw` (R11). -/
opaque free (w n : Nat) : BitVec w

/-- The result of `mac` (R322) where the exact result has no 40-bit representation: the spec asks only
that it approximates.  A function of the operands: the adder input, the two signs, the two
multiplier inputs. -/
opaque macApprox (t : Acc40) (negT negP : Bool) (y x : Word) : Acc40

/-- Whether such a result leaves the format, where the exact result lies between the last value the
format holds and the end of its range: the spec does not say how the result is rounded. -/
opaque macEdge (t : Acc40) (negT negP : Bool) (y x : Word) : Bool

/-! `DSP_FLOAT` in the format number `k` that is not the default (R322; Machine/Formats.lean says what holds
of every format). -/

/-- The value of 40 bits. -/
opaque otherValue (k : Nat) (a : Acc40) : Rat
/-- The largest magnitude of a word, of each sign. -/
opaque otherLargest (k : Nat) (neg : Bool) : Rat
/-- How far beyond it the guard bits reach. -/
opaque otherGuard (k : Nat) (neg : Bool) : Rat
/-- The smallest magnitude that is not zero, of each sign. -/
opaque otherSmallest (k : Nat) (neg : Bool) : Rat
/-- How far beyond the largest magnitude, or (`under`) below the smallest, rounding may still stay in the
format. -/
opaque otherMargin (k : Nat) (neg under : Bool) : Rat
/-- The word of the value 1. -/
opaque otherOne (k : Nat) : Word
/-- The result of `mac`. -/
opaque otherMac (k : Nat) (t : Acc40) (negT negP : Bool) (y x : Word) : Acc40
/-- Whether `mac` leaves the format at the edge of its range. -/
opaque otherMacEdge (k : Nat) (t : Acc40) (negT negP : Bool) (y x : Word) : Bool
/-- `float_of_int` (R357), where several bits have the value. -/
opaque otherFloatOfInt (k : Nat) (n : Int) : Acc40
/-- The nearest word of a value (R365), where several have it. -/
opaque otherRound (k : Nat) (t : Acc40) : Word
/-- Whether `round` leaves the format at the edge of its range. -/
opaque otherRoundEdge (k : Nat) (t : Acc40) : Bool
/-- The word of a normal IEEE number (R362), where several have the value. -/
opaque otherOfIeee (k : Nat) (w : Word) : Word
/-- The IEEE word of a word whose value is no normal IEEE number (R364). -/
opaque otherToIeee (k : Nat) (w : Word) : Word

/-! `COMPAND` in the tables number `k` that are not the default (R355, R363; Machine/Compand.lean says what
holds of every table). -/

/-- The value of a code, in the A-law where `aLaw` holds, else in the µ-law, as a two's complement number.
DESIGN CHOICE: it is an integer that R357 covers, -2^32 ≤ n < 2^32 (notes/assumptions/31.md). -/
opaque otherExpand (k : Nat) (aLaw : Bool) (b : Byte) : BitVec 33
/-- The code of a value in a number format that lies within the law's range; at its ends, which of the
codes of the limiting value. -/
opaque otherCompress (k : Nat) (aLaw : Bool) (fm : FloatFormat) (a : Acc40) : Byte

end Config
end Sys2Proof
end

