-- ==== Sys2Proof/Syntax.lean ====
section
/-! DEFINITION. The instruction set: one constructor of `Instr` per row of spec/opcode_table.json
(30_encoding.md), with operand types that hold only the codes their position accepts (R27). -/

namespace Sys2Proof

/-- The operation size of a CA instruction, I[31] of formats 5 and 6 (R230). -/
inductive Size where
  | short | long
deriving DecidableEq, Repr

/-- The condition codes of the C field (R150), by the table's names. -/
inductive Cond where
  | never | always
  | pl | mi | ne | eq | vc | vs | cc | cs | ge | lt | gt | le | hi | ls
  | auc | aus | age | alt | ane | aeq | avc | avs | agt | ale
  | ibe | ibf | obf | obe | syc | sys | fbc | fbs | ir0c | ir0s | ir1c | ir1s
deriving DecidableEq, Repr

/-- The W field of the moves (R151): size and placement. -/
inductive Width where
  | byte | char | ushort | short | hbyte | long
deriving DecidableEq, Repr

/-- The IO registers of the R field (R143). -/
inductive IoReg where
  | ps | emr | spc | pcw | dauc | ctr
deriving DecidableEq, Repr

/-- The operand rB of goto and call (R27): r0 to r22 or pc. -/
inductive Base where
  | reg (r : Reg) | pc
deriving DecidableEq, Repr

/-- The operand rS3 of the three-operand add and rS of a store (R27): r0 to r22, pc or pcsh. -/
inductive Source where
  | reg (r : Reg) | pc | pcsh
deriving DecidableEq, Repr

/-- The destination of a memory load (R27, R289): r0 to r22 or pcsh. -/
inductive LoadDest where
  | reg (r : Reg) | pcsh
deriving DecidableEq, Repr

/-- The field rI of formats 7c and 7d (R146, R283): a register (r0 for no change), +n or -n. -/
inductive Increment where
  | reg (r : Reg) | minusN | plusN
deriving DecidableEq, Repr

/-- The low field I of a DA memory operand (R161); `inc k` names r15 + k. -/
inductive PostMod where
  | keep | inc (k : Fin 5) | minus | plus
deriving DecidableEq, Repr

/-- A DA memory operand: the pointer `p` names r(p+1), one of r1 to r14 (R161). -/
structure DaMem where
  p : Fin 14
  i : PostMod
deriving DecidableEq, Repr

/-- A DA operand X or Y (R161): an accumulator or a memory operand. -/
inductive DaOperand where
  | acc (a : AccNo) | mem (m : DaMem)
deriving DecidableEq, Repr

/-- The DA field Z (R161): no write, or a memory operand. -/
inductive DaDest where
  | none | mem (m : DaMem)
deriving DecidableEq, Repr

/-- The instructions of the DSP3210, one constructor per row of the opcode table, in its order.
In the DA rows `negT` is the bit F (the sign of the first term), `negP` the bit S (the sign of the
product), `aM` and `aN` the fields M and N (R160 to R162, R321). -/
inductive Instr where
  -- control (40_ca_control.md)
  | ifGoto (c : Cond) (rB : Base) (n : Half)
  | goto (rB : Base) (n : Half)
  | nop (rB : Base) (n : Half)
  | ret (rM : Reg)
  | ireturn
  | goto24 (rB : Base) (m : BitVec 24)
  | loopGoto (rM : Reg) (rB : Base) (n : Half)
  | call (rM : Reg) (rB : Base) (n : Half)
  | call24 (rM : Reg) (m : BitVec 24)
  | doImm (k : BitVec 7) (l : BitVec 11)
  | doReg (k : BitVec 7) (rM : Reg)
  | dolockImm (k : BitVec 7) (l : BitVec 11)
  | dolockReg (k : BitVec 7) (rM : Reg)
  | doblockImm (l : BitVec 11)
  | doblockReg (rM : Reg)
  | sftrst (w0 : Bool)
  | waiti
  | bkpt (w0 : Bool)
  -- arithmetic and logic (41_ca_alu.md)
  | add3 (sz : Size) (rD : Reg) (rS3 : Source) (n : Half)
  | set (rD : Reg) (n : Half)
  | addReg (sz : Size) (c : Cond) (rD rS1 rS2 : Reg)
  | incDec (sz : Size) (c : Cond) (rD rS : Reg) (dec : Bool)
  | spIncDec (c : Cond) (dec : Bool)
  | subReg (sz : Size) (c : Cond) (rD rS1 rS2 : Reg)
  | subImm (sz : Size) (rD : Reg) (n : Half)
  | rsubImm (sz : Size) (rD : Reg) (n : Half)
  | neg (sz : Size) (c : Cond) (rD rS : Reg)
  | cmpReg (sz : Size) (c : Cond) (rD rS1 rS2 : Reg)
  | cmpImm (sz : Size) (rD : Reg) (n : Half)
  | crAddReg (sz : Size) (c : Cond) (rD rS1 rS2 : Reg)
  | crAddImm (sz : Size) (rD : Reg) (n : Half)
  | andReg (sz : Size) (c : Cond) (rD rS1 rS2 : Reg)
  | andImm (sz : Size) (rD : Reg) (n : Half)
  | bitReg (sz : Size) (c : Cond) (rD rS1 rS2 : Reg)
  | bitImm (sz : Size) (rD : Reg) (n : Half)
  | andcReg (sz : Size) (c : Cond) (rD rS1 rS2 : Reg)
  | orReg (sz : Size) (c : Cond) (rD rS1 rS2 : Reg)
  | orImm (sz : Size) (rD : Reg) (n : Half)
  | xorReg (sz : Size) (c : Cond) (rD rS1 rS2 : Reg)
  | xorImm (sz : Size) (rD : Reg) (n : Half)
  | shlReg (sz : Size) (c : Cond) (rD rS1 rS2 : Reg)
  | shlImm (sz : Size) (rD : Reg) (n : Half)
  | shrReg (sz : Size) (c : Cond) (rD rS1 rS2 : Reg)
  | shrImm (sz : Size) (rD : Reg) (n : Half)
  | sarReg (sz : Size) (c : Cond) (rD rS1 rS2 : Reg)
  | sarImm (sz : Size) (rD : Reg) (n : Half)
  | shl1 (sz : Size) (c : Cond) (rD rS : Reg)
  | shr1 (sz : Size) (c : Cond) (rD rS : Reg)
  | half (sz : Size) (c : Cond) (rD rS : Reg)
  | ror1 (sz : Size) (c : Cond) (rD rS rS2 : Reg)
  | rol1 (sz : Size) (c : Cond) (rD rS rS2 : Reg)
  | shiftOr (rD rS : Reg) (n : Half)
  -- data moves (42_ca_move.md)
  | set24 (rD : Reg) (m : BitVec 24)
  | loadDirect (w : Width) (rH : LoadDest) (l : Half)
  | storeDirect (w : Width) (rH : Source) (l : Half)
  | loadMem (w : Width) (rH : LoadDest) (rP : Reg) (rI : Increment)
  | storeMem (w : Width) (rH : Source) (rP : Reg) (rI : Increment)
  | loadIo (w : Width) (rH : Reg) (io : IoReg)
  | storeIo (w : Width) (rH : Source) (io : IoReg)
  | loadIor (w : Width) (io : IoReg) (rP : Reg) (rI : Increment)
  | storeIor (w : Width) (io : IoReg) (rP : Reg) (rI : Increment)
  -- multiply/accumulate (43_da_mac.md)
  | fmultAccStore (aM : AccNo) (negT negP : Bool) (aN : AccNo) (x y : DaOperand) (z : DaDest)
  | fmultAccTap (aM : AccNo) (negT negP : Bool) (aN : AccNo) (x y : DaOperand) (z : DaDest)
  | fmultAddStore (aM : AccNo) (negT negP : Bool) (aN : AccNo) (x y : DaOperand) (z : DaDest)
  | fmultStore (negP : Bool) (aN : AccNo) (x y : DaOperand) (z : DaDest)
  | fmultTap (negP : Bool) (aN : AccNo) (x y : DaOperand) (z : DaDest)
  | faddStore (negT negP : Bool) (aN : AccNo) (x y : DaOperand) (z : DaDest)
  | faddTap (negT negP : Bool) (aN : AccNo) (x y : DaOperand) (z : DaDest)
  | floadStore (negT : Bool) (aN : AccNo) (y : DaOperand) (z : DaDest)
  | fzeroAddStore (negT negP : Bool) (aN : AccNo) (x y : DaOperand) (z : DaDest)
  | fconstTap (one negT negP : Bool) (aN : AccNo) (x y : DaOperand) (z : DaDest)
  | fconstStore (one negT negP : Bool) (aN : AccNo) (x y : DaOperand) (z : DaDest)
  -- special functions (44_da_special.md)
  | ic (aN : AccNo) (y : DaOperand) (z : DaDest)
  | oc (aN : AccNo) (y : DaOperand) (z : DaDest)
  | float16 (aN : AccNo) (y : DaOperand) (z : DaDest)
  | int16 (aN : AccNo) (y : DaOperand) (z : DaDest)
  | round (aN : AccNo) (y : DaOperand) (z : DaDest)
  | ifalt (aN : AccNo) (y : DaOperand) (z : DaDest)
  | ifaeq (aN : AccNo) (y : DaOperand) (z : DaDest)
  | ifagt (aN : AccNo) (y : DaOperand) (z : DaDest)
  | float32 (aN : AccNo) (y : DaOperand) (z : DaDest)
  | int32 (aN : AccNo) (y : DaOperand) (z : DaDest)
  | ieee (aN : AccNo) (y : DaOperand) (z : DaDest)
  | dsp (aN : AccNo) (y : DaOperand) (z : DaDest)
  | seed (aN : AccNo) (y : DaOperand) (z : DaDest)
deriving DecidableEq, Repr

/-- Why a word of a defined format is no instruction: a reserved or not-allowed field value (R175). -/
inductive FieldError where
  /-- a reserved register code, or one its position does not accept (R27, R141) -/
  | register
  /-- a reserved condition code (R150) -/
  | condition
  /-- a reserved IO register code (R143) -/
  | ioRegister
  /-- W = 101 or 110 (R151) -/
  | width
  /-- a function code F with no instruction in this format (R152, R234, R265) -/
  | function
  /-- the constant ±n in a form that rule R262 does not list -/
  | constant
  /-- an unnamed bit that must be 0 (R136, R145 to R147, R160) -/
  | unnamedBit
  /-- a DA operand code that is not allowed in its field (R161) -/
  | operand
  /-- a reserved G code (R163) -/
  | special
  /-- the do formats with B = M = 1 (R136) -/
  | doMode
  /-- a DA format and field M for which `DA_FORMAT_MAP` has no form (R162, R320) -/
  | form
deriving DecidableEq, Repr

end Sys2Proof
end

