-- ==== Sys2Proof/WellFormed.lean ====
section
/-! DEFINITION. Which terms of `Instr` stand for an instruction of their row: the restrictions on
operands that their types do not hold, and, where two rows share words, which row has the word
(the more specific one, the notes of spec/opcode_table.json). -/

namespace Sys2Proof

/-- The pointer of a DA operand field names r1 to r14. -/
def DaMem.reg (m : DaMem) : Reg := ⟨m.p.val + 1, by omega⟩

/-- The stack pointer, r21 (R23). -/
def Reg.sp : Reg := 21

/-- The link or counter register rM is one of r1 to r22 (R22, R27). -/
def Reg.isLink (r : Reg) : Bool := r.val != 0

/-- rB = rM and N = 0 with C = true is the row of return (R202). -/
def isReturnForm (rB : Base) (n : Half) : Bool :=
  match rB with
  | .reg r => r.isLink && n == 0
  | .pc => false

/-- The constant ±n of formats 6a and 6b with rS1 = r21 needs rD = r21 and the long size (R262). -/
def constantFormOk (sz : Size) (rD rS : Reg) : Bool :=
  rS != Reg.sp || (rD == Reg.sp && sz == .long)

/-- The transfer sizes that select a command when stored to spc (R296). -/
def Width.isCommand (w : Width) : Bool := w != .hbyte

/-- Well-formedness: every encoding restriction that the operand types leave open. -/
def WellFormed : Instr → Bool
  | .ifGoto c _ _ => c != .never && c != .always
  | .goto rB n => !isReturnForm rB n
  | .ret rM => rM.isLink
  | .loopGoto rM _ _ => rM.isLink
  | .call rM _ _ => rM.isLink
  | .call24 rM _ => rM.isLink
  | .doReg _ rM => rM.isLink
  | .dolockReg _ rM => rM.isLink
  | .doblockReg rM => rM.isLink
  | .add3 sz _ rS3 _ => !(sz == .short && rS3 == .reg 0)
  | .incDec _ _ rD rS _ => rD != Reg.sp && rS != Reg.sp
  | .subReg _ _ _ rS1 _ => rS1.val != 0
  | .shl1 sz _ rD rS => constantFormOk sz rD rS
  | .shr1 sz _ rD rS => constantFormOk sz rD rS
  | .half sz _ rD rS => constantFormOk sz rD rS
  | .storeIo w rH io => !(io == .spc && rH == .reg 0 && w.isCommand)
  | .fzeroAddStore _ negP _ x _ _ => !(!negP && x == .acc 0)
  | .fconstTap one negT _ _ _ _ _ => one || negT
  | .fconstStore one negT _ _ _ _ _ => one || negT
  | .nop .. | .ireturn | .goto24 .. | .doImm .. | .dolockImm .. | .doblockImm .. | .sftrst .. | .waiti
  | .bkpt .. | .set .. | .addReg .. | .spIncDec .. | .subImm .. | .rsubImm .. | .neg .. | .cmpReg ..
  | .cmpImm .. | .crAddReg .. | .crAddImm .. | .andReg .. | .andImm .. | .bitReg .. | .bitImm ..
  | .andcReg .. | .orReg .. | .orImm .. | .xorReg .. | .xorImm .. | .shlReg .. | .shlImm .. | .shrReg ..
  | .shrImm .. | .sarReg .. | .sarImm .. | .ror1 .. | .rol1 .. | .shiftOr .. | .set24 ..
  | .loadDirect .. | .storeDirect .. | .loadMem .. | .storeMem .. | .loadIo .. | .loadIor ..
  | .storeIor .. | .fmultAccStore .. | .fmultAccTap .. | .fmultAddStore .. | .fmultStore ..
  | .fmultTap .. | .faddStore .. | .faddTap .. | .floadStore .. | .ic .. | .oc .. | .float16 ..
  | .int16 .. | .round .. | .ifalt .. | .ifaeq .. | .ifagt .. | .float32 .. | .int32 .. | .ieee ..
  | .dsp .. | .seed .. => true

end Sys2Proof
end

