-- ==== Sys2Proof/Decode.lean ====
section
/-! DEFINITION. The decoder and the encoder (30_encoding.md). `decode` is total on the 2^32 words;
`encode` writes a well-formed instruction's word from the same tables. -/

namespace Sys2Proof

/-- What a word is (R132, R175). -/
inductive Decoded where
  /-- an instruction -/
  | instr (i : Instr)
  /-- a reserved or unlisted format: executing it raises Illegal Opcode -/
  | illegal
  /-- a reserved field value inside a defined format: `refuse` -/
  | reserved (why : FieldError)
deriving DecidableEq, Repr

/-- The bit field `w[lo+len-1 : lo]` (R10). -/
def field (w : Word) (lo len : Nat) : BitVec len := w.extractLsb' lo len

/-! ### Field codes -/

/-- The 5-bit code of a CAU register (R141). -/
def Reg.code (r : Reg) : BitVec 5 :=
  BitVec.ofNat 5 (if r.val < 15 then r.val else if r.val < 20 then r.val + 2 else r.val + 4)

/-- The CAU register of a 5-bit code, none for the special and the reserved codes (R141). -/
def Reg.ofCode (c : BitVec 5) : Option Reg :=
  let n := c.toNat
  if h : n < 15 then some ⟨n, by omega⟩
  else if h : 17 ≤ n ∧ n < 22 then some ⟨n - 2, by omega⟩
  else if h : 24 ≤ n ∧ n < 27 then some ⟨n - 4, by omega⟩
  else none

/-- The codes of pc, pcsh, -n and +n (R141). -/
def codePc : BitVec 5 := 0b01111#5
@[inherit_doc codePc] def codePcsh : BitVec 5 := 0b11110#5
@[inherit_doc codePc] def codeMinusN : BitVec 5 := 0b10110#5
@[inherit_doc codePc] def codePlusN : BitVec 5 := 0b10111#5

/-- rB: r0 to r22 or pc (R27). -/
def Base.code : Base → BitVec 5
  | .reg r => r.code
  | .pc => codePc
@[inherit_doc Base.code] def Base.ofCode (c : BitVec 5) : Option Base :=
  if c = codePc then some .pc else (Reg.ofCode c).map .reg

/-- rS3 and the rS of a store: r0 to r22, pc or pcsh (R27). -/
def Source.code : Source → BitVec 5
  | .reg r => r.code
  | .pc => codePc
  | .pcsh => codePcsh
@[inherit_doc Source.code] def Source.ofCode (c : BitVec 5) : Option Source :=
  if c = codePc then some .pc else if c = codePcsh then some .pcsh else (Reg.ofCode c).map .reg

/-- A load's destination: r0 to r22 or pcsh (R289). -/
def LoadDest.code : LoadDest → BitVec 5
  | .reg r => r.code
  | .pcsh => codePcsh
@[inherit_doc LoadDest.code] def LoadDest.ofCode (c : BitVec 5) : Option LoadDest :=
  if c = codePcsh then some .pcsh else (Reg.ofCode c).map .reg

/-- rI of a move: r0 to r22, -n or +n (R146). -/
def Increment.code : Increment → BitVec 5
  | .reg r => r.code
  | .minusN => codeMinusN
  | .plusN => codePlusN
@[inherit_doc Increment.code] def Increment.ofCode (c : BitVec 5) : Option Increment :=
  if c = codeMinusN then some .minusN else if c = codePlusN then some .plusN
  else (Reg.ofCode c).map .reg

/-- The constant in the rS2 field: +n, or -n where `dec` holds (R262). -/
def constCode (dec : Bool) : BitVec 5 := if dec then codeMinusN else codePlusN

/-- The C field (R150). -/
def Cond.code : Cond → BitVec 6
  | .never => 0b000000#6 | .always => 0b000001#6
  | .pl => 0b000010#6 | .mi => 0b000011#6 | .ne => 0b000100#6 | .eq => 0b000101#6
  | .vc => 0b000110#6 | .vs => 0b000111#6 | .cc => 0b001000#6 | .cs => 0b001001#6
  | .ge => 0b001010#6 | .lt => 0b001011#6 | .gt => 0b001100#6 | .le => 0b001101#6
  | .hi => 0b001110#6 | .ls => 0b001111#6
  | .auc => 0b010000#6 | .aus => 0b010001#6 | .age => 0b010010#6 | .alt => 0b010011#6
  | .ane => 0b010100#6 | .aeq => 0b010101#6 | .avc => 0b010110#6 | .avs => 0b010111#6
  | .agt => 0b011000#6 | .ale => 0b011001#6
  | .ibe => 0b100000#6 | .ibf => 0b100001#6 | .obf => 0b100010#6 | .obe => 0b100011#6
  | .syc => 0b101000#6 | .sys => 0b101001#6 | .fbc => 0b101010#6 | .fbs => 0b101011#6
  | .ir0c => 0b101100#6 | .ir0s => 0b101101#6 | .ir1c => 0b101110#6 | .ir1s => 0b101111#6
@[inherit_doc Cond.code] def Cond.ofCode (c : BitVec 6) : Option Cond :=
  match c.toNat with
  | 0b000000 => some .never | 0b000001 => some .always
  | 0b000010 => some .pl | 0b000011 => some .mi | 0b000100 => some .ne | 0b000101 => some .eq
  | 0b000110 => some .vc | 0b000111 => some .vs | 0b001000 => some .cc | 0b001001 => some .cs
  | 0b001010 => some .ge | 0b001011 => some .lt | 0b001100 => some .gt | 0b001101 => some .le
  | 0b001110 => some .hi | 0b001111 => some .ls
  | 0b010000 => some .auc | 0b010001 => some .aus | 0b010010 => some .age | 0b010011 => some .alt
  | 0b010100 => some .ane | 0b010101 => some .aeq | 0b010110 => some .avc | 0b010111 => some .avs
  | 0b011000 => some .agt | 0b011001 => some .ale
  | 0b100000 => some .ibe | 0b100001 => some .ibf | 0b100010 => some .obf | 0b100011 => some .obe
  | 0b101000 => some .syc | 0b101001 => some .sys | 0b101010 => some .fbc | 0b101011 => some .fbs
  | 0b101100 => some .ir0c | 0b101101 => some .ir0s | 0b101110 => some .ir1c
  | 0b101111 => some .ir1s
  | _ => none

/-- The W field (R151). -/
def Width.code : Width → BitVec 3
  | .byte => 0b000#3 | .char => 0b001#3 | .ushort => 0b010#3 | .short => 0b011#3
  | .hbyte => 0b100#3 | .long => 0b111#3
@[inherit_doc Width.code] def Width.ofCode (c : BitVec 3) : Option Width :=
  match c.toNat with
  | 0 => some .byte | 1 => some .char | 2 => some .ushort | 3 => some .short
  | 4 => some .hbyte | 7 => some .long | _ => none

/-- The R field (R143). -/
def IoReg.code : IoReg → BitVec 5
  | .ps => 0b00000#5 | .emr => 0b01000#5 | .spc => 0b01010#5 | .pcw => 0b01100#5
  | .dauc => 0b01110#5 | .ctr => 0b01111#5
@[inherit_doc IoReg.code] def IoReg.ofCode (c : BitVec 5) : Option IoReg :=
  match c.toNat with
  | 0 => some .ps | 8 => some .emr | 10 => some .spc | 12 => some .pcw | 14 => some .dauc
  | 15 => some .ctr | _ => none

/-- The field I of a DA memory operand (R161). -/
def PostMod.code : PostMod → BitVec 3
  | .keep => 0#3
  | .inc k => BitVec.ofNat 3 (k.val + 1)
  | .minus => 6#3
  | .plus => 7#3
@[inherit_doc PostMod.code] def PostMod.ofCode (c : BitVec 3) : PostMod :=
  let n := c.toNat
  if h : 1 ≤ n ∧ n < 6 then .inc ⟨n - 1, by omega⟩
  else if n = 6 then .minus else if n = 7 then .plus else .keep

/-- The 7-bit code p:I of a DA memory operand, p naming r1 to r14 (R161). -/
def DaMem.code (m : DaMem) : BitVec 7 := BitVec.ofNat 7 ((m.p.val + 1) * 8 + m.i.code.toNat)
@[inherit_doc DaMem.code] def DaMem.ofCode (c : BitVec 7) : Option DaMem :=
  let p := c.toNat / 8
  if h : 1 ≤ p ∧ p < 15 then some ⟨⟨p - 1, by omega⟩, PostMod.ofCode (BitVec.ofNat 3 (c.toNat % 8))⟩
  else none

/-- The X and Y fields: 0000 and a0 to a3, or a memory operand (R161). -/
def DaOperand.code : DaOperand → BitVec 7
  | .acc a => BitVec.ofNat 7 a.val
  | .mem m => m.code
@[inherit_doc DaOperand.code] def DaOperand.ofCode (c : BitVec 7) : Option DaOperand :=
  if h : c.toNat < 4 then some (.acc ⟨c.toNat, h⟩) else (DaMem.ofCode c).map .mem

/-- The Z field: 0000 and 111 for no write, or a memory operand (R161). -/
def DaDest.code : DaDest → BitVec 7
  | .none => 0b0000111#7
  | .mem m => m.code
@[inherit_doc DaDest.code] def DaDest.ofCode (c : BitVec 7) : Option DaDest :=
  if c = 0b0000111#7 then some .none else (DaMem.ofCode c).map .mem

/-- The size bit I[31] of formats 5 and 6 (R230). -/
def Size.code : Size → BitVec 1
  | .short => 0#1
  | .long => 1#1

/-- An accumulator field N, or M with M[2] = 0 (R162). -/
def AccNo.ofCode (c : BitVec 2) : AccNo := c.toFin

/-! ### The decoder -/

/-- The formats of Table 10-1, the a/b pairs of formats 5 and 6 told apart by the size (R132). -/
inductive Format where
  | f0b | f3a | f3b | f3c | f4a | f4b
  | f5 (sz : Size) | f6reg (sz : Size) | f6imm (sz : Size)
  | f7a | f7bc | f7d | f8a | f8b | f8c
  | da1 | da2 | da3 | da4 | da5
deriving DecidableEq, Repr

/-- The top-level decode (R132); none for a reserved or unlisted format. -/
def formatOf (w : Word) : Option Format :=
  let sub := (field w 25 4).toNat
  let m := (field w 26 3).toNat
  match (field w 29 3).toNat with
  | 0 =>
    if sub < 6 then none
    else if sub < 8 then some .f3a
    else if sub < 10 then some .f4a
    else if sub < 12 then some (.f5 .short)
    else if sub = 12 then some (.f6reg .short)
    else if sub = 13 then some (.f6imm .short)
    else if sub = 14 then some .f7a
    else none
  | 1 => if m < 6 then some .da1 else if m = 6 then some .da4 else none
  | 2 => if m < 6 then some .da2 else none
  | 3 => if m < 6 then some .da3 else some .da5
  | 4 =>
    if sub < 4 then some .f0b
    else if sub < 6 then none
    else if sub = 6 then some .f3b
    else if sub = 7 then some .f3c
    else if sub < 10 then some .f4b
    else if sub < 12 then some (.f5 .long)
    else if sub = 12 then some (.f6reg .long)
    else if sub = 13 then some (.f6imm .long)
    else if sub = 14 then some .f7bc
    else some .f7d
  | 5 => some .f8a
  | 6 => some .f8b
  | _ => some .f8c

/-- Continue with a field's value, or reject the word by the field's name. -/
def need {α : Type} (v : Option α) (why : FieldError) (k : α → Decoded) : Decoded :=
  match v with
  | some a => k a
  | none => .reserved why

/-- The instruction if it is well-formed, else the rejection. -/
def accept (i : Instr) (why : FieldError) : Decoded :=
  if WellFormed i then .instr i else .reserved why

/-- The 24-bit immediate M = Ne:N (R148). -/
def imm24 (w : Word) : BitVec 24 := field w 21 8 ++ field w 0 16

/-- Formats 0b and 1b (R133, R194 to R199, R202). -/
def decode0b (w : Word) : Decoded :=
  let n := field w 0 16
  need (Cond.ofCode (field w 21 6)) .condition fun c =>
  if field w 16 5 = codePcsh then
    (if c = .always ∧ n = 0 then .instr .ireturn else .reserved .register)
  else
    need (Base.ofCode (field w 16 5)) .register fun rB =>
    match c with
    | .never => .instr (.nop rB n)
    | .always =>
      match rB with
      | .reg r => if isReturnForm (.reg r) n then .instr (.ret r) else .instr (.goto (.reg r) n)
      | .pc => .instr (.goto .pc n)
    | c => .instr (.ifGoto c rB n)

/-- The do formats 3b and 3c by their bits B and M (R136): the instruction from `plain`, `lock` and
`block`, each given K.  DESIGN CHOICE, notes/assumptions/26.md: a doblock word, whose K = 0 is implicit
(R210), with a nonzero K field is refused as a nonzero must-be-zero bit; the spec does not say. -/
def decodeDo (w : Word) (plain lock : BitVec 7 → Instr) (block : Instr) : Decoded :=
  let k := field w 16 7
  match (field w 23 2).toNat with
  | 0 => accept (plain k) .register
  | 1 => accept (lock k) .register
  | 2 => if k = 0 then accept block .register else .reserved .unnamedBit
  | _ => .reserved .doMode

/-- Formats 6a and 6b with a register as rS2, by F (R265). -/
def aluReg (f : BitVec 4) (sz : Size) (c : Cond) (rD rS1 rS2 : Reg) : Decoded :=
  match f.toNat with
  | 0b0000 => .instr (.addReg sz c rD rS1 rS2)
  | 0b0001 => .instr (.shlReg sz c rD rS1 rS2)
  | 0b0011 => .instr (.crAddReg sz c rD rS1 rS2)
  | 0b0100 => if rS1 = 0 then .instr (.neg sz c rD rS2) else .instr (.subReg sz c rD rS1 rS2)
  | 0b0110 => .instr (.andcReg sz c rD rS1 rS2)
  | 0b0111 => .instr (.cmpReg sz c rD rS1 rS2)
  | 0b1000 => .instr (.xorReg sz c rD rS1 rS2)
  | 0b1001 => .instr (.ror1 sz c rD rS1 rS2)
  | 0b1010 => .instr (.orReg sz c rD rS1 rS2)
  | 0b1011 => .instr (.rol1 sz c rD rS1 rS2)
  | 0b1100 => .instr (.shrReg sz c rD rS1 rS2)
  | 0b1101 => .instr (.sarReg sz c rD rS1 rS2)
  | 0b1110 => .instr (.andReg sz c rD rS1 rS2)
  | 0b1111 => .instr (.bitReg sz c rD rS1 rS2)
  | _ => .reserved .function

/-- Formats 6a and 6b with the constant ±n as rS2 (R262). -/
def aluConst (f : BitVec 4) (sz : Size) (c : Cond) (rD rS1 : Reg) (dec : Bool) : Decoded :=
  match f.toNat with
  | 0b0000 =>
    if rS1 = Reg.sp then
      (if rD = Reg.sp ∧ sz = .long then .instr (.spIncDec c dec) else .reserved .constant)
    else accept (.incDec sz c rD rS1 dec) .constant
  | 0b0001 => if dec then .reserved .constant else accept (.shl1 sz c rD rS1) .constant
  | 0b1100 => if dec then .reserved .constant else accept (.shr1 sz c rD rS1) .constant
  | 0b1101 => if dec then .reserved .constant else accept (.half sz c rD rS1) .constant
  | 0b0010 | 0b0101 => .reserved .function
  | _ => .reserved .constant

/-- Formats 6a and 6b (R139). -/
def decode6reg (sz : Size) (w : Word) : Decoded :=
  let f := field w 21 4
  need (Reg.ofCode (field w 16 5)) .register fun rD =>
  need (Reg.ofCode (field w 11 5)) .register fun rS1 =>
  need (Cond.ofCode (field w 5 6)) .condition fun c =>
  if field w 0 5 = codePlusN then aluConst f sz c rD rS1 false
  else if field w 0 5 = codeMinusN then aluConst f sz c rD rS1 true
  else need (Reg.ofCode (field w 0 5)) .register fun rS2 => aluReg f sz c rD rS1 rS2

/-- Formats 6c and 6d, by F (R265). -/
def aluImm (f : BitVec 4) (sz : Size) (rD : Reg) (n : Half) : Decoded :=
  match f.toNat with
  | 0b0001 => .instr (.shlImm sz rD n)
  | 0b0010 => .instr (.rsubImm sz rD n)
  | 0b0011 => .instr (.crAddImm sz rD n)
  | 0b0100 => .instr (.subImm sz rD n)
  | 0b0111 => .instr (.cmpImm sz rD n)
  | 0b1000 => .instr (.xorImm sz rD n)
  | 0b1010 => .instr (.orImm sz rD n)
  | 0b1100 => .instr (.shrImm sz rD n)
  | 0b1101 => .instr (.sarImm sz rD n)
  | 0b1110 => .instr (.andImm sz rD n)
  | 0b1111 => .instr (.bitImm sz rD n)
  | _ => .reserved .function

/-- Formats 6c and 6d (R140). -/
def decode6imm (sz : Size) (w : Word) : Decoded :=
  need (Reg.ofCode (field w 16 5)) .register fun rD => aluImm (field w 21 4) sz rD (field w 0 16)

/-- Formats 5a and 5b; 5a with rS3 = r0 is SET (R138). -/
def decode5 (sz : Size) (w : Word) : Decoded :=
  let n := field w 0 16
  need (Reg.ofCode (field w 21 5)) .register fun rD =>
  need (Source.ofCode (field w 16 5)) .register fun rS3 =>
  if sz = .short ∧ rS3 = .reg 0 then .instr (.set rD n) else .instr (.add3 sz rD rS3 n)

/-- Format 7b, T = 1: a store to an IO register; with spc and r0 it is a command (R176, R177). -/
def decodeStoreIo (wd : Width) (rH : Source) (io : IoReg) : Decoded :=
  if io = .spc ∧ rH = .reg 0 then
    match wd with
    | .byte => .instr (.sftrst false)
    | .char => .instr (.sftrst true)
    | .ushort => .instr (.bkpt false)
    | .short => .instr (.bkpt true)
    | .long => .instr .waiti
    | .hbyte => .instr (.storeIo .hbyte rH io)
  else .instr (.storeIo wd rH io)

/-- Formats 7b and 7c, told apart by I[10] (R145, R146). -/
def decode7bc (w : Word) : Decoded :=
  need (Width.ofCode (field w 21 3)) .width fun wd =>
  if field w 10 1 = 1 then
    if field w 11 5 = 0 ∧ field w 5 5 = 0 then
      need (IoReg.ofCode (field w 0 5)) .ioRegister fun io =>
      if field w 24 1 = 0 then
        need (Reg.ofCode (field w 16 5)) .register fun rH => .instr (.loadIo wd rH io)
      else need (Source.ofCode (field w 16 5)) .register fun rH => decodeStoreIo wd rH io
    else .reserved .unnamedBit
  else if field w 5 5 = 0 then
    need (Reg.ofCode (field w 11 5)) .register fun rP =>
    need (Increment.ofCode (field w 0 5)) .register fun rI =>
    if field w 24 1 = 0 then
      need (LoadDest.ofCode (field w 16 5)) .register fun rH => .instr (.loadMem wd rH rP rI)
    else need (Source.ofCode (field w 16 5)) .register fun rH => .instr (.storeMem wd rH rP rI)
  else .reserved .unnamedBit

/-- Format 7d (R147). -/
def decode7d (w : Word) : Decoded :=
  need (Width.ofCode (field w 21 3)) .width fun wd =>
  if field w 5 6 = 0 then
    need (IoReg.ofCode (field w 16 5)) .ioRegister fun io =>
    need (Reg.ofCode (field w 11 5)) .register fun rP =>
    need (Increment.ofCode (field w 0 5)) .register fun rI =>
    if field w 24 1 = 0 then .instr (.loadIor wd io rP rI) else .instr (.storeIor wd io rP rI)
  else .reserved .unnamedBit

/-- The fields DA formats 1 to 4 share: F, S, N, X, Y, Z, and the unused bit (R160). -/
def decodeDa (w : Word)
    (k : (negT negP : Bool) → AccNo → DaOperand → DaOperand → DaDest → Decoded) : Decoded :=
  if field w 23 1 = 0 then
    need (DaOperand.ofCode (field w 14 7)) .operand fun x =>
    need (DaOperand.ofCode (field w 7 7)) .operand fun y =>
    need (DaDest.ofCode (field w 0 7)) .operand fun z =>
    k (field w 25 1 == 1) (field w 24 1 == 1) (AccNo.ofCode (field w 21 2)) x y z
  else .reserved .unnamedBit

/-- Format 1 by its field M (R320, R339). -/
def mac1 (m : BitVec 3) (f s : Bool) (aN : AccNo) (x y : DaOperand) (z : DaDest) : Decoded :=
  match m.toNat with
  | 4 => if !s && x == .acc 0 then .instr (.floadStore f aN y z)
         else .instr (.fzeroAddStore f s aN x y z)
  | 5 => .instr (.faddStore f s aN x y z)
  | _ => .instr (.fmultAddStore (AccNo.ofCode (m.setWidth 2)) f s aN x y z)

/-- Format 2 by its field M (R320, R339). -/
def mac2 (m : BitVec 3) (f s : Bool) (aN : AccNo) (x y : DaOperand) (z : DaDest) : Decoded :=
  match m.toNat with
  | 4 => if f then .instr (.fconstTap false f s aN x y z) else .instr (.fmultTap s aN x y z)
  | 5 => .instr (.fconstTap true f s aN x y z)
  | _ => .instr (.fmultAccTap (AccNo.ofCode (m.setWidth 2)) f s aN x y z)

/-- Format 3 by its field M (R320, R339). -/
def mac3 (m : BitVec 3) (f s : Bool) (aN : AccNo) (x y : DaOperand) (z : DaDest) : Decoded :=
  match m.toNat with
  | 4 => if f then .instr (.fconstStore false f s aN x y z) else .instr (.fmultStore s aN x y z)
  | 5 => .instr (.fconstStore true f s aN x y z)
  | _ => .instr (.fmultAccStore (AccNo.ofCode (m.setWidth 2)) f s aN x y z)

/-- Formats 1, 2 and 3. -/
def decodeDa1 (w : Word) : Decoded := decodeDa w (mac1 (field w 26 3))
@[inherit_doc decodeDa1] def decodeDa2 (w : Word) : Decoded := decodeDa w (mac2 (field w 26 3))
@[inherit_doc decodeDa1] def decodeDa3 (w : Word) : Decoded := decodeDa w (mac3 (field w 26 3))

/-- Format 4 (R320). -/
def decodeDa4 (w : Word) : Decoded :=
  decodeDa w fun f s aN x y z => .instr (.faddTap f s aN x y z)

/-- Format 5 by G (R163). -/
def specialOf (g : BitVec 4) (aN : AccNo) (y : DaOperand) (z : DaDest) : Decoded :=
  match g.toNat with
  | 0b0000 => .instr (.ic aN y z)
  | 0b0001 => .instr (.oc aN y z)
  | 0b0010 => .instr (.float16 aN y z)
  | 0b0011 => .instr (.int16 aN y z)
  | 0b0100 => .instr (.round aN y z)
  | 0b0101 => .instr (.ifalt aN y z)
  | 0b0110 => .instr (.ifaeq aN y z)
  | 0b0111 => .instr (.ifagt aN y z)
  | 0b1000 => .instr (.float32 aN y z)
  | 0b1001 => .instr (.int32 aN y z)
  | 0b1100 => .instr (.ieee aN y z)
  | 0b1101 => .instr (.dsp aN y z)
  | 0b1110 => .instr (.seed aN y z)
  | _ => .reserved .special

/-- Format 5 (R160). -/
def decodeDa5 (w : Word) : Decoded :=
  if field w 14 7 = 0 then
    need (DaOperand.ofCode (field w 7 7)) .operand fun y =>
    need (DaDest.ofCode (field w 0 7)) .operand fun z =>
    specialOf (field w 23 4) (AccNo.ofCode (field w 21 2)) y z
  else .reserved .unnamedBit

/-- A word of a known format. -/
def decodeFormat (fmt : Format) (w : Word) : Decoded :=
  let n := field w 0 16
  match fmt with
  | .f0b => decode0b w
  | .f3a =>
    need (Reg.ofCode (field w 21 5)) .register fun rM =>
    need (Base.ofCode (field w 16 5)) .register fun rB => accept (.loopGoto rM rB n) .register
  | .f3b =>
    if field w 11 5 = 0 then
      let l := field w 0 11
      decodeDo w (.doImm · l) (.dolockImm · l) (.doblockImm l)
    else .reserved .unnamedBit
  | .f3c =>
    if field w 5 11 = 0 then
      need (Reg.ofCode (field w 0 5)) .register fun rM =>
      decodeDo w (.doReg · rM) (.dolockReg · rM) (.doblockReg rM)
    else .reserved .unnamedBit
  | .f4a =>
    need (Reg.ofCode (field w 21 5)) .register fun rM =>
    need (Base.ofCode (field w 16 5)) .register fun rB => accept (.call rM rB n) .register
  | .f4b =>
    need (Reg.ofCode (field w 21 5)) .register fun rD =>
    need (Reg.ofCode (field w 16 5)) .register fun rS => .instr (.shiftOr rD rS n)
  | .f5 sz => decode5 sz w
  | .f6reg sz => decode6reg sz w
  | .f6imm sz => decode6imm sz w
  | .f7a =>
    need (Width.ofCode (field w 21 3)) .width fun wd =>
    if field w 24 1 = 0 then
      need (LoadDest.ofCode (field w 16 5)) .register fun rH => .instr (.loadDirect wd rH n)
    else need (Source.ofCode (field w 16 5)) .register fun rH => .instr (.storeDirect wd rH n)
  | .f7bc => decode7bc w
  | .f7d => decode7d w
  | .f8a => need (Base.ofCode (field w 16 5)) .register fun rB => .instr (.goto24 rB (imm24 w))
  | .f8b => need (Reg.ofCode (field w 16 5)) .register fun rD => .instr (.set24 rD (imm24 w))
  | .f8c =>
    need (Reg.ofCode (field w 16 5)) .register fun rM => accept (.call24 rM (imm24 w)) .register
  | .da1 => decodeDa1 w
  | .da2 => decodeDa2 w
  | .da3 => decodeDa3 w
  | .da4 => decodeDa4 w
  | .da5 => decodeDa5 w

/-- What a 32-bit word is (R132, R175), in the default encoding. -/
def decode (w : Word) : Decoded :=
  match formatOf w with
  | some fmt => decodeFormat fmt w
  | none => .illegal

/-! ### Other encodings (R9): a word under any `Encoding`, as the word that means the same by default -/

/-- The bits of a word that the fields, each its lowest bit and its length, cover. -/
def maskOf (fs : List (Nat × Nat)) : Word :=
  fs.foldl (fun m f => m ||| BitVec.ofNat 32 ((2 ^ f.2 - 1) * 2 ^ f.1)) 0#32

/-- An operand field with p and I in their default order (R161). -/
def Encoding.operandField (e : Encoding) (f : BitVec 7) : BitVec 7 :=
  if e.daPLow then f.extractLsb' 0 4 ++ f.extractLsb' 4 3 else f

/-- The fields of a word whose places the encoding gives, and the fixed bits; the others must be 0: of the
do formats I[22:0], of DA formats 1 to 3 I[28:0], of format 4 I[25:0], of format 5 I[26:0] (R136,
R160). -/
def Encoding.covered (e : Encoding) (fmt : Format) : Word :=
  let operands := [(e.daN, 2), (e.daY, 7), (e.daZ, 7)]
  let macFields := (e.daF, 1) :: (e.daS, 1) :: (e.daX, 7) :: operands
  match fmt with
  | .f3b => maskOf [(e.doK, 7), (e.doL, 11), (23, 9)]
  | .f3c => maskOf [(e.doK, 7), (e.doR, 5), (23, 9)]
  | .da1 | .da2 | .da3 => maskOf ((e.daM, 3) :: (29, 3) :: macFields)
  | .da4 => maskOf ((26, 6) :: macFields)
  | .da5 => maskOf ((e.daG, 4) :: (27, 5) :: operands)
  | .f0b | .f3a | .f4a | .f4b | .f5 _ | .f6reg _ | .f6imm _ | .f7a | .f7bc | .f7d | .f8a | .f8b
  | .f8c => maskOf [(0, 32)]

/-- Formats 3b and 3c with B, M, K and the count `n` of `len` bits in their default places (R136). -/
def Encoding.canonicalDo (e : Encoding) (w : Word) (lo len : Nat) : Word :=
  ((field w 25 7 ++ e.doModes[(field w 23 2).toFin] ++ field w e.doK 7).setWidth 32 <<< 16)
    ||| (field w lo len).setWidth 32

/-- Formats 6a to 6d with the default code of the ALU function (R152). -/
def Encoding.canonicalAlu (e : Encoding) (w : Word) : Word :=
  if field w 24 1 = 1 then
    field w 25 7 ++ 1#1 ++ BitVec.ofFin (w := 3) e.fHigh[(field w 21 3).toFin] ++ field w 0 21
  else w

/-- I[31:26] of the form number `k` with the multiplier or accumulator input `m`, as the default has them:
forms 1 to 3 take every input that R162 allows, form 4 the constant 1.0 only (R320; DESIGN CHOICE,
notes/assumptions/34.md). -/
def formBits (k : Fin 4) (m : BitVec 3) : Option (BitVec 6) :=
  if k = 3 then (if m = 0b101#3 then some 0b001110#6 else none)
  else if m.toNat < 6 then some (BitVec.ofNat 3 (k.val + 1) ++ m) else none

/-- The form of a word of DA formats 1 to 4, by its default bits I[31:26], if there is one (R320).  Format
4 has no field M: form 4 implies 1.0 there, and for another form the encoding says what stands for M (DESIGN CHOICE,
notes/assumptions/34.md). -/
def Encoding.form (e : Encoding) (fmt : Format) (w : Word) : Option (BitVec 6) :=
  let m := field w e.daM 3
  match fmt with
  | .da1 => formBits e.daForms[0] m
  | .da2 => formBits e.daForms[1] m
  | .da3 => formBits e.daForms[2] m
  | _ => formBits e.daForms[3] (if e.daForms[3] = 3 then 0b101#3 else e.daImplied)

/-- DA formats 1 to 4 of the form `op` with every field in its default place (R160, R320, R321). -/
def Encoding.canonicalMac (e : Encoding) (op : BitVec 6) (w : Word) : Word :=
  let f := field w e.daF 1
  let s := field w e.daS 1
  op ++ (if e.daSignSwap then s ++ f else f ++ s)
    ++ 0#1 ++ field w e.daN 2 ++ e.operandField (field w e.daX 7) ++ e.operandField (field w e.daY 7)
    ++ e.operandField (field w e.daZ 7)

/-- DA format 5 with every field in its default place (R160). -/
def Encoding.canonicalSpecial (e : Encoding) (w : Word) : Word :=
  field w 27 5 ++ field w e.daG 4 ++ field w e.daN 2 ++ 0#7 ++ e.operandField (field w e.daY 7)
    ++ e.operandField (field w e.daZ 7)

/-- The word that means by default what `w` means under the encoding; none where the map of the DA formats
gives it no form. -/
def Encoding.canonical (e : Encoding) (fmt : Format) (w : Word) : Option Word :=
  match fmt with
  | .f3b => some (e.canonicalDo w e.doL 11)
  | .f3c => some (e.canonicalDo w e.doR 5)
  | .f6reg _ | .f6imm _ => some (e.canonicalAlu w)
  | .da1 | .da2 | .da3 | .da4 => (e.form fmt w).map (e.canonicalMac · w)
  | .da5 => some (e.canonicalSpecial w)
  | .f0b | .f3a | .f4a | .f4b | .f5 _ | .f7a | .f7bc | .f7d | .f8a | .f8b | .f8c => some w

/-- What a word is under an encoding: a bit in no field must be 0 (R136, R160, R175). -/
def decodeWith (e : Encoding) (w : Word) : Decoded :=
  match formatOf w with
  | none => .illegal
  | some fmt =>
    if w &&& ~~~e.covered fmt = 0#32 then need (e.canonical fmt w) .form decode
    else .reserved .unnamedBit

/-- The host's reading of the table: the instruction of a word whose low `nbits` bits are given. -/
def decodeTableWord (nbits w : Nat) : Option Instr :=
  match decode (BitVec.ofNat 32 (w % 2 ^ nbits)) with
  | .instr i => some i
  | _ => none

/-! ### The encoder -/

/-- A field of a format: its width and its bits. -/
abbrev Field := (w : Nat) × BitVec w

/-- The value of a row of fields, the most significant first. -/
def packNat (fs : List Field) : Nat := fs.foldl (fun acc f => acc * 2 ^ f.1 + f.2.toNat) 0

/-- The field of one bit. -/
def bit (b : Bool) : Field := ⟨1, if b then 1#1 else 0#1⟩

/-- Formats 0b and 1b (R133). -/
def fields0b (c : Cond) (rB : BitVec 5) (n : Half) : List Field :=
  [⟨5, 0b10000#5⟩, ⟨6, c.code⟩, ⟨5, rB⟩, ⟨16, n⟩]

/-- Formats 3a, 4a, 4b, 5a and 5b: a 6-bit opcode, two register fields and N (R134, R135, R137,
R138). -/
def fieldsReg2Imm (op : BitVec 6) (ra rb : BitVec 5) (n : Half) : List Field :=
  [⟨6, op⟩, ⟨5, ra⟩, ⟨5, rb⟩, ⟨16, n⟩]

/-- Format 3b (R136). -/
def fields3b (b m : Bool) (k : BitVec 7) (l : BitVec 11) : List Field :=
  [⟨7, 0b1000110#7⟩, bit b, bit m, ⟨7, k⟩, ⟨5, 0#5⟩, ⟨11, l⟩]

/-- Format 3c (R136). -/
def fields3c (b m : Bool) (k : BitVec 7) (rM : Reg) : List Field :=
  [⟨7, 0b1000111#7⟩, bit b, bit m, ⟨7, k⟩, ⟨11, 0#11⟩, ⟨5, rM.code⟩]

/-- Formats 6a and 6b (R139). -/
def fields6reg (sz : Size) (f : BitVec 4) (rD rS1 : Reg) (c : Cond) (rS2 : BitVec 5) : List Field :=
  [⟨1, sz.code⟩, ⟨6, 0b001100#6⟩, ⟨4, f⟩, ⟨5, rD.code⟩, ⟨5, rS1.code⟩, ⟨6, c.code⟩, ⟨5, rS2⟩]

/-- Formats 6c and 6d (R140). -/
def fields6imm (sz : Size) (f : BitVec 4) (rD : Reg) (n : Half) : List Field :=
  [⟨1, sz.code⟩, ⟨6, 0b001101#6⟩, ⟨4, f⟩, ⟨5, rD.code⟩, ⟨16, n⟩]

/-- Format 7a (R144). -/
def fields7a (t : Bool) (w : Width) (rH : BitVec 5) (l : Half) : List Field :=
  [⟨7, 0b0001110#7⟩, bit t, ⟨3, w.code⟩, ⟨5, rH⟩, ⟨16, l⟩]

/-- Format 7b (R145). -/
def fields7b (t : Bool) (w : Width) (rH : BitVec 5) (io : IoReg) : List Field :=
  [⟨7, 0b1001110#7⟩, bit t, ⟨3, w.code⟩, ⟨5, rH⟩, ⟨5, 0#5⟩, ⟨1, 1#1⟩, ⟨5, 0#5⟩, ⟨5, io.code⟩]

/-- Format 7c (R146). -/
def fields7c (t : Bool) (w : Width) (rH : BitVec 5) (rP : Reg) (rI : Increment) : List Field :=
  [⟨7, 0b1001110#7⟩, bit t, ⟨3, w.code⟩, ⟨5, rH⟩, ⟨5, rP.code⟩, ⟨6, 0#6⟩, ⟨5, rI.code⟩]

/-- Format 7d (R147). -/
def fields7d (t : Bool) (w : Width) (io : IoReg) (rP : Reg) (rI : Increment) : List Field :=
  [⟨7, 0b1001111#7⟩, bit t, ⟨3, w.code⟩, ⟨5, io.code⟩, ⟨5, rP.code⟩, ⟨6, 0#6⟩, ⟨5, rI.code⟩]

/-- Formats 8a, 8b and 8c (R148). -/
def fields8 (op : BitVec 3) (r : BitVec 5) (m : BitVec 24) : List Field :=
  [⟨3, op⟩, ⟨8, m.extractLsb' 16 8⟩, ⟨5, r⟩, ⟨16, m.extractLsb' 0 16⟩]

/-- DA formats 1 to 4 (R160). -/
def fieldsDa (fmt m : BitVec 3) (negT negP : Bool) (aN : AccNo) (x y : DaOperand) (z : DaDest) :
    List Field :=
  [⟨3, fmt⟩, ⟨3, m⟩, bit negT, bit negP, ⟨1, 0#1⟩, ⟨2, BitVec.ofFin aN⟩, ⟨7, x.code⟩, ⟨7, y.code⟩,
    ⟨7, z.code⟩]

/-- DA format 5 (R160, R163). -/
def fieldsDa5 (g : BitVec 4) (aN : AccNo) (y : DaOperand) (z : DaDest) : List Field :=
  [⟨5, 0b01111#5⟩, ⟨4, g⟩, ⟨2, BitVec.ofFin aN⟩, ⟨7, 0#7⟩, ⟨7, y.code⟩, ⟨7, z.code⟩]

/-- The field M naming an accumulator (R162). -/
def accField (a : AccNo) : BitVec 3 := BitVec.ofNat 3 a.val

/-- The field M naming the constant 0.0 or 1.0 (R162). -/
def constField (one : Bool) : BitVec 3 := if one then 0b101#3 else 0b100#3

/-- The fields of an instruction's word, by its format. -/
def encodeFields : Instr → List Field
  | .ifGoto c rB n => fields0b c rB.code n
  | .goto rB n => fields0b .always rB.code n
  | .nop rB n => fields0b .never rB.code n
  | .ret rM => fields0b .always rM.code 0
  | .ireturn => fields0b .always codePcsh 0
  | .goto24 rB m => fields8 0b101#3 rB.code m
  | .loopGoto rM rB n => fieldsReg2Imm 0b000011#6 rM.code rB.code n
  | .call rM rB n => fieldsReg2Imm 0b000100#6 rM.code rB.code n
  | .call24 rM m => fields8 0b111#3 rM.code m
  | .doImm k l => fields3b false false k l
  | .doReg k rM => fields3c false false k rM
  | .dolockImm k l => fields3b false true k l
  | .dolockReg k rM => fields3c false true k rM
  | .doblockImm l => fields3b true false 0 l
  | .doblockReg rM => fields3c true false 0 rM
  | .sftrst w0 => fields7b true (if w0 then .char else .byte) (Reg.code 0) .spc
  | .waiti => fields7b true .long (Reg.code 0) .spc
  | .bkpt w0 => fields7b true (if w0 then .short else .ushort) (Reg.code 0) .spc
  | .add3 sz rD rS3 n =>
    fieldsReg2Imm (sz.code ++ 0b00101#5) rD.code rS3.code n
  | .set rD n => fieldsReg2Imm 0b000101#6 rD.code (Reg.code 0) n
  | .addReg sz c rD rS1 rS2 => fields6reg sz 0b0000#4 rD rS1 c rS2.code
  | .incDec sz c rD rS dec => fields6reg sz 0b0000#4 rD rS c (constCode dec)
  | .spIncDec c dec => fields6reg .long 0b0000#4 Reg.sp Reg.sp c (constCode dec)
  | .subReg sz c rD rS1 rS2 => fields6reg sz 0b0100#4 rD rS1 c rS2.code
  | .subImm sz rD n => fields6imm sz 0b0100#4 rD n
  | .rsubImm sz rD n => fields6imm sz 0b0010#4 rD n
  | .neg sz c rD rS => fields6reg sz 0b0100#4 rD 0 c rS.code
  | .cmpReg sz c rD rS1 rS2 => fields6reg sz 0b0111#4 rD rS1 c rS2.code
  | .cmpImm sz rD n => fields6imm sz 0b0111#4 rD n
  | .crAddReg sz c rD rS1 rS2 => fields6reg sz 0b0011#4 rD rS1 c rS2.code
  | .crAddImm sz rD n => fields6imm sz 0b0011#4 rD n
  | .andReg sz c rD rS1 rS2 => fields6reg sz 0b1110#4 rD rS1 c rS2.code
  | .andImm sz rD n => fields6imm sz 0b1110#4 rD n
  | .bitReg sz c rD rS1 rS2 => fields6reg sz 0b1111#4 rD rS1 c rS2.code
  | .bitImm sz rD n => fields6imm sz 0b1111#4 rD n
  | .andcReg sz c rD rS1 rS2 => fields6reg sz 0b0110#4 rD rS1 c rS2.code
  | .orReg sz c rD rS1 rS2 => fields6reg sz 0b1010#4 rD rS1 c rS2.code
  | .orImm sz rD n => fields6imm sz 0b1010#4 rD n
  | .xorReg sz c rD rS1 rS2 => fields6reg sz 0b1000#4 rD rS1 c rS2.code
  | .xorImm sz rD n => fields6imm sz 0b1000#4 rD n
  | .shlReg sz c rD rS1 rS2 => fields6reg sz 0b0001#4 rD rS1 c rS2.code
  | .shlImm sz rD n => fields6imm sz 0b0001#4 rD n
  | .shrReg sz c rD rS1 rS2 => fields6reg sz 0b1100#4 rD rS1 c rS2.code
  | .shrImm sz rD n => fields6imm sz 0b1100#4 rD n
  | .sarReg sz c rD rS1 rS2 => fields6reg sz 0b1101#4 rD rS1 c rS2.code
  | .sarImm sz rD n => fields6imm sz 0b1101#4 rD n
  | .shl1 sz c rD rS => fields6reg sz 0b0001#4 rD rS c codePlusN
  | .shr1 sz c rD rS => fields6reg sz 0b1100#4 rD rS c codePlusN
  | .half sz c rD rS => fields6reg sz 0b1101#4 rD rS c codePlusN
  | .ror1 sz c rD rS rS2 => fields6reg sz 0b1001#4 rD rS c rS2.code
  | .rol1 sz c rD rS rS2 => fields6reg sz 0b1011#4 rD rS c rS2.code
  | .shiftOr rD rS n => fieldsReg2Imm 0b100100#6 rD.code rS.code n
  | .set24 rD m => fields8 0b110#3 rD.code m
  | .loadDirect w rH l => fields7a false w rH.code l
  | .storeDirect w rH l => fields7a true w rH.code l
  | .loadMem w rH rP rI => fields7c false w rH.code rP rI
  | .storeMem w rH rP rI => fields7c true w rH.code rP rI
  | .loadIo w rH io => fields7b false w rH.code io
  | .storeIo w rH io => fields7b true w rH.code io
  | .loadIor w io rP rI => fields7d false w io rP rI
  | .storeIor w io rP rI => fields7d true w io rP rI
  | .fmultAccStore aM f s aN x y z => fieldsDa 0b011#3 (accField aM) f s aN x y z
  | .fmultAccTap aM f s aN x y z => fieldsDa 0b010#3 (accField aM) f s aN x y z
  | .fmultAddStore aM f s aN x y z => fieldsDa 0b001#3 (accField aM) f s aN x y z
  | .fmultStore s aN x y z => fieldsDa 0b011#3 0b100#3 false s aN x y z
  | .fmultTap s aN x y z => fieldsDa 0b010#3 0b100#3 false s aN x y z
  | .faddStore f s aN x y z => fieldsDa 0b001#3 0b101#3 f s aN x y z
  | .faddTap f s aN x y z => fieldsDa 0b001#3 0b110#3 f s aN x y z
  | .floadStore f aN y z => fieldsDa 0b001#3 0b100#3 f false aN (.acc 0) y z
  | .fzeroAddStore f s aN x y z => fieldsDa 0b001#3 0b100#3 f s aN x y z
  | .fconstTap one f s aN x y z => fieldsDa 0b010#3 (constField one) f s aN x y z
  | .fconstStore one f s aN x y z => fieldsDa 0b011#3 (constField one) f s aN x y z
  | .ic aN y z => fieldsDa5 0b0000#4 aN y z
  | .oc aN y z => fieldsDa5 0b0001#4 aN y z
  | .float16 aN y z => fieldsDa5 0b0010#4 aN y z
  | .int16 aN y z => fieldsDa5 0b0011#4 aN y z
  | .round aN y z => fieldsDa5 0b0100#4 aN y z
  | .ifalt aN y z => fieldsDa5 0b0101#4 aN y z
  | .ifaeq aN y z => fieldsDa5 0b0110#4 aN y z
  | .ifagt aN y z => fieldsDa5 0b0111#4 aN y z
  | .float32 aN y z => fieldsDa5 0b1000#4 aN y z
  | .int32 aN y z => fieldsDa5 0b1001#4 aN y z
  | .ieee aN y z => fieldsDa5 0b1100#4 aN y z
  | .dsp aN y z => fieldsDa5 0b1101#4 aN y z
  | .seed aN y z => fieldsDa5 0b1110#4 aN y z

/-- The word of an instruction (R130). -/
def encode (i : Instr) : Word := BitVec.ofNat 32 (packNat (encodeFields i))

end Sys2Proof
end

