-- ==== Sys2Proof/Machine/Defaults.lean ====
section
/-! DEFINITION. The values State.reset takes: those the spec states (R42, R88, R432), the model's own
choices where it states none, and the default of each open parameter that is plain data (R9). -/

namespace Sys2Proof.Machine

/-- What a byte of memory reads as where nothing was written: the spec gives memory no reset contents
(R432).  DESIGN CHOICE, notes/assumptions/2.md. -/
def unlistedByte : Byte := 0#8

/-- The value after reset of every register whose reset value no source states (R88).
DESIGN CHOICE, notes/assumptions/3.md. -/
def unstatedReset (w : Nat) : BitVec w := 0#w

/-- pcw after reset, with the levels of pins BIO7..BIO4 in bits 3..0 of `straps` (R42, R431):
pcw[10], [11], [12], [13] take BIO7, BIO6, BIO5, BIO4. -/
def resetPcw (straps : BitVec 4) : Half :=
  0x038F#16
    ||| (if straps.getLsbD 3 then 0x0400#16 else 0#16)
    ||| (if straps.getLsbD 2 then 0x0800#16 else 0#16)
    ||| (if straps.getLsbD 1 then 0x1000#16 else 0#16)
    ||| (if straps.getLsbD 0 then 0x2000#16 else 0#16)

/-- The levels of BIO7..BIO4 at the reset that State.reset stands for: all low, Processor mode
(R433, vector X18).  DESIGN CHOICE, notes/assumptions/4.md. -/
def resetStraps : BitVec 4 := 0b0000#4

/-- The spec's default encoding (R136, R152, R160, R161, R320, R321). -/
def defaultEncoding : Encoding where
  fHigh := #v[0, 1, 2, 3, 4, 5, 6, 7]
  doK := 16
  doL := 0
  doR := 0
  doModes := #v[0, 1, 2, 3]
  daM := 26
  daF := 25
  daS := 24
  daN := 21
  daX := 14
  daY := 7
  daZ := 0
  daG := 23
  daPLow := false
  daForms := #v[0, 1, 2, 3]
  daImplied := 0b101#3
  daSignSwap := false

/-- The open parameters' defaults (R9, 92_eei_decisions.md D1 to D33): `MISALIGNED` refuse,
`IFA_LATENCY` 0, `MMIO_ADDR` none, `DSP_FLOAT`, `COMPAND`, `EXC_ENTRY` and the encoding as the spec
gives them (notes/assumptions/8.md, notes/assumptions/9.md).  The extents of `ONCHIP_MAP` are a DESIGN
CHOICE, notes/assumptions/5.md. -/
def defaultParams : Params where
  misaligned := .refuse
  ifaSettled := false
  onchipSize := 0x10000
  romSize := 0x100
  ram := [⟨0xE000, 0x2000⟩]
  mmio := []
  float := .excess128
  compand := .g711
  exc := ⟨true, .unknown⟩
  encoding := defaultEncoding

end Sys2Proof.Machine
end

