-- ==== Sys2Proof/Machine/State.lean ====
section
/-! DEFINITION. The machine's state as plain data (10_state.md, 60_exceptions.md, 70_reset_and_hazards.md),
the reasons a step can stop, and the state after reset. -/

namespace Sys2Proof.Machine

/-! ### Reasons to stop -/

/-- The machine stops because an access names a place for which the spec describes nothing.  Both are
safe: the model goes no further where the hardware may go on. -/
inductive Fault where
  /-- an access to, or the execution of a word fetched from, an on-chip offset that holds nothing
  (R104).  Raised by the memory accesses and by the step that would execute the word.  Safe. -/
  | emptyOnChip
  /-- a store to the Boot ROM (R104).  Raised by the stores.  Safe. -/
  | romStore
deriving DecidableEq, Repr

/-- The spec's `refuse` (R11): no behaviour is claimed.  Every constructor but the first is safe: the
model stops where the hardware may go on. -/
inductive Refusal where
  /-- an instruction with no meaning in the model; raised by no arm of exec. Safe. -/
  | notModelled (mnemonic : String)
  /-- a reserved field value inside a defined format (R175); raised by the step.  Safe. -/
  | reservedEncoding (why : FieldError)
  /-- a control transfer or do in the delay slot of a goto, call or return, taken or not (R191); raised
  by the step.  Safe. -/
  | transferInDelaySlot
  /-- a do or a control transfer inside a do body (R207); raised by the step.  Safe. -/
  | transferInDoBody
  /-- a doblock body other than `a0 = (Z=Y) * a0` (R210); raised by the step.  Safe. -/
  | doblockBody
  /-- Restriction 1 broken (R441); raised by the step.  Safe. -/
  | zPointerReused
  /-- one pointer register in two of X, Y, Z, one of them post-modified (R327); raised by the step.
  Safe. -/
  | samePointer
  /-- Restriction 2 broken (R442); raised by the step.  Safe. -/
  | storeAfterMemoryY
  /-- Latency 1 broken (R444); raised by the step.  Safe. -/
  | daWriteReferenced
  /-- Latency 2 broken (R445); raised by the step.  Safe. -/
  | accumulatorTooEarly
  /-- the IO register just loaded is referenced, or a DA instruction follows a load of dauc (R449);
  raised by the step.  Safe. -/
  | ioLoadReferenced
  /-- a misaligned access with `MISALIGNED` = refuse (R95); raised by the memory accesses and by the
  step that would execute a word fetched so.  Safe. -/
  | misaligned
  /-- a misaligned access with `MISALIGNED` = address_error while emr[4] = 0 (R389); raised as the one
  before.  Safe. -/
  | addressErrorMasked
  /-- an access to an MMIO register with a size other than its own, or an instruction fetch from one
  (R114); raised by the memory accesses and the step.  Safe. -/
  | mmioAccess
  /-- sp as the pointer of a transfer that is not long (R285); raised by the pointer moves.  Safe. -/
  | spTransferSize
  /-- a load of spc, or a LOAD-IOR or STORE-IOR of it (R41, R288, R293, R294); raised by them.  Safe. -/
  | spcTransfer
  /-- an (hbyte) store to spc, which is no command (R296); raised by the store.  Safe. -/
  | spcCommand
  /-- (hbyte) with LOAD-IOR or STORE-IOR (R293, R294); raised by them.  Safe. -/
  | hbyteIor
  /-- a write of 1 to dauc[7] (R37); raised by the IO register writes.  Safe. -/
  | daucBit7
  /-- ireturn at a level other than interrupt (R392); raised by ireturn.  Safe. -/
  | ireturnLevel
  /-- sftrst at base or interrupt level (R394); raised by the command.  Safe. -/
  | sftrstLevel
  /-- waiti above base level (R396); raised by the command.  Safe. -/
  | waitiLevel
  /-- dsp of an accumulator (R362); raised by dsp.  Safe. -/
  | dspAccumulator
  /-- an error taken at double error level (R383); raised at the instruction boundary.  Safe. -/
  | errorAtDoubleError
deriving DecidableEq, Repr

/-! ### Parts of the state -/

/-- The three errors (R380): exceptions 1, 2 and 4. -/
inductive ErrorSource where
  | busError | illegalOpcode | addressError
deriving DecidableEq, Repr

/-- Why an access has no value: an error the machine raises, or a stop of the model. -/
inductive Trouble where
  | raise (e : ErrorSource)
  | fault (f : Fault)
  | refuse (r : Refusal)
deriving DecidableEq, Repr

/-- The one-word prefetch `ir` (R86, R387): a word, or what its execution meets. -/
inductive Fetched where
  | word (w : Word)
  | trouble (t : Trouble)
deriving DecidableEq, Repr

/-- The processor levels (R80, R383). -/
inductive Level where
  | base | interrupt | error | doubleError
deriving DecidableEq, Repr

/-- The kinds of do loop (R203). -/
inductive DoKind where
  | plain | lock | block
deriving DecidableEq, Repr

/-- The do-loop state (R82, R205).  `tail` holds while the last body instruction of the last pass is
still to run, `passes` counts completed passes (R209, R210): both are the model's own
(notes/assumptions/14.md). -/
structure DoState where
  active : Bool
  kind : DoKind
  start : Word
  stop : Word
  iter : BitVec 11
  tail : Bool
  passes : BitVec 12
deriving DecidableEq, Repr

/-- A DAU flag result in flight (R30, R446): it settles when `left` instructions have run. -/
structure FlagEntry where
  n : Bool
  z : Bool
  v : Bool
  u : Bool
  nan : Bool
  left : Nat
deriving DecidableEq, Repr

/-- The interrupt shadow set (R81): sh_instr, sh_pc, sh_flags (ps[7:0] and the queue) and sh_do. -/
structure Shadow where
  instr : Fetched
  pc : Word
  ps : BitVec 8
  queue : List FlagEntry
  loop : DoState
deriving DecidableEq, Repr

/-- A load whose write comes one instruction later (R287, R293). -/
inductive PendingLoad where
  | reg (rD : LoadDest) (v : Word)
  | ior (io : IoReg) (size : Nat) (d : Word)
deriving DecidableEq, Repr

/-- The record of one executed instruction for the hazard checks (R87, R450). -/
structure Record where
  isDA : Bool
  yIsMemory : Bool
  zptr : Option Reg
  zwords : List Word
  acc : Option AccNo
  ior : Option IoReg
deriving DecidableEq, Repr

/-- What the instruction now executing leaves for the end of its step (R190 steps 5a to 7): the branch
target, the load it issues, what it writes at once of the CAU registers and flags, and where ireturn
resumes.  Empty between steps. -/
structure Latch where
  target : Option Word
  load : Option PendingLoad
  wroteRegs : List Reg
  wroteFlags : Bool
  resume : Option (Fetched × Word × Word)
deriving DecidableEq, Repr

/-- The latch of a step that has done nothing yet. -/
def Latch.empty : Latch := ⟨none, none, [], false, none⟩

/-- The memory-mapped and peripheral registers (R54 to R68).  DESIGN CHOICE: where R64 and R68 state no
width, ISR and OSR among them, 32 bits (notes/assumptions/6.md). -/
structure Periph where
  ioc : BitVec 32
  dmac : BitVec 8
  tcon : BitVec 8
  bioc : BitVec 8
  bioOut : BitVec 8
  timerCount : BitVec 32
  timerInit : BitVec 32
  timerToggle : Bool
  ibuf : BitVec 32
  obuf : BitVec 32
  isr : BitVec 32
  osr : BitVec 32
  idp : BitVec 32
  odp : BitVec 32
  icnt : BitVec 32
  ocnt : BitVec 32
  icounter : BitVec 32
  ocounter : BitVec 32
deriving DecidableEq, Repr

/-- What the environment drives: ps[13:8] (R35), the levels of the BIO pins (R67), and the addresses it
answers with BERRN (R104). -/
structure Pins where
  ibf : Bool
  obe : Bool
  sy : Bool
  fb : Bool
  ir0 : Bool
  ir1 : Bool
  bio : BitVec 8
  berr : List Range
deriving DecidableEq, Repr

/-- What the environment can do at an instruction boundary, or between two accesses of the core (R110,
R112, R384, R402, R403, R430). -/
inductive EnvEvent where
  /-- the SIO status and the SY pin, as ps[11:8] shows them -/
  | sioStatus (ibf obe sy fb : Bool)
  /-- the level of pin IR0N; low asserts the request -/
  | ir0 (high : Bool)
  /-- the level of pin IR1N; low asserts the request -/
  | ir1 (high : Bool)
  /-- the levels of the BIO pins -/
  | bioPins (v : BitVec 8)
  /-- one edge of the timer's selected clock -/
  | timerTick
  /-- the timer's count reaches zero -/
  | timerZero
  /-- an SIO or SIO DMA request, source 11 + k -/
  | sioRequest (k : Fin 4)
  /-- the SIO, DMA or timer agent changes one of its data registers -/
  | periphData (r : MmioReg) (v : Word)
  /-- the SIO's shift registers ISR and OSR move on -/
  | shiftRegisters (isr osr : Word)
  /-- another bus master, such as the host, writes a byte of external memory -/
  | busWrite (a : Word) (v : Byte)
  /-- the serial DMA controller writes a byte of memory -/
  | dmaWrite (a : Word) (v : Byte)
  /-- the ranges of external addresses answered with BERRN -/
  | berr (l : List Range)
  /-- RESTN with the levels of BIO7..BIO4 -/
  | restn (straps : BitVec 4)
deriving DecidableEq, Repr

/-- What a step shows to the environment (R398, R401). -/
inductive Event where
  | breakpoint
  | acknowledge (source : Nat)
  | level (l : Level)
deriving DecidableEq, Repr

/-- Memory: the listed bytes, by a key (Machine/Memory.lean says which address has which key). -/
abbrev Memory := List Host.Cell

/-! ### The state -/

/-- The whole state.  INVENTORY.md lists the rule that names each field and its reset value. -/
structure State where
  regs : Vector Word 22
  pc : Word
  npc : Word
  ir : Fetched
  pcsh : Word
  accs : Vector Acc40 4
  ps : BitVec 8
  emr : Half
  pcw : Half
  pcwLocked : Bool
  dauc : BitVec 8
  ctr : BitVec 8
  periph : Periph
  pins : Pins
  level : Level
  shadow : Shadow
  loop : DoState
  waiting : Bool
  pending : BitVec 16
  errorRequest : Option ErrorSource
  inhibit : Bool
  inSlot : Bool
  pendingLoad : Option PendingLoad
  queue : List FlagEntry
  history : List Record
  latch : Latch
  mem : Memory
  params : Params
  draws : Nat
  env : List (List EnvEvent)
  out : List Event
deriving DecidableEq, Repr

/-- The do-loop state after reset: inactive (R82, R88). -/
def DoState.reset : DoState :=
  ⟨false, .plain, unstatedReset 32, unstatedReset 32, unstatedReset 11, false, 0#12⟩

/-- The shadow set after reset: no source states it (notes/assumptions/3.md). -/
def Shadow.reset : Shadow :=
  ⟨.word (unstatedReset 32), unstatedReset 32, unstatedReset 8, [], DoState.reset⟩

/-- The peripheral registers after reset: bioc is 0 (R65), no other value is stated. -/
def Periph.reset : Periph where
  ioc := unstatedReset 32
  dmac := unstatedReset 8
  tcon := unstatedReset 8
  bioc := 0#8
  bioOut := unstatedReset 8
  timerCount := unstatedReset 32
  timerInit := unstatedReset 32
  timerToggle := false
  ibuf := unstatedReset 32
  obuf := unstatedReset 32
  isr := unstatedReset 32
  osr := unstatedReset 32
  idp := unstatedReset 32
  odp := unstatedReset 32
  icnt := unstatedReset 32
  ocnt := unstatedReset 32
  icounter := unstatedReset 32
  ocounter := unstatedReset 32

/-- The environment's inputs at State.reset: both request pins high (not asserted), everything else
low or empty (notes/assumptions/4.md). -/
def Pins.reset : Pins := ⟨false, false, false, false, true, true, 0#8, []⟩

/-- The machine right after RESTN with the straps `straps` (R88, R431, R432), before any program is in
memory: address 0 holds unlisted bytes, and they are the word fetched. -/
def State.afterReset (straps : BitVec 4) (ir : Fetched) : State where
  regs := Vector.replicate 22 (unstatedReset 32)
  pc := 0#32
  npc := 4#32
  ir := ir
  pcsh := unstatedReset 32
  accs := Vector.replicate 4 (unstatedReset 40)
  ps := unstatedReset 8
  emr := 0#16
  pcw := resetPcw straps
  pcwLocked := false
  dauc := 0#8
  ctr := unstatedReset 8
  periph := Periph.reset
  pins := Pins.reset
  level := .base
  shadow := Shadow.reset
  loop := DoState.reset
  waiting := false
  pending := 0#16
  errorRequest := none
  inhibit := false
  inSlot := false
  pendingLoad := none
  queue := []
  history := []
  latch := Latch.empty
  mem := []
  params := defaultParams
  draws := 0
  env := []
  out := []

/-- The state after reset: RESTN with all four straps low (Processor mode, vector X18).  The word
fetched from address 0 is that of four unlisted bytes. -/
def State.reset : State :=
  State.afterReset resetStraps
    (.word (unlistedByte ++ unlistedByte ++ unlistedByte ++ unlistedByte))

end Sys2Proof.Machine
end

