-- ==== Sys2Proof/Machine/Memory.lean ====
section
/-! DEFINITION. Memory (20_memory.md): the canonical byte list, byte order, the memory map with the Boot
ROM (R436) and the memory-mapped registers (R54 to R68), and the accesses of the core. -/

namespace Sys2Proof

/-- Membership in a range. -/
def Range.has (r : Range) (n : Nat) : Bool := r.lo ≤ n && n < r.lo + r.size

/-- The width of a memory-mapped register in bytes: the spec's where it gives one (R54), else the
parameter's. -/
def MmioEntry.width (e : MmioEntry) : Nat :=
  match e.reg with
  | .ioc => 4
  | .dmac | .tcon | .bioc => 1
  | .bio => 2
  | _ => e.bytes

namespace Machine

/-- The result of an access: its value, or why there is none. -/
abbrev Res (α : Type) := Except Trouble α

/-! ### The byte list -/

/-- The byte at a key: the listed one, else `unlistedByte`. -/
def Memory.read : Memory → Nat → Byte
  | [], _ => unlistedByte
  | c :: m, k => if c.1 = k then c.2 else Memory.read m k

/-- Put a byte in front unless it is what an unlisted key reads as. -/
def Memory.put (k : Nat) (v : Byte) (m : Memory) : Memory :=
  if v = unlistedByte then m else (k, v) :: m

/-- Write the byte at a key, keeping the canonical form. -/
def Memory.write : Memory → Nat → Byte → Memory
  | [], k, v => Memory.put k v []
  | c :: m, k, v =>
    if k < c.1 then Memory.put k v (c :: m)
    else if k = c.1 then Memory.put k v m
    else c :: Memory.write m k v

/-- All keys of the list are above `k`. -/
def Memory.above (k : Nat) : Memory → Bool
  | [] => true
  | c :: _ => k < c.1

/-- The canonical form: keys strictly rising, no entry equal to what an unlisted key reads as. -/
def Memory.wf : Memory → Bool
  | [] => true
  | c :: m => c.2 != unlistedByte && Memory.above c.1 m && Memory.wf m

/-! ### The memory map -/

/-- pcw[8] = 1: big endian (R47, R92). -/
def State.bigEndian (s : State) : Bool := s.pcw.getLsbD 8

/-- `ONCHIP_BASE` (R100). -/
def State.onchipBase (s : State) : Word := if s.pcw.getLsbD 10 then 0x00000000#32 else 0x50030000#32

/-- The offset of an address from the start of the on-chip region. -/
def State.offset (s : State) (a : Word) : Nat := (a - s.onchipBase).toNat

/-- Is the address in the on-chip region (R100, R101)? -/
def State.onchip (s : State) (a : Word) : Bool := s.offset a < s.params.onchipSize

/-- The key of an on-chip RAM byte; an external byte's key is its address. -/
def ramKey (off : Nat) : Nat := 2 ^ 32 + off

/-- The memory-mapped register whose bytes include the address, if any. -/
def State.mmioAt (s : State) (a : Word) : Option MmioEntry :=
  if s.onchip a then
    s.params.mmio.find? fun e => e.offset ≤ s.offset a && s.offset a < e.offset + e.width
  else none

/-- The Boot ROM program (R436), one word per instruction from offset 0.  DESIGN CHOICE: R436 derives the
words for the default encoding, and they are the ROM's in every encoding (notes/assumptions/28.md). -/
def bootProgram : List Nat := [
  0x802F0080, 0x9C61040C, 0x802F00E0, 0x80000000, 0x802F00D8, 0x80000000, 0x802F00D0, 0x80000000,
  0x802F00C8, 0x80000000, 0x802F00C0, 0x80000000, 0x802F00B8, 0x80000000, 0x802F00B0, 0x80000000,
  0x802F00A8, 0x80000000, 0x802F00A0, 0x80000000, 0x802F0098, 0x80000000, 0x802F0090, 0x80000000,
  0x802F0088, 0x80000000, 0x802F0080, 0x80000000, 0x802F0078, 0x80000000, 0x9CFE0000, 0x9D600408,
  0x803E0000, 0x80000000, 0x90406000, 0x9BE12000, 0x80AF003C, 0xC003E000, 0x8C020007, 0x9CE41017,
  0x80000000, 0x9D041817, 0x1CE5E004, 0x1CE1E000, 0x80AF0014, 0x98030820, 0x9A850001, 0x8E020005,
  0x9CE41017, 0x80000000, 0x9D041817, 0x80210000, 0x80000000, 0x93405003, 0xC0028000, 0x9D620408,
  0x9BC1FBFF, 0x9DE0040A, 0x9DE1040C, 0x9DE00000, 0x9D60040A, 0x802FFFF8, 0x80000000]

/-- The word of the Boot ROM at word index `i`: the program, then the fill, each fill word holding its
own Processor-mode address (R436). -/
def bootWord (i : Nat) : Word := BitVec.ofNat 32 (bootProgram.getD i (0x50030000 + 4 * i))

/-- The byte of the Boot ROM at an offset: its words lie in big-endian order (notes/assumptions/5.md). -/
def bootByte (off : Nat) : Byte := (bootWord (off / 4)).extractLsb' (8 * (3 - off % 4)) 8

/-- What stands at an address. -/
inductive Place where
  /-- a byte of read-write memory, by its key -/
  | ram (key : Nat)
  /-- a byte of the Boot ROM, by its offset -/
  | rom (off : Nat)
  /-- a byte of a memory-mapped register -/
  | mmio
  /-- an on-chip offset that holds nothing -/
  | empty
  /-- an external address that the environment answers with BERRN -/
  | berr
deriving DecidableEq, Repr

/-- The memory map under the pcw now in force (R100 to R104).  External memory that the on-chip region
hides appears nowhere else to the core: DESIGN CHOICE, notes/assumptions/25.md (R102 does not state
it). -/
def State.place (s : State) (a : Word) : Place :=
  if s.onchip a then
    let off := s.offset a
    if (s.mmioAt a).isSome then .mmio
    else if off < s.params.romSize then .rom off
    else if s.params.ram.any (·.has off) then .ram (ramKey off)
    else .empty
  else if s.pins.berr.any (·.has a.toNat) then .berr
  else .ram a.toNat

/-! ### Byte order -/

/-- The bytes of the low `n` bytes of `v`, in address order (R92). -/
def bytesOf (big : Bool) (n : Nat) (v : Word) : List Byte :=
  let l := (List.range n).map fun i => v.extractLsb' (8 * i) 8
  if big then l.reverse else l

/-- The value of bytes in address order (R92), zero-extended to a word. -/
def valueOf (big : Bool) (bs : List Byte) : Word :=
  (if big then bs.reverse else bs).foldr (fun b acc => acc <<< 8 ||| b.setWidth 32) 0

/-! ### Accesses -/

/-- Read one byte that is not part of a memory-mapped register. -/
def State.readByte (s : State) (a : Word) : Res Byte :=
  match s.place a with
  | .ram k => .ok (s.mem.read k)
  | .rom off => .ok (bootByte off)
  | .mmio => .error (.refuse .mmioAccess)
  | .empty => .error (.fault .emptyOnChip)
  | .berr => .error (.raise .busError)

/-- Write one byte that is not part of a memory-mapped register. -/
def State.writeByte (s : State) (a : Word) (v : Byte) : Res State :=
  match s.place a with
  | .ram k => .ok { s with mem := s.mem.write k v }
  | .rom _ => .error (.fault .romStore)
  | .mmio => .error (.refuse .mmioAccess)
  | .empty => .error (.fault .emptyOnChip)
  | .berr => .error (.raise .busError)

/-- Read `n` bytes from `a` on. -/
def State.readBytes (s : State) (a : Word) : Nat → Res (List Byte)
  | 0 => .ok []
  | n + 1 => do
    let b ← s.readByte a
    let bs ← s.readBytes (a + 1) n
    .ok (b :: bs)

/-- Write the bytes from `a` on. -/
def State.writeBytes (s : State) (a : Word) : List Byte → Res State
  | [] => .ok s
  | b :: bs => do
    let s' ← s.writeByte a b
    s'.writeBytes (a + 1) bs

/-- Is an access of `n` bytes at `a` misaligned (R95)? -/
def isMisaligned (a : Word) (n : Nat) : Bool := a.toNat % n != 0

/-- The alignment rule, by the open parameter `MISALIGNED` (R95, R389).  DESIGN CHOICE: every access asks it
first, so a misaligned access that is refused or raises Address Error is not made, and whatever answers at
its address (BERRN, an empty place, the Boot ROM, a memory-mapped register) is not met
(notes/assumptions/33.md). -/
def State.checkAlign (s : State) (a : Word) (n : Nat) : Res Unit :=
  if isMisaligned a n then
    match s.params.misaligned with
    | .split => .ok ()
    | .refuse => .error (.refuse .misaligned)
    | .addressError =>
      if s.emr.getLsbD 4 then .error (.raise .addressError) else .error (.refuse .addressErrorMasked)
  else .ok ()

/-! ### Memory-mapped registers -/

/-- The timer's output: the toggle flip-flop, or in pulse mode the level between pulses (R63).
DEDUCED: a pulse is one CKI period, shorter than a step (notes/assumptions/17.md). -/
def Periph.timerOut (p : Periph) : Bool :=
  if p.tcon.getLsbD 2 then p.timerToggle else !p.tcon.getLsbD 3

/-- The level of pin BIOk (R67). -/
def State.bioPin (s : State) (k : Nat) : Bool :=
  if s.periph.bioc.getLsbD k then
    if k = 1 && s.periph.tcon.getLsbD 4 then s.periph.timerOut else s.periph.bioOut.getLsbD k
  else s.pins.bio.getLsbD k

/-- A word with the bits `f 0`, `f 1`, … `f (w-1)`. -/
def bitsOf (w : Nat) (f : Nat → Bool) : BitVec w :=
  (List.range w).foldl (fun acc i => if f i then acc ||| (1#w <<< i) else acc) 0#w

/-- The value of the bio register as read (R67). -/
def State.bioRead (s : State) : Half :=
  bitsOf 16 fun i => if i % 2 = 0 then s.bioPin (i / 2) else s.periph.bioOut.getLsbD (i / 2)

/-- The bio output register after a write of `w` (R66). -/
def bioWrite (q : BitVec 8) (w : Half) : BitVec 8 :=
  bitsOf 8 fun k =>
    match w.getLsbD (2 * k + 1), w.getLsbD (2 * k) with
    | false, false => q.getLsbD k
    | false, true => false
    | true, false => true
    | true, true => !q.getLsbD k

/-- dmac after a write of `w` (R62). -/
def dmacWrite (old w : BitVec 8) : BitVec 8 :=
  bitsOf 8 fun i =>
    if (i = 1 || i = 2) && !w.getLsbD 0 then old.getLsbD i
    else if (i = 5 || i = 6) && !w.getLsbD 4 then old.getLsbD i
    else w.getLsbD i

/-- The value of a memory-mapped register as read (R54 to R68). -/
def State.mmioRead (s : State) (r : MmioReg) : Word :=
  let p := s.periph
  match r with
  | .ioc => p.ioc
  | .dmac => p.dmac.setWidth 32
  | .tcon => p.tcon.setWidth 32
  | .bioc => p.bioc.setWidth 32
  | .bio => s.bioRead.setWidth 32
  | .timerCount => p.timerCount
  | .timerInit => p.timerInit
  | .ibuf => p.ibuf
  | .obuf => p.obuf
  | .idp => p.idp
  | .odp => p.odp
  | .icnt => p.icnt
  | .ocnt => p.ocnt
  | .icounter => p.icounter
  | .ocounter => p.ocounter

/-- The peripheral registers after a write of `v` to one of them (R55, R62, R66).  The data registers
keep what is written (notes/assumptions/6.md). -/
def Periph.write (p : Periph) (r : MmioReg) (v : Word) : Periph :=
  match r with
  | .ioc => { p with ioc := v &&& 0x00FFFFFF#32 }
  | .dmac => { p with dmac := dmacWrite p.dmac (v.setWidth 8) }
  | .tcon => { p with tcon := v.setWidth 8 }
  | .bioc => { p with bioc := v.setWidth 8 }
  | .bio => { p with bioOut := bioWrite p.bioOut (v.setWidth 16) }
  | .timerCount => { p with timerCount := v }
  | .timerInit => { p with timerInit := v }
  | .ibuf => { p with ibuf := v }
  | .obuf => { p with obuf := v }
  | .idp => { p with idp := v }
  | .odp => { p with odp := v }
  | .icnt => { p with icnt := v }
  | .ocnt => { p with ocnt := v }
  | .icounter => { p with icounter := v }
  | .ocounter => { p with ocounter := v }

/-- The low `n` bytes of a word. -/
def lowBytes (n : Nat) (v : Word) : Word := if n < 4 then v &&& (1#32 <<< (8 * n) - 1#32) else v

/-- An access to a memory-mapped register has its address and its size (R114). -/
def State.mmioFits (s : State) (e : MmioEntry) (a : Word) (n : Nat) : Bool :=
  s.offset a == e.offset && n == e.width

/-- `MemRead(a, n)` (R11, R92): a data read of the core, n = 1, 2 or 4.  DESIGN CHOICE: pcw[8] orders bytes
of memory; a memory-mapped register is read and written as one number, whatever pcw[8] is (R92, R114;
notes/assumptions/30.md).  DESIGN CHOICE: alignment comes before the map, so an access both misaligned and
answered with BERRN raises Address Error where emr[4] = 1 (R95, R388; notes/assumptions/33.md). -/
def State.load (s : State) (a : Word) (n : Nat) : Res Word := do
  s.checkAlign a n
  match s.mmioAt a with
  | some e => if s.mmioFits e a n then .ok (lowBytes n (s.mmioRead e.reg)) else .error (.refuse .mmioAccess)
  | none => do
    let bs ← s.readBytes a n
    .ok (valueOf s.bigEndian bs)

/-- `MemWrite(a, n, v)` (R11, R92): a data write of the core, n = 1, 2 or 4.  It writes all its bytes
or none.  A memory-mapped register takes the value whole, as in `State.load`. -/
def State.store (s : State) (a : Word) (n : Nat) (v : Word) : Res State := do
  s.checkAlign a n
  match s.mmioAt a with
  | some e =>
    if s.mmioFits e a n then .ok { s with periph := s.periph.write e.reg (lowBytes n v) }
    else .error (.refuse .mmioAccess)
  | none => s.writeBytes a (bytesOf s.bigEndian n v)

/-- Fetch the instruction word at `a` (R93, R387): what stands in the way of the fetch is met when the
word is executed. -/
def State.fetch (s : State) (a : Word) : Fetched :=
  match (do s.checkAlign a 4; let bs ← s.readBytes a 4; .ok (valueOf s.bigEndian bs) : Res Word) with
  | .ok w => .word w
  | .error t => .trouble t

/-- The address of the direct operand `*L` (R103, R284). -/
def State.directAddress (s : State) (l : Half) : Word := s.onchipBase ||| l.setWidth 32

/-- Is `b` one of the `n` bytes from `a` on? -/
def covers (a : Word) (n : Nat) (b : Word) : Bool := (b - a).toNat < n

/-- The aligned words that contain the `n` bytes from `a` on (R444). -/
def wordsOf (a : Word) (n : Nat) : List Word :=
  let w := a &&& 0xFFFFFFFC#32
  let w' := (a + BitVec.ofNat 32 (n - 1)) &&& 0xFFFFFFFC#32
  if w = w' then [w] else [w, w']

end Machine
end Sys2Proof
end

