-- ==== Sys2Proof/Machine/Ops.lean ====
section
/-! DEFINITION. The named operations over registers, flags, IO registers, delayed loads and exceptions
(10_state.md, 42_ca_move.md, 60_exceptions.md).  Every meaning is written over these. -/

namespace Sys2Proof.Machine

/-! ### How an instruction ends -/

/-- The outcome of an instruction that may meet a trouble.  An error makes none of the instruction's
writes: the state is the one before it, with the error requested (R390). -/
def resolve (s : State) (r : Res State) : Host.Outcome State Fault Refusal :=
  match r with
  | .ok t => .next t
  | .error (.raise e) => .next { s with errorRequest := some e }
  | .error (.fault f) => .fault f
  | .error (.refuse r) => .refused r

/-! ### Free values -/

/-- The next free value, `w` bits wide: the spec's `draw` (R11). -/
def State.drawn (s : State) (w : Nat) : BitVec w := Config.free w s.draws

/-- Count a free value as used. -/
def State.countDraw (s : State) : State := { s with draws := s.draws + 1 }

/-! ### CAU registers and accumulators -/

/-- `r[i]` (R11, R21): r0 reads as 0. -/
def State.reg (s : State) (r : Reg) : Word :=
  if h : r.val = 0 then 0#32 else s.regs[r.val - 1]'(by omega)

/-- The register file after `r[i] <- v`: a write to r0 is discarded (R21). -/
def writeRegs (regs : Vector Word 22) (r : Reg) (v : Word) : Vector Word 22 :=
  if h : r.val = 0 then regs else regs.set (r.val - 1) v (by omega)

/-- `r[i] <- v` by the instruction itself (R11, R21), noted for the load-delay rule (R287). -/
def State.setReg (s : State) (r : Reg) (v : Word) : State :=
  { s with
    regs := writeRegs s.regs r v
    latch := { s.latch with wroteRegs := r :: s.latch.wroteRegs } }

/-- `a[n]` (R11, R29). -/
def State.acc (s : State) (a : AccNo) : Acc40 := s.accs[a.val]

/-- `a[n] <- v` (R11). -/
def State.setAcc (s : State) (a : AccNo) (v : Acc40) : State := { s with accs := s.accs.set a.val v }

/-- What an instruction reads as pc: its address plus 8 (R25). -/
def State.pcOperand (s : State) : Word := s.pc + 8#32

/-! ### Flags -/

/-- The CAU flags n, z, v, c (R33). -/
structure CauFlags where
  n : Bool
  z : Bool
  v : Bool
  c : Bool
deriving DecidableEq, Repr

/-- The flags as ps[3:0] (R33). -/
def CauFlags.nibble (f : CauFlags) : BitVec 4 :=
  BitVec.ofBool f.c ++ BitVec.ofBool f.v ++ BitVec.ofBool f.z ++ BitVec.ofBool f.n

/-- The CAU flags of ps. -/
def State.cau (s : State) : CauFlags :=
  ⟨s.ps.getLsbD 0, s.ps.getLsbD 1, s.ps.getLsbD 2, s.ps.getLsbD 3⟩

/-- ps[7:0] with the CAU flags replaced. -/
def withCau (ps : BitVec 8) (nib : BitVec 4) : BitVec 8 := ps.extractLsb' 4 4 ++ nib

/-- Write the four CAU flags (R231, R235), noted for the load-delay rule (R287). -/
def State.setCau (s : State) (f : CauFlags) : State :=
  { s with ps := withCau s.ps f.nibble, latch := { s.latch with wroteFlags := true } }

/-- The flags nz00 of a 32-bit value (R287, R231). -/
def cauOfValue (v : Word) : CauFlags := ⟨v.msb, v == 0#32, false, false⟩

/-- A DAU flag result on its way: it settles at the end of the third instruction after this one
(R446). -/
def FlagEntry.fresh (n z v u nan : Bool) : FlagEntry := ⟨n, z, v, u, nan, 4⟩

/-- Queue a DAU flag result (R328, R446). -/
def State.pushFlags (s : State) (e : FlagEntry) : State := { s with queue := s.queue ++ [e] }

/-- The flags of an entry as ps[7:4]: V, U, Z, N (R33). -/
def entryNibble (e : FlagEntry) : BitVec 4 :=
  BitVec.ofBool e.v ++ BitVec.ofBool e.u ++ BitVec.ofBool e.z ++ BitVec.ofBool e.n

/-- ps[7:0] with the DAU flags replaced. -/
def withDau (ps : BitVec 8) (nib : BitVec 4) : BitVec 8 := nib ++ ps.extractLsb' 0 4

/-- Set the pending latch of source `i` where `b` holds (R384). -/
def request (pending : BitVec 16) (i : Nat) (b : Bool) : BitVec 16 :=
  if b then pending ||| (1#16 <<< i) else pending

/-- `settle` (R446): the flags reach ps and ctr, and U, V or a NaN request their exceptions. -/
def State.settle (s : State) (e : FlagEntry) : State :=
  { s with
    ps := withDau s.ps (entryNibble e)
    ctr := 0#2 ++ s.ctr.extractLsb' 0 5 ++ BitVec.ofBool e.n
    pending := request (request s.pending 5 (e.v || e.u)) 6 e.nan }

/-- Settle entries in order. -/
def State.settleAll (s : State) (es : List FlagEntry) : State := es.foldl State.settle s

/-! ### IO registers -/

/-- ps[15:8] as read: ibf, obe, sy, fb, ir0, ir1 from the environment, bits 15:14 zero (R33, R35). -/
def Pins.psHigh (p : Pins) : BitVec 8 :=
  0#2 ++ BitVec.ofBool p.ir1 ++ BitVec.ofBool p.ir0 ++ BitVec.ofBool p.fb ++ BitVec.ofBool p.sy
    ++ BitVec.ofBool p.obe ++ BitVec.ofBool p.ibf

/-- The value of an IO register, zero-extended to 32 bits (R295).  spc holds none (R41). -/
def State.ioValue (s : State) (io : IoReg) : Word :=
  match io with
  | .ps => (s.pins.psHigh ++ s.ps).setWidth 32
  | .emr => s.emr.setWidth 32
  | .spc => 0#32
  | .pcw => s.pcw.setWidth 32
  | .dauc => s.dauc.setWidth 32
  | .ctr => s.ctr.setWidth 32

/-- A read of an IO register with a transfer of `n` bytes (R295). -/
def State.ioRead (s : State) (io : IoReg) (n : Nat) : Word := lowBytes n (s.ioValue io)

/-- A 16-bit register after a transfer of `n` bytes of `d` (R295). -/
def merge16 (old : Half) (n : Nat) (d : Word) : Half :=
  if n = 1 then old.extractLsb' 8 8 ++ d.extractLsb' 0 8 else d.extractLsb' 0 16

/-- A transfer that writes pcw[13] = 1 locks pcw (R51). -/
def locksPcw (n : Nat) (d : Word) : Bool := n != 1 && d.getLsbD 13

/-- A write of an IO register with a transfer of `n` bytes (R34, R37, R39, R40, R51, R295).  spc is no
target here: a store to it is a command (R296).  DESIGN CHOICE: ctr[0] moves only where a DA result
settles or ctr is written; a write of ps leaves it, though R39 takes it for ps.N
(notes/assumptions/29.md). -/
def State.ioWrite (s : State) (io : IoReg) (n : Nat) (d : Word) : State :=
  match io with
  | .ps => { s with ps := d.extractLsb' 0 8, queue := [], latch := { s.latch with wroteFlags := true } }
  | .emr => { s with emr := merge16 s.emr n d }
  | .spc => s
  | .pcw =>
    if s.pcwLocked then s
    else { s with pcw := merge16 s.pcw n d, pcwLocked := locksPcw n d }
  | .dauc => { s with dauc := d.extractLsb' 0 8 }
  | .ctr => { s with ctr := 0#2 ++ d.extractLsb' 0 6 }

/-- dauc[7] "must be set to zero" (R37): a transfer that would set it is refused. -/
def checkIoData (io : IoReg) (d : Word) : Res Unit :=
  if io = .dauc ∧ d.getLsbD 7 = true then .error (.refuse .daucBit7) else .ok ()

/-! ### Delayed loads -/

/-- Issue a load: its write comes at the end of the next instruction, and no interrupt falls between
(R286, R287, R293). -/
def State.issue (s : State) (l : PendingLoad) : State :=
  { s with latch := { s.latch with load := some l }, inhibit := true }

/-- The write of the loaded register.  If the instruction in between wrote it, it is a free value
(R287, R443). -/
def State.commitDest (s : State) (rD : LoadDest) (v : Word) : State :=
  match rD with
  | .pcsh => { s with pcsh := v }
  | .reg r =>
    if s.latch.wroteRegs.contains r then
      { s with regs := writeRegs s.regs r (s.drawn 32) }.countDraw
    else { s with regs := writeRegs s.regs r v }

/-- The flags nz00 of a load.  If the instruction in between wrote the CAU flags, they are free values
(R287, R443). -/
def State.commitFlags (s : State) (v : Word) : State :=
  if s.latch.wroteFlags then { s with ps := withCau s.ps (s.drawn 4) }.countDraw
  else { s with ps := withCau s.ps (cauOfValue v).nibble }

/-- Commit the load that the previous instruction issued (R190 step 5a). -/
def State.commitLoad (s : State) : State :=
  match s.pendingLoad with
  | none => s
  | some (.reg rD v) => (s.commitDest rD v).commitFlags v
  | some (.ior io n d) => s.ioWrite io n d

/-! ### Branches and do loops -/

/-- `branch_after_next(t)` (R190). -/
def State.branchTo (s : State) (t : Word) : State :=
  { s with latch := { s.latch with target := some t } }

/-- `inhibit <- 1` (R85, R193). -/
def State.holdInterrupts (s : State) : State := { s with inhibit := true }

/-- Begin a do loop of `k + 1` instructions and `count + 1` passes (R205). -/
def State.startLoop (s : State) (kind : DoKind) (k : BitVec 7) (count : BitVec 11) : State :=
  { s with
    loop :=
      { active := true
        kind := kind
        start := s.pc + 4#32
        stop := s.pc + 4#32 + 4#32 * k.setWidth 32
        iter := count
        tail := false
        passes := 0#12 } }

/-! ### Exceptions -/

/-- Emit an event. -/
def State.emit (s : State) (e : Event) : State := { s with out := s.out ++ [e] }

/-- Change the processor level; with emr[0] = 1 the change shows on IACK (R401). -/
def State.setLevel (s : State) (l : Level) : State :=
  let t := { s with level := l }
  if s.emr.getLsbD 0 then t.emit (.level l) else t

/-- The vector index of an error (R381). -/
def ErrorSource.index : ErrorSource → Nat
  | .busError => 1
  | .illegalOpcode => 2
  | .addressError => 4

/-- The address of vector `i`: EVTP is r22 (R381, R382). -/
def State.vector (s : State) (i : Nat) : Word := s.reg 22 + BitVec.ofNat 32 (8 * i)

/-- Continue at vector `i`, fetched under the map now in force, with an empty history (R386, R390,
R448). -/
def State.goVector (s : State) (i : Nat) : State :=
  let v := s.vector i
  { s with pc := v, npc := v + 4#32, ir := s.fetch v, history := [], inSlot := false }

/-- The shadow set that an interrupt saves (R81, R386), with the flag results in flight by default. -/
def State.shadowOf (s : State) : Shadow :=
  ⟨s.ir, s.pc, s.ps, if s.params.exc.inFlight then s.queue else [], s.loop⟩

/-- No loop. -/
def DoState.off (d : DoState) : DoState := { d with active := false, tail := false }

/-- A flag entry made of free bits, present where bit 5 is set. -/
def drawnEntry (b : BitVec 6) (left : Nat) : List FlagEntry :=
  if b.getLsbD 5 then
    [⟨b.getLsbD 0, b.getLsbD 1, b.getLsbD 2, b.getLsbD 3, b.getLsbD 4, left⟩]
  else []

/-- A shadow set made of the free values from number `n` on (R390). -/
def drawnShadow (n : Nat) : Shadow where
  instr := .word (Config.free 32 n)
  pc := Config.free 32 (n + 1)
  ps := Config.free 8 (n + 2)
  queue := drawnEntry (Config.free 6 (n + 3)) 1 ++ drawnEntry (Config.free 6 (n + 4)) 2
    ++ drawnEntry (Config.free 6 (n + 5)) 3
  loop :=
    { active := (Config.free 1 (n + 6)).getLsbD 0
      kind :=
        match (Config.free 2 (n + 7)).toNat with
        | 0 => .plain
        | 1 => .lock
        | _ => .block
      start := Config.free 32 (n + 8)
      stop := Config.free 32 (n + 9)
      iter := Config.free 11 (n + 10)
      tail := (Config.free 1 (n + 11)).getLsbD 0
      passes := Config.free 12 (n + 12) }

/-- What is taken: an error, or interrupt `i`. -/
inductive Taken where
  | error (e : ErrorSource)
  | interrupt (i : Nat)
deriving DecidableEq, Repr

/-- The vector index of what is taken (R381). -/
def Taken.index : Taken → Nat
  | .error e => e.index
  | .interrupt i => i

/-- The level after an error is taken, none at double error level (R383). -/
def Level.afterError : Level → Option Level
  | .base | .interrupt => some .error
  | .error => some .doubleError
  | .doubleError => none

/-- pcsh and the shadow set after the entry of an error, by the parameter `EXC_ENTRY` (R390). -/
def State.saveAtError (s : State) : State :=
  match s.params.exc.errorShadow with
  | .unknown =>
    { s with
      pcsh := s.drawn 32
      shadow := drawnShadow (s.draws + 1)
      draws := s.draws + 14 }
  | .written => { s with pcsh := s.npc, shadow := s.shadowOf }
  | .kept => s

/-- TAKING AN EXCEPTION (R386, R390): what an interrupt saves and an error leaves open, the level, and
the vector.  Flag results in flight that the shadow set does not hold stay in flight. -/
def State.takeException (s : State) (x : Taken) : Res State :=
  match x with
  | .interrupt i =>
    let t := { s with
      shadow := s.shadowOf
      pcsh := s.npc
      queue := if s.params.exc.inFlight then [] else s.queue
      loop := s.loop.off
      pending := s.pending &&& ~~~(1#16 <<< i) }
    .ok (((t.setLevel .interrupt).emit (.acknowledge i)).goVector i)
  | .error e =>
    match s.level.afterError with
    | none => .error (.refuse .errorAtDoubleError)
    | some l =>
      let t := { s.saveAtError with
        errorRequest := none
        waiting := false
        inhibit := false
        queue := []
        loop := s.loop.off }
      .ok ((t.setLevel l).goVector e.index)

/-- THE RETURN FROM AN INTERRUPT (R392): flags, do loop and level come back, and the step ends with the
shadow instruction next and pcsh after it. -/
def State.returnFromInterrupt (s : State) : Res State :=
  if s.level = .interrupt then
    let t := { s with
      ps := s.shadow.ps
      queue := if s.params.exc.inFlight then s.shadow.queue else s.queue
      loop := s.shadow.loop
      inhibit := true
      latch := { s.latch with
        wroteFlags := true
        resume := some (s.shadow.instr, s.shadow.pc, s.pcsh) } }
    .ok (t.setLevel .base)
  else .error (.refuse .ireturnLevel)

/-- Is an enabled request pending (R386, R396)?  The sources with a request are 5, 6, 8, 9 and 11 to
15; bits 3:0, 4, 7 and 10 of pending are never set. -/
def State.enabledRequests (s : State) : BitVec 16 := s.pending &&& s.emr &&& 0xFB60#16

/-- sftrst (R394). -/
def State.softReset (s : State) : Res State :=
  match s.level with
  | .error | .doubleError => .ok (s.setLevel .base)
  | .base | .interrupt => .error (.refuse .sftrstLevel)

/-- waiti (R396): the queue drains first; a pending enabled request cancels the wait. -/
def State.waitForInterrupt (s : State) : Res State :=
  if s.level = .base then
    let t := { s.settleAll s.queue with queue := [] }
    if t.enabledRequests = 0#16 then .ok { t with waiting := true } else .ok t
  else .error (.refuse .waitiLevel)

/-- bkpt (R398): an event, nothing else. -/
def State.breakpoint (s : State) : State := s.emit .breakpoint

end Sys2Proof.Machine
end

