-- ==== Sys2Proof/Machine/Flags.lean ====
section
/-! DEFINITION. Every flag computation of the CAU (41_ca_alu.md R231, R246, R252 to R257) and the condition
codes (R150). -/

namespace Sys2Proof.Machine

/-- A result of `w` bits with its CAU flags. -/
structure AluResult (w : Nat) where
  value : BitVec w
  flags : CauFlags
deriving DecidableEq, Repr

/-- `flags_add(w, a, b, cin)` (R231). -/
def flagsAdd {w : Nat} (a b : BitVec w) (cin : Bool) : AluResult w :=
  let r := a + b + BitVec.ofNat w cin.toNat
  ⟨r, r.msb, r == 0#w, a.msb == b.msb && r.msb != a.msb, 2 ^ w ≤ a.toNat + b.toNat + cin.toNat⟩

/-- `flags_sub(w, a, b)`: c is a borrow (R231). -/
def flagsSub {w : Nat} (a b : BitVec w) : AluResult w :=
  let r := a - b
  ⟨r, r.msb, r == 0#w, a.msb != b.msb && r.msb != a.msb, a.toNat < b.toNat⟩

/-- `flags_logic(w, r)` (R231). -/
def flagsLogic {w : Nat} (r : BitVec w) : AluResult w := ⟨r, r.msb, r == 0#w, false, false⟩

/-- `rev(x)`: the bits in the opposite order (R246). -/
def revBits {w : Nat} (x : BitVec w) : BitVec w := bitsOf w fun i => x.getLsbD (w - 1 - i)

/-- The carry-reverse addition (R246). -/
def flagsCarryReverse {w : Nat} (a b : BitVec w) : AluResult w :=
  let r := revBits (revBits a + revBits b)
  ⟨r, r.msb, r == 0#w, false, 2 ^ w ≤ (revBits a).toNat + (revBits b).toNat⟩

/-- Shift left by `k` places (R252). -/
def flagsShl {w : Nat} (a : BitVec w) (k : Nat) : AluResult w := flagsLogic (a <<< k)

/-- Logical shift right by `k` places (R253). -/
def flagsShr {w : Nat} (a : BitVec w) (k : Nat) : AluResult w := flagsLogic (a >>> k)

/-- Arithmetic shift right by `k` places (R254). -/
def flagsSar {w : Nat} (a : BitVec w) (k : Nat) : AluResult w := flagsLogic (a.sshiftRight k)

/-- Rotate right by one through the carry (R256). -/
def flagsRor {w : Nat} (a : BitVec w) (c : Bool) : AluResult w :=
  let r := a >>> 1 ||| BitVec.ofNat w c.toNat <<< (w - 1)
  ⟨r, r.msb, r == 0#w, false, a.getLsbD 0⟩

/-- Rotate left by one through the carry (R257). -/
def flagsRol {w : Nat} (a : BitVec w) (c : Bool) : AluResult w :=
  let r := a <<< 1 ||| BitVec.ofNat w c.toNat
  ⟨r, r.msb, r == 0#w, r.msb != a.msb, a.msb⟩

/-- The DAU flags that a CA condition tests: the settled ones (R30, R446). -/
def State.dauN (s : State) : Bool := s.ps.getLsbD 4
@[inherit_doc State.dauN] def State.dauZ (s : State) : Bool := s.ps.getLsbD 5
@[inherit_doc State.dauN] def State.dauU (s : State) : Bool := s.ps.getLsbD 6
@[inherit_doc State.dauN] def State.dauV (s : State) : Bool := s.ps.getLsbD 7

/-- `cond(C)` (R150). -/
def State.cond (s : State) (c : Cond) : Bool :=
  let f := s.cau
  match c with
  | .never => false
  | .always => true
  | .pl => !f.n
  | .mi => f.n
  | .ne => !f.z
  | .eq => f.z
  | .vc => !f.v
  | .vs => f.v
  | .cc => !f.c
  | .cs => f.c
  | .ge => !(f.n ^^ f.v)
  | .lt => f.n ^^ f.v
  | .gt => !(f.z || (f.n ^^ f.v))
  | .le => f.z || (f.n ^^ f.v)
  | .hi => !(f.c || f.z)
  | .ls => f.c || f.z
  | .auc => !s.dauU
  | .aus => s.dauU
  | .age => !s.dauN
  | .alt => s.dauN
  | .ane => !s.dauZ
  | .aeq => s.dauZ
  | .avc => !s.dauV
  | .avs => s.dauV
  | .agt => !(s.dauN || s.dauZ)
  | .ale => s.dauN || s.dauZ
  | .ibe => !s.pins.ibf
  | .ibf => s.pins.ibf
  | .obf => !s.pins.obe
  | .obe => s.pins.obe
  | .syc => !s.pins.sy
  | .sys => s.pins.sy
  | .fbc => !s.pins.fb
  | .fbs => s.pins.fb
  | .ir0c => !s.pins.ir0
  | .ir0s => s.pins.ir0
  | .ir1c => !s.pins.ir1
  | .ir1s => s.pins.ir1

end Sys2Proof.Machine
end

