-- ==== Sys2Proof/Machine/Formats.lean ====
section
/-! DEFINITION. The numbers of a format other than the default `DSP_FLOAT`, as far as R322 fixes them for
every format: which values 40 bits stand for, and where a result leaves the format.  What R322 leaves open
is constants of Config without a body (notes/assumptions/9.md). -/

namespace Sys2Proof.Machine

/-- The largest magnitude of a word, of each sign: that of 0x7FFFFFFF and of 0x800000FF (R322 (c)).  A
format holds 1 and -1. -/
def otherBound (k : Nat) (neg : Bool) : Rat := max 1 (Config.otherLargest k neg)

/-- The largest magnitude of 40 bits: the guard bits only add precision (R322 (e)). -/
def otherReach (k : Nat) (neg : Bool) : Rat := otherBound k neg + |Config.otherGuard k neg|

/-- The smallest magnitude that is not zero, of each sign. -/
def otherLeast (k : Nat) (neg : Bool) : Rat :=
  let r := Config.otherSmallest k neg
  if 0 < r then min 1 r else 1

/-- The word of the value 1 (R320).  It is none of the words that R322 gives a value. -/
def otherOneWord (k : Nat) : Word :=
  let w := Config.otherOne k
  if w = 0#32 ∨ w = 0x7FFFFFFF#32 ∨ w = 0x800000FF#32 then 0x00000080#32 else w

/-- Can the format hold the value in these bits: is it within the bounds of a word, or of 40 bits where
guard bits are set (R322 (c), (e))? -/
def otherHolds (k : Nat) (a : Acc40) (r : Rat) : Bool :=
  let neg := decide (r < 0)
  let top := if a.extractLsb' 0 8 = 0#8 then otherBound k neg else otherReach k neg
  decide (otherLeast k neg ≤ |r| ∧ |r| ≤ top)

/-- The value of 40 bits (R322): 0 is zero (b), the two extremes are those of (c), and bits that are no
number of the format stand for zero (d). -/
def otherVal40 (k : Nat) (a : Acc40) : Rat :=
  if a = 0#40 then 0
  else if a = 0x7FFFFFFF00#40 then otherBound k false
  else if a = 0x800000FF00#40 then -otherBound k true
  else if a = otherOneWord k ++ 0#8 then 1
  else if otherHolds k a (Config.otherValue k a) then Config.otherValue k a
  else 0

/-- The value of a word (R322). -/
def otherVal32 (k : Nat) (w : Word) : Rat := otherVal40 k (w ++ 0#8)

/-! ### The nearest number -/

/-- The index below `n` whose value is nearest to `v`; of two equally near values the greater (R365). -/
def nearest (val : Nat → Rat) (v : Rat) : Nat → Nat
  | 0 => 0
  | n + 1 =>
    let b := nearest val v n
    if |val n - v| < |val b - v| ∨ |val n - v| = |val b - v| ∧ val b < val n then n else b

/-- The word of format `k` nearest to `v`.  Which of the words of that value it is, `choice` says. -/
def otherWordNear (k : Nat) (v : Rat) (choice : Word) : Word :=
  let w := BitVec.ofNat 32 (nearest (fun i => otherVal32 k (BitVec.ofNat 32 i)) v (2 ^ 32))
  if otherVal32 k choice = otherVal32 k w then choice else w

/-- The accumulator of format `k` nearest to `v`; `choice` as for a word.  A `choice` that has the value of
the nearest word is taken, too: whether the guard bits are used is not stated (R358). -/
def otherAccNear (k : Nat) (v : Rat) (choice : Acc40) : Acc40 :=
  let a := BitVec.ofNat 40 (nearest (fun i => otherVal40 k (BitVec.ofNat 40 i)) v (2 ^ 40))
  let c := otherVal40 k choice
  if c = otherVal40 k a ∨ c = otherVal32 k (otherWordNear k v 0#32) then choice else a

/-- The value is nearer to zero than every word of its sign that is not zero. -/
def otherBelowWords (k : Nat) (v : Rat) : Bool :=
  decide (∀ w : Word, (0 < otherVal32 k w → v < otherVal32 k w) ∧ (otherVal32 k w < 0 → otherVal32 k w < v))

/-! ### IEEE numbers (R362, R364) -/

/-- Is the word a normal IEEE single? -/
def ieeeIsNormal (w : Word) : Bool := w.extractLsb' 23 8 != 0#8 && w.extractLsb' 23 8 != 255#8

/-- The value of a normal IEEE single; of any other word, 0. -/
def ieeeNumber (w : Word) : Rat :=
  if ieeeIsNormal w then
    (if w.getLsbD 31 then -1 else 1) * (2 ^ 23 + (w.extractLsb' 0 23).toNat)
      * (2 : Rat) ^ (((w.extractLsb' 23 8).toNat : Int) - 150)
  else 0

/-- A word that is no NaN: with exponent 255 the mantissa is 0 (R364). -/
def notNan (w : Word) : Word := if w.extractLsb' 23 8 = 255#8 then w &&& 0xFF800000#32 else w

/-- The IEEE word of a value (R364): the normal number of this value, 0 below them all, and where there is
none, `choice`, but no NaN. -/
def ieeeOfValue (v : Rat) (choice : Word) : Word :=
  let w := BitVec.ofNat 32 (nearest (fun i => ieeeNumber (BitVec.ofNat 32 i)) v (2 ^ 32))
  if |v| < 1 / 2 ^ 126 then 0#32 else if ieeeNumber w = v then w else notNan choice

/-! ### Leaving the range -/

/-- V and U of a result whose exact value is `v`, the largest magnitude of the result being `top` (R322
(a)).  How the result is rounded is not stated: between the end of the range and the constant beyond it
`edge` says whether the result leaves the format. -/
def otherRange (k : Nat) (top v : Rat) (edge : Bool) : Bool × Bool :=
  let neg := decide (v < 0)
  let m := |v|
  (decide (top < m) && (edge || decide (top + |Config.otherMargin k neg false| < m)),
    decide (m ≠ 0 ∧ m < otherLeast k neg)
      && (edge || decide (m + |Config.otherMargin k neg true| < otherLeast k neg)))

end Sys2Proof.Machine
end

