-- ==== Sys2Proof/Machine/Operands.lean ====
section
/-! DEFINITION. Every operand form: register and pc operands (R27), immediates (R153), the pointer operands
of the moves (R283), placement of loaded and stored data (R286, R290), and the DA operands with their
post-modification (R325 to R327, R351). -/

namespace Sys2Proof
namespace Machine

/-! ### CA operands -/

/-- `sext_16(N)` (R153). -/
def sext16 (n : Half) : Word := n.signExtend 32

/-- `zext_24(M)` (R148). -/
def zext24 (m : BitVec 24) : Word := m.setWidth 32

/-- The value of rB (R192). -/
def State.baseValue (s : State) (b : Base) : Word :=
  match b with
  | .reg r => s.reg r
  | .pc => s.pcOperand

/-- The value of rS3, or of the rS of a store (R25 to R27). -/
def State.sourceValue (s : State) (b : Source) : Word :=
  match b with
  | .reg r => s.reg r
  | .pc => s.pcOperand
  | .pcsh => s.pcsh

/-- The target `R(rB) + sext_16(N)` (R192). -/
def State.target (s : State) (b : Base) (n : Half) : Word := s.baseValue b + sext16 n

/-- The transfer size of W in bytes (R151, R286, R290). -/
def widthBytes (w : Width) : Nat :=
  match w with
  | .byte | .char | .hbyte => 1
  | .ushort | .short => 2
  | .long => 4

/-- A loaded value in its register, from the `widthBytes` low bytes of `d` (R286). -/
def placeLoad (w : Width) (d : Word) : Word :=
  match w with
  | .byte => (d.setWidth 8).setWidth 32
  | .char => (d.setWidth 8).signExtend 32
  | .ushort => (d.setWidth 16).setWidth 32
  | .short => (d.setWidth 16).signExtend 32
  | .hbyte => (d.setWidth 8).setWidth 32 <<< 8
  | .long => d

/-- The data a store takes from its register (R290). -/
def placeStore (w : Width) (v : Word) : Word :=
  match w with
  | .byte | .char => v.setWidth 8 |>.setWidth 32
  | .hbyte => (v.extractLsb' 8 8).setWidth 32
  | .ushort | .short => v.setWidth 16 |>.setWidth 32
  | .long => v

/-- The increment of a pointer operand with a transfer of `n` bytes (R283). -/
def State.increment (s : State) (i : Increment) (n : Nat) : Word :=
  match i with
  | .reg r => s.reg r
  | .plusN => BitVec.ofNat 32 n
  | .minusN => -BitVec.ofNat 32 n

/-- `r[rP] <- r[rP] + inc`, both read in `s` (R283).  `*rP` names r0, so its increment is 0: it writes
rP as the other forms do, which counts for the load-delay rule (R287). -/
def State.bumpPointer (s : State) (rP : Reg) (i : Increment) (n : Nat) : State :=
  s.setReg rP (s.reg rP + s.increment i n)

/-- sp as pointer needs the long size (R285). -/
def checkSp (rP : Reg) (w : Width) : Res Unit :=
  if rP = Reg.sp ∧ w ≠ .long then .error (.refuse .spTransferSize) else .ok ()

/-! ### DA operands -/

/-- The increment of a DA memory operand of `n` bytes (R327, R351). -/
def State.daIncrement (s : State) (i : PostMod) (n : Nat) : Word :=
  match i with
  | .keep => 0#32
  | .inc k => s.reg ⟨15 + k.val, by omega⟩
  | .minus => -BitVec.ofNat 32 n
  | .plus => BitVec.ofNat 32 n

/-- Post-modify the pointer of a DA memory operand (R327). -/
def State.postModify (s : State) (m : DaMem) (n : Nat) : State :=
  if m.i = .keep then s else s.setReg m.reg (s.reg m.reg + s.daIncrement m.i n)

/-- Post-modify where X or Y is a memory operand. -/
def State.postOperand (s : State) (o : DaOperand) (n : Nat) : State :=
  match o with
  | .acc _ => s
  | .mem m => s.postModify m n

/-- Post-modify where Z is a memory operand. -/
def State.postDest (s : State) (z : DaDest) (n : Nat) : State :=
  match z with
  | .none => s
  | .mem m => s.postModify m n

/-- What a DA operand holds: an accumulator's 40 bits, or a memory item of the operand's size (R325,
R351). -/
inductive DaValue where
  | acc (a : Acc40)
  | mem (w : Word)
deriving DecidableEq, Repr

/-- Read X or Y; a memory operand has `n` bytes (R325, R352). -/
def State.daRead (s : State) (o : DaOperand) (n : Nat) : Res DaValue :=
  match o with
  | .acc a => .ok (.acc (s.acc a))
  | .mem m => do
    let w ← s.load (s.reg m.reg) n
    .ok (.mem w)

/-- Write Z, `n` bytes (R326, R352). -/
def State.daWrite (s : State) (z : DaDest) (n : Nat) (v : Word) : Res State :=
  match z with
  | .none => .ok s
  | .mem m => s.store (s.reg m.reg) n v

end Machine

open Machine

/-! ### Words as numbers in a format (R322 to R324) -/

/-- Do the 40 bits stand for zero, dirty ones included (R322)?  By default the exponent is 0 (R324). -/
def FloatFormat.isZero40 (fm : FloatFormat) (a : Acc40) : Bool :=
  match fm with
  | .excess128 => a.extractLsb' 8 8 == 0#8
  | .other k => otherVal40 k a == 0

/-- An accumulator that stands for zero acts as 0 (R322 (d)). -/
def FloatFormat.clean40 (fm : FloatFormat) (a : Acc40) : Acc40 := if fm.isZero40 a then 0#40 else a

/-- Is the word a zero, a dirty one included (R322)?  By default its exponent is 0 (R323). -/
def FloatFormat.isZero (fm : FloatFormat) (w : Word) : Bool :=
  match fm with
  | .excess128 => w.extractLsb' 0 8 == 0#8
  | .other k => otherVal32 k w == 0

/-- `clean32`: a dirty zero becomes 0 (R322, R323). -/
def FloatFormat.clean32 (fm : FloatFormat) (w : Word) : Word :=
  if fm.isZero w then 0#32 else w

/-- `to40(w)` (R324). -/
def FloatFormat.to40 (fm : FloatFormat) (w : Word) : Acc40 := fm.clean32 w ++ 0#8

namespace Machine

/-! ### Floating-point views of a DA value (R324) -/

/-- `to32(a)`: the truncation to the 32-bit image (R324). -/
def to32 (a : Acc40) : Word := a.extractLsb' 8 32

/-- The value as an adder input (R331, R332, R352). -/
def DaValue.adder (v : DaValue) (fm : FloatFormat) : Acc40 :=
  match v with
  | .acc a => a
  | .mem w => fm.to40 w

/-- The value as a multiplier input: `mulop` (R338). -/
def DaValue.mulop (v : DaValue) (fm : FloatFormat) : Word :=
  match v with
  | .acc a => to32 a
  | .mem w => fm.clean32 w

/-- The 32 bits that a TAP form copies (R326). -/
def DaValue.raw (v : DaValue) : Word :=
  match v with
  | .acc a => to32 a
  | .mem w => w

/-! ### Integer views of an accumulator (R353) -/

/-- `byte_view` (R353). -/
def byteView (a : Acc40) : Byte := a.extractLsb' 32 8

/-- `half_view` (R353). -/
def halfView (a : Acc40) : Half := a.extractLsb' 24 16

/-- `word_view` (R353). -/
def wordView (a : Acc40) : Word := a.extractLsb' 16 24 ++ a.extractLsb' 0 8

end Machine
end Sys2Proof
end

