-- ==== Sys2Proof/Machine/Alu.lean ====
section
/-! DEFINITION. The meanings of the CA arithmetic and logic instructions (41_ca_alu.md) and of SET (R281). -/

namespace Sys2Proof.Machine

/-- How a short result fills the register: `ext` of R232, zeros for the two logical shifts. -/
inductive Extend where
  | sign | zero
deriving DecidableEq, Repr

/-- The 32 bits written for a short result (R232). -/
def extend (x : Extend) (r : Half) : Word :=
  match x with
  | .sign => r.signExtend 32
  | .zero => r.setWidth 32

/-- The 32-bit value and the flags of an operation at the size of the instruction: the operands are the
low w bits of the sources (R230, R231, R235). -/
def sized (sz : Size) (x : Extend) (f32 : Word → Word → AluResult 32)
    (f16 : Half → Half → AluResult 16) (a b : Word) : Word × CauFlags :=
  match sz with
  | .long => let r := f32 a b; (r.value, r.flags)
  | .short => let r := f16 (a.setWidth 16) (b.setWidth 16); (extend x r.value, r.flags)

/-- Write the result and the flags (R230). -/
def State.putResult (s : State) (rD : Reg) (r : Word × CauFlags) : State :=
  (s.setReg rD r.1).setCau r.2

/-- Do `t` only where the condition holds (R233). -/
def conditionally (c : Cond) (s t : State) : Host.Outcome State Fault Refusal :=
  if s.cond c then .next t else .next s

/-! ### The operations, at either size -/

/-- a + b (R240). -/
def aluAdd (sz : Size) : Word → Word → Word × CauFlags :=
  sized sz .sign (fun a b => flagsAdd a b false) (fun a b => flagsAdd a b false)

/-- a - b (R242). -/
def aluSub (sz : Size) : Word → Word → Word × CauFlags := sized sz .sign flagsSub flagsSub

/-- a # b (R246). -/
def aluCarryReverse (sz : Size) : Word → Word → Word × CauFlags :=
  sized sz .sign flagsCarryReverse flagsCarryReverse

/-- a & b (R247). -/
def aluAnd (sz : Size) : Word → Word → Word × CauFlags :=
  sized sz .sign (fun a b => flagsLogic (a &&& b)) (fun a b => flagsLogic (a &&& b))

/-- a &~ b (R249). -/
def aluAndc (sz : Size) : Word → Word → Word × CauFlags :=
  sized sz .sign (fun a b => flagsLogic (a &&& ~~~b)) (fun a b => flagsLogic (a &&& ~~~b))

/-- a | b (R250). -/
def aluOr (sz : Size) : Word → Word → Word × CauFlags :=
  sized sz .sign (fun a b => flagsLogic (a ||| b)) (fun a b => flagsLogic (a ||| b))

/-- a ^ b (R251). -/
def aluXor (sz : Size) : Word → Word → Word × CauFlags :=
  sized sz .sign (fun a b => flagsLogic (a ^^^ b)) (fun a b => flagsLogic (a ^^^ b))

/-- The shift count: the low 5 bits (R252). -/
def shiftCount (b : Word) : Nat := (b.extractLsb' 0 5).toNat

/-- a << b (R252). -/
def aluShl (sz : Size) (a b : Word) : Word × CauFlags :=
  let k := shiftCount b
  sized sz .zero (fun a _ => flagsShl a k) (fun a _ => flagsShl a k) a b

/-- a >> b (R253). -/
def aluShr (sz : Size) (a b : Word) : Word × CauFlags :=
  let k := shiftCount b
  sized sz .zero (fun a _ => flagsShr a k) (fun a _ => flagsShr a k) a b

/-- a $>> b (R254). -/
def aluSar (sz : Size) (a b : Word) : Word × CauFlags :=
  let k := shiftCount b
  sized sz .sign (fun a _ => flagsSar a k) (fun a _ => flagsSar a k) a b

/-- a >>> 1 through the carry `c` (R256). -/
def aluRor (sz : Size) (c : Bool) (a : Word) : Word × CauFlags :=
  sized sz .sign (fun a _ => flagsRor a c) (fun a _ => flagsRor a c) a a

/-- a <<< 1 through the carry `c` (R257). -/
def aluRol (sz : Size) (c : Bool) (a : Word) : Word × CauFlags :=
  sized sz .sign (fun a _ => flagsRol a c) (fun a _ => flagsRol a c) a a

/-- The constant n of ±n as rS2: 4 beside rS1 = r21, else 1 (R142, R262). -/
def constOperand (rS : Reg) (dec : Bool) : Word :=
  let n : Word := if rS = Reg.sp then 4#32 else 1#32
  if dec then -n else n

/-! ### Add, subtract, compare -/

/-- ADD form (1) (R240). -/
def execAdd3 (sz : Size) (rD : Reg) (rS3 : Source) (n : Half) (s : State) :
    Host.Outcome State Fault Refusal :=
  .next (s.putResult rD (aluAdd sz (s.sourceValue rS3) (sext16 n)))

/-- SET: r0 + N at the short size (R281). -/
def execSet (rD : Reg) (n : Half) (s : State) : Host.Outcome State Fault Refusal :=
  .next (s.putResult rD (aluAdd .short 0#32 (sext16 n)))

/-- ADD form (2) and the spellings of R241 (R240). -/
def execAddReg (sz : Size) (c : Cond) (rD rS1 rS2 : Reg) (s : State) :
    Host.Outcome State Fault Refusal :=
  conditionally c s (s.putResult rD (aluAdd sz (s.reg rS1) (s.reg rS2)))

/-- INCR/DEC form (1): the addition of ±1 (R260). -/
def execIncDec (sz : Size) (c : Cond) (rD rS : Reg) (dec : Bool) (s : State) :
    Host.Outcome State Fault Refusal :=
  conditionally c s (s.putResult rD (aluAdd sz (s.reg rS) (constOperand rS dec)))

/-- INCR/DEC form (2): sp ± 4; interrupts are held off whether or not the condition holds (R261). -/
def execSpIncDec (c : Cond) (dec : Bool) (s : State) : Host.Outcome State Fault Refusal :=
  let t := s.holdInterrupts
  conditionally c t (t.putResult Reg.sp (aluAdd .long (s.reg Reg.sp) (constOperand Reg.sp dec)))

/-- SUBTRACT form (3) (R242). -/
def execSubReg (sz : Size) (c : Cond) (rD rS1 rS2 : Reg) (s : State) :
    Host.Outcome State Fault Refusal :=
  conditionally c s (s.putResult rD (aluSub sz (s.reg rS1) (s.reg rS2)))

/-- SUBTRACT form (1) (R242). -/
def execSubImm (sz : Size) (rD : Reg) (n : Half) (s : State) : Host.Outcome State Fault Refusal :=
  .next (s.putResult rD (aluSub sz (s.reg rD) (sext16 n)))

/-- SUBTRACT form (2), N - rD (R243). -/
def execRsubImm (sz : Size) (rD : Reg) (n : Half) (s : State) : Host.Outcome State Fault Refusal :=
  .next (s.putResult rD (aluSub sz (sext16 n) (s.reg rD)))

/-- SUBTRACT form (4), negate: 0 - rS (R245). -/
def execNeg (sz : Size) (c : Cond) (rD rS : Reg) (s : State) : Host.Outcome State Fault Refusal :=
  conditionally c s (s.putResult rD (aluSub sz 0#32 (s.reg rS)))

/-- COMPARE of registers; rD is ignored (R244). -/
def execCmpReg (sz : Size) (c : Cond) (_rD rS1 rS2 : Reg) (s : State) :
    Host.Outcome State Fault Refusal :=
  conditionally c s (s.setCau (aluSub sz (s.reg rS1) (s.reg rS2)).2)

/-- COMPARE with an immediate (R244). -/
def execCmpImm (sz : Size) (rD : Reg) (n : Half) (s : State) : Host.Outcome State Fault Refusal :=
  .next (s.setCau (aluSub sz (s.reg rD) (sext16 n)).2)

/-- ADD-CARRYREV of registers (R246). -/
def execCrAddReg (sz : Size) (c : Cond) (rD rS1 rS2 : Reg) (s : State) :
    Host.Outcome State Fault Refusal :=
  conditionally c s (s.putResult rD (aluCarryReverse sz (s.reg rS1) (s.reg rS2)))

/-- ADD-CARRYREV with an immediate (R246). -/
def execCrAddImm (sz : Size) (rD : Reg) (n : Half) (s : State) : Host.Outcome State Fault Refusal :=
  .next (s.putResult rD (aluCarryReverse sz (s.reg rD) (sext16 n)))

/-! ### Logic -/

/-- AND of registers (R247). -/
def execAndReg (sz : Size) (c : Cond) (rD rS1 rS2 : Reg) (s : State) :
    Host.Outcome State Fault Refusal :=
  conditionally c s (s.putResult rD (aluAnd sz (s.reg rS1) (s.reg rS2)))

/-- AND with an immediate (R247). -/
def execAndImm (sz : Size) (rD : Reg) (n : Half) (s : State) : Host.Outcome State Fault Refusal :=
  .next (s.putResult rD (aluAnd sz (s.reg rD) (sext16 n)))

/-- BITTEST of registers; rD is ignored (R248). -/
def execBitReg (sz : Size) (c : Cond) (_rD rS1 rS2 : Reg) (s : State) :
    Host.Outcome State Fault Refusal :=
  conditionally c s (s.setCau (aluAnd sz (s.reg rS1) (s.reg rS2)).2)

/-- BITTEST with an immediate (R248). -/
def execBitImm (sz : Size) (rD : Reg) (n : Half) (s : State) : Host.Outcome State Fault Refusal :=
  .next (s.setCau (aluAnd sz (s.reg rD) (sext16 n)).2)

/-- AND-COMPLEMENT (R249). -/
def execAndcReg (sz : Size) (c : Cond) (rD rS1 rS2 : Reg) (s : State) :
    Host.Outcome State Fault Refusal :=
  conditionally c s (s.putResult rD (aluAndc sz (s.reg rS1) (s.reg rS2)))

/-- OR of registers (R250). -/
def execOrReg (sz : Size) (c : Cond) (rD rS1 rS2 : Reg) (s : State) :
    Host.Outcome State Fault Refusal :=
  conditionally c s (s.putResult rD (aluOr sz (s.reg rS1) (s.reg rS2)))

/-- OR with an immediate (R250). -/
def execOrImm (sz : Size) (rD : Reg) (n : Half) (s : State) : Host.Outcome State Fault Refusal :=
  .next (s.putResult rD (aluOr sz (s.reg rD) (sext16 n)))

/-- EXCLUSIVE OR of registers (R251). -/
def execXorReg (sz : Size) (c : Cond) (rD rS1 rS2 : Reg) (s : State) :
    Host.Outcome State Fault Refusal :=
  conditionally c s (s.putResult rD (aluXor sz (s.reg rS1) (s.reg rS2)))

/-- EXCLUSIVE OR with an immediate (R251). -/
def execXorImm (sz : Size) (rD : Reg) (n : Half) (s : State) : Host.Outcome State Fault Refusal :=
  .next (s.putResult rD (aluXor sz (s.reg rD) (sext16 n)))

/-! ### Shifts and rotates -/

/-- SHIFT LEFT by a register (R252). -/
def execShlReg (sz : Size) (c : Cond) (rD rS1 rS2 : Reg) (s : State) :
    Host.Outcome State Fault Refusal :=
  conditionally c s (s.putResult rD (aluShl sz (s.reg rS1) (s.reg rS2)))

/-- SHIFT LEFT by an immediate (R252). -/
def execShlImm (sz : Size) (rD : Reg) (n : Half) (s : State) : Host.Outcome State Fault Refusal :=
  .next (s.putResult rD (aluShl sz (s.reg rD) (sext16 n)))

/-- SHIFT RIGHT by a register (R253). -/
def execShrReg (sz : Size) (c : Cond) (rD rS1 rS2 : Reg) (s : State) :
    Host.Outcome State Fault Refusal :=
  conditionally c s (s.putResult rD (aluShr sz (s.reg rS1) (s.reg rS2)))

/-- SHIFT RIGHT by an immediate (R253). -/
def execShrImm (sz : Size) (rD : Reg) (n : Half) (s : State) : Host.Outcome State Fault Refusal :=
  .next (s.putResult rD (aluShr sz (s.reg rD) (sext16 n)))

/-- SHIFT RIGHT-ARITH by a register (R254). -/
def execSarReg (sz : Size) (c : Cond) (rD rS1 rS2 : Reg) (s : State) :
    Host.Outcome State Fault Refusal :=
  conditionally c s (s.putResult rD (aluSar sz (s.reg rS1) (s.reg rS2)))

/-- SHIFT RIGHT-ARITH by an immediate (R254). -/
def execSarImm (sz : Size) (rD : Reg) (n : Half) (s : State) : Host.Outcome State Fault Refusal :=
  .next (s.putResult rD (aluSar sz (s.reg rD) (sext16 n)))

/-- Shift left by one, the constant +n as the count (R255, R262). -/
def execShl1 (sz : Size) (c : Cond) (rD rS : Reg) (s : State) : Host.Outcome State Fault Refusal :=
  conditionally c s (s.putResult rD (aluShl sz (s.reg rS) (constOperand rS false)))

/-- Logical shift right by one (R255, R262). -/
def execShr1 (sz : Size) (c : Cond) (rD rS : Reg) (s : State) : Host.Outcome State Fault Refusal :=
  conditionally c s (s.putResult rD (aluShr sz (s.reg rS) (constOperand rS false)))

/-- Divide by two: arithmetic shift right by one (R255, R262). -/
def execHalf (sz : Size) (c : Cond) (rD rS : Reg) (s : State) : Host.Outcome State Fault Refusal :=
  conditionally c s (s.putResult rD (aluSar sz (s.reg rS) (constOperand rS false)))

/-- ROTATE RIGHT; rS2 is ignored (R256). -/
def execRor1 (sz : Size) (c : Cond) (rD rS _rS2 : Reg) (s : State) :
    Host.Outcome State Fault Refusal :=
  conditionally c s (s.putResult rD (aluRor sz s.cau.c (s.reg rS)))

/-- ROTATE LEFT; rS2 is ignored (R257). -/
def execRol1 (sz : Size) (c : Cond) (rD rS _rS2 : Reg) (s : State) :
    Host.Outcome State Fault Refusal :=
  conditionally c s (s.putResult rD (aluRol sz s.cau.c (s.reg rS)))

/-- SHIFT-OR, always long (R258). -/
def execShiftOr (rD rS : Reg) (n : Half) (s : State) : Host.Outcome State Fault Refusal :=
  let r := flagsLogic (s.reg rS ||| n.setWidth 32 <<< 16)
  .next (s.putResult rD (r.value, r.flags))

end Sys2Proof.Machine
end

