-- ==== Sys2Proof/Machine/Control.lean ====
section
/-! DEFINITION. The meanings of the control instructions (40_ca_control.md, 60_exceptions.md).  A meaning
is step 5 of R190: what the instruction does, a branch being a latched target. -/

namespace Sys2Proof.Machine

/-- A branch to `t` where `taken` holds; interrupts are held off either way (R193, R194). -/
def branch (taken : Bool) (t : Word) (s : State) : State :=
  if taken then (s.branchTo t).holdInterrupts else s.holdInterrupts

/-- GOTO-CON (R194). -/
def execIfGoto (c : Cond) (rB : Base) (n : Half) (s : State) : Host.Outcome State Fault Refusal :=
  .next (branch (s.cond c) (s.target rB n) s)

/-- GOTO (R195). -/
def execGoto (rB : Base) (n : Half) (s : State) : Host.Outcome State Fault Refusal :=
  .next (branch true (s.target rB n) s)

/-- NOP: a conditional goto never taken (R193, R199). -/
def execNop (rB : Base) (n : Half) (s : State) : Host.Outcome State Fault Refusal :=
  .next (branch false (s.target rB n) s)

/-- RETURN (R202). -/
def execRet (rM : Reg) (s : State) : Host.Outcome State Fault Refusal :=
  .next (branch true (s.reg rM) s)

/-- IRETURN (R197, R392). -/
def execIreturn (s : State) : Host.Outcome State Fault Refusal := resolve s s.returnFromInterrupt

/-- GOTO with a 24-bit displacement (R196). -/
def execGoto24 (rB : Base) (m : BitVec 24) (s : State) : Host.Outcome State Fault Refusal :=
  .next (branch true (s.baseValue rB + zext24 m) s)

/-- GOTO-LOOP: the test is on the value before the decrement (R198). -/
def execLoopGoto (rM : Reg) (rB : Base) (n : Half) (s : State) : Host.Outcome State Fault Refusal :=
  .next (branch (!(s.reg rM).msb) (s.target rB n) (s.setReg rM (s.reg rM - 1#32)))

/-- CALL (R200). -/
def execCall (rM : Reg) (rB : Base) (n : Half) (s : State) : Host.Outcome State Fault Refusal :=
  .next (branch true (s.target rB n) (s.setReg rM s.pcOperand))

/-- CALL with a 24-bit address (R201). -/
def execCall24 (rM : Reg) (m : BitVec 24) (s : State) : Host.Outcome State Fault Refusal :=
  .next (branch true (zext24 m) (s.setReg rM s.pcOperand))

/-- The count of a do in a register: the low 11 bits (R203). -/
def State.loopCount (s : State) (rM : Reg) : BitVec 11 := (s.reg rM).setWidth 11

/-- DO with an immediate count (R203, R205). -/
def execDoImm (k : BitVec 7) (l : BitVec 11) (s : State) : Host.Outcome State Fault Refusal :=
  .next (s.startLoop .plain k l)

/-- DO with a count register (R203, R205). -/
def execDoReg (k : BitVec 7) (rM : Reg) (s : State) : Host.Outcome State Fault Refusal :=
  .next (s.startLoop .plain k (s.loopCount rM))

/-- DOLOCK with an immediate count (R209). -/
def execDolockImm (k : BitVec 7) (l : BitVec 11) (s : State) : Host.Outcome State Fault Refusal :=
  .next (s.startLoop .lock k l)

/-- DOLOCK with a count register (R209). -/
def execDolockReg (k : BitVec 7) (rM : Reg) (s : State) : Host.Outcome State Fault Refusal :=
  .next (s.startLoop .lock k (s.loopCount rM))

/-- DOBLOCK with an immediate count (R210). -/
def execDoblockImm (l : BitVec 11) (s : State) : Host.Outcome State Fault Refusal :=
  .next (s.startLoop .block 0#7 l)

/-- DOBLOCK with a count register (R210). -/
def execDoblockReg (rM : Reg) (s : State) : Host.Outcome State Fault Refusal :=
  .next (s.startLoop .block 0#7 (s.loopCount rM))

/-- SFTRST (R211, R394). -/
def execSftrst (_w0 : Bool) (s : State) : Host.Outcome State Fault Refusal := resolve s s.softReset

/-- WAITI (R212, R396). -/
def execWaiti (s : State) : Host.Outcome State Fault Refusal := resolve s s.waitForInterrupt

/-- BKPT (R213, R398). -/
def execBkpt (_w0 : Bool) (s : State) : Host.Outcome State Fault Refusal := .next s.breakpoint

end Sys2Proof.Machine
end

