-- ==== Sys2Proof/Machine/Environment.lean ====
section
/-! DEFINITION. The other agents (20_memory.md R110, R112; 60_exceptions.md R384, R402, R403; R430): what
each event of State.env does, and when one can come: at the boundary of a step, and before each access
of the core inside it. -/

namespace Sys2Proof.Machine

/-! ### What an agent can do -/

/-- The timer reaches zero: the request, the toggle output, and the reload or the stop (R63, R403).  DESIGN
CHOICE: a stop leaves tcon[0] set (notes/assumptions/17.md). -/
def State.timerExpires (s : State) : State :=
  let p := s.periph
  { s with
    pending := request s.pending 9 true
    periph := { p with
      timerCount := if p.tcon.getLsbD 1 then p.timerInit else 0#32
      timerToggle := if p.tcon.getLsbD 2 then !p.timerToggle else p.timerToggle } }

/-- One selected clock edge: the counter counts down while it is enabled and has not stopped at zero
(R63, R403). -/
def State.timerTicks (s : State) : State :=
  let p := s.periph
  if p.tcon.getLsbD 0 && p.timerCount != 0#32 then
    if p.timerCount = 1#32 then s.timerExpires
    else { s with periph := { p with timerCount := p.timerCount - 1#32 } }
  else s

/-- The data registers that the SIO, DMA and timer agents change (R64, R68).  DESIGN CHOICE: dmac is none of
them: a DMA channel that stops leaves its enable bit ODE or IDE set, which R61 does not state
(notes/assumptions/32.md). -/
def isDataRegister : MmioReg → Bool
  | .ioc | .dmac | .tcon | .bioc | .bio => false
  | .timerCount | .timerInit | .ibuf | .obuf | .idp | .odp | .icnt | .ocnt | .icounter
  | .ocounter => true

/-- RESTN (R430 to R433): the reset state, the memory and the pins being outside the processor.  DESIGN
CHOICE: it clears emr at once and emits no event of the level (R401; notes/assumptions/15.md). -/
def State.restart (s : State) (straps : BitVec 4) : State :=
  let t := { State.afterReset straps s.ir with
    pins := { s.pins with bio := straps ++ s.pins.bio.extractLsb' 0 4 }
    mem := s.mem
    params := s.params
    draws := s.draws
    env := s.env
    out := s.out }
  { t with ir := t.fetch 0#32 }

/-- One event of the environment.  Another bus master reaches external memory, whatever the map of the
core and whatever answers it with BERRN; the serial DMA goes through the map of the core, and its write
to a place that takes none is lost: DESIGN CHOICE, notes/assumptions/25.md (R102, R110, R405). -/
def State.event (s : State) (e : EnvEvent) : State :=
  match e with
  | .sioStatus ibf obe sy fb => { s with pins := { s.pins with ibf := ibf, obe := obe, sy := sy, fb := fb } }
  | .ir0 high => { s with pins := { s.pins with ir0 := high }, pending := request s.pending 8 (!high) }
  | .ir1 high => { s with pins := { s.pins with ir1 := high }, pending := request s.pending 15 (!high) }
  | .bioPins v => { s with pins := { s.pins with bio := v } }
  | .timerTick => s.timerTicks
  | .timerZero => if s.periph.tcon.getLsbD 0 then s.timerExpires else s
  | .sioRequest k => { s with pending := request s.pending (11 + k.val) true }
  | .periphData r v => if isDataRegister r then { s with periph := s.periph.write r v } else s
  | .shiftRegisters i o => { s with periph := { s.periph with isr := i, osr := o } }
  | .busWrite a v => { s with mem := s.mem.write a.toNat v }
  | .dmaWrite a v =>
    match s.place a with
    | .ram k => { s with mem := s.mem.write k v }
    | .rom _ | .mmio | .empty | .berr => s
  | .berr l => { s with pins := { s.pins with berr := l } }
  | .restn straps => s.restart straps

/-- Is the event an access to memory by another agent (R112)? -/
def isMemEvent : EnvEvent → Bool
  | .busWrite .. | .dmaWrite .. => true
  | _ => false

/-- Is the event RESTN? -/
def isRestn : EnvEvent → Bool
  | .restn _ => true
  | _ => false

/-! ### When the agents act (R112) -/

/-- Is the instruction at pc part of a loop body (R205)? -/
def State.inBody (s : State) : Bool := s.loop.active || s.loop.tail

/-- In a dolock loop, or inside a quad word of a doblock (R112, R209, R210, R385). -/
def State.locked (s : State) : Bool :=
  s.inBody && (s.loop.kind == .lock || (s.loop.kind == .block && s.loop.passes.toNat % 4 != 0))

/-- The instruction at pc belongs to a dolock loop or moves a word of a quad word (R112). -/
def State.holdsBus (s : State) : Bool := s.inBody && (s.loop.kind == .lock || s.loop.kind == .block)

/-- Put events before those of the next moment. -/
def defer (es : List EnvEvent) (env : List (List EnvEvent)) : List (List EnvEvent) :=
  if es.isEmpty then env
  else
    match env with
    | [] => [es]
    | e :: r => (es ++ e) :: r

/-- One moment of the environment: its list of events, those that `waits` holds back being put off to
the next moment. -/
def State.moment (s : State) (waits : EnvEvent → Bool) : State :=
  match s.env with
  | [] => s
  | es :: rest =>
    (es.filter (!waits ·)).foldl State.event { s with env := defer (es.filter waits) rest }

/-- The environment's part of a boundary.  While the core holds the bus, other agents' memory accesses
wait (R112). -/
def State.environment (s : State) : State := s.moment fun e => s.locked && isMemEvent e

/-- The moment before an access of the core inside an instruction: each access is one step, and steps of
other agents come in between, but none on memory in a dolock loop or a quad word (R112).  DESIGN CHOICE:
RESTN waits for the boundary (notes/assumptions/15.md). -/
def State.interleave (s : State) : State :=
  s.moment fun e => isRestn e || s.holdsBus && isMemEvent e

end Sys2Proof.Machine
end

