-- ==== Sys2Proof/Machine/Float.lean ====
section
/-! DEFINITION. The DAU arithmetic (43_da_mac.md R322 to R324, 44_da_special.md R357 to R366): the default
`DSP_FLOAT` first, its values being exact integers at the fixed scale 2^-302, so that nothing is rounded
on the way; then every format, the default among them (notes/assumptions/9.md). -/

namespace Sys2Proof
namespace Machine

/-! ### Exact values -/

/-- The mantissa of an accumulator times 2^31, with the sign and the hidden bit (R323, R324): bits
39, 38:16 and the guard bits 7:0. -/
def mantissa40 (a : Acc40) : Int :=
  let f : Int := (a.extractLsb' 16 23 ++ a.extractLsb' 0 8).toNat
  if a.getLsbD 39 then f - 4294967296 else f + 2147483648

/-- The exponent field of an accumulator (R324). -/
def exponent40 (a : Acc40) : Nat := (a.extractLsb' 8 8).toNat

/-- `val40(a)` times 2^302 (R324): zero where the exponent is 0. -/
def exact40 (a : Acc40) : Int :=
  if exponent40 a = 0 then 0 else mantissa40 a <<< (exponent40 a + 143)

/-- The mantissa of a 32-bit float times 2^23 (R323). -/
def mantissa32 (w : Word) : Int :=
  let f : Int := (w.extractLsb' 8 23).toNat
  if w.getLsbD 31 then f - 16777216 else f + 8388608

/-- The exponent field of a 32-bit float (R323). -/
def exponent32 (w : Word) : Nat := (w.extractLsb' 0 8).toNat

/-- `val(y) * val(x)` times 2^302 (R322, R323). -/
def exactProduct (y x : Word) : Int :=
  if exponent32 y = 0 ∨ exponent32 x = 0 then 0
  else (mantissa32 y * mantissa32 x) <<< (exponent32 y + exponent32 x)

/-- `(-1)^b * v`. -/
def signed (b : Bool) (v : Int) : Int := if b then -v else v

/-- The sum that `mac` approximates, times 2^302 (R322). -/
def exactMac (t : Acc40) (negT negP : Bool) (y x : Word) : Int :=
  signed negT (exact40 t) + signed negP (exactProduct y x)

/-! ### Back to 40 bits -/

/-- The exponent field a nonzero value at scale 2^-302 needs, and its mantissa times 2^31 (R323): with
v > 0 the mantissa is in [1, 2), with v < 0 in [-2, -1).  The third part says whether the mantissa
is exact. -/
def normalize (v : Int) : Int × Int × Bool :=
  let k := if 0 < v then v.toNat.log2 else ((-v).toNat - 1).log2
  let e : Int := (k : Int) - 174
  if k ≤ 31 then (e, v <<< (31 - k), true)
  else
    let m := v >>> (k - 31)
    (e, m, decide (m <<< (k - 31) = v))

/-- An accumulator from its exponent field and its mantissa times 2^31 (R324). -/
def assemble (e : Nat) (m : Int) : Acc40 :=
  let bits : BitVec 32 := BitVec.ofInt 32 (if 0 ≤ m then m - 2147483648 else m)
  let frac : BitVec 31 := bits.setWidth 31
  BitVec.ofBool (decide (m < 0)) ++ frac.extractLsb' 8 23 ++ BitVec.ofNat 8 e ++ frac.extractLsb' 0 8

/-- The flags N, Z, V, U of a result, and its bits. -/
structure DauResult where
  value : Acc40
  n : Bool
  z : Bool
  v : Bool
  u : Bool
deriving DecidableEq, Repr

/-- Zero as a result; `u` where it is an underflow. -/
def DauResult.zero (u : Bool) : DauResult := ⟨0#40, false, true, false, u⟩

/-- The saturated result of an overflow (R322). -/
def DauResult.saturated (neg : Bool) : DauResult :=
  ⟨if neg then 0x800000FF00#40 else 0x7FFFFFFFFF#40, neg, false, true, false⟩

/-- A result within the format: N and Z from its bits; a value with exponent 0 is zero (R322). -/
def DauResult.ofBits (a : Acc40) : DauResult :=
  if a.extractLsb' 8 8 = 0#8 then ⟨0#40, false, true, false, false⟩
  else ⟨a, a.getLsbD 39, false, false, false⟩

/-- The largest mantissa below 2, and the greatest mantissa below -1, times 2^31. -/
def topMantissa : Int := 4294967295
@[inherit_doc topMantissa] def negTopMantissa : Int := -2147483649

/-- `mac` (R322).  An exact result that 40 bits hold is that result; beyond the format's range it
saturates (V) or is zero (U).  Any other result is only "approximated": a free value
(notes/assumptions/7.md), and where the exact result lies beyond the last representable value next to
the end of the range, so is whether it overflows or underflows. -/
def mac (t : Acc40) (negT negP : Bool) (y x : Word) : DauResult :=
  let v := exactMac t negT negP y x
  if v = 0 then .zero false
  else
    let (e, m, exact) := normalize v
    if 255 < e then .saturated (decide (v < 0))
    else if e < 1 then .zero true
    else if exact then .ofBits (assemble e.toNat m)
    else if e = 255 ∧ m = topMantissa ∧ Config.macEdge t negT negP y x = true then .saturated false
    else if e = 1 ∧ m = negTopMantissa ∧ Config.macEdge t negT negP y x = true then .zero true
    else .ofBits (Config.macApprox t negT negP y x)

/-- The result of a conversion of an integer, with N and Z of the integer and V = U = 0 (R355, R356,
R358). -/
def DauResult.ofInt (value : Acc40) (n : Int) : DauResult :=
  ⟨value, decide (n < 0), decide (n = 0), false, false⟩

/-- The flag entry of a result (R328). -/
def DauResult.entry (r : DauResult) : FlagEntry := .fresh r.n r.z r.v r.u false

/-! ### Conversions from integers -/

/-- `float_of_int(n)` (R357), for -2^32 ≤ n < 2^32, where its formula is exact.  Every operand is in this
range: DESIGN CHOICE for the entries of a companding table other than the default
(notes/assumptions/31.md).  For any other n the formula's mantissa would wrap. -/
def floatOfInt (n : Int) : Acc40 :=
  if n = 0 then 0#40
  else if n = -1 then 0x8000007F00#40
  else
    let k := if 0 < n then n.toNat.log2 else ((-n).toNat - 1).log2
    assemble (128 + k) (n <<< (31 - k))

/-! ### Conversions to integers -/

/-- `rnd(x)` by dauc[5:4] (R359), x = val40(a): x = m * 2^(e - 159). -/
def roundInt (dauc : BitVec 8) (a : Acc40) : Int :=
  let e := exponent40 a
  let m := mantissa40 a
  if e = 0 then 0
  else if 159 ≤ e then m <<< (e - 159)
  else
    let k := 159 - e
    if dauc.getLsbD 4 then
      if dauc.getLsbD 5 && decide (m < 0) then -((-m) >>> k) else m >>> k
    else (m + (1 : Int) <<< (k - 1)) >>> k

/-- `sat(w, i)` (R359). -/
def satInt (w : Nat) (i : Int) : Int :=
  max (-((1 : Int) <<< (w - 1))) (min i (((1 : Int) <<< (w - 1)) - 1))

/-! ### Float-to-float functions -/

/-- `dsp` of an infinity, a NaN, a zero or a denormalized number, with N, Z, V, U and the NaN condition:
the table of R362, in every format. -/
def dspSpecial (w : Word) : Option (FlagEntry × Word) :=
  let s := w.getLsbD 31
  let ex := (w.extractLsb' 23 8).toNat
  let nonzero := w.extractLsb' 0 23 != 0#23
  if ex = 255 then
    some (.fresh s false (!s || nonzero) false nonzero, if s then 0x800000FF#32 else 0x7FFFFFFF#32)
  else if ex = 0 then some (.fresh false true false nonzero false, 0#32)
  else none

/-- `dsp_of_ieee` of a normal number (R362). -/
def dspNormal (w : Word) : Word :=
  let s := w.getLsbD 31
  let ex := (w.extractLsb' 23 8).toNat
  let mant := w.extractLsb' 0 23
  let frac := if s then 0#23 - mant else mant
  let e := if s && mant == 0#23 then ex else ex + 1
  BitVec.ofBool s ++ frac ++ BitVec.ofNat 8 e

/-- `ieee_of_dsp`, for a word that is not zero (R364). -/
def ieeeNormal (w : Word) : Word :=
  let s := w.getLsbD 31
  let frac := w.extractLsb' 8 23
  let e := exponent32 w
  let mant := if s then 0#23 - frac else frac
  let ex := if s && frac == 0#23 then e else e - 1
  if ex = 0 then 0#32 else BitVec.ofBool s ++ BitVec.ofNat 8 ex ++ mant

/-- `round` of a 40-bit value (R365). -/
def round40 (t : Acc40) : DauResult :=
  let m := t.extractLsb' 16 24
  let e := t.extractLsb' 8 8
  if e = 0#8 then .zero false
  else if t.getLsbD 7 = false then .ofBits (t.extractLsb' 8 32 ++ 0#8)
  else if m.extractLsb' 0 23 ≠ 0x7FFFFF#23 then .ofBits ((m + 1#24) ++ e ++ 0#8)
  else if t.getLsbD 39 then
    if e = 1#8 then .zero true else .ofBits (0x800000#24 ++ (e - 1#8) ++ 0#8)
  else if e = 255#8 then ⟨0x7FFFFFFF00#40, false, false, true, false⟩
  else .ofBits (0x000000#24 ++ (e + 1#8) ++ 0#8)

end Machine

/-! ### The functions of `DSP_FLOAT` in any format (R322) -/

open Machine

/-- The word of the constant 0.0 or 1.0 of the M field (R162, R320). -/
def FloatFormat.const32 (fm : FloatFormat) (one : Bool) : Word :=
  if one then
    match fm with
    | .excess128 => 0x00000080#32
    | .other k => otherOneWord k
  else 0#32

/-- The same constant as adder input. -/
def FloatFormat.const40 (fm : FloatFormat) (one : Bool) : Acc40 := fm.const32 one ++ 0#8

/-- The value of an accumulator as a number (R322, R324). -/
def FloatFormat.number (fm : FloatFormat) (a : Acc40) : Rat :=
  match fm with
  | .excess128 => (exact40 a : Rat) / 2 ^ 302
  | .other k => otherVal40 k a

/-- The value of an accumulator against zero (R322, R324). -/
def FloatFormat.sign (fm : FloatFormat) (a : Acc40) : Ordering :=
  match fm with
  | .excess128 => if exponent40 a = 0 then .eq else if a.getLsbD 39 then .lt else .gt
  | .other k => compare (otherVal40 k a) 0

/-- A result with its flags: N and Z are those of the result, and zero is 0 (R322 (a), (b)). -/
def FloatFormat.result (fm : FloatFormat) (a : Acc40) (v u : Bool) : DauResult :=
  let r := fm.clean40 a
  ⟨r, fm.sign r == .lt, fm.sign r == .eq, v, u⟩

/-- `mac` of operands in format `k`: the result "approximates", so it is a free value of the operands; V
and U are those of the exact sum (R322). -/
def otherMac (k : Nat) (t : Acc40) (negT negP : Bool) (y x : Word) : DauResult :=
  let p := otherVal32 k y * otherVal32 k x
  let v := (if negT then -otherVal40 k t else otherVal40 k t) + (if negP then -p else p)
  if v = 0 then .zero false
  else
    let range := otherRange k (otherReach k (v < 0)) v (Config.otherMacEdge k t negT negP y x)
    (FloatFormat.other k).result (Config.otherMac k t negT negP y x) range.1 range.2

/-- `mac` (R322).  A term whose operand stands for zero is the term 0, with no sign, in every format (b),
(d). -/
def FloatFormat.mac (fm : FloatFormat) (t : Acc40) (negT negP : Bool) (y x : Word) : DauResult :=
  let noT := fm.isZero40 t
  let noP := fm.isZero y || fm.isZero x
  let f : Acc40 → Bool → Bool → Word → Word → DauResult :=
    match fm with
    | .excess128 => Machine.mac
    | .other k => otherMac k
  f (if noT then 0#40 else t) (!noT && negT) (!noP && negP) (if noP then 0#32 else y)
    (if noP then 0#32 else x)

/-- `float_of_int(n)` (R357). -/
def FloatFormat.floatOfInt (fm : FloatFormat) (n : Int) : Acc40 :=
  match fm with
  | .excess128 => Machine.floatOfInt n
  | .other k =>
    if n = 0 then 0#40
    else (FloatFormat.other k).clean40 (otherAccNear k n (Config.otherFloatOfInt k n))

/-- The word of an integer: `float_of_int(n)` with guard bits 0 (R355). -/
def FloatFormat.wordOfInt (fm : FloatFormat) (n : Int) : Word :=
  match fm with
  | .excess128 => to32 (Machine.floatOfInt n)
  | .other k =>
    if n = 0 then 0#32
    else (FloatFormat.other k).clean32 (otherWordNear k n (to32 (Config.otherFloatOfInt k n)))

/-- An integer converted to 40 bits (R356, R358). -/
def FloatFormat.intResult (fm : FloatFormat) (n : Int) : DauResult := .ofInt (fm.floatOfInt n) n

/-- An integer converted with guard bits 0 (R355). -/
def FloatFormat.wordResult (fm : FloatFormat) (n : Int) : DauResult := .ofInt (fm.wordOfInt n ++ 0#8) n

/-- `rnd(x)` by dauc[5:4] (R359) of a number: to the nearest integer, a tie to the greater, or down, or
towards zero. -/
def roundRat (dauc : BitVec 8) (x : Rat) : Int :=
  if dauc.getLsbD 4 then
    if dauc.getLsbD 5 && decide (x < 0) then x.ceil else x.floor
  else (x + 1 / 2).floor

/-- `rnd(x)` by dauc[5:4] (R359). -/
def FloatFormat.roundInt (fm : FloatFormat) (dauc : BitVec 8) (a : Acc40) : Int :=
  match fm with
  | .excess128 => Machine.roundInt dauc a
  | .other k => roundRat dauc (otherVal40 k a)

/-- `round` of format `k`: the nearest word, what has no guard bits staying.  Where that is zero the result
underflowed; whether it also does where the value lies below all words, and where it overflows at the end
of the range, `edge` says (R365). -/
def otherRound (k : Nat) (t : Acc40) : DauResult :=
  let v := otherVal40 k t
  if v = 0 then .zero false
  else if t.extractLsb' 0 8 = 0#8 then (FloatFormat.other k).result t false false
  else
    let w := otherWordNear k v (Config.otherRound k t)
    let edge := Config.otherRoundEdge k t
    if otherVal32 k w = 0 ∨ edge = true ∧ otherBelowWords k v = true then .zero true
    else (FloatFormat.other k).result (w ++ 0#8) (otherRange k (otherBound k (v < 0)) v edge).1 false

/-- `round` (R365). -/
def FloatFormat.round (fm : FloatFormat) (t : Acc40) : DauResult :=
  match fm with
  | .excess128 => round40 t
  | .other k => otherRound k t

/-- `dsp` of an IEEE word: its flags, N, Z, V, U and the NaN condition, and the 32-bit result (R362). -/
def FloatFormat.dspOfIeee (fm : FloatFormat) (w : Word) : FlagEntry × Word :=
  match dspSpecial w with
  | some r => r
  | none =>
    (.fresh (w.getLsbD 31) false false false false,
      match fm with
      | .excess128 => dspNormal w
      | .other k => (FloatFormat.other k).clean32 (otherWordNear k (ieeeNumber w) (Config.otherOfIeee k w)))

/-- `ieee` of a word (R364). -/
def FloatFormat.ieeeOfDsp (fm : FloatFormat) (w : Word) : Word :=
  if fm.isZero w then 0#32
  else
    match fm with
    | .excess128 => ieeeNormal w
    | .other k =>
      if w = 0x800000FF#32 ∧ otherVal32 k w ≤ -2 ^ 128 then 0xFF800000#32
      else ieeeOfValue (otherVal32 k w) (Config.otherToIeee k w)

/-- `seed` of a 32-bit image: a result that stands for zero is an underflow (R366). -/
def FloatFormat.seed (fm : FloatFormat) (w : Word) : DauResult :=
  let r := fm.to40 (w ^^^ 0x7FFFFFFF#32)
  fm.result r false (fm.sign r == .eq)

end Sys2Proof
end

