-- ==== Sys2Proof/Machine/DaMac.lean ====
section
/-! DEFINITION. The meanings of the DA multiply/accumulate instructions (43_da_mac.md). -/

namespace Sys2Proof.Machine

/-- What a Z write stores: the result, or the raw Y operand (R326). -/
inductive ZKind where
  | result | tap
deriving DecidableEq, Repr

/-- The data of the Z write, from the result and the Y operand (R326). -/
def zData (zk : ZKind) (value : Acc40) (yv : DaValue) : Word :=
  match zk with
  | .result => to32 value
  | .tap => yv.raw

/-- The common execution of formats 1 to 4 (R338): the operands are read, `f` computes the result from
them, then Z, aN, the pointers and the flag queue are written.  All reads precede all writes; other
agents come between X and Y and between Y and Z (R112). -/
def macCommon (zk : ZKind) (aN : AccNo) (x y : DaOperand) (z : DaDest)
    (f : DaValue → DaValue → DauResult) (s : State) : Host.Outcome State Fault Refusal :=
  let sy := s.interleave
  let sz := sy.interleave
  resolve sz do
    let xv ← s.daRead x 4
    let yv ← sy.daRead y 4
    let r := f xv yv
    let t ← sz.daWrite z 4 (zData zk r.value yv)
    .ok ((((((t.setAcc aN r.value).postOperand x 4).postOperand y 4).postDest z 4)).pushFlags r.entry)

/-- FMULT-ACC-STORE (R330). -/
def execFmultAccStore (aM : AccNo) (negT negP : Bool) (aN : AccNo) (x y : DaOperand) (z : DaDest)
    (s : State) : Host.Outcome State Fault Refusal :=
  let fm := s.params.float
  macCommon .result aN x y z
    (fun xv yv => fm.mac (s.acc aM) negT negP (yv.mulop fm) (xv.mulop fm)) s

/-- FMULT-ACC-TAP (R331). -/
def execFmultAccTap (aM : AccNo) (negT negP : Bool) (aN : AccNo) (x y : DaOperand) (z : DaDest)
    (s : State) : Host.Outcome State Fault Refusal :=
  let fm := s.params.float
  macCommon .tap aN x y z
    (fun xv yv => fm.mac (s.acc aM) negT negP (yv.mulop fm) (xv.mulop fm)) s

/-- FMULT-ADD-STORE: aM is a multiplier input (R332). -/
def execFmultAddStore (aM : AccNo) (negT negP : Bool) (aN : AccNo) (x y : DaOperand) (z : DaDest)
    (s : State) : Host.Outcome State Fault Refusal :=
  let fm := s.params.float
  macCommon .result aN x y z
    (fun xv yv => fm.mac (yv.adder fm) negT negP (to32 (s.acc aM)) (xv.mulop fm)) s

/-- FMULT-STORE: 0.0 ± Y * X (R333). -/
def execFmultStore (negP : Bool) (aN : AccNo) (x y : DaOperand) (z : DaDest) (s : State) :
    Host.Outcome State Fault Refusal :=
  let fm := s.params.float
  macCommon .result aN x y z
    (fun xv yv => fm.mac (fm.const40 false) false negP (yv.mulop fm) (xv.mulop fm)) s

/-- FMULT-TAP: 0.0 ± (Z=Y) * X (R334). -/
def execFmultTap (negP : Bool) (aN : AccNo) (x y : DaOperand) (z : DaDest) (s : State) :
    Host.Outcome State Fault Refusal :=
  let fm := s.params.float
  macCommon .tap aN x y z
    (fun xv yv => fm.mac (fm.const40 false) false negP (yv.mulop fm) (xv.mulop fm)) s

/-- FADD-STORE: ±Y ± 1.0 * X (R335). -/
def execFaddStore (negT negP : Bool) (aN : AccNo) (x y : DaOperand) (z : DaDest) (s : State) :
    Host.Outcome State Fault Refusal :=
  let fm := s.params.float
  macCommon .result aN x y z
    (fun xv yv => fm.mac (yv.adder fm) negT negP (fm.const32 true) (xv.mulop fm)) s

/-- FADD-TAP: ±(Z=Y) ± 1.0 * X (R336). -/
def execFaddTap (negT negP : Bool) (aN : AccNo) (x y : DaOperand) (z : DaDest) (s : State) :
    Host.Outcome State Fault Refusal :=
  let fm := s.params.float
  macCommon .tap aN x y z
    (fun xv yv => fm.mac (yv.adder fm) negT negP (fm.const32 true) (xv.mulop fm)) s

/-- FLOAD-STORE: ±Y + 0.0 * a0 (R337). -/
def execFloadStore (negT : Bool) (aN : AccNo) (y : DaOperand) (z : DaDest) (s : State) :
    Host.Outcome State Fault Refusal :=
  let fm := s.params.float
  macCommon .result aN (.acc 0) y z
    (fun xv yv => fm.mac (yv.adder fm) negT false (fm.const32 false) (xv.mulop fm)) s

/-- Format 1 with M = 0.0 and another X: ±Y ± 0.0 * X (R339). -/
def execFzeroAddStore (negT negP : Bool) (aN : AccNo) (x y : DaOperand) (z : DaDest) (s : State) :
    Host.Outcome State Fault Refusal :=
  let fm := s.params.float
  macCommon .result aN x y z
    (fun xv yv => fm.mac (yv.adder fm) negT negP (fm.const32 false) (xv.mulop fm)) s

/-- Format 2 with a constant as the first term: ±const ± (Z=Y) * X (R339). -/
def execFconstTap (one negT negP : Bool) (aN : AccNo) (x y : DaOperand) (z : DaDest) (s : State) :
    Host.Outcome State Fault Refusal :=
  let fm := s.params.float
  macCommon .tap aN x y z
    (fun xv yv => fm.mac (fm.const40 one) negT negP (yv.mulop fm) (xv.mulop fm)) s

/-- Format 3 with a constant as the first term: ±const ± Y * X (R339). -/
def execFconstStore (one negT negP : Bool) (aN : AccNo) (x y : DaOperand) (z : DaDest) (s : State) :
    Host.Outcome State Fault Refusal :=
  let fm := s.params.float
  macCommon .result aN x y z
    (fun xv yv => fm.mac (fm.const40 one) negT negP (yv.mulop fm) (xv.mulop fm)) s

end Sys2Proof.Machine
end

