-- ==== Sys2Proof/Machine/Compand.lean ====
section
/-! DEFINITION. The companding laws (44_da_special.md R355, R363): the default `COMPAND`, ITU-T G.711,
and then any tables.  PRESUMED: the spec names the laws and their ranges only (notes/assumptions/8.md). -/

namespace Sys2Proof
namespace Machine

/-- The conversion that dauc selects: bits 2 and 0 for input, 3 and 1 for output (R36). -/
inductive Law where
  | muLaw | aLaw | linear
deriving DecidableEq, Repr

/-- The law of `ic` (R355). -/
def inputLaw (dauc : BitVec 8) : Law :=
  if dauc.getLsbD 2 then .linear else if dauc.getLsbD 0 then .aLaw else .muLaw

/-- The law of `oc` (R363). -/
def outputLaw (dauc : BitVec 8) : Law :=
  if dauc.getLsbD 3 then .linear else if dauc.getLsbD 1 then .aLaw else .muLaw

/-- The segment and step of a code: bits 6:4 and 3:0. -/
def segment (c : Byte) : Nat := (c.extractLsb' 4 3).toNat
@[inherit_doc segment] def segStep (c : Byte) : Nat := (c.extractLsb' 0 4).toNat

/-- The µ-law value of a code, -8031 to 8031 (R355). -/
def expandMu (b : Byte) : Int :=
  let c := ~~~b
  let mag : Int := (2 * segStep c + 33) <<< segment c - 33
  if c.getLsbD 7 then -mag else mag

/-- The A-law value of a code, -4032 to 4032 (R355). -/
def expandA (b : Byte) : Int :=
  let c := b ^^^ 0x55#8
  let mag : Int :=
    if segment c = 0 then 2 * segStep c + 1 else (2 * segStep c + 33) <<< (segment c - 1)
  if c.getLsbD 7 then mag else -mag

/-- A code from its sign bit, segment and step. -/
def lawCode (sign : Bool) (seg step : Nat) : Byte :=
  BitVec.ofBool sign ++ BitVec.ofNat 3 seg ++ BitVec.ofNat 4 step

/-- The µ-law code of a magnitude, limited to the law's range (R363). -/
def compressMu (neg : Bool) (mag : Nat) : Byte :=
  let biased := min (mag + 33) 8191
  let seg := biased.log2 - 5
  ~~~lawCode neg seg (biased >>> (seg + 1))

/-- The A-law code of a magnitude, limited to the law's range (R363). -/
def compressA (neg : Bool) (mag : Nat) : Byte :=
  let m := min mag 4095
  let seg := if m < 32 then 0 else m.log2 - 4
  let step := if m < 32 then m >>> 1 else m >>> seg
  lawCode (!neg) seg step ^^^ 0x55#8

/-- `compress` by the default tables: the value truncated towards zero, with its own sign (R363). -/
def compress (aLaw : Bool) (fm : FloatFormat) (a : Acc40) : Byte :=
  let neg := fm.sign a == .lt
  let mag := (fm.roundInt 0x30#8 a).natAbs
  if aLaw then compressA neg mag else compressMu neg mag

end Machine

open Machine

/-! ### The functions of `COMPAND` in any tables -/

/-- `expand` (R355); an unsigned byte is its number. -/
def CompandTables.expand (ct : CompandTables) (law : Law) (b : Byte) : Int :=
  match law, ct with
  | .linear, _ => b.toNat
  | .muLaw, .g711 => expandMu b
  | .aLaw, .g711 => expandA b
  | .muLaw, .other k => (Config.otherExpand k false b).toInt
  | .aLaw, .other k => (Config.otherExpand k true b).toInt

/-- A code of the least value, or (`top`) of the greatest, that `val` gives the codes 0 to `n`. -/
def Machine.limitCode (val : Byte → Int) (top : Bool) : Nat → Byte
  | 0 => 0#8
  | n + 1 =>
    let b := Machine.limitCode val top n
    let c := BitVec.ofNat 8 (n + 1)
    if (if top then val b < val c else val c < val b) then c else b

/-- `compress` in tables with the values `val`: beyond their least or greatest value the limiting code
(R363), of several codes of that value `choice`; within the range `choice`. -/
def Machine.saturate (val : Byte → Int) (x : Rat) (choice : Byte) : Byte :=
  let lo := Machine.limitCode val false 255
  let hi := Machine.limitCode val true 255
  if x < val lo then (if val choice = val lo then choice else lo)
  else if val hi < x then (if val choice = val hi then choice else hi)
  else choice

/-- `compress` (R363). -/
def CompandTables.compress (ct : CompandTables) (aLaw : Bool) (fm : FloatFormat) (a : Acc40) : Byte :=
  match ct with
  | .g711 => Machine.compress aLaw fm a
  | .other k =>
    Machine.saturate (fun b => (Config.otherExpand k aLaw b).toInt) (fm.number a)
      (Config.otherCompress k aLaw fm a)

/-- The code of `oc` (R363). -/
def Params.ocCode (p : Params) (dauc : BitVec 8) (a : Acc40) : Byte :=
  match outputLaw dauc with
  | .linear => BitVec.ofInt 8 (max 0 (min 255 (p.float.roundInt dauc a)))
  | .muLaw => p.compand.compress false p.float a
  | .aLaw => p.compand.compress true p.float a

end Sys2Proof
end

