-- ==== Sys2Proof/Machine/DaSpecial.lean ====
section
/-! DEFINITION. The meanings of the DA special functions (44_da_special.md). -/

namespace Sys2Proof.Machine

/-- What a special function leaves: the new aN, the data of a Z write (none where it is skipped), the
flag entry of a function that affects flags, and how many free values it took (R352). -/
structure SpecialResult where
  value : Acc40
  zdata : Option Word
  flags : Option FlagEntry
  draws : Nat
deriving DecidableEq, Repr

/-- Queue a flag entry if there is one (R352). -/
def State.pushOptional (s : State) (e : Option FlagEntry) : State :=
  match e with
  | none => s
  | some f => s.pushFlags f

/-- Count `k` free values as used. -/
def State.addDraws (s : State) (k : Nat) : State := { s with draws := s.draws + k }

/-- Write Z unless the write is skipped (R352, R368). -/
def State.zWrite (s : State) (z : DaDest) (n : Nat) (d : Option Word) : Res State :=
  match d with
  | none => .ok s
  | some v => s.daWrite z n v

/-- The common execution of format 5 (R352): Y of `yn` bytes, Z of `zn` bytes; other agents come in
between (R112). -/
def specialCommon (yn zn : Nat) (aN : AccNo) (y : DaOperand) (z : DaDest)
    (f : DaValue → SpecialResult) (s : State) : Host.Outcome State Fault Refusal :=
  let sz := s.interleave
  resolve sz do
    let yv ← s.daRead y yn
    let r := f yv
    let t ← sz.zWrite z zn r.zdata
    .ok (((((t.setAcc aN r.value).postOperand y yn).postDest z zn).pushOptional r.flags).addDraws
      r.draws)

/-- A result that is also the Z word, with its flags (R355, R356, R358, R365, R366). -/
def SpecialResult.ofDau (r : DauResult) : SpecialResult :=
  ⟨r.value, some (to32 r.value), some r.entry, 0⟩

/-- The byte of Y for `ic` (R353, R355). -/
def DaValue.byteOperand (v : DaValue) : Byte :=
  match v with
  | .acc a => byteView a
  | .mem w => w.setWidth 8

/-- The halfword of Y for `float16` (R353, R356). -/
def DaValue.halfOperand (v : DaValue) : Half :=
  match v with
  | .acc a => halfView a
  | .mem w => w.setWidth 16

/-- The word of Y for `float32` (R353, R358). -/
def DaValue.wordOperand (v : DaValue) : Word :=
  match v with
  | .acc a => wordView a
  | .mem w => w

/-- IC (R355). -/
def execIc (aN : AccNo) (y : DaOperand) (z : DaDest) (s : State) : Host.Outcome State Fault Refusal :=
  specialCommon 1 4 aN y z
    (fun yv =>
      .ofDau (s.params.float.wordResult (s.params.compand.expand (inputLaw s.dauc) yv.byteOperand))) s

/-- OC: aN below the code is a free value (R363). -/
def execOc (aN : AccNo) (y : DaOperand) (z : DaDest) (s : State) : Host.Outcome State Fault Refusal :=
  specialCommon 4 1 aN y z
    (fun yv =>
      let b := s.params.ocCode s.dauc (yv.adder s.params.float)
      ⟨b ++ s.drawn 32, some (b.setWidth 32), none, 1⟩) s

/-- FLOAT16 (R356). -/
def execFloat16 (aN : AccNo) (y : DaOperand) (z : DaDest) (s : State) :
    Host.Outcome State Fault Refusal :=
  specialCommon 2 4 aN y z (fun yv => .ofDau (s.params.float.intResult yv.halfOperand.toInt)) s

/-- INT16: aN below the halfword is a free value (R360). -/
def execInt16 (aN : AccNo) (y : DaOperand) (z : DaDest) (s : State) :
    Host.Outcome State Fault Refusal :=
  specialCommon 4 2 aN y z
    (fun yv =>
      let i := BitVec.ofInt 16 (satInt 16 (s.params.float.roundInt s.dauc (yv.adder s.params.float)))
      ⟨i ++ s.drawn 24, some (i.setWidth 32), none, 1⟩) s

/-- ROUND (R365). -/
def execRound (aN : AccNo) (y : DaOperand) (z : DaDest) (s : State) :
    Host.Outcome State Fault Refusal :=
  specialCommon 4 4 aN y z (fun yv => .ofDau (s.params.float.round (yv.adder s.params.float))) s

/-- The N and Z flags that ifalt, ifaeq and ifagt test (R367): the newest ones in program order, or
the settled ones where `IFA_LATENCY` says so. -/
def State.testedFlags (s : State) : Bool × Bool :=
  if s.params.ifaSettled then (s.dauN, s.dauZ)
  else
    match s.queue.getLast? with
    | some e => (e.n, e.z)
    | none => (s.dauN, s.dauZ)

/-- The three tests (R367). -/
inductive IfTest where
  | lt | eq | gt
deriving DecidableEq, Repr

/-- The truth of a test (R367). -/
def State.ifTest (s : State) (t : IfTest) : Bool :=
  match t with
  | .lt => s.testedFlags.1
  | .eq => s.testedFlags.2
  | .gt => !s.testedFlags.1 && !s.testedFlags.2

/-- The Z write of an if-instruction is skipped: dauc[6] = 1 and the test fails (R368). -/
def State.ifSkipsZ (s : State) (t : IfTest) : Bool := s.dauc.getLsbD 6 && !s.ifTest t

/-- What an if-instruction leaves (R368). -/
def State.ifResult (s : State) (t : IfTest) (aN : AccNo) (yv : DaValue) : SpecialResult :=
  let new := if s.ifTest t then yv.adder s.params.float else s.acc aN
  ⟨new, if s.ifSkipsZ t then none else some (to32 new), none, 0⟩

/-- IFALT (R368, R369). -/
def execIfalt (aN : AccNo) (y : DaOperand) (z : DaDest) (s : State) :
    Host.Outcome State Fault Refusal :=
  specialCommon 4 4 aN y z (s.ifResult .lt aN) s

/-- IFAEQ (R368, R370). -/
def execIfaeq (aN : AccNo) (y : DaOperand) (z : DaDest) (s : State) :
    Host.Outcome State Fault Refusal :=
  specialCommon 4 4 aN y z (s.ifResult .eq aN) s

/-- IFAGT (R368, R371). -/
def execIfagt (aN : AccNo) (y : DaOperand) (z : DaDest) (s : State) :
    Host.Outcome State Fault Refusal :=
  specialCommon 4 4 aN y z (s.ifResult .gt aN) s

/-- FLOAT32 (R358). -/
def execFloat32 (aN : AccNo) (y : DaOperand) (z : DaDest) (s : State) :
    Host.Outcome State Fault Refusal :=
  specialCommon 4 4 aN y z (fun yv => .ofDau (s.params.float.intResult yv.wordOperand.toInt)) s

/-- An integer in the word view of an accumulator, `rest` in the exponent's place (R353, R361). -/
def fromWordView (i : Word) (rest : BitVec 8) : Acc40 := i.extractLsb' 8 24 ++ rest ++ i.extractLsb' 0 8

/-- INT32: aN outside the word view is a free value (R361). -/
def execInt32 (aN : AccNo) (y : DaOperand) (z : DaDest) (s : State) :
    Host.Outcome State Fault Refusal :=
  specialCommon 4 4 aN y z
    (fun yv =>
      let i := BitVec.ofInt 32 (satInt 32 (s.params.float.roundInt s.dauc (yv.adder s.params.float)))
      ⟨fromWordView i (s.drawn 8), some i, none, 1⟩) s

/-- IEEE: aN is a free value (R364). -/
def execIeee (aN : AccNo) (y : DaOperand) (z : DaDest) (s : State) :
    Host.Outcome State Fault Refusal :=
  specialCommon 4 4 aN y z (fun yv => ⟨s.drawn 40, some (s.params.float.ieeeOfDsp yv.raw), none, 1⟩) s

/-- DSP of a memory word; an accumulator is not allowed (R362). -/
def execDsp (aN : AccNo) (y : DaOperand) (z : DaDest) (s : State) : Host.Outcome State Fault Refusal :=
  match y with
  | .acc _ => .refused .dspAccumulator
  | .mem m =>
    specialCommon 4 4 aN (.mem m) z
      (fun yv =>
        let r := s.params.float.dspOfIeee yv.raw
        ⟨r.2 ++ 0#8, some r.2, some r.1, 0⟩) s

/-- SEED (R366). -/
def execSeed (aN : AccNo) (y : DaOperand) (z : DaDest) (s : State) :
    Host.Outcome State Fault Refusal :=
  specialCommon 4 4 aN y z (fun yv => .ofDau (s.params.float.seed yv.raw)) s

end Sys2Proof.Machine
end

