-- ==== Sys2Proof/Machine/Move.lean ====
section
/-! DEFINITION. The meanings of the data moves (42_ca_move.md). -/

namespace Sys2Proof.Machine

/-- SET24 (R282). -/
def execSet24 (rD : Reg) (m : BitVec 24) (s : State) : Host.Outcome State Fault Refusal :=
  .next (s.setReg rD (zext24 m))

/-- LOAD from `*L` (R284, R286). -/
def execLoadDirect (w : Width) (rH : LoadDest) (l : Half) (s : State) :
    Host.Outcome State Fault Refusal :=
  resolve s do
    let d ← s.load (s.directAddress l) (widthBytes w)
    .ok (s.issue (.reg rH (placeLoad w d)))

/-- STORE to `*L` (R284, R290). -/
def execStoreDirect (w : Width) (rH : Source) (l : Half) (s : State) :
    Host.Outcome State Fault Refusal :=
  resolve s (s.store (s.directAddress l) (widthBytes w) (placeStore w (s.sourceValue rH)))

/-- LOAD through a pointer (R283, R286). -/
def execLoadMem (w : Width) (rH : LoadDest) (rP : Reg) (rI : Increment) (s : State) :
    Host.Outcome State Fault Refusal :=
  resolve s do
    checkSp rP w
    let d ← s.load (s.reg rP) (widthBytes w)
    .ok ((s.bumpPointer rP rI (widthBytes w)).issue (.reg rH (placeLoad w d)))

/-- STORE through a pointer; the data is read before the update (R283, R290). -/
def execStoreMem (w : Width) (rH : Source) (rP : Reg) (rI : Increment) (s : State) :
    Host.Outcome State Fault Refusal :=
  resolve s do
    checkSp rP w
    let t ← s.store (s.reg rP) (widthBytes w) (placeStore w (s.sourceValue rH))
    .ok (t.bumpPointer rP rI (widthBytes w))

/-- LOAD from an IO register (R288, R295). -/
def execLoadIo (w : Width) (rH : Reg) (io : IoReg) (s : State) : Host.Outcome State Fault Refusal :=
  resolve s
    (if io = .spc then .error (.refuse .spcTransfer)
     else .ok (s.issue (.reg (.reg rH) (placeLoad w (s.ioRead io (widthBytes w))))))

/-- The command of a store to spc, by the transfer size (R296). -/
def State.spcCommand (s : State) (w : Width) : Res State :=
  match w with
  | .long => s.waitForInterrupt
  | .ushort | .short => .ok s.breakpoint
  | .byte | .char => s.softReset
  | .hbyte => .error (.refuse .spcCommand)

/-- STORE to an IO register (R292, R295, R296). -/
def execStoreIo (w : Width) (rH : Source) (io : IoReg) (s : State) :
    Host.Outcome State Fault Refusal :=
  let d := placeStore w (s.sourceValue rH)
  resolve s
    (if io = .spc then s.spcCommand w
     else do
      checkIoData io d
      .ok (s.ioWrite io (widthBytes w) d))

/-- The transfers that LOAD-IOR and STORE-IOR have: not spc, not (hbyte) (R293, R294). -/
def checkIor (w : Width) (io : IoReg) : Res Unit :=
  if io = .spc then .error (.refuse .spcTransfer)
  else if w = .hbyte then .error (.refuse .hbyteIor)
  else .ok ()

/-- LOAD-IOR (R293). -/
def execLoadIor (w : Width) (io : IoReg) (rP : Reg) (rI : Increment) (s : State) :
    Host.Outcome State Fault Refusal :=
  resolve s do
    checkIor w io
    checkSp rP w
    let d ← s.load (s.reg rP) (widthBytes w)
    checkIoData io d
    .ok ((s.bumpPointer rP rI (widthBytes w)).issue (.ior io (widthBytes w) d))

/-- STORE-IOR (R294). -/
def execStoreIor (w : Width) (io : IoReg) (rP : Reg) (rI : Increment) (s : State) :
    Host.Outcome State Fault Refusal :=
  resolve s do
    checkIor w io
    checkSp rP w
    let t ← s.store (s.reg rP) (widthBytes w) (s.ioRead io (widthBytes w))
    .ok (t.bumpPointer rP rI (widthBytes w))

end Sys2Proof.Machine
end

