-- ==== Sys2Proof/Machine/Dispatch.lean ====
section
/-! DEFINITION. The dispatch of an instruction to its meaning, one arm per row of the opcode table. -/

namespace Sys2Proof.Machine

/-- What an instruction does: step 5 of R190. -/
def exec (i : Instr) (s : State) : Host.Outcome State Fault Refusal :=
  match i with
  | .ifGoto c rB n => Sys2Proof.Machine.execIfGoto c rB n s
  | .goto rB n => Sys2Proof.Machine.execGoto rB n s
  | .nop rB n => Sys2Proof.Machine.execNop rB n s
  | .ret rM => Sys2Proof.Machine.execRet rM s
  | .ireturn => Sys2Proof.Machine.execIreturn s
  | .goto24 rB m => Sys2Proof.Machine.execGoto24 rB m s
  | .loopGoto rM rB n => Sys2Proof.Machine.execLoopGoto rM rB n s
  | .call rM rB n => Sys2Proof.Machine.execCall rM rB n s
  | .call24 rM m => Sys2Proof.Machine.execCall24 rM m s
  | .doImm k l => Sys2Proof.Machine.execDoImm k l s
  | .doReg k rM => Sys2Proof.Machine.execDoReg k rM s
  | .dolockImm k l => Sys2Proof.Machine.execDolockImm k l s
  | .dolockReg k rM => Sys2Proof.Machine.execDolockReg k rM s
  | .doblockImm l => Sys2Proof.Machine.execDoblockImm l s
  | .doblockReg rM => Sys2Proof.Machine.execDoblockReg rM s
  | .sftrst w0 => Sys2Proof.Machine.execSftrst w0 s
  | .waiti => Sys2Proof.Machine.execWaiti s
  | .bkpt w0 => Sys2Proof.Machine.execBkpt w0 s
  | .add3 sz rD rS3 n => Sys2Proof.Machine.execAdd3 sz rD rS3 n s
  | .set rD n => Sys2Proof.Machine.execSet rD n s
  | .addReg sz c rD rS1 rS2 => Sys2Proof.Machine.execAddReg sz c rD rS1 rS2 s
  | .incDec sz c rD rS dec => Sys2Proof.Machine.execIncDec sz c rD rS dec s
  | .spIncDec c dec => Sys2Proof.Machine.execSpIncDec c dec s
  | .subReg sz c rD rS1 rS2 => Sys2Proof.Machine.execSubReg sz c rD rS1 rS2 s
  | .subImm sz rD n => Sys2Proof.Machine.execSubImm sz rD n s
  | .rsubImm sz rD n => Sys2Proof.Machine.execRsubImm sz rD n s
  | .neg sz c rD rS => Sys2Proof.Machine.execNeg sz c rD rS s
  | .cmpReg sz c rD rS1 rS2 => Sys2Proof.Machine.execCmpReg sz c rD rS1 rS2 s
  | .cmpImm sz rD n => Sys2Proof.Machine.execCmpImm sz rD n s
  | .crAddReg sz c rD rS1 rS2 => Sys2Proof.Machine.execCrAddReg sz c rD rS1 rS2 s
  | .crAddImm sz rD n => Sys2Proof.Machine.execCrAddImm sz rD n s
  | .andReg sz c rD rS1 rS2 => Sys2Proof.Machine.execAndReg sz c rD rS1 rS2 s
  | .andImm sz rD n => Sys2Proof.Machine.execAndImm sz rD n s
  | .bitReg sz c rD rS1 rS2 => Sys2Proof.Machine.execBitReg sz c rD rS1 rS2 s
  | .bitImm sz rD n => Sys2Proof.Machine.execBitImm sz rD n s
  | .andcReg sz c rD rS1 rS2 => Sys2Proof.Machine.execAndcReg sz c rD rS1 rS2 s
  | .orReg sz c rD rS1 rS2 => Sys2Proof.Machine.execOrReg sz c rD rS1 rS2 s
  | .orImm sz rD n => Sys2Proof.Machine.execOrImm sz rD n s
  | .xorReg sz c rD rS1 rS2 => Sys2Proof.Machine.execXorReg sz c rD rS1 rS2 s
  | .xorImm sz rD n => Sys2Proof.Machine.execXorImm sz rD n s
  | .shlReg sz c rD rS1 rS2 => Sys2Proof.Machine.execShlReg sz c rD rS1 rS2 s
  | .shlImm sz rD n => Sys2Proof.Machine.execShlImm sz rD n s
  | .shrReg sz c rD rS1 rS2 => Sys2Proof.Machine.execShrReg sz c rD rS1 rS2 s
  | .shrImm sz rD n => Sys2Proof.Machine.execShrImm sz rD n s
  | .sarReg sz c rD rS1 rS2 => Sys2Proof.Machine.execSarReg sz c rD rS1 rS2 s
  | .sarImm sz rD n => Sys2Proof.Machine.execSarImm sz rD n s
  | .shl1 sz c rD rS => Sys2Proof.Machine.execShl1 sz c rD rS s
  | .shr1 sz c rD rS => Sys2Proof.Machine.execShr1 sz c rD rS s
  | .half sz c rD rS => Sys2Proof.Machine.execHalf sz c rD rS s
  | .ror1 sz c rD rS rS2 => Sys2Proof.Machine.execRor1 sz c rD rS rS2 s
  | .rol1 sz c rD rS rS2 => Sys2Proof.Machine.execRol1 sz c rD rS rS2 s
  | .shiftOr rD rS n => Sys2Proof.Machine.execShiftOr rD rS n s
  | .set24 rD m => Sys2Proof.Machine.execSet24 rD m s
  | .loadDirect w rH l => Sys2Proof.Machine.execLoadDirect w rH l s
  | .storeDirect w rH l => Sys2Proof.Machine.execStoreDirect w rH l s
  | .loadMem w rH rP rI => Sys2Proof.Machine.execLoadMem w rH rP rI s
  | .storeMem w rH rP rI => Sys2Proof.Machine.execStoreMem w rH rP rI s
  | .loadIo w rH io => Sys2Proof.Machine.execLoadIo w rH io s
  | .storeIo w rH io => Sys2Proof.Machine.execStoreIo w rH io s
  | .loadIor w io rP rI => Sys2Proof.Machine.execLoadIor w io rP rI s
  | .storeIor w io rP rI => Sys2Proof.Machine.execStoreIor w io rP rI s
  | .fmultAccStore aM negT negP aN x y z => Sys2Proof.Machine.execFmultAccStore aM negT negP aN x y z s
  | .fmultAccTap aM negT negP aN x y z => Sys2Proof.Machine.execFmultAccTap aM negT negP aN x y z s
  | .fmultAddStore aM negT negP aN x y z => Sys2Proof.Machine.execFmultAddStore aM negT negP aN x y z s
  | .fmultStore negP aN x y z => Sys2Proof.Machine.execFmultStore negP aN x y z s
  | .fmultTap negP aN x y z => Sys2Proof.Machine.execFmultTap negP aN x y z s
  | .faddStore negT negP aN x y z => Sys2Proof.Machine.execFaddStore negT negP aN x y z s
  | .faddTap negT negP aN x y z => Sys2Proof.Machine.execFaddTap negT negP aN x y z s
  | .floadStore negT aN y z => Sys2Proof.Machine.execFloadStore negT aN y z s
  | .fzeroAddStore negT negP aN x y z => Sys2Proof.Machine.execFzeroAddStore negT negP aN x y z s
  | .fconstTap one negT negP aN x y z => Sys2Proof.Machine.execFconstTap one negT negP aN x y z s
  | .fconstStore one negT negP aN x y z => Sys2Proof.Machine.execFconstStore one negT negP aN x y z s
  | .ic aN y z => Sys2Proof.Machine.execIc aN y z s
  | .oc aN y z => Sys2Proof.Machine.execOc aN y z s
  | .float16 aN y z => Sys2Proof.Machine.execFloat16 aN y z s
  | .int16 aN y z => Sys2Proof.Machine.execInt16 aN y z s
  | .round aN y z => Sys2Proof.Machine.execRound aN y z s
  | .ifalt aN y z => Sys2Proof.Machine.execIfalt aN y z s
  | .ifaeq aN y z => Sys2Proof.Machine.execIfaeq aN y z s
  | .ifagt aN y z => Sys2Proof.Machine.execIfagt aN y z s
  | .float32 aN y z => Sys2Proof.Machine.execFloat32 aN y z s
  | .int32 aN y z => Sys2Proof.Machine.execInt32 aN y z s
  | .ieee aN y z => Sys2Proof.Machine.execIeee aN y z s
  | .dsp aN y z => Sys2Proof.Machine.execDsp aN y z s
  | .seed aN y z => Sys2Proof.Machine.execSeed aN y z s

end Sys2Proof.Machine
end

