-- ==== Sys2Proof/Machine/Hazards.lean ====
section
/-! DEFINITION. The restrictions and latencies a program must respect (70_reset_and_hazards.md R440 to R451):
what an instruction names and touches, the checks before it runs, and its record afterwards. -/

namespace Sys2Proof

/-! ### The registers an operand names -/

/-- The register of rB. -/
def Base.regs : Base → List Reg
  | .reg r => [r]
  | .pc => []

/-- The register of rS3 or of a stored rS. -/
def Source.regs : Source → List Reg
  | .reg r => [r]
  | .pc | .pcsh => []

/-- The register of a load's destination. -/
def LoadDest.regs : LoadDest → List Reg
  | .reg r => [r]
  | .pcsh => []

/-- The register of rI. -/
def Increment.regs : Increment → List Reg
  | .reg r => [r]
  | .minusN | .plusN => []

/-- The pointer and increment registers of a DA memory operand. -/
def DaMem.regs (m : DaMem) : List Reg :=
  match m.i with
  | .inc k => [m.reg, ⟨15 + k.val, by omega⟩]
  | .keep | .minus | .plus => [m.reg]

/-- The registers of X or Y. -/
def DaOperand.regs : DaOperand → List Reg
  | .acc _ => []
  | .mem m => m.regs

/-- The increment register of Z: it is named, the pointer is not (R441). -/
def DaDest.incRegs : DaDest → List Reg
  | .none => []
  | .mem m =>
    match m.i with
    | .inc k => [⟨15 + k.val, by omega⟩]
    | .keep | .minus | .plus => []

namespace Machine

/-! ### What an instruction is, for the checks -/

/-- The parts of a DA instruction that the checks look at (R441 to R445, R450). -/
structure DaView where
  x : Option DaOperand
  y : DaOperand
  z : DaDest
  yBytes : Nat
  zBytes : Nat
  /-- the accumulator written -/
  aN : AccNo
  /-- is X a multiplier input (not with the constant 0.0 of FLOAD-STORE, R337)? -/
  xMul : Bool
  /-- is Y a multiplier input (formats 2 and 3)? -/
  yMul : Bool
  /-- aM where it is a multiplier input (format 1) -/
  mMul : Option AccNo
  /-- does it affect the DAU flags (R328, R350)? -/
  setsFlags : Bool
  /-- the test that can skip the Z write (R368) -/
  test : Option IfTest
deriving DecidableEq, Repr

/-- The view of formats 1 to 4. -/
def macView (aN : AccNo) (x y : DaOperand) (z : DaDest) (xMul yMul : Bool) (m : Option AccNo) :
    DaView :=
  ⟨some x, y, z, 4, 4, aN, xMul, yMul, m, true, none⟩

/-- The view of format 5. -/
def specialView (aN : AccNo) (y : DaOperand) (z : DaDest) (yn zn : Nat) (sets : Bool)
    (test : Option IfTest) : DaView :=
  ⟨none, y, z, yn, zn, aN, false, false, none, sets, test⟩

/-- The view of a DA instruction, none for a CA instruction. -/
def daView : Instr → Option DaView
  | .fmultAccStore _ _ _ aN x y z => some (macView aN x y z true true none)
  | .fmultAccTap _ _ _ aN x y z => some (macView aN x y z true true none)
  | .fmultAddStore aM _ _ aN x y z => some (macView aN x y z true false (some aM))
  | .fmultStore _ aN x y z => some (macView aN x y z true true none)
  | .fmultTap _ aN x y z => some (macView aN x y z true true none)
  | .faddStore _ _ aN x y z => some (macView aN x y z true false none)
  | .faddTap _ _ aN x y z => some (macView aN x y z true false none)
  | .floadStore _ aN y z => some (macView aN (.acc 0) y z false false none)
  | .fzeroAddStore _ _ aN x y z => some (macView aN x y z false false none)
  | .fconstTap _ _ _ aN x y z => some (macView aN x y z true true none)
  | .fconstStore _ _ _ aN x y z => some (macView aN x y z true true none)
  | .ic aN y z => some (specialView aN y z 1 4 true none)
  | .oc aN y z => some (specialView aN y z 4 1 false none)
  | .float16 aN y z => some (specialView aN y z 2 4 true none)
  | .int16 aN y z => some (specialView aN y z 4 2 false none)
  | .round aN y z => some (specialView aN y z 4 4 true none)
  | .ifalt aN y z => some (specialView aN y z 4 4 false (some .lt))
  | .ifaeq aN y z => some (specialView aN y z 4 4 false (some .eq))
  | .ifagt aN y z => some (specialView aN y z 4 4 false (some .gt))
  | .float32 aN y z => some (specialView aN y z 4 4 true none)
  | .int32 aN y z => some (specialView aN y z 4 4 false none)
  | .ieee aN y z => some (specialView aN y z 4 4 false none)
  | .dsp aN y z => some (specialView aN y z 4 4 true none)
  | .seed aN y z => some (specialView aN y z 4 4 true none)
  | _ => none

/-- The goto, call, return and do instructions and ireturn (R191, R207, R447).  nop is none of them:
"a special case … in which the branch is never taken" (R199). -/
def isTransfer : Instr → Bool
  | .ifGoto .. | .goto .. | .ret .. | .ireturn | .goto24 .. | .loopGoto .. | .call .. | .call24 ..
  | .doImm .. | .doReg .. | .dolockImm .. | .dolockReg .. | .doblockImm .. | .doblockReg .. => true
  | _ => false

/-- The instructions with a delay slot: goto, call and return, taken or untaken (R190, R191).  nop is
none of them (notes/assumptions/10.md). -/
def hasSlot : Instr → Bool
  | .ifGoto .. | .goto .. | .ret .. | .goto24 .. | .loopGoto .. | .call .. | .call24 .. => true
  | _ => false

/-- STORE and STORE-IOR, the spc commands among them (R442). -/
def isStore : Instr → Bool
  | .storeDirect .. | .storeMem .. | .storeIo .. | .storeIor .. | .sftrst .. | .waiti | .bkpt .. => true
  | _ => false

/-- The registers of a store to an IO register: a store to spc ignores its data (R296). -/
def storeIoRegs (rH : Source) (io : IoReg) : List Reg := if io = .spc then [] else rH.regs

/-- The CAU registers an instruction names anywhere but as a Z pointer (R441).  A field that the
instruction ignores names nothing (notes/assumptions/12.md). -/
def namedRegs (i : Instr) : List Reg :=
  match daView i with
  | some d => (d.x.map DaOperand.regs).getD [] ++ d.y.regs ++ d.z.incRegs
  | none =>
    match i with
    | .ifGoto _ rB _ | .goto rB _ | .goto24 rB _ => rB.regs
    | .ret rM | .call24 rM _ => [rM]
    | .loopGoto rM rB _ | .call rM rB _ => rM :: rB.regs
    | .doReg _ rM | .dolockReg _ rM | .doblockReg rM => [rM]
    | .add3 _ rD rS3 _ => rD :: rS3.regs
    | .set rD _ | .set24 rD _ => [rD]
    | .addReg _ _ rD rS1 rS2 | .subReg _ _ rD rS1 rS2 | .crAddReg _ _ rD rS1 rS2
    | .andReg _ _ rD rS1 rS2 | .andcReg _ _ rD rS1 rS2 | .orReg _ _ rD rS1 rS2
    | .xorReg _ _ rD rS1 rS2 | .shlReg _ _ rD rS1 rS2 | .shrReg _ _ rD rS1 rS2
    | .sarReg _ _ rD rS1 rS2 => [rD, rS1, rS2]
    | .cmpReg _ _ _ rS1 rS2 | .bitReg _ _ _ rS1 rS2 => [rS1, rS2]
    | .incDec _ _ rD rS _ | .neg _ _ rD rS | .shl1 _ _ rD rS | .shr1 _ _ rD rS | .half _ _ rD rS
    | .ror1 _ _ rD rS _ | .rol1 _ _ rD rS _ | .shiftOr rD rS _ => [rD, rS]
    | .spIncDec .. => [Reg.sp]
    | .subImm _ rD _ | .rsubImm _ rD _ | .cmpImm _ rD _ | .crAddImm _ rD _ | .andImm _ rD _
    | .bitImm _ rD _ | .orImm _ rD _ | .xorImm _ rD _ | .shlImm _ rD _ | .shrImm _ rD _
    | .sarImm _ rD _ => [rD]
    | .loadDirect _ rH _ => rH.regs
    | .storeDirect _ rH _ => rH.regs
    | .loadMem _ rH rP rI => rP :: (rH.regs ++ rI.regs)
    | .storeMem _ rH rP rI => rP :: (rH.regs ++ rI.regs)
    | .loadIo _ rH _ => [rH]
    | .storeIo _ rH io => storeIoRegs rH io
    | .loadIor _ _ rP rI | .storeIor _ _ rP rI => rP :: rI.regs
    | _ => []

/-- The accumulators an instruction uses as multiplier inputs (R445). -/
def mulInputs (i : Instr) : List AccNo :=
  match daView i with
  | none => []
  | some d =>
    let xs := match d.x with
      | some (.acc a) => if d.xMul then [a] else []
      | _ => []
    let ys := match d.y with
      | .acc a => if d.yMul then [a] else []
      | .mem _ => []
    xs ++ ys ++ d.mMul.toList

/-- The pointers of the memory operands X, Y, Z. -/
def daMems (d : DaView) : List DaMem :=
  let x := match d.x with
    | some (.mem m) => [m]
    | _ => []
  let y := match d.y with
    | .mem m => [m]
    | .acc _ => []
  let z := match d.z with
    | .mem m => [m]
    | .none => []
  x ++ y ++ z

/-- One register is the pointer of two of X, Y, Z and one of them post-modifies (R327). -/
def samePointer (d : DaView) : Bool :=
  let ms := daMems d
  ms.any fun m => m.i != .keep && decide (1 < (ms.filter (·.p == m.p)).length)

/-- The bytes of a DA memory operand: address and size. -/
def State.operandBytes (s : State) (o : DaOperand) (n : Nat) : List (Word × Nat) :=
  match o with
  | .acc _ => []
  | .mem m => [(s.reg m.reg, n)]

/-- The bytes that a DA instruction writes (R444). -/
def State.zBytes (s : State) (d : DaView) : List (Word × Nat) :=
  match d.z with
  | .none => []
  | .mem m =>
    match d.test with
    | some t => if s.ifSkipsZ t then [] else [(s.reg m.reg, d.zBytes)]
    | none => [(s.reg m.reg, d.zBytes)]

/-- The data bytes an instruction reads or writes: address and size of each access (R444). -/
def State.dataBytes (s : State) (i : Instr) : List (Word × Nat) :=
  match daView i with
  | some d =>
    ((d.x.map (s.operandBytes · 4)).getD []) ++ s.operandBytes d.y d.yBytes ++ s.zBytes d
  | none =>
    match i with
    | .loadDirect w _ l | .storeDirect w _ l => [(s.directAddress l, widthBytes w)]
    | .loadMem w _ rP _ | .storeMem w _ rP _ | .loadIor w _ rP _ | .storeIor w _ rP _ =>
      [(s.reg rP, widthBytes w)]
    | _ => []

/-- The condition of a conditional instruction. -/
def condOf : Instr → Option Cond
  | .ifGoto c _ _ => some c
  | .addReg _ c _ _ _ | .incDec _ c _ _ _ | .spIncDec c _ | .subReg _ c _ _ _ | .neg _ c _ _
  | .cmpReg _ c _ _ _ | .crAddReg _ c _ _ _ | .andReg _ c _ _ _ | .bitReg _ c _ _ _
  | .andcReg _ c _ _ _ | .orReg _ c _ _ _ | .xorReg _ c _ _ _ | .shlReg _ c _ _ _
  | .shrReg _ c _ _ _ | .sarReg _ c _ _ _ | .shl1 _ c _ _ | .shr1 _ c _ _ | .half _ c _ _
  | .ror1 _ c _ _ _ | .rol1 _ c _ _ _ => some c
  | _ => none

/-- Does the instruction test flags of ps (R449)? -/
def testsFlags (i : Instr) : Bool :=
  match condOf i with
  | some c => c != .never && c != .always
  | none => false

/-- The CA instructions that set the CAU flags, the loads among them (R230, R281, R287), and ireturn. -/
def setsCauFlags : Instr → Bool
  | .ireturn
  | .add3 .. | .set .. | .addReg .. | .incDec .. | .spIncDec .. | .subReg .. | .subImm .. | .rsubImm ..
  | .neg .. | .cmpReg .. | .cmpImm .. | .crAddReg .. | .crAddImm .. | .andReg .. | .andImm ..
  | .bitReg .. | .bitImm .. | .andcReg .. | .orReg .. | .orImm .. | .xorReg .. | .xorImm ..
  | .shlReg .. | .shlImm .. | .shrReg .. | .shrImm .. | .sarReg .. | .sarImm .. | .shl1 .. | .shr1 ..
  | .half .. | .ror1 .. | .rol1 .. | .shiftOr ..
  | .loadDirect .. | .loadMem .. | .loadIo .. => true
  | _ => false

/-- Does the instruction set or test the DAU flags inside the DAU (R328, R350, R367)? -/
def usesDauFlags (i : Instr) : Bool :=
  match daView i with
  | some d => d.setsFlags || d.test.isSome
  | none => false

/-- The IO register named by an instruction (R449). -/
def ioOf : Instr → Option IoReg
  | .loadIo _ _ io | .storeIo _ _ io | .loadIor _ io _ _ | .storeIor _ io _ _ => some io
  | _ => none

/-- Does the instruction reference the IO register, by name or implicitly (R449)? -/
def State.references (s : State) (i : Instr) (io : IoReg) : Bool :=
  (ioOf i == some io) ||
  match io with
  | .ps => testsFlags i || setsCauFlags i || usesDauFlags i
  | .dauc => (daView i).isSome
  | .pcw => !(s.dataBytes i).isEmpty
  | .emr | .spc | .ctr => false

/-! ### The checks -/

/-- The record at distance `k` (R450): `H[k+1]` of the rule. -/
def State.hist (s : State) (k : Nat) : Option Record := s.history[k]?

/-- Restriction 1 (R441). -/
def State.breaksRestriction1 (s : State) (i : Instr) : Bool :=
  match (s.hist 0).bind (·.zptr) with
  | some r => (namedRegs i).contains r
  | none => false

/-- Restriction 2 (R442). -/
def State.breaksRestriction2 (s : State) (i : Instr) : Bool :=
  match s.hist 0 with
  | some h => h.isDA && h.yIsMemory && isStore i
  | none => false

/-- Latency 1: the instruction's own word and its data (R444). -/
def State.breaksLatency1 (s : State) (i : Instr) : Bool :=
  let recorded := s.history.flatMap (·.zwords)
  ((s.pc, 4) :: s.dataBytes i).any fun t => (wordsOf t.1 t.2).any recorded.contains

/-- Latency 2; the doblock body is exempt (R445, R451). -/
def State.breaksLatency2 (s : State) (i : Instr) : Bool :=
  !(s.inBody && s.loop.kind == .block) &&
  (mulInputs i).any fun a => (s.hist 0).bind (·.acc) == some a || (s.hist 1).bind (·.acc) == some a

/-- The IO-register load restriction (R449). -/
def State.breaksIoLoad (s : State) (i : Instr) : Bool :=
  match (s.hist 0).bind (·.ior) with
  | some io => s.references i io
  | none => false

/-- The body of a doblock: `a0 = (Z=Y) * a0` (R210). -/
def isBlockMove : Instr → Bool
  | .fmultTap negP aN x _ z => !negP && aN == 0 && x == .acc 0 && z != .none
  | _ => false

/-- Two operands of the instruction share a pointer (R327). -/
def breaksPointer (i : Instr) : Bool :=
  match daView i with
  | some d => samePointer d
  | none => false

/-- Every check before an instruction runs (R191, R207, R210, R450): the rule it breaks, if any. -/
def State.check (s : State) (i : Instr) : Option Refusal :=
  if s.breaksRestriction1 i then some .zPointerReused
  else if s.breaksRestriction2 i then some .storeAfterMemoryY
  else if s.breaksLatency1 i then some .daWriteReferenced
  else if s.breaksLatency2 i then some .accumulatorTooEarly
  else if s.breaksIoLoad i then some .ioLoadReferenced
  else if breaksPointer i then some .samePointer
  else if s.inSlot && isTransfer i then some .transferInDelaySlot
  else if s.inBody && isTransfer i then some .transferInDoBody
  else if s.inBody && s.loop.kind == .block && !isBlockMove i then some .doblockBody
  else none

/-! ### The record -/

/-- The record of an instruction that runs in `s` (R450). -/
def State.record (s : State) (i : Instr) : Record :=
  match daView i with
  | some d =>
    { isDA := true
      yIsMemory := match d.y with
        | .mem _ => true
        | .acc _ => false
      zptr := match d.z with
        | .mem m => some m.reg
        | .none => none
      zwords := (s.zBytes d).flatMap fun t => wordsOf t.1 t.2
      acc := some d.aN
      ior := none }
  | none =>
    { isDA := false
      yIsMemory := false
      zptr := none
      zwords := []
      acc := none
      ior := match i with
        | .loadIor _ io _ _ => some io
        | _ => none }

end Machine
end Sys2Proof
end

