-- ==== Sys2Proof/Machine/Cycle.lean ====
section
/-! DEFINITION. The step function of R190: the boundary with the environment and the exceptions, the
prefetch, the execution with its checks, and the end of the step. -/

namespace Sys2Proof.Machine

/-! ### The boundary (R385, R386) -/

/-- The interrupt sources in falling priority (R388). -/
def interruptSources : List Nat := [5, 6, 8, 9, 11, 12, 13, 14, 15]

/-- The pending and enabled source of the highest priority (R386, R388). -/
def State.candidate (s : State) : Option Nat :=
  interruptSources.find? fun i => s.enabledRequests.getLsbD i

/-- No interrupt is taken at this boundary (R385). -/
def State.blocked (s : State) : Bool := s.inhibit || s.locked || s.level != .base

/-- Exception recognition (R386). -/
def State.recognize (s : State) : Res State :=
  match s.errorRequest with
  | some e => s.takeException (.error e)
  | none =>
    let t := { s with inhibit := false }
    match s.candidate with
    | none => .ok t
    | some i =>
      if s.waiting then .ok { t with waiting := false }
      else if s.blocked then .ok t
      else t.takeException (.interrupt i)

/-- Step 1 of R190. -/
def State.boundary (s : State) : Res State :=
  { s with out := [], latch := Latch.empty }.environment.recognize

/-! ### Fetch and execution -/

/-- What a word is, in the encoding of the parameters (R9, R132). -/
def State.decoded (s : State) (w : Word) : Decoded := decodeWith s.params.encoding w

/-- The instruction in `ir`, if it holds one. -/
def State.irInstr (s : State) : Option Instr :=
  match s.ir with
  | .trouble _ => none
  | .word w =>
    match s.decoded w with
    | .instr i => some i
    | .illegal | .reserved _ => none

/-- Step 3 of R190: the word after the one executing; a loop of one instruction is not fetched again
(R206). -/
def State.prefetch (s : State) : Fetched :=
  if s.loop.active && s.loop.start == s.loop.stop && s.npc == s.loop.start && s.pc == s.loop.start then
    s.ir
  else s.fetch s.npc

/-- The executing word lies in a word that a DA instruction wrote too recently (R444, R450). -/
def State.fetchTooEarly (s : State) : Bool :=
  let recorded := s.history.flatMap (·.zwords)
  (wordsOf s.pc 4).any recorded.contains

/-- Step 5 of R190: what stands in `ir`, with the checks of R450. -/
def State.execute (s : State) : Host.Outcome State Fault Refusal :=
  if s.fetchTooEarly then .refused .daWriteReferenced
  else
    match s.ir with
    | .trouble t => resolve s (.error t)
    | .word w =>
      match s.decoded w with
      | .illegal => resolve s (.error (.raise .illegalOpcode))
      | .reserved why => .refused (.reservedEncoding why)
      | .instr i =>
        match s.check i with
        | some r => .refused r
        | none => exec i s

/-- The record of what stands in `ir` (R450); a word that is no instruction leaves an empty one. -/
def State.irRecord (s : State) : Record :=
  match s.irInstr with
  | some i => s.record i
  | none => ⟨false, false, none, [], none, none⟩

/-- Is the next instruction in the delay slot of the one in `ir` (R191)? -/
def State.opensSlot (s : State) : Bool :=
  match s.irInstr with
  | some i => hasSlot i
  | none => false

/-! ### The end of the step -/

/-- Advance the DAU flag queue: entries whose time has come settle (R446). -/
def State.advanceFlags (s : State) : State :=
  let q := s.queue.map fun e => { e with left := e.left - 1 }
  { s.settleAll (q.filter (·.left == 0)) with queue := q.filter (·.left != 0) }

/-- The end of a doblock: the DAU flags are free values and nothing is in flight (R210, R446). -/
def State.endBlock (s : State) : State :=
  { s with queue := [], ps := withDau s.ps (s.drawn 4) }.countDraw

/-- `seq_next` (R205): the address after `a`, and the loop's state. -/
def seqNext (d : DoState) (a : Word) : DoState × Word :=
  if d.active && a == d.stop then
    if d.iter = 0#11 then ({ d with active := false, tail := true }, a + 4#32)
    else ({ d with iter := d.iter - 1#11, tail := false }, d.start)
  else ({ d with tail := false }, a + 4#32)

/-- Count a pass of a doblock (R210). -/
def countPass (before : State) (d : DoState) : DoState :=
  if before.inBody && before.loop.kind == .block then { d with passes := d.passes + 1#12 } else d

/-- Steps 6 and 7 of R190: where execution goes on. -/
def State.moveOn (s : State) (pf : Fetched) : State :=
  match s.latch.resume with
  | some (ir, pc, npc) => { s with pc := pc, npc := npc, ir := ir, history := [] }
  | none =>
    match s.latch.target with
    | some t => { s with pc := s.npc, npc := t, ir := pf, loop := { s.loop with tail := false } }
    | none =>
      let d := seqNext s.loop s.npc
      { s with pc := s.npc, npc := d.2, ir := pf, loop := d.1 }

/-- The end of the step (R190 steps 5a to 7, R450).  `before` is the state the instruction ran in. -/
def finish (before : State) (pf : Fetched) (t : State) : State :=
  let c := t.commitLoad
  let q := { c with pendingLoad := t.latch.load, history := (before.irRecord :: c.history).take 3 }.advanceFlags
  let b := if before.loop.tail && before.loop.kind == .block && q.errorRequest.isNone then q.endBlock else q
  let m := { b with loop := countPass before b.loop }.moveOn pf
  { m with latch := Latch.empty, inSlot := before.opensSlot }

/-- One step (R190).  Other agents come before the prefetch, after a vector fetch of the boundary, and
before the first access of the instruction (R112). -/
def cycle (s : State) : Host.Outcome State Fault Refusal :=
  match s.boundary with
  | .error t => resolve s (.error t)
  | .ok b =>
    if b.waiting then .next b
    else
      let p := b.interleave
      let d := p.interleave
      match d.execute with
      | .next t => .next (finish d p.prefetch t)
      | .fault f => .fault f
      | .refused r => .refused r

/-- The state with the word `w` in memory at pc, where memory can be written there, and in `ir`. -/
def placeWord (s : State) (w : Word) : State :=
  match s.writeBytes s.pc (bytesOf s.bigEndian 4 w) with
  | .ok t => { t with ir := .word w }
  | .error _ => { s with ir := .word w }

end Sys2Proof.Machine
end

