-- ==== Sys2Proof/Machine/Step.lean ====
section
/-! DEFINITION. The step of the machine, and the placing of one instruction where the next step takes it. -/

namespace Sys2Proof.Machine

/-- One step (R190). -/
def step (s : State) : Host.Outcome State Fault Refusal := cycle s

/-- The state with an instruction word where the next step takes it: in memory at pc, where memory can
be written there, and in the prefetch `ir`, which is what a step executes (R190, R387).  It stands for
a program loaded from outside before RESTN (R110, notes/assumptions/16.md). -/
def State.withFetchWord (s : State) (nbits w : Nat) : State := placeWord s (BitVec.ofNat 32 (w % 2 ^ nbits))

end Sys2Proof.Machine
end

