-- ==== Sys2Proof/Safety.lean ====
section
/-! DEFINITION. What the statements speak of: the frames, the arithmetic of the CAU and the DAU as numbers,
and the invariant of the machine.  Nothing of the machine is defined over this file. -/

namespace Sys2Proof

/-! ### The two operation sizes as numbers (R230, R231) -/

/-- w of R231. -/
def Size.bits : Size → Nat
  | .short => 16
  | .long => 32

/-- The low w bits as an unsigned number. -/
def Size.unsigned (sz : Size) (v : Word) : Nat := v.toNat % 2 ^ sz.bits

/-- A number as the two's complement number that w bits hold. -/
def Size.wrap (sz : Size) (x : Int) : Int := Int.bmod x (2 ^ sz.bits)

/-- The low w bits as a two's complement number. -/
def Size.signed (sz : Size) (v : Word) : Int := sz.wrap v.toNat

/-- The register that holds `x` in w bits, sign-extended (R232). -/
def Size.word (sz : Size) (x : Int) : Word := BitVec.ofInt 32 (sz.wrap x)

/-- The low `w` bits of `x` in the opposite order (R246). -/
def mirror (w x : Nat) : Nat :=
  ((List.range w).map fun i => if x.testBit (w - 1 - i) then 2 ^ i else 0).sum

/-! ### Floating-point numbers as rationals (R323, R324) -/

/-- The value of a 32-bit DSP3210 float (R323). -/
def val32 (w : Word) : ℚ :=
  if w.extractLsb' 0 8 = 0#8 then 0
  else ((if w.getLsbD 31 then -2 else 1) + ((w.extractLsb' 8 23).toNat : ℚ) / 2 ^ 23)
    * (2 : ℚ) ^ (((w.extractLsb' 0 8).toNat : ℤ) - 128)

/-- The value of an accumulator: the guard bits extend the fraction (R324). -/
def val40 (a : Acc40) : ℚ :=
  if a.extractLsb' 8 8 = 0#8 then 0
  else ((if a.getLsbD 39 then -2 else 1)
      + (((a.extractLsb' 16 23).toNat * 2 ^ 8 + (a.extractLsb' 0 8).toNat : ℕ) : ℚ) / 2 ^ 31)
    * (2 : ℚ) ^ (((a.extractLsb' 8 8).toNat : ℤ) - 128)

/-- The value of a word in a format (R322). -/
def FloatFormat.val32 (fm : FloatFormat) (w : Word) : ℚ :=
  match fm with
  | .excess128 => Sys2Proof.val32 w
  | .other k => Machine.otherVal32 k w

/-- The value of an accumulator in a format (R322). -/
def FloatFormat.val40 (fm : FloatFormat) (a : Acc40) : ℚ :=
  match fm with
  | .excess128 => Sys2Proof.val40 a
  | .other k => Machine.otherVal40 k a

/-- The value of a normal IEEE single. -/
def ieeeVal (w : Word) : ℚ :=
  (if w.getLsbD 31 then -1 else 1) * (1 + ((w.extractLsb' 0 23).toNat : ℚ) / 2 ^ 23)
    * (2 : ℚ) ^ (((w.extractLsb' 23 8).toNat : ℤ) - 127)

/-- `(-1)^b * x`. -/
def withSign (b : Bool) (x : ℚ) : ℚ := if b then -x else x

/-- The sum that a multiply/accumulate stands for (R322). -/
def macValue (t : Acc40) (negT negP : Bool) (y x : Word) : ℚ :=
  withSign negT (val40 t) + withSign negP (val32 y * val32 x)

/-- The same in any format (R322). -/
def FloatFormat.macValue (fm : FloatFormat) (t : Acc40) (negT negP : Bool) (y x : Word) : ℚ :=
  withSign negT (fm.val40 t) + withSign negP (fm.val32 y * fm.val32 x)

/-- The rounding mode of dauc[5:4] (R36, R359); a tie goes to the greater integer. -/
def roundBy (dauc : BitVec 8) (x : ℚ) : ℤ :=
  if dauc.getLsbD 4 = false then ⌊x + 1 / 2⌋
  else if dauc.getLsbD 5 = false then ⌊x⌋
  else if 0 ≤ x then ⌊x⌋ else ⌈x⌉

/-- The nearest integer of `w` bits. -/
def clampTo (w : Nat) (i : ℤ) : ℤ := max (-2 ^ (w - 1)) (min i (2 ^ (w - 1) - 1))

namespace Machine

/-! ### Frames -/

/-- `t` is `s` but for the registers `ds` and the note of who wrote them. -/
structure OnlyRegs (s t : State) (ds : List Reg) : Prop where
  regs : ∀ r, r ∉ ds → t.reg r = s.reg r
  bytes : ∀ a, t.readByte a = s.readByte a
  rest : t = { s with regs := t.regs, latch := { s.latch with wroteRegs := t.latch.wroteRegs } }

/-- `t` is `s` but for the registers `ds`, the four CAU flags, and the note of who wrote them. -/
structure OnlyRegsFlags (s t : State) (ds : List Reg) : Prop where
  regs : ∀ r, r ∉ ds → t.reg r = s.reg r
  dau : t.ps.extractLsb' 4 4 = s.ps.extractLsb' 4 4
  bytes : ∀ a, t.readByte a = s.readByte a
  rest : t = { s with
    regs := t.regs
    ps := t.ps
    latch := { s.latch with wroteRegs := t.latch.wroteRegs, wroteFlags := t.latch.wroteFlags } }

/-- The outcome writes `v` to rD, the CAU flags `f`, and nothing else; r0 stays 0 (R21, R230). -/
def Writes (s : State) (o : Host.Outcome State Fault Refusal) (rD : Reg) (v : Word) (f : CauFlags) :
    Prop :=
  ∃ t, o = .next t ∧ t.reg rD = (if rD = 0 then 0#32 else v) ∧ t.cau = f ∧ OnlyRegsFlags s t [rD]

/-- The outcome writes the CAU flags `f` and nothing else. -/
def SetsFlags (s : State) (o : Host.Outcome State Fault Refusal) (f : CauFlags) : Prop :=
  ∃ t, o = .next t ∧ t.cau = f ∧ OnlyRegsFlags s t []

/-! ### The CAU's results as numbers -/

/-- The flags of a + b (R231). -/
def sumFlags (sz : Size) (a b : Word) : CauFlags :=
  let x := sz.signed a + sz.signed b
  ⟨sz.wrap x < 0, sz.wrap x = 0, sz.wrap x ≠ x, 2 ^ sz.bits ≤ sz.unsigned a + sz.unsigned b⟩

/-- The flags of a - b: c is a borrow (R231). -/
def diffFlags (sz : Size) (a b : Word) : CauFlags :=
  let x := sz.signed a - sz.signed b
  ⟨sz.wrap x < 0, sz.wrap x = 0, sz.wrap x ≠ x, sz.unsigned a < sz.unsigned b⟩

/-- a + b in rD (R240). -/
def Adds (s : State) (o : Host.Outcome State Fault Refusal) (sz : Size) (rD : Reg) (a b : Word) :
    Prop :=
  Writes s o rD (sz.word (sz.signed a + sz.signed b)) (sumFlags sz a b)

/-- a - b in rD (R242). -/
def Subtracts (s : State) (o : Host.Outcome State Fault Refusal) (sz : Size) (rD : Reg) (a b : Word) :
    Prop :=
  Writes s o rD (sz.word (sz.signed a - sz.signed b)) (diffFlags sz a b)

/-- `v` is the bit-by-bit `f` of the low w bits of a and b, sign-extended (R232, R247). -/
def Bitwise (sz : Size) (f : Bool → Bool → Bool) (a b v : Word) : Prop :=
  ∀ i, i < 32 →
    v.getLsbD i = f (a.getLsbD (min i (sz.bits - 1))) (b.getLsbD (min i (sz.bits - 1)))

/-- The bit-by-bit `f` of a and b in rD, with the flags nz00 (R247 to R251). -/
def Logics (s : State) (o : Host.Outcome State Fault Refusal) (sz : Size) (f : Bool → Bool → Bool)
    (rD : Reg) (a b : Word) : Prop :=
  ∃ v, Bitwise sz f a b v ∧ Writes s o rD v ⟨v.getLsbD 31, v = 0#32, false, false⟩

/-- a << k in rD: zeros fill a short result (R252). -/
def ShiftsLeft (s : State) (o : Host.Outcome State Fault Refusal) (sz : Size) (rD : Reg) (a : Word)
    (k : Nat) : Prop :=
  let r := sz.unsigned a * 2 ^ k % 2 ^ sz.bits
  Writes s o rD (BitVec.ofNat 32 r) ⟨2 ^ (sz.bits - 1) ≤ r, r = 0, false, false⟩

/-- a >> k in rD: zeros fill a short result (R253). -/
def ShiftsRight (s : State) (o : Host.Outcome State Fault Refusal) (sz : Size) (rD : Reg) (a : Word)
    (k : Nat) : Prop :=
  let r := sz.unsigned a / 2 ^ k
  Writes s o rD (BitVec.ofNat 32 r) ⟨2 ^ (sz.bits - 1) ≤ r, r = 0, false, false⟩

/-- a $>> k in rD: the quotient rounded down (R254). -/
def ShiftsArith (s : State) (o : Host.Outcome State Fault Refusal) (sz : Size) (rD : Reg) (a : Word)
    (k : Nat) : Prop :=
  let r := sz.signed a / 2 ^ k
  Writes s o rD (BitVec.ofInt 32 r) ⟨r < 0, r = 0, false, false⟩

/-- The carry-reverse sum of a and b in rD (R246). -/
def ReverseAdds (s : State) (o : Host.Outcome State Fault Refusal) (sz : Size) (rD : Reg) (a b : Word) :
    Prop :=
  ∃ v, mirror sz.bits (sz.unsigned v)
      = (mirror sz.bits (sz.unsigned a) + mirror sz.bits (sz.unsigned b)) % 2 ^ sz.bits ∧
    Writes s o rD (sz.word v.toNat)
      ⟨sz.signed v < 0, sz.unsigned v = 0, false,
        2 ^ sz.bits ≤ mirror sz.bits (sz.unsigned a) + mirror sz.bits (sz.unsigned b)⟩

/-- The conditions with their codes and what each says (R150): the CAU flags ps[3:0], the settled DAU
flags ps[7:4], and the pins and serial flags that ps[13:8] shows (R33, R35). -/
def conditionTable (s : State) : List (Cond × BitVec 6 × Bool) :=
  let n := s.ps.getLsbD 0
  let z := s.ps.getLsbD 1
  let v := s.ps.getLsbD 2
  let c := s.ps.getLsbD 3
  let dN := s.ps.getLsbD 4
  let dZ := s.ps.getLsbD 5
  let dU := s.ps.getLsbD 6
  let dV := s.ps.getLsbD 7
  let p := s.pins
  [(.never, 0b000000#6, false), (.always, 0b000001#6, true),
   (.pl, 0b000010#6, !n), (.mi, 0b000011#6, n), (.ne, 0b000100#6, !z), (.eq, 0b000101#6, z),
   (.vc, 0b000110#6, !v), (.vs, 0b000111#6, v), (.cc, 0b001000#6, !c), (.cs, 0b001001#6, c),
   (.ge, 0b001010#6, n == v), (.lt, 0b001011#6, n != v),
   (.gt, 0b001100#6, !z && n == v), (.le, 0b001101#6, z || n != v),
   (.hi, 0b001110#6, !c && !z), (.ls, 0b001111#6, c || z),
   (.auc, 0b010000#6, !dU), (.aus, 0b010001#6, dU), (.age, 0b010010#6, !dN),
   (.alt, 0b010011#6, dN), (.ane, 0b010100#6, !dZ), (.aeq, 0b010101#6, dZ),
   (.avc, 0b010110#6, !dV), (.avs, 0b010111#6, dV),
   (.agt, 0b011000#6, !dN && !dZ), (.ale, 0b011001#6, dN || dZ),
   (.ibe, 0b100000#6, !p.ibf), (.ibf, 0b100001#6, p.ibf),
   (.obf, 0b100010#6, !p.obe), (.obe, 0b100011#6, p.obe),
   (.syc, 0b101000#6, !p.sy), (.sys, 0b101001#6, p.sy),
   (.fbc, 0b101010#6, !p.fb), (.fbs, 0b101011#6, p.fb),
   (.ir0c, 0b101100#6, !p.ir0), (.ir0s, 0b101101#6, p.ir0),
   (.ir1c, 0b101110#6, !p.ir1), (.ir1s, 0b101111#6, p.ir1)]

/-! ### Branches and loops -/

/-- The branch target is latched and interrupts are held off (R190, R193). -/
def jumped (s : State) (a : Word) : State :=
  { s with inhibit := true, latch := { s.latch with target := some a } }

/-- Interrupts are held off (R193). -/
def held (s : State) : State := { s with inhibit := true }

/-- The value of rB (R25, R192). -/
def baseOf (s : State) : Base → Word
  | .reg r => s.reg r
  | .pc => s.pc + 8#32

/-- The value of rS3 and of a stored rS (R25, R26, R290). -/
def sourceOf (s : State) : Source → Word
  | .reg r => s.reg r
  | .pc => s.pc + 8#32
  | .pcsh => s.pcsh

/-- The addresses after `a` in program order, `j` of them on (R205). -/
def sequence (d : DoState) (a : Word) (j : Nat) : DoState × Word :=
  (fun p => seqNext p.1 p.2)^[j] (d, a)

/-- From the instruction after the do on, K + 1 instructions run L + 1 times in order, then the one
after the body, with the loop over (R203, R205). -/
def RunsBody (s : State) (o : Host.Outcome State Fault Refusal) (kind : DoKind) (k l : Nat) : Prop :=
  ∃ t, o = .next t ∧ t = { s with loop := t.loop } ∧ t.loop.kind = kind ∧
    (∀ j, j < (k + 1) * (l + 1) →
      (sequence t.loop (s.pc + 4#32) j).1.active = true ∧
      (sequence t.loop (s.pc + 4#32) j).2 = s.pc + 4#32 + BitVec.ofNat 32 (4 * (j % (k + 1)))) ∧
    (sequence t.loop (s.pc + 4#32) ((k + 1) * (l + 1))).1.active = false ∧
    (sequence t.loop (s.pc + 4#32) ((k + 1) * (l + 1))).2 = s.pc + 4#32 + BitVec.ofNat 32 (4 * (k + 1))

/-! ### Moves -/

/-- The value a load of `n` bytes `d` leaves, as a number (R286). -/
def loaded (w : Width) (d : Word) : ℤ :=
  match w with
  | .byte => d.toNat % 2 ^ 8
  | .char => Int.bmod d.toNat (2 ^ 8)
  | .ushort => d.toNat % 2 ^ 16
  | .short => Int.bmod d.toNat (2 ^ 16)
  | .hbyte => d.toNat % 2 ^ 8 * 2 ^ 8
  | .long => d.toNat

/-- The data a store takes, as a number (R290). -/
def stored (w : Width) (v : Word) : ℕ :=
  match w with
  | .byte | .char => v.toNat % 2 ^ 8
  | .hbyte => v.toNat / 2 ^ 8 % 2 ^ 8
  | .ushort | .short => v.toNat % 2 ^ 16
  | .long => v.toNat

/-- The transfer size in bytes (R286, R290). -/
def bytesMoved : Width → ℕ
  | .byte | .char | .hbyte => 1
  | .ushort | .short => 2
  | .long => 4

/-- The pointer after a move of `n` bytes (R283). -/
def pointerAfter (s : State) (rP : Reg) (rI : Increment) (n : ℕ) : Word :=
  s.reg rP + match rI with
    | .reg r => if r = 0 then 0#32 else s.reg r
    | .plusN => BitVec.ofNat 32 n
    | .minusN => -BitVec.ofNat 32 n

/-- The state after a move that leaves rP at `v`: nothing else is written by the update, and it counts
as a write of rP even where the value stays (R283, R287). -/
def PointerSet (s t : State) (rP : Reg) (v : Word) : Prop :=
  t.reg rP = (if rP = 0 then 0#32 else v) ∧ (∀ r, r ≠ rP → t.reg r = s.reg r) ∧
  rP ∈ t.latch.wroteRegs

/-- The memory of `t` is that of `s` but for the `n` bytes from `a` on. -/
def OnlyBytes (s t : State) (a : Word) (n : ℕ) : Prop :=
  ∀ b, n ≤ (b - a).toNat → t.readByte b = s.readByte b

/-- An IO register as read: ps shows the pins in bits 13:8 and 0 above, the others are their bits
(R33, R35, R295). -/
def ioNumber (s : State) : IoReg → ℕ
  | .ps => s.ps.toNat + 256 * (s.pins.ibf.toNat + 2 * s.pins.obe.toNat + 4 * s.pins.sy.toNat
      + 8 * s.pins.fb.toNat + 16 * s.pins.ir0.toNat + 32 * s.pins.ir1.toNat)
  | .emr => s.emr.toNat
  | .spc => 0
  | .pcw => s.pcw.toNat
  | .dauc => s.dauc.toNat
  | .ctr => s.ctr.toNat

/-- The data of a transfer of `n` bytes from an IO register (R295). -/
def ioData (s : State) (io : IoReg) (n : ℕ) : Word := BitVec.ofNat 32 (ioNumber s io % 2 ^ (8 * n))

/-- A 16-bit register after a transfer of `n` bytes of `d` (R295). -/
def merged (old : Half) (n d : ℕ) : Half :=
  BitVec.ofNat 16 (if n = 1 then old.toNat / 256 * 256 + d % 256 else d)

/-- An IO register other than spc after a transfer of `n` bytes of `d`, nothing else being changed but,
for ps, the flags in flight (R34, R39, R40, R51, R295). -/
def ioWritten (s : State) (io : IoReg) (n d : ℕ) : State :=
  match io with
  | .ps => { s with
      ps := BitVec.ofNat 8 d
      queue := []
      latch := { s.latch with wroteFlags := true } }
  | .emr => { s with emr := merged s.emr n d }
  | .spc => s
  | .pcw =>
    if s.pcwLocked then s
    else { s with
      pcw := merged s.pcw n d
      pcwLocked := n ≠ 1 ∧ d.testBit 13 }
  | .dauc => { s with dauc := BitVec.ofNat 8 d }
  | .ctr => { s with ctr := BitVec.ofNat 8 (d % 64) }

/-- The effective address of `*L` (R103). -/
def directOf (s : State) (l : Half) : Word :=
  (if s.pcw.getLsbD 10 then 0x0000#16 else 0x5003#16) ++ l

/-- The load of `v` is issued and interrupts are held off (R286). -/
def issued (s : State) (p : PendingLoad) : State :=
  { s with inhibit := true, latch := { s.latch with load := some p } }

/-- The value a load of width `w` leaves in its register (R286). -/
def loadedWord (w : Width) (d : Word) : Word := BitVec.ofInt 32 (loaded w d)

/-- The data a store of width `w` takes from rS (R290). -/
def storedWord (w : Width) (v : Word) : Word := BitVec.ofNat 32 (stored w v)

/-- sp is the pointer only of long transfers (R285). -/
def spFits (rP : Reg) (w : Width) : Prop := rP = 21 → w = .long

/-! ### DA instructions -/

/-- The word of the constant 1.0 (R320): 0x00000080 in the default format (R323). -/
def oneWord (fm : FloatFormat) : Word :=
  match fm with
  | .excess128 => 0x00000080#32
  | .other k => otherOneWord k

/-- The increment of a DA memory operand of `n` bytes (R327, R351). -/
def daStep (s : State) (i : PostMod) (n : ℕ) : Word :=
  match i with
  | .keep => 0#32
  | .inc k => s.reg ⟨15 + k.val, by omega⟩
  | .plus => BitVec.ofNat 32 n
  | .minus => -BitVec.ofNat 32 n

/-- The memory operands of a DA instruction with their sizes. -/
def memOperands (x y : DaOperand) (z : DaDest) (yn zn : ℕ) : List (DaMem × ℕ) :=
  (match x with | .mem m => [(m, 4)] | .acc _ => [])
    ++ (match y with | .mem m => [(m, yn)] | .acc _ => [])
    ++ (match z with | .mem m => [(m, zn)] | .none => [])

/-- No register is the pointer of two operands one of which post-modifies (R327). -/
def PointersApart (ops : List (DaMem × ℕ)) : Prop :=
  ops.Pairwise fun a b => a.1.p = b.1.p → a.1.i = .keep ∧ b.1.i = .keep

/-- The state in which a DA instruction reads Y: where it also reads X, other agents came in between
(R112). -/
def yState (s : State) (d : DaView) : State := if d.x.isSome then s.interleave else s

/-- The state in which an instruction that ran in `s` makes its last access, or would: a DA instruction
writes Z after it read Y, and other agents came in between (R112); a CA instruction has one access. -/
def lastAccess (s : State) (i : Instr) : State :=
  match daView i with
  | some d => (yState s d).interleave
  | none => s

/-- What a DA instruction leaves beside its result, `s` being the state in which it writes Z: Z's bytes
are those of `u`, the pointers have moved (where no two operands clash), every other register,
accumulator and byte is as before (R327, R338, R352). -/
structure DaFrame (s u t : State) (aN : AccNo) (ops : List (DaMem × ℕ)) (z : DaDest) (zn : ℕ) : Prop
    where
  mem : t.mem = u.mem ∧ t.periph = u.periph
  bytes : ∀ b, (∀ m, z = .mem m → zn ≤ (b - s.reg m.reg).toNat) → t.readByte b = s.readByte b
  accs : ∀ a, a ≠ aN → t.acc a = s.acc a
  moved : PointersApart ops → ∀ m n, (m, n) ∈ ops → t.reg m.reg = s.reg m.reg + daStep s m.i n
  regs : ∀ r, (∀ m n, (m, n) ∈ ops → m.reg ≠ r) → t.reg r = s.reg r
  rest : t = { s with
    regs := t.regs
    accs := t.accs
    mem := t.mem
    periph := t.periph
    queue := t.queue
    draws := t.draws
    latch := { s.latch with wroteRegs := t.latch.wroteRegs } }

/-- A multiply/accumulate with the result `f x y`: where its operands can be read and Z be written, it
completes with Z, aN, the pointers and the flag queue written (R326, R328, R338).  Other agents come
before Y is read and before Z is written (R112). -/
def Accumulates (s : State) (o : Host.Outcome State Fault Refusal) (tap : Bool) (aN : AccNo)
    (x y : DaOperand) (z : DaDest) (f : DaValue → DaValue → DauResult) : Prop :=
  let sy := s.interleave
  let sz := sy.interleave
  ∀ xv yv u, s.daRead x 4 = .ok xv → sy.daRead y 4 = .ok yv →
    sz.daWrite z 4 (if tap then yv.raw else (f xv yv).value.extractLsb' 8 32) = .ok u →
    ∃ t, o = .next t ∧ t.acc aN = (f xv yv).value ∧
      t.queue = s.queue ++ [⟨(f xv yv).n, (f xv yv).z, (f xv yv).v, (f xv yv).u, false, 4⟩] ∧
      t.draws = s.draws ∧ DaFrame sz u t aN (memOperands x y z 4 4) z 4

/-- A special function: with the Y operand `yv`, `p` holds of what it leaves in aN and of the word it
writes to Z (none where the write is skipped), and it queues the flags `e` (R352).  Other agents come
before Z is written (R112). -/
def Converts (s : State) (o : Host.Outcome State Fault Refusal) (yn zn : ℕ) (aN : AccNo)
    (y : DaOperand) (z : DaDest) (zd : DaValue → Option Word) (e : DaValue → List FlagEntry)
    (p : DaValue → Acc40 → Prop) : Prop :=
  let sz := s.interleave
  ∀ yv u, s.daRead y yn = .ok yv →
    (match zd yv with | some d => sz.daWrite z zn d | none => .ok sz) = .ok u →
    ∃ t, o = .next t ∧ p yv (t.acc aN) ∧ t.queue = s.queue ++ e yv ∧
      DaFrame sz u t aN (memOperands (.acc 0) y z yn zn) z zn

/-- The flag entry of a special function's result. -/
def entryOf (n z v u nan : Bool) : List FlagEntry := [⟨n, z, v, u, nan, 4⟩]

/-! ### What the checks of R450 look at -/

/-- The instruction touches a byte of the aligned word `w`: it is fetched from there, or it reads or
writes there (R444). -/
def Touches (s : State) (i : Instr) (w : Word) : Prop :=
  ∃ p ∈ (s.pc, 4) :: s.dataBytes i, ∃ j < p.2, (p.1 + BitVec.ofNat 32 j) &&& 0xFFFFFFFC#32 = w

/-- The instruction names the IO register, or works with it implicitly: ps by a condition that tests
flags or by setting flags, dauc as a DA instruction, pcw by touching data memory (R449;
notes/assumptions/13.md). -/
def Refers (s : State) (i : Instr) (io : IoReg) : Prop :=
  ioOf i = some io ∨
  (io = .ps ∧ ((∃ c, condOf i = some c ∧ c ≠ .never ∧ c ≠ .always) ∨ setsCauFlags i = true ∨
    usesDauFlags i = true)) ∨
  (io = .dauc ∧ (daView i).isSome = true) ∨
  (io = .pcw ∧ s.dataBytes i ≠ [])

/-- One register is the pointer of two memory operands, one of which post-modifies (R327). -/
def SharesPointer (i : Instr) : Prop :=
  ∃ d, daView i = some d ∧ ¬ PointersApart (memOperands (d.x.getD (.acc 0)) d.y d.z d.yBytes d.zBytes)

/-- What the record of an instruction that ran in `b` holds (R450). -/
structure Recorded (b : State) (i : Instr) (h : Record) : Prop where
  ca : daView i = none → h.isDA = false ∧ h.zptr = none ∧ h.zwords = [] ∧ h.acc = none
  da : ∀ d, daView i = some d → h.isDA = true ∧ h.acc = some d.aN ∧
    (h.yIsMemory = true ↔ ∃ m, d.y = .mem m) ∧
    (∀ m, d.z = .mem m → h.zptr = some m.reg ∧
      ((∀ k, d.test = some k → b.ifSkipsZ k = false) → ∀ j < d.zBytes,
        (b.reg m.reg + BitVec.ofNat 32 j) &&& 0xFFFFFFFC#32 ∈ h.zwords))
  ior : h.ior = match i with
    | .loadIor _ io _ _ => some io
    | _ => none

/-! ### Steps -/

/-- Nothing happens at the next boundary, and no other agent acts in the step: no event of the environment,
no error, no interrupt that is pending and enabled, no wait (R112, R386). -/
structure Quiet (s : State) : Prop where
  env : s.env = []
  error : s.errorRequest = none
  noInterrupt : s.enabledRequests = 0#16
  awake : s.waiting = false

/-- `b` runs the last body instruction of a doblock, and it met no error (R210). -/
def EndsBlock (b t : State) : Prop :=
  b.loop.tail = true ∧ b.loop.kind = .block ∧ t.errorRequest = none

/-- The state in which the instruction runs after a quiet boundary (R386). -/
def opened (s : State) : State := { s with inhibit := false, out := [], latch := Latch.empty }

/-- The instruction at pc belongs to a dolock loop or moves a word of a doblock: other agents have no
access to memory inside it (R112). -/
def Exclusive (s : State) : Prop :=
  (s.loop.active = true ∨ s.loop.tail = true) ∧ (s.loop.kind = .lock ∨ s.loop.kind = .block)

/-- The instruction about to run is `i`, and no restriction of R450 forbids it here. -/
structure Ready (s : State) (i : Instr) : Prop where
  quiet : Quiet s
  word : ∃ w, s.ir = .word w ∧ s.decoded w = .instr i
  fetched : s.fetchTooEarly = false
  allowed : (opened s).check i = none

/-- The next step runs one instruction over and over from `ir`, without a fetch (R206). -/
def Repeats (s : State) : Prop :=
  s.loop.active = true ∧ s.loop.start = s.loop.stop ∧ s.npc = s.loop.start ∧ s.pc = s.loop.start

/-- The state in which `e` is requested and nothing else is done (R390). -/
def requesting (s : State) (e : ErrorSource) : State := { s with errorRequest := some e }

/-- What the end of a step leaves of what the instruction left: all but the sequencing registers, the
records, the flags in flight with what they settle into, and the registers a delayed load writes (R190).
-/
structure FinishFrame (t f : State) : Prop where
  rest : f = { t with
    pc := f.pc
    npc := f.npc
    ir := f.ir
    loop := f.loop
    inSlot := f.inSlot
    history := f.history
    latch := Latch.empty
    pendingLoad := f.pendingLoad
    queue := f.queue
    ps := f.ps
    ctr := f.ctr
    pending := f.pending
    draws := f.draws
    regs := f.regs
    pcsh := f.pcsh
    emr := f.emr
    pcw := f.pcw
    pcwLocked := f.pcwLocked
    dauc := f.dauc }
  noLoad : t.pendingLoad = none → f.regs = t.regs ∧ f.pcsh = t.pcsh
  noIoLoad : (∀ io n d, t.pendingLoad ≠ some (.ior io n d)) →
    f.emr = t.emr ∧ f.pcw = t.pcw ∧ f.pcwLocked = t.pcwLocked ∧ f.dauc = t.dauc

/-- The commands that write no register: stores to spc (R211 to R213, R296). -/
def isCommand : Instr → Prop
  | .sftrst _ => True
  | .storeIo _ _ io => io = .spc
  | _ => False

/-- The environment pulls RESTN at the next boundary. -/
def restarts (s : State) : Prop := ∃ es ∈ s.env.head?, ∃ k, EnvEvent.restn k ∈ es

/-! ### The invariant -/

/-- The results in flight are those of the last three instructions, the oldest first (R446). -/
def QueueOk (q : List FlagEntry) : Prop :=
  q.Pairwise (fun a b => a.left < b.left) ∧ ∀ e ∈ q, 1 ≤ e.left ∧ e.left ≤ 3

/-- A delayed load of an IO register does not set dauc[7] (R37). -/
def loadKeepsDauc : Option PendingLoad → Bool
  | some (.ior .dauc _ d) => !d.getLsbD 7
  | _ => true

/-- What holds between steps. -/
structure Inv (s : State) : Prop where
  /-- memory is in its canonical form -/
  memory : s.mem.wf = true
  /-- dauc[7] reads as zero (R36, R37) -/
  dauc : s.dauc.getLsbD 7 = false
  /-- so it will after the delayed load -/
  daucLoad : loadKeepsDauc s.pendingLoad = true
  /-- ctr[7:6] read as zero (R38) -/
  ctr : s.ctr.extractLsb' 6 2 = 0#2
  /-- ioc[31:24] read as zero (R55) -/
  ioc : s.periph.ioc.extractLsb' 24 8 = 0#8
  /-- only the sources of R384 have a request latch -/
  pending : s.pending &&& 0x049F#16 = 0#16
  /-- a locked pcw has BRC set (R51) -/
  locked : s.pcwLocked = true → s.pcw.getLsbD 13 = true
  /-- a load and the instruction after it are not separated by an interrupt (R385) -/
  loadHeld : s.pendingLoad ≠ none → s.inhibit = true
  /-- a waiting processor is at base level with nothing in flight (R396, R446) -/
  waits : s.waiting = true → s.level = .base ∧ s.queue = [] ∧ s.pendingLoad = none
  /-- the flag queue (R446) -/
  flags : QueueOk s.queue
  /-- the flag queue saved by an interrupt (R81, R386) -/
  savedFlags : QueueOk s.shadow.queue
  /-- three instructions are remembered (R440) -/
  history : s.history.length ≤ 3
  /-- nothing is left over from the instruction that ran -/
  settled : s.latch = Latch.empty

end Machine
end Sys2Proof
end

