-- ==== Sys2Proof/Certificates/Slice0/Obligations.lean ====
section
/-! DEFINITION. The statements for the provers, in the order of OBLIGATIONS.json. -/

open Sys2Proof Sys2Proof.Machine

/-! ### Encoding -/

/-- In the default encoding the decoder reads every well-formed instruction's word as that instruction
(R130 to R163). -/
def Obligations.EncodeThenDecode : Prop :=
  ∀ i : Instr, WellFormed i = true → decodeWith defaultEncoding (encode i) = .instr i

/-- In the default encoding a word that decodes is the word of the instruction, which is well-formed. -/
def Obligations.DecodeThenEncode : Prop :=
  ∀ (w : Word) (i : Instr), decodeWith defaultEncoding w = .instr i → encode i = w ∧ WellFormed i = true

/-- The words of a reserved or unlisted format, by I[31:25], in every encoding (R132, R175).  That
no encoding moves them is the model's choice (notes/assumptions/34.md). -/
def Obligations.IllegalWordsAreTheReservedFormats : Prop :=
  ∀ (e : Encoding) (w : Word), decodeWith e w = .illegal ↔
    w.toNat / 2 ^ 25 ∈ [0, 1, 2, 3, 4, 5, 15, 30, 31, 44, 45, 46, 47, 68, 69]

/-- The words of the spc commands (R177). -/
def Obligations.CommandWordsDecode : Prop :=
  ∀ p ∈ [(0x9DE0040A#32, Instr.waiti), (0x9D60040A#32, .bkpt true), (0x9D40040A#32, .bkpt false),
      (0x9D00040A#32, .sftrst false), (0x9D20040A#32, .sftrst true)],
    decodeWith defaultEncoding p.1 = .instr p.2

/-! ### The step -/

/-- After a quiet boundary the step runs the decoded instruction and ends as R190 says: what it leaves
is finished with the word prefetched from npc, or with the instruction itself, not fetched again, in a
loop of one instruction (R206, R387).  After any boundary other agents come before the prefetch and before
the instruction's first access; what they can change is memory, the peripheral registers, the pins and the
requests, and in a dolock loop or a doblock they have no access to memory (R112; the events and their
lists are notes/assumptions/15.md). -/
def Obligations.StepRunsTheDecodedInstruction : Prop :=
  (∀ (s : State) (i : Instr) (t : State), Ready s i → exec i (opened s) = .next t →
    step s = .next (finish (opened s) (opened s).prefetch t)) ∧
  (∀ s : State, (Repeats s → (opened s).prefetch = s.ir) ∧
    (¬ Repeats s → (opened s).prefetch = s.fetch s.npc)) ∧
  (∀ (s b : State) (i : Instr) (t : State), s.boundary = .ok b → b.waiting = false →
    let p := b.interleave
    let d := p.interleave
    (∃ w, d.ir = .word w ∧ d.decoded w = .instr i) → d.fetchTooEarly = false → d.check i = none →
    exec i d = .next t → step s = .next (finish d p.prefetch t)) ∧
  ∀ s : State,
    let t := s.interleave
    t = { s with mem := t.mem, periph := t.periph, pins := t.pins, pending := t.pending, env := t.env } ∧
    (Exclusive s → t.mem = s.mem) ∧ (s.env = [] → t = s) ∧
    ∀ es rest, s.env = es :: rest → (∀ k, .restn k ∉ es) → ¬ Exclusive s →
      t = es.foldl State.event { s with env := rest }

/-- The word that `withFetchWord` places at an aligned pc in read-write memory is what memory holds
there, and it is the word the next step executes; nothing else changes (notes/assumptions/16.md). -/
def Obligations.PlacedWordIsTheOneFetched : Prop :=
  ∀ (s : State) (w : ℕ), s.mem.wf = true →
    s.pc.toNat % 4 = 0 → (∀ j, j < 4 → ∃ k, s.place (s.pc + BitVec.ofNat 32 j) = .ram k) →
    (s.withFetchWord 32 w).fetch s.pc = .word (BitVec.ofNat 32 w) ∧
    (s.withFetchWord 32 w).ir = .word (BitVec.ofNat 32 w) ∧
    OnlyBytes s (s.withFetchWord 32 w) s.pc 4 ∧
    s.withFetchWord 32 w =
      { s with ir := (s.withFetchWord 32 w).ir, mem := (s.withFetchWord 32 w).mem }

/-- The end of a step: npc becomes pc with the prefetched word; a latched branch target becomes npc, so
that the instruction at the old npc runs before it (R190, R447).  That instruction is marked as a delay
slot exactly after a goto, call or return, taken or untaken (R191; nop is none of them,
notes/assumptions/10.md).  Without a target the do loop goes on: from its last address back to its first
with the count one less, or past it with the loop over (R205; its fields tail and passes are the model's,
notes/assumptions/14.md).  Everything else is as the instruction left it, but what FinishFrame names. -/
def Obligations.BranchTakesEffectAfterTheNextInstruction : Prop :=
  ∀ (b : State) (pf : Fetched) (t : State),
    ((finish b pf t).inSlot = true ↔
      ∃ w i, b.ir = .word w ∧ b.decoded w = .instr i ∧ hasSlot i = true) ∧
    FinishFrame t (finish b pf t) ∧
    (t.latch.resume = none →
      (finish b pf t).pc = t.npc ∧ (finish b pf t).ir = pf ∧
      let d := (finish b pf t).loop
      d.kind = t.loop.kind ∧ d.start = t.loop.start ∧ d.stop = t.loop.stop ∧
      d.passes = (if (b.loop.active = true ∨ b.loop.tail = true) ∧ b.loop.kind = .block
        then t.loop.passes + 1#12 else t.loop.passes) ∧
      (∀ a, t.latch.target = some a → (finish b pf t).npc = a ∧ d.active = t.loop.active ∧
        d.iter = t.loop.iter ∧ d.tail = false) ∧
      (t.latch.target = none →
        (t.loop.active = false ∨ t.npc ≠ t.loop.stop → (finish b pf t).npc = t.npc + 4#32 ∧
          d.active = t.loop.active ∧ d.iter = t.loop.iter ∧ d.tail = false) ∧
        (t.loop.active = true → t.npc = t.loop.stop → t.loop.iter ≠ 0#11 →
          (finish b pf t).npc = t.loop.start ∧ d.active = true ∧
          d.iter.toNat + 1 = t.loop.iter.toNat ∧ d.tail = false) ∧
        (t.loop.active = true → t.npc = t.loop.stop → t.loop.iter = 0#11 →
          (finish b pf t).npc = t.npc + 4#32 ∧ d.active = false ∧ d.iter = t.loop.iter ∧
          d.tail = true)))

/-! ### Reset -/

/-- RESTN from any state, with the levels of BIO7 to BIO4 in bits 3 to 0 of `straps` (R42, R88, R431,
R432).  That memory keeps its contents is the model's choice: R88 and R432 call them unwritten
(notes/assumptions/15.md). -/
def Obligations.RestnLeavesTheResetState : Prop :=
  ∀ (s : State) (straps : BitVec 4),
    let t := s.event (.restn straps)
    t.pc = 0#32 ∧ t.npc = 4#32 ∧ t.ir = t.fetch 0#32 ∧ t.dauc = 0#8 ∧ t.emr = 0#16 ∧
    t.periph.bioc = 0#8 ∧ t.reg 0 = 0#32 ∧
    t.pcw.toNat = 0x038F + (straps.getLsbD 3).toNat * 2 ^ 10 + (straps.getLsbD 2).toNat * 2 ^ 11
      + (straps.getLsbD 1).toNat * 2 ^ 12 + (straps.getLsbD 0).toNat * 2 ^ 13 ∧
    t.level = .base ∧ t.waiting = false ∧ t.inhibit = false ∧ t.loop.active = false ∧
    t.pending = 0#16 ∧ t.errorRequest = none ∧ t.pendingLoad = none ∧ t.history = [] ∧
    t.queue = [] ∧ t.mem = s.mem

/-- The state after reset meets the invariant. -/
def Obligations.ResetMeetsTheInvariant : Prop := Inv State.reset

/-- Every step keeps the invariant. -/
def Obligations.StepKeepsTheInvariant : Prop :=
  ∀ s t : State, Inv s → step s = .next t → Inv t

/-! ### Memory

A statement that reads back what was written has the canonical form of memory as a premise; that the form
holds is StepKeepsTheInvariant. -/

/-- A store of 1, 2 or 4 bytes to aligned read-write memory succeeds, and a load of the same bytes gives
what was stored. -/
def Obligations.StoreThenLoadReturnsTheValue : Prop :=
  ∀ (s : State) (a : Word) (n : ℕ) (v : Word), s.mem.wf = true →
    n = 1 ∨ n = 2 ∨ n = 4 → a.toNat % n = 0 → (∀ j, j < n → ∃ k, s.place (a + BitVec.ofNat 32 j) = .ram k) →
    ∃ t, s.store a n v = .ok t ∧ t.load a n = .ok (BitVec.ofNat 32 (v.toNat % 2 ^ (8 * n)))

/-- A store changes only the bytes it names, or only the registers of a memory-mapped device. -/
def Obligations.StoreTouchesOnlyItsBytes : Prop :=
  ∀ (s : State) (a : Word) (n : ℕ) (v : Word) (t : State), s.store a n v = .ok t →
    OnlyBytes s t a n ∧ t = { s with mem := t.mem, periph := t.periph } ∧
    (s.mmioAt a = none → t.periph = s.periph) ∧ (s.mmioAt a ≠ none → t.mem = s.mem)

/-- Byte order by pcw[8]: big endian puts the most significant byte at the lowest address, little endian
the least significant (R92); a load assembles the bytes in the same way. -/
def Obligations.ByteOrderFollowsPcw : Prop :=
  (∀ (s : State) (a : Word) (n : ℕ) (v : Word) (t : State), s.mem.wf = true →
    n = 1 ∨ n = 2 ∨ n = 4 → s.mmioAt a = none → s.store a n v = .ok t → ∀ j, j < n →
      t.readByte (a + BitVec.ofNat 32 j) =
        .ok (v.extractLsb' (8 * if s.pcw.getLsbD 8 then n - 1 - j else j) 8)) ∧
  (∀ (s : State) (a : Word) (n : ℕ) (v : Word), n = 1 ∨ n = 2 ∨ n = 4 →
    s.mmioAt a = none → s.load a n = .ok v → v.toNat < 2 ^ (8 * n) ∧ ∀ j, j < n →
      s.readByte (a + BitVec.ofNat 32 j) =
        .ok (v.extractLsb' (8 * if s.pcw.getLsbD 8 then n - 1 - j else j) 8))

/-- `*L` has L as its lower half and its upper half by pcw[10].  What stands at an address: external
memory unless the environment answers with BERRN, the Boot ROM from offset 0 of the on-chip region,
read-write memory, or nothing (R100 to R104; where each lies is notes/assumptions/5.md).  What another
bus master writes to external memory is there for the core under every map that does not hide it (R110,
R405; notes/assumptions/25.md). -/
def Obligations.MemoryMapDecidesTheAccess : Prop :=
  (∀ (s : State) (l : Half),
    (s.directAddress l).toNat = (if s.pcw.getLsbD 10 then 0 else 0x50030000) + l.toNat) ∧
  ∀ (s : State) (a : Word) (v : Byte), s.mem.wf = true →
    let off := (a - (if s.pcw.getLsbD 10 then 0x00000000#32 else 0x50030000#32)).toNat
    (s.params.onchipSize ≤ off → (∀ r ∈ s.pins.berr, r.has a.toNat = false) →
      ∃ t, s.writeByte a v = .ok t ∧ t.readByte a = .ok v) ∧
    (s.params.onchipSize ≤ off → (∃ r ∈ s.pins.berr, r.has a.toNat = true) →
      s.readByte a = .error (.raise .busError) ∧ s.writeByte a v = .error (.raise .busError)) ∧
    (off < s.params.onchipSize → s.mmioAt a = none → off < s.params.romSize →
      s.readByte a = .ok (bootByte off) ∧ s.writeByte a v = .error (.fault .romStore)) ∧
    (off < s.params.onchipSize → s.mmioAt a = none → s.params.romSize ≤ off →
      (∃ r ∈ s.params.ram, r.has off = true) → ∃ t, s.writeByte a v = .ok t ∧ t.readByte a = .ok v) ∧
    (off < s.params.onchipSize → s.mmioAt a = none → s.params.romSize ≤ off →
      (∀ r ∈ s.params.ram, r.has off = false) →
      s.readByte a = .error (.fault .emptyOnChip) ∧ s.writeByte a v = .error (.fault .emptyOnChip)) ∧
    let t := s.event (.busWrite a v)
    t = { s with mem := t.mem } ∧ (∀ b, b ≠ a → t.readByte b = s.readByte b) ∧
    ∀ p : Half, s.params.onchipSize ≤ (a - (if p.getLsbD 10 then 0x00000000#32 else 0x50030000#32)).toNat →
      (∀ r ∈ s.pins.berr, r.has a.toNat = false) → { t with pcw := p }.readByte a = .ok v

/-- A misaligned access by the parameter MISALIGNED (R95, R389); byte by byte, it reads the bytes as
R92 says.  That the first two hold whatever answers at the address, BERRN included, is the model's choice
(notes/assumptions/33.md). -/
def Obligations.MisalignedAccessFollowsTheParameter : Prop :=
  ∀ (s : State) (a : Word) (n : ℕ), n = 2 ∨ n = 4 → a.toNat % n ≠ 0 →
    (s.params.misaligned = .refuse → s.load a n = .error (.refuse .misaligned) ∧
      (∀ v, s.store a n v = .error (.refuse .misaligned)) ∧
      (n = 4 → s.fetch a = .trouble (.refuse .misaligned))) ∧
    (s.params.misaligned = .addressError → s.emr.getLsbD 4 = true →
      s.load a n = .error (.raise .addressError) ∧
      (∀ v, s.store a n v = .error (.raise .addressError)) ∧
      (n = 4 → s.fetch a = .trouble (.raise .addressError))) ∧
    (s.params.misaligned = .split → (∀ j, j < n → ∃ k, s.place (a + BitVec.ofNat 32 j) = .ram k) →
      ∃ v, s.load a n = .ok v ∧ ∀ j, j < n → s.readByte (a + BitVec.ofNat 32 j) =
        .ok (v.extractLsb' (8 * if s.pcw.getLsbD 8 then n - 1 - j else j) 8))

/-! ### Exceptions -/

/-- An instruction that requests an error makes none of its writes: no register, flag, accumulator,
pointer or byte of memory; what other agents wrote between its accesses stays (R112, R390).  It requests the error that its access meets, the first of X, Y and Z
for a DA instruction, and so does a step whose fetch met one (R388 to R390; notes/assumptions/20.md).  An
access of several bytes meets the Bus Error of the first of them that the environment answers with BERRN
(notes/assumptions/22.md). -/
def Obligations.FaultingInstructionWritesNothing : Prop :=
  (∀ (i : Instr) (s t : State), exec i s = .next t → t.errorRequest ≠ s.errorRequest →
    ∃ e, t = requesting (lastAccess s i) e) ∧
  (∀ (s : State) (e : ErrorSource) (w : Width), let n := bytesMoved w
    (∀ rH l, s.load (directOf s l) n = .error (.raise e) →
      exec (.loadDirect w rH l) s = .next (requesting s e)) ∧
    (∀ rH l, s.store (directOf s l) n (storedWord w (sourceOf s rH)) = .error (.raise e) →
      exec (.storeDirect w rH l) s = .next (requesting s e)) ∧
    ∀ rP rI, spFits rP w →
      (s.load (s.reg rP) n = .error (.raise e) →
        (∀ rH, exec (.loadMem w rH rP rI) s = .next (requesting s e)) ∧
        ∀ io, io ≠ .spc → w ≠ .hbyte → exec (.loadIor w io rP rI) s = .next (requesting s e)) ∧
      (∀ rH, s.store (s.reg rP) n (storedWord w (sourceOf s rH)) = .error (.raise e) →
        exec (.storeMem w rH rP rI) s = .next (requesting s e)) ∧
      ∀ io, io ≠ .spc → w ≠ .hbyte → s.store (s.reg rP) n (ioData s io n) = .error (.raise e) →
        exec (.storeIor w io rP rI) s = .next (requesting s e)) ∧
  (∀ (s : State) (e : ErrorSource) (i : Instr) (d : DaView), daView i = some d →
    (∀ aN a z, i ≠ .dsp aN (.acc a) z) →
    let xRead := s.daRead (d.x.getD (.acc 0)) 4
    let yRead := (yState s d).daRead d.y d.yBytes
    let stopped := requesting (lastAccess s i) e
    (xRead = .error (.raise e) → exec i s = .next stopped) ∧
    ((∃ xv, xRead = .ok xv) → yRead = .error (.raise e) → exec i s = .next stopped) ∧
    ((∃ xv, xRead = .ok xv) → (∃ yv, yRead = .ok yv) → (∀ k, d.test = some k → s.ifSkipsZ k = false) →
      (∃ v, (lastAccess s i).daWrite d.z d.zBytes v = .error (.raise e)) → exec i s = .next stopped)) ∧
  (∀ (s : State) (e : ErrorSource), Quiet s → s.ir = .trouble (.raise e) → s.fetchTooEarly = false →
    step s = .next (finish (opened s) (opened s).prefetch (requesting (opened s) e))) ∧
  ∀ (s : State) (a : Word) (n j : ℕ), n = 1 ∨ n = 2 ∨ n = 4 → a.toNat % n = 0 → j < n →
    (∀ i, i < j → ∃ k, s.place (a + BitVec.ofNat 32 i) = .ram k) →
    s.place (a + BitVec.ofNat 32 j) = .berr →
    s.load a n = .error (.raise .busError) ∧ (∀ v, s.store a n v = .error (.raise .busError)) ∧
    (n = 4 → s.fetch a = .trouble (.raise .busError))

/-- A reserved or unlisted format raises Illegal Opcode: the step writes nothing but the sequencing
registers, and the next boundary enters vector 2 at error level (R175, R381, R390). -/
def Obligations.IllegalOpcodeEntersVectorTwo : Prop :=
  ∀ (s : State) (w : Word), Quiet s → s.ir = .word w → s.decoded w = .illegal →
    s.fetchTooEarly = false → s.pendingLoad = none → s.queue = [] → s.loop.active = false →
    s.loop.tail = false → s.level = .base →
    ∃ t u, step s = .next t ∧ t.errorRequest = some .illegalOpcode ∧ t.regs = s.regs ∧
      t.accs = s.accs ∧ t.ps = s.ps ∧ t.mem = s.mem ∧ t.pc = s.npc ∧ t.npc = s.npc + 4#32 ∧
      t.boundary = .ok u ∧ u.pc = s.reg 22 + 0x10#32 ∧ u.level = .error

/-- The boundary takes the pending and enabled interrupt of highest priority when nothing holds it off:
the instruction about to run, its address, npc, the flags and the loop are saved, and execution goes to
the vector, fetched under the map in force; registers, accumulators, masks and memory stay (R386).  The
flag results in flight are saved by default (notes/assumptions/19.md, notes/assumptions/27.md). -/
def Obligations.InterruptEntrySavesAndVectors : Prop :=
  ∀ (s : State) (i : ℕ), s.env = [] → s.errorRequest = none → s.waiting = false →
    s.blocked = false → s.candidate = some i →
    ∃ u, s.boundary = .ok u ∧
      u.shadow.instr = s.ir ∧ u.shadow.pc = s.pc ∧ u.shadow.ps = s.ps ∧
      (s.params.exc.inFlight = true → u.shadow.queue = s.queue ∧ u.queue = []) ∧
      u.shadow.loop = s.loop ∧ u.pcsh = s.npc ∧
      u.loop.active = false ∧ u.level = .interrupt ∧
      u.pending.getLsbD i = false ∧ (∀ j, j ≠ i → u.pending.getLsbD j = s.pending.getLsbD j) ∧
      Event.acknowledge i ∈ u.out ∧ u.inhibit = false ∧ u.history = [] ∧
      u.pc = s.reg 22 + BitVec.ofNat 32 (8 * i) ∧ u.npc = u.pc + 4#32 ∧ u.ir = s.fetch u.pc ∧
      u.regs = s.regs ∧ u.accs = s.accs ∧ u.ps = s.ps ∧ u.emr = s.emr ∧ u.pcw = s.pcw ∧
      u.dauc = s.dauc ∧ u.ctr = s.ctr ∧ u.mem = s.mem ∧ u.periph = s.periph

/-- No interrupt is taken at a boundary while the last instruction holds them off, in a dolock loop, in
a quad word of a doblock, or above base level; the one-shot is spent.  A waiting processor first wakes
and runs one more instruction (R385, R396). -/
def Obligations.InterruptsAreHeldOff : Prop :=
  ∀ s : State, s.env = [] → s.errorRequest = none →
    s.waiting = true ∨ s.inhibit = true ∨ s.level ≠ .base ∨
      ((s.loop.active = true ∨ s.loop.tail = true) ∧
        (s.loop.kind = .lock ∨ (s.loop.kind = .block ∧ s.loop.passes.toNat % 4 ≠ 0))) →
    ∃ w, s.boundary = .ok { opened s with waiting := w } ∧
      w = (s.waiting && decide (s.candidate = none))

/-- Among the pending and enabled interrupt sources the lowest index is taken (R388). -/
def Obligations.LowestIndexHasPriority : Prop :=
  ∀ (s : State) (i : ℕ), s.candidate = some i ↔
    (i ∈ [5, 6, 8, 9, 11, 12, 13, 14, 15] ∧ s.pending.getLsbD i = true ∧ s.emr.getLsbD i = true ∧
      ∀ j, j < i → j ∈ [5, 6, 8, 9, 11, 12, 13, 14, 15] →
        ¬ (s.pending.getLsbD j = true ∧ s.emr.getLsbD j = true))

/-- An error is taken at the next boundary, before any interrupt and whatever holds interrupts off: the
level rises, the wait, the loop and the flags in flight end, and execution goes to the error's vector;
at double error level there is no further entry (R383, R390).  By default pcsh and the shadow set are
free values (R390; notes/assumptions/27.md). -/
def Obligations.ErrorEntryRaisesTheLevel : Prop :=
  ∀ (s : State) (e : ErrorSource), s.env = [] → s.errorRequest = some e →
    (s.level = .doubleError → step s = .refused .errorAtDoubleError) ∧
    (s.level ≠ .doubleError → ∃ u, s.boundary = .ok u ∧
      u.level = (if s.level = .error then .doubleError else .error) ∧
      u.errorRequest = none ∧ u.waiting = false ∧ u.inhibit = false ∧ u.loop.active = false ∧
      u.queue = [] ∧ u.history = [] ∧ u.pending = s.pending ∧
      (s.params.exc.errorShadow = .unknown →
        ∃ n, s.draws ≤ n ∧ n + 1 < u.draws ∧ u.pcsh = Config.free 32 n ∧ u.shadow = drawnShadow (n + 1)) ∧
      (s.params.exc.errorShadow = .kept → u.pcsh = s.pcsh ∧ u.shadow = s.shadow) ∧
      u.pc = s.reg 22 + (match e with
        | .busError => 0x08#32 | .illegalOpcode => 0x10#32 | .addressError => 0x20#32) ∧
      u.npc = u.pc + 4#32 ∧ u.ir = s.fetch u.pc ∧
      u.regs = s.regs ∧ u.accs = s.accs ∧ u.ps = s.ps ∧ u.emr = s.emr ∧ u.pcw = s.pcw ∧
      u.dauc = s.dauc ∧ u.ctr = s.ctr ∧ u.mem = s.mem ∧ u.periph = s.periph)

/-- Whatever the handler did to the rest of the machine, the ireturn that ends it gives back what the
interrupt saved: the instruction about to run and its address, the address after it, the flags, the
flags in flight one instruction older, the loop and base level (R386, R392; the ageing is
notes/assumptions/11.md), where the shadow set holds the flags in flight, as it does by default
(notes/assumptions/27.md). -/
def Obligations.IreturnGivesBackWhatTheInterruptTook : Prop :=
  ∀ (s u h b : State) (i : ℕ) (pf : Fetched), s.takeException (.interrupt i) = .ok u →
    (∀ e ∈ s.queue, 2 ≤ e.left) → s.params.exc.inFlight = true → h.params = s.params →
    h.level = .interrupt → h.shadow = u.shadow → h.pcsh = u.pcsh → h.pendingLoad = none →
    h.loop.active = false → h.loop.tail = false → exec .ireturn h = .next b →
    let n := finish h pf b
    n.pc = s.pc ∧ n.npc = s.npc ∧ n.ir = s.ir ∧ n.ps = s.ps ∧ n.loop = s.loop ∧ n.level = .base ∧
    n.queue = s.queue.map (fun e => { e with left := e.left - 1 }) ∧ n.inhibit = true ∧
    n.history = [] ∧ n.regs = h.regs ∧ n.accs = h.accs ∧ n.mem = h.mem ∧ n.emr = h.emr

/-- The processor-control instructions: ireturn at interrupt level, sftrst above interrupt level, waiti
at base level and bkpt complete; at the other levels the spec describes nothing (R392, R394, R396,
R398).  waiti is ignored where an enabled request is pending once the flags in flight have settled: the
newest of them is then in ps, the N flags of all in ctr, and each V, U or NaN has made its request
(R446). -/
def Obligations.ProcessorControlCompletes : Prop :=
  ∀ s : State,
    (s.level = .interrupt → ∃ t, exec .ireturn s = .next t ∧ t.level = .base ∧
      t.ps = s.shadow.ps ∧
      t.queue = (if s.params.exc.inFlight then s.shadow.queue else s.queue) ∧
      t.loop = s.shadow.loop ∧ t.inhibit = true ∧
      t.latch.resume = some (s.shadow.instr, s.shadow.pc, s.pcsh) ∧ t.regs = s.regs ∧
      t.accs = s.accs ∧ t.mem = s.mem ∧ t.emr = s.emr ∧ t.pcw = s.pcw ∧ t.pending = s.pending) ∧
    (s.level ≠ .interrupt → exec .ireturn s = .refused .ireturnLevel) ∧
    (∀ b, s.level = .error ∨ s.level = .doubleError →
      exec (.sftrst b) s = .next { s with
        level := .base
        out := s.out ++ if s.emr.getLsbD 0 then [Event.level .base] else [] }) ∧
    (∀ b, s.level = .base ∨ s.level = .interrupt → exec (.sftrst b) s = .refused .sftrstLevel) ∧
    (∀ b, exec (.bkpt b) s = .next { s with out := s.out ++ [Event.breakpoint] }) ∧
    (s.level = .base → ∃ t, exec .waiti s = .next t ∧ t.queue = [] ∧
      (t.waiting = true ↔ s.waiting = true ∨ ∀ i, i ∈ interruptSources →
        ¬ (t.pending.getLsbD i = true ∧ t.emr.getLsbD i = true)) ∧
      (s.queue = [] → t = { s with waiting := t.waiting }) ∧
      (∀ e, s.queue.getLast? = some e →
        t.dauN = e.n ∧ t.dauZ = e.z ∧ t.dauV = e.v ∧ t.dauU = e.u ∧ t.cau = s.cau ∧
        t.ctr.toNat = s.queue.foldl (fun c f => 2 * c + f.n.toNat) s.ctr.toNat % 64 ∧
        ∀ j, t.pending.getLsbD j = (s.pending.getLsbD j || (j == 5 && s.queue.any fun f => f.v || f.u)
          || (j == 6 && s.queue.any (·.nan)))) ∧
      t = { s with
        waiting := t.waiting, ps := t.ps, ctr := t.ctr, pending := t.pending, queue := t.queue }) ∧
    (s.level ≠ .base → exec .waiti s = .refused .waitiLevel)

/-- Only an exception, ireturn, sftrst (however its store is spelled) or RESTN changes the processor
level (R80, R383). -/
def Obligations.OnlyFewEventsChangeTheLevel : Prop :=
  ∀ s t : State, step s = .next t → t.level ≠ s.level →
    s.env ≠ [] ∨ s.errorRequest ≠ none ∨ s.candidate ≠ none ∨
    ∃ w i, s.ir = .word w ∧ s.decoded w = .instr i ∧ (i = .ireturn ∨ isCommand i)

/-- A write that sets pcw[13] locks pcw: from then on no step but one with RESTN changes it; a pcw[13]
that RESTN sets from BIO4 does not lock (R51). -/
def Obligations.LockedPcwStays : Prop :=
  (∀ (s : State) (w : Width) (rH : Source), s.pcwLocked = false → bytesMoved w ≠ 1 →
    (sourceOf s rH).getLsbD 13 = true → ∃ t, exec (.storeIo w rH .pcw) s = .next t ∧
      t.pcwLocked = true ∧ t.pcw = (sourceOf s rH).setWidth 16) ∧
  (∀ s t : State, s.pcwLocked = true → ¬ restarts s → step s = .next t →
    t.pcw = s.pcw ∧ t.pcwLocked = true) ∧
  (∀ (s : State) (straps : BitVec 4), (s.event (.restn straps)).pcwLocked = false ∧
    (s.event (.restn straps)).pcw.getLsbD 13 = straps.getLsbD 0)

/-! ### Control -/

/-- goto, the conditional goto, nop, return and the 24-bit goto latch their target, or none, hold off
interrupts and write nothing else (R192 to R196, R199, R202). -/
def Obligations.GotosLatchTheirTarget : Prop :=
  ∀ (s : State) (rB : Base) (n : Half),
    (∀ c, exec (.ifGoto c rB n) s =
      .next (if s.cond c then jumped s (baseOf s rB + BitVec.ofInt 32 n.toInt) else held s)) ∧
    exec (.goto rB n) s = .next (jumped s (baseOf s rB + BitVec.ofInt 32 n.toInt)) ∧
    exec (.nop rB n) s = .next (held s) ∧
    (∀ m : BitVec 24, exec (.goto24 rB m) s =
      .next (jumped s (baseOf s rB + BitVec.ofNat 32 m.toNat))) ∧
    (∀ rM, exec (.ret rM) s = .next (jumped s (s.reg rM)))

/-- The loop-counter goto tests rM before it decrements it, and uses the old rM as base (R198). -/
def Obligations.LoopGotoTestsBeforeTheDecrement : Prop :=
  ∀ (s : State) (rM : Reg) (rB : Base) (n : Half),
    ∃ t, exec (.loopGoto rM rB n) s = .next t ∧
      PointerSet s t rM (s.reg rM - 1#32) ∧ t.inhibit = true ∧
      t.latch.target = (if 0 ≤ (s.reg rM).toInt then some (baseOf s rB + BitVec.ofInt 32 n.toInt)
        else s.latch.target) ∧
      (∀ a, t.readByte a = s.readByte a) ∧
      t = { s with
        regs := t.regs
        inhibit := true
        latch := { s.latch with target := t.latch.target, wroteRegs := t.latch.wroteRegs } }

/-- call leaves the address of the instruction after its delay slot in rM and branches to a target
computed with the old rM (R200, R201). -/
def Obligations.CallsLeaveTheReturnAddress : Prop :=
  ∀ (s : State) (rM : Reg) (rB : Base) (n : Half) (m : BitVec 24),
    ∀ p ∈ [(exec (.call rM rB n) s, baseOf s rB + BitVec.ofInt 32 n.toInt),
           (exec (.call24 rM m) s, BitVec.ofNat 32 m.toNat)],
    ∃ t, p.1 = .next t ∧ PointerSet s t rM (s.pc + 8#32) ∧ t.inhibit = true ∧
      t.latch.target = some p.2 ∧ (∀ a, t.readByte a = s.readByte a) ∧
      t = { s with
        regs := t.regs
        inhibit := true
        latch := { s.latch with target := t.latch.target, wroteRegs := t.latch.wroteRegs } }

/-- The do instructions: the next K + 1 instructions run L + 1 times, a register giving the low 11 bits
as L (R203, R205, R209, R210). -/
def Obligations.DoRunsItsBody : Prop :=
  ∀ (s : State) (k : BitVec 7) (l : BitVec 11) (rM : Reg),
    RunsBody s (exec (.doImm k l) s) .plain k.toNat l.toNat ∧
    RunsBody s (exec (.doReg k rM) s) .plain k.toNat ((s.reg rM).toNat % 2048) ∧
    RunsBody s (exec (.dolockImm k l) s) .lock k.toNat l.toNat ∧
    RunsBody s (exec (.dolockReg k rM) s) .lock k.toNat ((s.reg rM).toNat % 2048) ∧
    RunsBody s (exec (.doblockImm l) s) .block 0 l.toNat ∧
    RunsBody s (exec (.doblockReg rM) s) .block 0 ((s.reg rM).toNat % 2048)

/-- The restrictions on programs stop the step: a Z pointer used otherwise in the next instruction
(R441), a store after a DA instruction with Y in memory (R442), an instruction that touches a word a DA
instruction wrote up to three instructions before (R444), an accumulator as multiplier input one or two
instructions after it was written (R445), a reference to the IO register loaded one instruction before
(R449), one register as pointer of two operands of which one post-modifies (R327), a control transfer in
a delay slot (R191) or in a loop body (R207; for ireturn notes/assumptions/10.md), and another body of a
doblock than the one R210 allows (notes/assumptions/14.md).  Which fields count where an instruction
ignores them is notes/assumptions/12.md, and what refers to a loaded IO register is
notes/assumptions/13.md.  What is remembered of an instruction is what R450 records, three instructions
long. -/
def Obligations.BrokenRestrictionsStopTheStep : Prop :=
  (∀ (s : State) (i : Instr) (w : Word), Quiet s → s.ir = .word w → s.decoded w = .instr i →
    (∃ h ∈ s.history[0]?, ∃ r ∈ h.zptr, r ∈ namedRegs i) ∨
    (∃ h ∈ s.history[0]?, h.isDA = true ∧ h.yIsMemory = true ∧ isStore i = true) ∨
    (∃ h ∈ s.history, ∃ a ∈ h.zwords, Touches s i a) ∨
    (∃ k, k < 2 ∧ ∃ h ∈ s.history[k]?, ∃ a ∈ h.acc, a ∈ mulInputs i ∧
      ¬ ((s.loop.active = true ∨ s.loop.tail = true) ∧ s.loop.kind = .block)) ∨
    (∃ h ∈ s.history[0]?, ∃ io ∈ h.ior, Refers s i io) ∨
    SharesPointer i ∨
    (isTransfer i = true ∧ (s.inSlot = true ∨ s.loop.active = true ∨ s.loop.tail = true)) ∨
    ((s.loop.active = true ∨ s.loop.tail = true) ∧ s.loop.kind = .block ∧ isBlockMove i = false) →
    ∃ r, step s = .refused r) ∧
  ∀ (b : State) (pf : Fetched) (t : State) (w : Word) (i : Instr), b.ir = .word w →
    b.decoded w = .instr i → t.latch.resume = none →
    ∃ h, Recorded b i h ∧ (finish b pf t).history = h :: t.history.take 2

/-! ### The CAU -/

/-- Each of the 38 conditions has its code and tests the flags or pins that R150 gives it, the codes in
between are reserved, and a condition and the one whose code differs in bit 0 are opposite (R33, R35,
R150). -/
def Obligations.ConditionsTestTheirFlags : Prop :=
  (∀ s : State, (conditionTable s).length = 38 ∧ ∀ p ∈ conditionTable s,
    p.1.code = p.2.1 ∧ Cond.ofCode p.2.1 = some p.1 ∧ s.cond p.1 = p.2.2) ∧
  (∀ c : BitVec 6, 0b011010#6 ≤ c ∧ c ≤ 0b011111#6 ∨ 0b100100#6 ≤ c ∧ c ≤ 0b100111#6 ∨ 0b110000#6 ≤ c →
    Cond.ofCode c = none) ∧
  ∀ (s : State) (c d : Cond), d.code = c.code ^^^ 1#6 → s.cond d = !s.cond c

/-- A conditional arithmetic or logic instruction whose condition is false changes nothing, but that
`sp = sp {++,--}` still holds off interrupts; a conditional goto does the same (R193, R233, R261). -/
def Obligations.FalseConditionChangesNothing : Prop :=
  ∀ (i : Instr) (c : Cond) (s : State), condOf i = some c → s.cond c = false →
    ((∃ d, i = .spIncDec c d) ∨ (∃ b n, i = .ifGoto c b n) → exec i s = .next (held s)) ∧
    (¬ ((∃ d, i = .spIncDec c d) ∨ (∃ b n, i = .ifGoto c b n)) → exec i s = .next s)

/-- The additions: the sum modulo 2^w, sign-extended, with the flags nzvc (R231, R232, R240, R260,
R261, R281).  The operand pc reads as pc + 8. -/
def Obligations.AdditionsGiveTheSum : Prop :=
  ∀ (s : State) (sz : Size) (rD : Reg),
    (∀ rS3 n, Adds s (exec (.add3 sz rD rS3 n) s) sz rD (sourceOf s rS3) (BitVec.ofInt 32 n.toInt)) ∧
    (∀ n, Adds s (exec (.set rD n) s) .short rD 0#32 (BitVec.ofInt 32 n.toInt)) ∧
    ∀ c, s.cond c = true →
      (∀ rS1 rS2, Adds s (exec (.addReg sz c rD rS1 rS2) s) sz rD (s.reg rS1) (s.reg rS2)) ∧
      (∀ rS dec, rS ≠ 21 → Adds s (exec (.incDec sz c rD rS dec) s) sz rD (s.reg rS)
        (BitVec.ofInt 32 (if dec then -1 else 1))) ∧
      (∀ dec, Adds (held s) (exec (.spIncDec c dec) s) .long 21 (s.reg 21)
        (BitVec.ofInt 32 (if dec then -4 else 4)))

/-- The subtractions: the difference modulo 2^w, sign-extended, with the flags nzvc, c being a borrow
(R231, R242, R243, R245). -/
def Obligations.SubtractionsGiveTheDifference : Prop :=
  ∀ (s : State) (sz : Size) (rD : Reg),
    (∀ n, Subtracts s (exec (.subImm sz rD n) s) sz rD (s.reg rD) (BitVec.ofInt 32 n.toInt)) ∧
    (∀ n, Subtracts s (exec (.rsubImm sz rD n) s) sz rD (BitVec.ofInt 32 n.toInt) (s.reg rD)) ∧
    ∀ c, s.cond c = true →
      (∀ rS1 rS2, Subtracts s (exec (.subReg sz c rD rS1 rS2) s) sz rD (s.reg rS1) (s.reg rS2)) ∧
      (∀ rS, Subtracts s (exec (.neg sz c rD rS) s) sz rD 0#32 (s.reg rS))

/-- A compare writes the flags of the difference and no register, and the conditions then say how the
operands compare, signed and unsigned (R150, R231, R244). -/
def Obligations.CompareOrdersItsOperands : Prop :=
  ∀ (s : State) (sz : Size) (rD : Reg) (a b : Word) (o : Host.Outcome State Fault Refusal),
    ((∃ n : Half, o = exec (.cmpImm sz rD n) s ∧ a = s.reg rD ∧ b = BitVec.ofInt 32 n.toInt) ∨
     (∃ c rS1 rS2, s.cond c = true ∧ o = exec (.cmpReg sz c rD rS1 rS2) s ∧ a = s.reg rS1 ∧
        b = s.reg rS2)) →
    SetsFlags s o (diffFlags sz a b) ∧
    ∀ t, o = .next t →
      (t.cond .eq = true ↔ sz.signed a = sz.signed b) ∧
      (t.cond .lt = true ↔ sz.signed a < sz.signed b) ∧
      (t.cond .le = true ↔ sz.signed a ≤ sz.signed b) ∧
      (t.cond .gt = true ↔ sz.signed b < sz.signed a) ∧
      (t.cond .ge = true ↔ sz.signed b ≤ sz.signed a) ∧
      (t.cond .cs = true ↔ sz.unsigned a < sz.unsigned b) ∧
      (t.cond .hi = true ↔ sz.unsigned b < sz.unsigned a) ∧
      (t.cond .ls = true ↔ sz.unsigned a ≤ sz.unsigned b)

/-- The bit-by-bit instructions, with the flags nz00 (R232, R247 to R251); the bit tests write no
register. -/
def Obligations.LogicWorksBitByBit : Prop :=
  ∀ (s : State) (sz : Size) (rD : Reg),
    (∀ n : Half, let b : Word := BitVec.ofInt 32 n.toInt
      Logics s (exec (.andImm sz rD n) s) sz (· && ·) rD (s.reg rD) b ∧
      Logics s (exec (.orImm sz rD n) s) sz (· || ·) rD (s.reg rD) b ∧
      Logics s (exec (.xorImm sz rD n) s) sz Bool.xor rD (s.reg rD) b ∧
      ∃ v, Bitwise sz (· && ·) (s.reg rD) b v ∧
        SetsFlags s (exec (.bitImm sz rD n) s) ⟨v.getLsbD 31, v = 0#32, false, false⟩) ∧
    ∀ c, s.cond c = true → ∀ rS1 rS2,
      Logics s (exec (.andReg sz c rD rS1 rS2) s) sz (· && ·) rD (s.reg rS1) (s.reg rS2) ∧
      Logics s (exec (.andcReg sz c rD rS1 rS2) s) sz (fun x y => x && !y) rD (s.reg rS1)
        (s.reg rS2) ∧
      Logics s (exec (.orReg sz c rD rS1 rS2) s) sz (· || ·) rD (s.reg rS1) (s.reg rS2) ∧
      Logics s (exec (.xorReg sz c rD rS1 rS2) s) sz Bool.xor rD (s.reg rS1) (s.reg rS2) ∧
      ∃ v, Bitwise sz (· && ·) (s.reg rS1) (s.reg rS2) v ∧
        SetsFlags s (exec (.bitReg sz c rD rS1 rS2) s) ⟨v.getLsbD 31, v = 0#32, false, false⟩

/-- The shifts: the count is the low five bits, a short logical result is filled with zeros, an
arithmetic one with its sign (R252 to R255).  A shift by one with sp as source shifts by 4, the n of
R262 (notes/assumptions/18.md). -/
def Obligations.ShiftsMultiplyAndDivide : Prop :=
  ∀ (s : State) (sz : Size) (rD : Reg),
    (∀ n : Half, let k := n.toNat % 32
      ShiftsLeft s (exec (.shlImm sz rD n) s) sz rD (s.reg rD) k ∧
      ShiftsRight s (exec (.shrImm sz rD n) s) sz rD (s.reg rD) k ∧
      ShiftsArith s (exec (.sarImm sz rD n) s) sz rD (s.reg rD) k) ∧
    ∀ c, s.cond c = true →
      (∀ rS1 rS2, let k := (s.reg rS2).toNat % 32
        ShiftsLeft s (exec (.shlReg sz c rD rS1 rS2) s) sz rD (s.reg rS1) k ∧
        ShiftsRight s (exec (.shrReg sz c rD rS1 rS2) s) sz rD (s.reg rS1) k ∧
        ShiftsArith s (exec (.sarReg sz c rD rS1 rS2) s) sz rD (s.reg rS1) k) ∧
      (∀ rS, let k := if rS = 21 then 4 else 1
        ShiftsLeft s (exec (.shl1 sz c rD rS) s) sz rD (s.reg rS) k ∧
        ShiftsRight s (exec (.shr1 sz c rD rS) s) sz rD (s.reg rS) k ∧
        ShiftsArith s (exec (.half sz c rD rS) s) sz rD (s.reg rS) k)

/-- The rotates by one through the carry (R256, R257); rS2 does not matter. -/
def Obligations.RotatesPassThroughTheCarry : Prop :=
  ∀ (s : State) (sz : Size) (c : Cond) (rD rS rS2 : Reg), s.cond c = true →
    let a := sz.unsigned (s.reg rS)
    let cy := s.cau.c.toNat
    (let r : ℤ := a / 2 + cy * 2 ^ (sz.bits - 1)
     Writes s (exec (.ror1 sz c rD rS rS2) s) rD (sz.word r)
      ⟨sz.wrap r < 0, r = 0, false, a % 2 = 1⟩) ∧
    (let r : ℤ := (2 * a + cy) % 2 ^ sz.bits
     let x : ℤ := 2 * sz.signed (s.reg rS) + cy
     Writes s (exec (.rol1 sz c rD rS rS2) s) rD (sz.word r)
      ⟨sz.wrap r < 0, r = 0, sz.wrap x ≠ x, 2 ^ sz.bits ≤ 2 * a⟩)

/-- The carry-reverse additions: the carry runs from the most significant bit down, and what falls out
of bit 0 is c (R246). -/
def Obligations.CarryReverseAddsMirrored : Prop :=
  ∀ (s : State) (sz : Size) (rD : Reg),
    (∀ n : Half, ReverseAdds s (exec (.crAddImm sz rD n) s) sz rD (s.reg rD)
      (BitVec.ofInt 32 n.toInt)) ∧
    ∀ c rS1 rS2, s.cond c = true →
      ReverseAdds s (exec (.crAddReg sz c rD rS1 rS2) s) sz rD (s.reg rS1) (s.reg rS2)

/-- SET24 zero-extends its 24 bits and leaves the flags; SHIFT-OR puts N into the upper half (R258,
R282). -/
def Obligations.WideConstantsFillTheRegister : Prop :=
  ∀ (s : State) (rD : Reg),
    (∀ m : BitVec 24, ∃ t, exec (.set24 rD m) s = .next t ∧
      t.reg rD = (if rD = 0 then 0#32 else BitVec.ofNat 32 m.toNat) ∧ OnlyRegs s t [rD]) ∧
    (∀ rS (n : Half), ∃ v : Word,
      (∀ j, j < 16 → v.getLsbD j = (s.reg rS).getLsbD j ∧
        v.getLsbD (16 + j) = ((s.reg rS).getLsbD (16 + j) || n.getLsbD j)) ∧
      Writes s (exec (.shiftOr rD rS n) s) rD v ⟨v.getLsbD 31, v = 0#32, false, false⟩)

/-! ### Moves -/

/-- A load whose bytes can be read completes: it moves the pointer, issues the placed value for one
instruction later, and holds off interrupts; registers, flags and memory are as before but for the
pointer (R283, R284, R286). -/
def Obligations.LoadsIssueTheirValue : Prop :=
  ∀ (s : State) (w : Width) (rH : LoadDest) (d : Word),
    (∀ l, s.load (directOf s l) (bytesMoved w) = .ok d →
      exec (.loadDirect w rH l) s = .next (issued s (.reg rH (loadedWord w d)))) ∧
    ∀ rP rI, spFits rP w → s.load (s.reg rP) (bytesMoved w) = .ok d →
      ∃ t, exec (.loadMem w rH rP rI) s = .next t ∧
        PointerSet s t rP (pointerAfter s rP rI (bytesMoved w)) ∧
        t.latch.load = some (.reg rH (loadedWord w d)) ∧ t.inhibit = true ∧
        (∀ a, t.readByte a = s.readByte a) ∧
        t = { s with
          regs := t.regs
          inhibit := true
          latch := { s.latch with load := t.latch.load, wroteRegs := t.latch.wroteRegs } }

/-- A store whose bytes can be written completes: memory is that of the store, the pointer moves, and
nothing else changes (R283, R284, R290). -/
def Obligations.StoresWriteTheirBytes : Prop :=
  ∀ (s : State) (w : Width) (rH : Source) (u : State),
    (∀ l, s.store (directOf s l) (bytesMoved w) (storedWord w (sourceOf s rH)) = .ok u →
      exec (.storeDirect w rH l) s = .next u ∧ OnlyBytes s u (directOf s l) (bytesMoved w) ∧
      u = { s with mem := u.mem, periph := u.periph }) ∧
    ∀ rP rI, spFits rP w →
      s.store (s.reg rP) (bytesMoved w) (storedWord w (sourceOf s rH)) = .ok u →
      ∃ t, exec (.storeMem w rH rP rI) s = .next t ∧ t.mem = u.mem ∧ t.periph = u.periph ∧
        OnlyBytes s t (s.reg rP) (bytesMoved w) ∧
        PointerSet s t rP (pointerAfter s rP rI (bytesMoved w)) ∧
        t = { s with
          regs := t.regs
          mem := t.mem
          periph := t.periph
          latch := { s.latch with wroteRegs := t.latch.wroteRegs } }

/-- The load that an instruction issues is pending after its step, and is written at the end of the next
instruction, whatever that one is.  A CAU register or pcsh is written with the flags nz00; where that
instruction wrote the same register, or the flags, the value is a free one (R287, R443;
notes/assumptions/1.md).  An IO register is written as a store of the same data writes it (R293, R295;
notes/assumptions/23.md; that a write of ps leaves ctr is notes/assumptions/29.md), before the flag results in flight move on.  What else the end of a step leaves
is BranchTakesEffectAfterTheNextInstruction's frame: with no load pending no register but the sequencing
ones moves, and no free value is taken except at the end of a doblock. -/
def Obligations.LoadsCommitOneInstructionLater : Prop :=
  ∀ (b : State) (pf : Fetched) (t : State),
    let f := finish b pf t
    f.pendingLoad = t.latch.load ∧ f.accs = t.accs ∧ f.mem = t.mem ∧ f.periph = t.periph ∧
    (t.pendingLoad = none → f.regs = t.regs ∧ f.pcsh = t.pcsh ∧ f.emr = t.emr ∧ f.pcw = t.pcw ∧
      f.pcwLocked = t.pcwLocked ∧ f.dauc = t.dauc ∧ f.cau = t.cau ∧
      (¬ EndsBlock b t → f.draws = t.draws)) ∧
    (∀ rD v, t.pendingLoad = some (.reg rD v) →
      (∀ r, rD ≠ .reg r → f.reg r = t.reg r) ∧ (rD ≠ .pcsh → f.pcsh = t.pcsh) ∧
      f.emr = t.emr ∧ f.pcw = t.pcw ∧ f.pcwLocked = t.pcwLocked ∧ f.dauc = t.dauc ∧
      (∀ r, rD = .reg r → r ∉ t.latch.wroteRegs → f.reg r = if r = 0 then 0#32 else v) ∧
      (∀ r, rD = .reg r → r ∈ t.latch.wroteRegs →
        f.reg r = if r = 0 then 0#32 else Config.free 32 t.draws) ∧
      (rD = .pcsh → f.pcsh = v) ∧
      (t.latch.wroteFlags = false → f.cau = ⟨v.msb, v = 0#32, false, false⟩) ∧
      (t.latch.wroteFlags = true → ∃ n, t.draws ≤ n ∧ n < f.draws ∧
        f.ps.extractLsb' 0 4 = Config.free 4 n)) ∧
    ∀ io n d, t.pendingLoad = some (.ior io n d) →
      let w := ioWritten t io n d.toNat
      f.emr = w.emr ∧ f.pcw = w.pcw ∧ f.pcwLocked = w.pcwLocked ∧ f.dauc = w.dauc ∧
      f.cau = w.cau ∧ f.regs = t.regs ∧ f.pcsh = t.pcsh ∧
      f.ctr = w.advanceFlags.ctr ∧ (¬ EndsBlock b t → f.ps = w.advanceFlags.ps)

/-- Loads from an IO register, and from memory to an IO register, complete (R288, R293, R295): the value
is the low bytes of the register, or of memory, and it is written one instruction later. -/
def Obligations.IoLoadsIssueTheirValue : Prop :=
  ∀ (s : State) (w : Width) (io : IoReg), io ≠ .spc →
    (∀ rH, exec (.loadIo w rH io) s =
      .next (issued s (.reg (.reg rH) (loadedWord w (ioData s io (bytesMoved w)))))) ∧
    ∀ rP rI d, w ≠ .hbyte → spFits rP w → s.load (s.reg rP) (bytesMoved w) = .ok d →
      (io = .dauc → d.getLsbD 7 = false) →
      ∃ t, exec (.loadIor w io rP rI) s = .next t ∧
        PointerSet s t rP (pointerAfter s rP rI (bytesMoved w)) ∧
        t.latch.load = some (.ior io (bytesMoved w) d) ∧ t.inhibit = true ∧
        (∀ a, t.readByte a = s.readByte a) ∧
        t = { s with
          regs := t.regs
          inhibit := true
          latch := { s.latch with load := t.latch.load, wroteRegs := t.latch.wroteRegs } }

/-- Stores to an IO register, and from an IO register to memory, complete; each register takes the bits
R34, R37, R39, R40, R51 and R295 say; a byte store to pcw does not lock it (notes/assumptions/23.md), and a
store to ps leaves ctr (notes/assumptions/29.md).  A store to spc is the command of its size, and the (hbyte) store is none (R292, R294, R296). -/
def Obligations.IoStoresFollowEachRegister : Prop :=
  ∀ (s : State) (w : Width) (rH : Source),
    (∀ io, io ≠ .spc → (io = .dauc → (storedWord w (sourceOf s rH)).getLsbD 7 = false) →
      exec (.storeIo w rH io) s =
        .next (ioWritten s io (bytesMoved w) (stored w (sourceOf s rH)))) ∧
    ((storedWord w (sourceOf s rH)).getLsbD 7 = true →
      exec (.storeIo w rH .dauc) s = .refused .daucBit7) ∧
    (∀ b, exec (.storeIo .long rH .spc) s = exec .waiti s ∧
      exec (.storeIo (if b then .short else .ushort) rH .spc) s = exec (.bkpt b) s ∧
      exec (.storeIo (if b then .char else .byte) rH .spc) s = exec (.sftrst b) s) ∧
    exec (.storeIo .hbyte rH .spc) s = .refused .spcCommand ∧
    ∀ io rP rI u, io ≠ .spc → w ≠ .hbyte → spFits rP w →
      s.store (s.reg rP) (bytesMoved w) (ioData s io (bytesMoved w)) = .ok u →
      ∃ t, exec (.storeIor w io rP rI) s = .next t ∧ t.mem = u.mem ∧ t.periph = u.periph ∧
        OnlyBytes s t (s.reg rP) (bytesMoved w) ∧
        PointerSet s t rP (pointerAfter s rP rI (bytesMoved w)) ∧
        t = { s with
          regs := t.regs
          mem := t.mem
          periph := t.periph
          latch := { s.latch with wroteRegs := t.latch.wroteRegs } }

/-- sp is a pointer of long transfers only (R285). -/
def Obligations.SpTransfersAreLong : Prop :=
  ∀ (s : State) (w : Width) (rI : Increment), w ≠ .long →
    (∀ rH, exec (.loadMem w rH 21 rI) s = .refused .spTransferSize) ∧
    (∀ rH, exec (.storeMem w rH 21 rI) s = .refused .spTransferSize) ∧
    (∀ io, ∃ r, exec (.loadIor w io 21 rI) s = .refused r) ∧
    (∀ io, ∃ r, exec (.storeIor w io 21 rI) s = .refused r)

/-! ### The DAU -/

/-- Where 40 bits hold the exact sum, the multiply/accumulate gives it, with N and Z of it and V = U = 0
(R322 to R324; the format is the default DSP_FLOAT, notes/assumptions/9.md).  In every format N and Z are
those of the result, the only zero result is 0, and an operand that stands for zero acts as 0, without a
sign (R322 (a), (b), (d)). -/
def Obligations.MacIsExactWhereItCanBe : Prop :=
  (∀ (fm : FloatFormat) (t : Acc40) (negT negP : Bool) (y x : Word),
    let r := fm.mac t negT negP y x
    r.n = decide (fm.val40 r.value < 0) ∧ r.z = decide (fm.val40 r.value = 0) ∧
    (r.z = true → r.value = 0#40) ∧
    (fm.val40 t = 0 → r = fm.mac 0#40 false negP y x) ∧
    (fm.val32 y = 0 ∨ fm.val32 x = 0 → r = fm.mac t negT false 0#32 0#32) ∧
    (fm.macValue t negT negP y x = 0 → r = ⟨0#40, false, true, false, false⟩)) ∧
  ∀ (t : Acc40) (negT negP : Bool) (y x : Word),
    (∃ a : Acc40, val40 a = macValue t negT negP y x) →
    let r := FloatFormat.excess128.mac t negT negP y x
    val40 r.value = macValue t negT negP y x ∧ r.n = decide (macValue t negT negP y x < 0) ∧
    r.z = decide (macValue t negT negP y x = 0) ∧ r.v = false ∧ r.u = false

/-- Beyond the format's range the result saturates with V, below its smallest magnitude it is zero with
U (R322; the default DSP_FLOAT, notes/assumptions/9.md).  In every format 0x7FFFFFFF is the largest word
and 0x800000FF the most negative, V is set only where the exact sum lies beyond every value that 40 bits
hold, and U only where it is not zero and lies nearer to it than every other value of its sign (R322 (a) to
(c)). -/
def Obligations.MacSaturatesAndUnderflows : Prop :=
  (∀ (fm : FloatFormat) (w : Word), fm.val32 0#32 = 0 ∧
    fm.val32 0x800000FF#32 ≤ fm.val32 w ∧ fm.val32 w ≤ fm.val32 0x7FFFFFFF#32 ∧
    fm.val32 0x800000FF#32 < 0 ∧ 0 < fm.val32 0x7FFFFFFF#32 ∧
    (fm.isZero w = true ↔ fm.val32 w = 0) ∧ fm.val32 (oneWord fm) = 1) ∧
  (∀ (fm : FloatFormat) (t : Acc40) (negT negP : Bool) (y x : Word) (a : Acc40),
    let v := fm.macValue t negT negP y x
    let r := fm.mac t negT negP y x
    (r.v = true → 0 < v ∧ fm.val40 a < v ∨ v < 0 ∧ v < fm.val40 a) ∧
    (r.u = true → 0 < v ∧ (0 < fm.val40 a → v < fm.val40 a) ∨
      v < 0 ∧ (fm.val40 a < 0 → fm.val40 a < v))) ∧
  ∀ (t : Acc40) (negT negP : Bool) (y x : Word),
    let v := macValue t negT negP y x
    let r := FloatFormat.excess128.mac t negT negP y x
    (2 ^ 128 ≤ v → r = ⟨0x7FFFFFFFFF#40, false, false, true, false⟩) ∧
    (v < -2 ^ 128 → r = ⟨0x800000FF00#40, true, false, true, false⟩) ∧
    (0 < v ∧ v < 1 / 2 ^ 127 → r = ⟨0#40, false, true, false, true⟩) ∧
    (-(1 / 2 ^ 127) ≤ v ∧ v < 0 → r = ⟨0#40, false, true, false, true⟩)

/-- The STORE forms: the result goes to aN and, truncated to 32 bits, to Z, in the format of the
parameter DSP_FLOAT (R326, R330, R332, R333,
R335, R337 to R339). -/
def Obligations.StoreFormsWriteTheResult : Prop :=
  ∀ (s : State) (aM aN : AccNo) (f p one : Bool) (x y : DaOperand) (z : DaDest),
    let fm := s.params.float
    Accumulates s (exec (.fmultAccStore aM f p aN x y z) s) false aN x y z
      (fun xv yv => fm.mac (s.acc aM) f p (yv.mulop fm) (xv.mulop fm)) ∧
    Accumulates s (exec (.fmultAddStore aM f p aN x y z) s) false aN x y z
      (fun xv yv => fm.mac (yv.adder fm) f p ((s.acc aM).extractLsb' 8 32) (xv.mulop fm)) ∧
    Accumulates s (exec (.fmultStore p aN x y z) s) false aN x y z
      (fun xv yv => fm.mac 0#40 false p (yv.mulop fm) (xv.mulop fm)) ∧
    Accumulates s (exec (.faddStore f p aN x y z) s) false aN x y z
      (fun xv yv => fm.mac (yv.adder fm) f p (oneWord fm) (xv.mulop fm)) ∧
    Accumulates s (exec (.floadStore f aN y z) s) false aN (.acc 0) y z
      (fun xv yv => fm.mac (yv.adder fm) f false 0#32 (xv.mulop fm)) ∧
    Accumulates s (exec (.fzeroAddStore f p aN x y z) s) false aN x y z
      (fun xv yv => fm.mac (yv.adder fm) f p 0#32 (xv.mulop fm)) ∧
    Accumulates s (exec (.fconstStore one f p aN x y z) s) false aN x y z
      (fun xv yv => fm.mac (if one then oneWord fm ++ 0#8 else 0#40) f p (yv.mulop fm) (xv.mulop fm))

/-- The TAP forms: the result goes to aN, and the bits read for Y go to Z unchanged, in the format of
the parameter DSP_FLOAT (R326, R331, R334,
R336, R338, R339). -/
def Obligations.TapFormsCopyY : Prop :=
  ∀ (s : State) (aM aN : AccNo) (f p one : Bool) (x y : DaOperand) (z : DaDest),
    let fm := s.params.float
    Accumulates s (exec (.fmultAccTap aM f p aN x y z) s) true aN x y z
      (fun xv yv => fm.mac (s.acc aM) f p (yv.mulop fm) (xv.mulop fm)) ∧
    Accumulates s (exec (.fmultTap p aN x y z) s) true aN x y z
      (fun xv yv => fm.mac 0#40 false p (yv.mulop fm) (xv.mulop fm)) ∧
    Accumulates s (exec (.faddTap f p aN x y z) s) true aN x y z
      (fun xv yv => fm.mac (yv.adder fm) f p (oneWord fm) (xv.mulop fm)) ∧
    Accumulates s (exec (.fconstTap one f p aN x y z) s) true aN x y z
      (fun xv yv => fm.mac (if one then oneWord fm ++ 0#8 else 0#40) f p (yv.mulop fm) (xv.mulop fm)) ∧
    (∀ m xv w u, y = .mem m → s.daRead x 4 = .ok xv → s.interleave.load (s.reg m.reg) 4 = .ok w →
      s.interleave.interleave.daWrite z 4 w = .ok u → ∃ t, exec (.fmultTap p aN x y z) s = .next t ∧ t.mem = u.mem)

/-- ic, float16 and float32 give the float of their integer, with N and Z of the integer, in the format
and the tables of the parameters; ic with guard bits 0.  In the default format it is exact, ic's word for
every integer of 24 bits; in another no word is nearer to the integer (R323, R324, R355 to R358; the formats are notes/assumptions/9.md, the companding tables are
notes/assumptions/8.md and notes/assumptions/31.md). -/
def Obligations.IntegersConvertExactly : Prop :=
  (∀ n : ℤ, -2 ^ 31 ≤ n → n < 2 ^ 31 → val40 (FloatFormat.excess128.floatOfInt n) = n) ∧
  (∀ n : ℤ, -2 ^ 24 ≤ n → n ≤ 2 ^ 24 → val32 (FloatFormat.excess128.wordOfInt n) = n) ∧
  (∀ (k : ℕ) (n : ℤ), let fm := FloatFormat.other k
    (∀ w, |fm.val32 (fm.wordOfInt n) - n| ≤ |fm.val32 w - n|) ∧
    (∀ w, |fm.val40 (fm.floatOfInt n) - n| ≤ |fm.val32 w - n|)) ∧
  ∀ (s : State) (aN : AccNo) (y : DaOperand) (z : DaDest),
    let float : ℤ → Acc40 := s.params.float.floatOfInt
    let word : ℤ → Word := s.params.float.wordOfInt
    let byte : DaValue → ℤ := fun v =>
      if s.dauc.getLsbD 2 then v.byteOperand.toNat
      else s.params.compand.expand (if s.dauc.getLsbD 0 then .aLaw else .muLaw) v.byteOperand
    Converts s (exec (.ic aN y z) s) 1 4 aN y z
      (fun v => some (word (byte v)))
      (fun v => entryOf (byte v < 0) (byte v = 0) false false false)
      (fun v a => a = word (byte v) ++ 0#8) ∧
    Converts s (exec (.float16 aN y z) s) 2 4 aN y z
      (fun v => some ((float v.halfOperand.toInt).extractLsb' 8 32))
      (fun v => entryOf (v.halfOperand.toInt < 0) (v.halfOperand.toInt = 0) false false false)
      (fun v a => a = float v.halfOperand.toInt) ∧
    Converts s (exec (.float32 aN y z) s) 4 4 aN y z
      (fun v => some ((float v.wordOperand.toInt).extractLsb' 8 32))
      (fun v => entryOf (v.wordOperand.toInt < 0) (v.wordOperand.toInt = 0) false false false)
      (fun v a => a = float v.wordOperand.toInt)

/-- int16, int32 and the unsigned oc round in the mode of dauc[5:4], saturate, place the integer in aN
and write it to Z in its own size; no flags (R359 to R361, R363).  In the default format the rounding is
that of the value (R323, R324; notes/assumptions/9.md).  The companded oc completes with the code of
the parameter COMPAND (notes/assumptions/8.md); in any tables and any format a value beyond all values of
the law's codes gives a code of the limiting one (R363). -/
def Obligations.FloatsRoundAndSaturate : Prop :=
  (∀ (dauc : BitVec 8) (a : Acc40), FloatFormat.excess128.roundInt dauc a = roundBy dauc (val40 a)) ∧
  (∀ (ct : CompandTables) (aLaw : Bool) (fm : FloatFormat) (a : Acc40),
    let val : Byte → ℤ := ct.expand (if aLaw then .aLaw else .muLaw)
    let c := ct.compress aLaw fm a
    ((∀ b, val b < fm.val40 a) → ∀ b, val b ≤ val c) ∧
    ((∀ b, fm.val40 a < val b) → ∀ b, val c ≤ val b)) ∧
  ∀ (s : State) (aN : AccNo) (y : DaOperand) (z : DaDest),
    let fm := s.params.float
    let i : DaValue → ℤ := fun v => fm.roundInt s.dauc (v.adder fm)
    let code : DaValue → ℕ := fun v =>
      if s.dauc.getLsbD 3 then (max 0 (min 255 (i v))).toNat
      else (s.params.compand.compress (s.dauc.getLsbD 1) fm (v.adder fm)).toNat
    Converts s (exec (.int16 aN y z) s) 4 2 aN y z
      (fun v => some (BitVec.ofNat 32 (BitVec.ofInt 16 (clampTo 16 (i v))).toNat))
      (fun _ => [])
      (fun v a => (a.extractLsb' 24 16).toInt = clampTo 16 (i v)) ∧
    Converts s (exec (.int32 aN y z) s) 4 4 aN y z
      (fun v => some (BitVec.ofInt 32 (clampTo 32 (i v))))
      (fun _ => [])
      (fun v a => (a.extractLsb' 16 24 ++ a.extractLsb' 0 8).toInt = clampTo 32 (i v)) ∧
    Converts s (exec (.oc aN y z) s) 4 1 aN y z
      (fun v => some (BitVec.ofNat 32 (code v)))
      (fun _ => [])
      (fun v a => (a.extractLsb' 32 8).toNat = code v)

/-- In the default format (notes/assumptions/9.md) round gives the 32-bit float nearest to its operand,
the greater of two equally near, with guard bits 0; where that lies beyond the largest float the result
is the largest with V, and where its exponent falls to 0 it is zero with U (R365).  In every other format
the result is the word nearest to the operand, the greater of two equally near, or zero with U, and V is
set only beyond the extreme words.  round completes with the result in aN and, as a word, in Z. -/
def Obligations.RoundGivesTheNearestFloat : Prop :=
  (∀ (t : Acc40) (w : Word),
    let r := FloatFormat.excess128.round t
    (r.v = true ↔ (2 - 1 / 2 ^ 24) * 2 ^ 127 ≤ val40 t) ∧
    (r.v = true → r = ⟨0x7FFFFFFF00#40, false, false, true, false⟩) ∧
    (r.u = true ↔ -(1 + 1 / 2 ^ 24) / 2 ^ 127 ≤ val40 t ∧ val40 t < 0) ∧
    (r.u = true → r = ⟨0#40, false, true, false, true⟩) ∧
    (r.v = false → r.u = false →
      r.value.extractLsb' 0 8 = 0#8 ∧
      |val40 r.value - val40 t| ≤ |val32 w - val40 t| ∧
      (|val40 r.value - val40 t| = |val32 w - val40 t| → val32 w ≤ val40 r.value) ∧
      r.n = decide (val40 r.value < 0) ∧ r.z = decide (val40 r.value = 0))) ∧
  (∀ (k : ℕ) (t : Acc40) (w : Word),
    let fm := FloatFormat.other k
    let r := fm.round t
    r.value.extractLsb' 0 8 = 0#8 ∧ r.n = decide (fm.val40 r.value < 0) ∧
    r.z = decide (fm.val40 r.value = 0) ∧
    (r.u = false → |fm.val40 r.value - fm.val40 t| ≤ |fm.val32 w - fm.val40 t| ∧
      (|fm.val40 r.value - fm.val40 t| = |fm.val32 w - fm.val40 t| → fm.val32 w ≤ fm.val40 r.value)) ∧
    (r.u = true ↔ fm.val40 t ≠ 0 ∧ r.value = 0#40) ∧
    (r.v = true → fm.val32 0x7FFFFFFF#32 < fm.val40 t ∨ fm.val40 t < fm.val32 0x800000FF#32)) ∧
  ∀ (s : State) (aN : AccNo) (y : DaOperand) (z : DaDest),
    let res : DaValue → DauResult := fun v => s.params.float.round (v.adder s.params.float)
    Converts s (exec (.round aN y z) s) 4 4 aN y z
      (fun v => some ((res v).value.extractLsb' 8 32))
      (fun v => entryOf (res v).n (res v).z (res v).v (res v).u false)
      (fun v a => a = (res v).value)

/-- dsp gives, in every format, the results and flags of the table of R362 for the infinities, NaNs,
zeros and denormalized numbers; in the default format (notes/assumptions/9.md) it gives the value of a
normal IEEE number exactly, and ieee gives that number back.  ieee keeps the value of its operand, but
that below 2^-126 in magnitude it gives 0x00000000 and for 0x800000FF it gives 0xFF800000 (R364).  In every
format ieee gives no NaN, 0x00000000 for a zero, and for the value of a normal IEEE number that number, and
no word is nearer to a normal IEEE number than what dsp gives.  Both complete; dsp of an accumulator is not
allowed. -/
def Obligations.IeeeConversionsFollowTheirTables : Prop :=
  (∀ (fm : FloatFormat) (w : Word),
    let sgn := w.getLsbD 31
    let ex := (w.extractLsb' 23 8).toNat
    let mantZero := decide (w.extractLsb' 0 23 = 0#23)
    (1 ≤ ex → ex ≤ 254 → (fm.dspOfIeee w).1 = ⟨sgn, false, false, false, false, 4⟩) ∧
    (1 ≤ ex → ex ≤ 254 → fm = .excess128 →
      val32 (fm.dspOfIeee w).2 = ieeeVal w ∧ fm.ieeeOfDsp (fm.dspOfIeee w).2 = w) ∧
    (1 ≤ ex → ex ≤ 254 → ∀ u, |fm.val32 (fm.dspOfIeee w).2 - ieeeVal w| ≤ |fm.val32 u - ieeeVal w|) ∧
    (ex = 255 → fm.dspOfIeee w =
      (⟨sgn, false, !(sgn && mantZero), false, !mantZero, 4⟩,
        if sgn then 0x800000FF#32 else 0x7FFFFFFF#32)) ∧
    (ex = 0 → fm.dspOfIeee w = (⟨false, true, false, !mantZero, false, 4⟩, 0x00000000#32))) ∧
  (∀ (fm : FloatFormat) (w : Word), let r := fm.ieeeOfDsp w
    (r.extractLsb' 23 8 = 255#8 → r.extractLsb' 0 23 = 0#23) ∧
    (fm.val32 w = 0 → r = 0x00000000#32) ∧
    (∀ u, ieeeIsNormal u = true → fm.val32 w = ieeeVal u → r = u)) ∧
  (∀ w : Word,
    let r := FloatFormat.excess128.ieeeOfDsp w
    (|val32 w| < 1 / 2 ^ 126 → r = 0x00000000#32) ∧
    (w = 0x800000FF#32 → r = 0xFF800000#32) ∧
    (1 / 2 ^ 126 ≤ |val32 w| → w ≠ 0x800000FF#32 → ieeeVal r = val32 w)) ∧
  ∀ (s : State) (aN : AccNo) (y : DaOperand) (z : DaDest),
    let fm := s.params.float
    (∀ m, y = .mem m → Converts s (exec (.dsp aN y z) s) 4 4 aN y z
      (fun v => some (fm.dspOfIeee v.raw).2) (fun v => [(fm.dspOfIeee v.raw).1])
      (fun v a => a = (fm.dspOfIeee v.raw).2 ++ 0#8)) ∧
    (∀ a, y = .acc a → exec (.dsp aN y z) s = .refused .dspAccumulator) ∧
    Converts s (exec (.ieee aN y z) s) 4 4 aN y z
      (fun v => some (fm.ieeeOfDsp v.raw)) (fun _ => []) (fun _ _ => True)

/-- seed inverts every bit of its 32-bit operand but the sign; a result that stands for zero is zero with
U (R366).  In the default format (notes/assumptions/9.md) a word stands for zero where its exponent is
0, and the sign of a result is that of its value. -/
def Obligations.SeedInvertsAllButTheSign : Prop :=
  (∀ w : Word, FloatFormat.excess128.isZero w = decide (w.toNat % 256 = 0)) ∧
  (∀ a : Acc40, (FloatFormat.excess128.sign a = .lt ↔ val40 a < 0) ∧
    (FloatFormat.excess128.sign a = .eq ↔ val40 a = 0)) ∧
  ∀ (s : State) (aN : AccNo) (y : DaOperand) (z : DaDest),
    let fm := s.params.float
    let inverted : DaValue → Word := fun v =>
      BitVec.ofNat 32 (v.raw.toNat / 2 ^ 31 * 2 ^ 31 + (2 ^ 31 - 1 - v.raw.toNat % 2 ^ 31))
    let res : DaValue → Word := fun v => if fm.isZero (inverted v) then 0#32 else inverted v
    let zero : DaValue → Bool := fun v => fm.sign (res v ++ 0#8) == .eq
    Converts s (exec (.seed aN y z) s) 4 4 aN y z
      (fun v => some (res v))
      (fun v => entryOf (fm.sign (res v ++ 0#8) == .lt) (zero v) false (zero v) false)
      (fun v a => a = res v ++ 0#8)

/-- ifalt, ifaeq and ifagt load aN only where the newest DAU flags say so, or the settled ones where the
parameter IFA_LATENCY says that, write Z always or, with dauc[6] = 1, only then, and always move the
pointers (R367 to R371). -/
def Obligations.ConditionalLoadsFollowTheNewestFlags : Prop :=
  ∀ (s : State) (aN : AccNo) (y : DaOperand) (z : DaDest) (e : FlagEntry),
    (s.params.ifaSettled = false ∧ s.queue.getLast? = some e ∨
      (s.params.ifaSettled = true ∨ s.queue = []) ∧ e.n = s.ps.getLsbD 4 ∧ e.z = s.ps.getLsbD 5) →
    ∀ c ∈ [(Instr.ifalt aN y z, e.n), (Instr.ifaeq aN y z, e.z), (Instr.ifagt aN y z, !e.n && !e.z)],
      Converts s (exec c.1 s) 4 4 aN y z
        (fun v => if s.dauc.getLsbD 6 && !c.2 then none
          else some ((if c.2 then v.adder s.params.float else s.acc aN).extractLsb' 8 32))
        (fun _ => [])
        (fun v a => a = if c.2 then v.adder s.params.float else s.acc aN)

/-- A DAU result's flags reach ps, ctr and the requests at the end of the third instruction after it and
no sooner (R39, R384, R446).  The end of an instruction advances the queue once, after the pending load
has committed; only at the end of a doblock the flags become free values and nothing stays in flight
(R210, R446); that ctr does not follow them there is notes/assumptions/29.md. -/
def Obligations.DauFlagsSettleAfterFourInstructions : Prop :=
  (∀ (s : State) (n z v u nan : Bool), (∀ e ∈ s.queue, 1 ≤ e.left ∧ e.left ≤ 3) →
    let q := s.pushFlags (.fresh n z v u nan)
    (State.advanceFlags^[3] q).queue = [⟨n, z, v, u, nan, 1⟩] ∧
    (State.advanceFlags^[3] q).ps = (State.advanceFlags^[3] s).ps ∧
    (State.advanceFlags^[3] q).pending = (State.advanceFlags^[3] s).pending ∧
    let t := State.advanceFlags^[4] q
    t.queue = [] ∧ t.dauN = n ∧ t.dauZ = z ∧ t.dauV = v ∧ t.dauU = u ∧ t.cau = s.cau ∧
    t.ctr = 0#2 ++ (State.advanceFlags^[3] q).ctr.extractLsb' 0 5 ++ BitVec.ofBool n ∧
    t.pending.getLsbD 5 = ((State.advanceFlags^[3] q).pending.getLsbD 5 || v || u) ∧
    t.pending.getLsbD 6 = ((State.advanceFlags^[3] q).pending.getLsbD 6 || nan) ∧
    t.regs = s.regs ∧ t.accs = s.accs ∧ t.mem = s.mem) ∧
  ∀ (b : State) (pf : Fetched) (t : State),
    let f := finish b pf t
    let c := t.commitLoad.advanceFlags
    f.ctr = c.ctr ∧ f.pending = c.pending ∧ f.cau = c.cau ∧
    (¬ EndsBlock b t → f.queue = c.queue ∧ f.ps = c.ps) ∧
    (EndsBlock b t → f.queue = [] ∧
      ∃ n, t.draws ≤ n ∧ n < f.draws ∧ f.ps.extractLsb' 4 4 = Config.free 4 n)

/-! ### Peripherals -/

/-- The bio register: each field of a write keeps, clears, sets or complements its output bit (R66), and
a read shows the pin beside the output bit, an output pin being driven with the output bit or, for BIO1
with tcon[4] = 1, with the timer output (R67). -/
def Obligations.PortsFollowTheirFields : Prop :=
  (∀ (p : Periph) (w : Word) (k : ℕ), k < 8 →
    (p.write .bio w).bioOut.getLsbD k =
      (match w.getLsbD (2 * k + 1), w.getLsbD (2 * k) with
      | false, false => p.bioOut.getLsbD k
      | false, true => false
      | true, false => true
      | true, true => !p.bioOut.getLsbD k)) ∧
  (∀ (s : State) (k : ℕ), k < 8 →
    s.bioRead.getLsbD (2 * k + 1) = s.periph.bioOut.getLsbD k ∧
    (s.periph.bioc.getLsbD k = false → s.bioRead.getLsbD (2 * k) = s.pins.bio.getLsbD k) ∧
    (s.periph.bioc.getLsbD k = true → (k ≠ 1 ∨ s.periph.tcon.getLsbD 4 = false) →
      s.bioRead.getLsbD (2 * k) = s.periph.bioOut.getLsbD k) ∧
    (s.periph.bioc.getLsbD k = true → k = 1 → s.periph.tcon.getLsbD 4 = true →
      s.bioRead.getLsbD (2 * k) = s.periph.timerOut))

/-- The timer: an enabled counter counts down on a clock edge; reaching zero it requests source 9 and
reloads or stops (R63, R64, R403).  A counter that stands at zero has stopped: it takes no further edge
(notes/assumptions/17.md). -/
def Obligations.TimerCountsDownToItsRequest : Prop :=
  ∀ s : State,
    let t := s.event .timerTick
    (s.periph.tcon.getLsbD 0 = false → t = s) ∧
    (s.periph.timerCount = 0#32 → t = s) ∧
    (s.periph.tcon.getLsbD 0 = true → 2 ≤ s.periph.timerCount.toNat →
      t.periph.timerCount.toNat + 1 = s.periph.timerCount.toNat ∧ t.pending = s.pending) ∧
    (s.periph.tcon.getLsbD 0 = true → s.periph.timerCount.toNat = 1 →
      t.pending.getLsbD 9 = true ∧ (∀ j, j ≠ 9 → t.pending.getLsbD j = s.pending.getLsbD j) ∧
      t.periph.timerCount =
        (if s.periph.tcon.getLsbD 1 then s.periph.timerInit else 0#32) ∧
      t.periph.timerInit = s.periph.timerInit) ∧
    t = { s with pending := t.pending, periph := t.periph }

/-- A memory-mapped register is accessed whole and in its own size: then a write is the register's own,
and a read gives the register; another size is refused (R54, R114).  A write of dmac keeps the protected
settings that it does not open (R62), one of ioc reads with bits 31:24 zero (R55), and tcon, bioc and the
data registers read as written (the data registers: notes/assumptions/6.md); no write moves another
register.  That pcw[8] does not matter to the number moved is notes/assumptions/30.md. -/
def Obligations.MmioAccessHasTheRegistersSize : Prop :=
  (∀ (p : Periph) (w : Word) (k : ℕ), k < 8 →
    (p.write .dmac w).dmac.getLsbD k =
      if (k = 1 ∨ k = 2) ∧ w.getLsbD 0 = false ∨ (k = 5 ∨ k = 6) ∧ w.getLsbD 4 = false
      then p.dmac.getLsbD k else w.getLsbD k) ∧
  (∀ (s : State) (r : MmioReg) (w : Word),
    let t := { s with periph := s.periph.write r w }
    (r = .ioc → ∀ j, (t.mmioRead r).getLsbD j = (decide (j < 24) && w.getLsbD j)) ∧
    (r = .dmac → t.mmioRead r = t.periph.dmac.setWidth 32) ∧
    (r = .tcon ∨ r = .bioc → (t.mmioRead r).toNat = w.toNat % 256) ∧
    (isDataRegister r = true → t.mmioRead r = w) ∧
    (r = .bio → t.mmioRead r = t.bioRead.setWidth 32) ∧
    (r ≠ .bio → t.periph.bioOut = s.periph.bioOut) ∧
    (∀ q, q ≠ r → q ≠ .bio → t.mmioRead q = s.mmioRead q) ∧
    t.periph.isr = s.periph.isr ∧ t.periph.osr = s.periph.osr ∧
    t.periph.timerToggle = s.periph.timerToggle) ∧
  ∀ (s : State) (a : Word) (n : ℕ) (e : MmioEntry), n = 1 ∨ n = 2 ∨ n = 4 → a.toNat % n = 0 →
    s.mmioAt a = some e →
    ((n = e.width ∧ (a - s.onchipBase).toNat = e.offset) →
      (∃ v, s.load a n = .ok v ∧ v.toNat = (s.mmioRead e.reg).toNat % 2 ^ (8 * n)) ∧
      ∀ v : Word, s.store a n v =
        .ok { s with periph := s.periph.write e.reg (BitVec.ofNat 32 (v.toNat % 2 ^ (8 * n))) }) ∧
    (¬ (n = e.width ∧ (a - s.onchipBase).toNat = e.offset) →
      s.load a n = .error (.refuse .mmioAccess) ∧ ∀ v, s.store a n v = .error (.refuse .mmioAccess))
end

