-- ==== Sys2Proof/Laws/Compand.lean ====
section
/-! SUPPORT. The value of an accumulator as the machine computes it, and the limiting codes of a companding
law (R324, R363). -/

namespace Sys2Proof

open Machine

/-- `limitCode` gives the greatest value that the codes have. -/
theorem Machine.limitCode_top (val : Byte → Int) (b : Byte) : val b ≤ val (limitCode val true 255) := by
  have h : ∀ n i, i ≤ n → val (BitVec.ofNat 8 i) ≤ val (limitCode val true n) := by
    intro n
    induction n with
    | zero => intro i hi; rw [Nat.le_zero.mp hi]; exact le_rfl
    | succ n ih =>
      intro i hi
      simp only [limitCode, if_true]
      rcases Nat.le_succ_iff.mp hi with hi | rfl
      · split
        · exact (ih i hi).trans (by omega)
        · exact ih i hi
      · simp only [Nat.succ_eq_add_one]
        split <;> omega
  have := h 255 b.toNat (by omega)
  rwa [BitVec.ofNat_toNat, BitVec.setWidth_eq] at this

/-- `limitCode` gives the least value that the codes have. -/
theorem Machine.limitCode_bottom (val : Byte → Int) (b : Byte) : val (limitCode val false 255) ≤ val b := by
  have h : ∀ n i, i ≤ n → val (limitCode val false n) ≤ val (BitVec.ofNat 8 i) := by
    intro n
    induction n with
    | zero => intro i hi; rw [Nat.le_zero.mp hi]; exact le_rfl
    | succ n ih =>
      intro i hi
      simp only [limitCode, Bool.false_eq_true, if_false]
      rcases Nat.le_succ_iff.mp hi with hi | rfl
      · split
        · exact le_trans (by omega) (ih i hi)
        · exact ih i hi
      · simp only [Nat.succ_eq_add_one]
        split <;> omega
  have := h 255 b.toNat (by omega)
  rwa [BitVec.ofNat_toNat, BitVec.setWidth_eq] at this

/-- The value that the machine computes is the value of the format (R322, R324). -/
theorem FloatFormat.number_eq (fm : FloatFormat) (a : Acc40) : fm.number a = fm.val40 a := by
  cases fm with
  | other k => rfl
  | excess128 =>
    simp only [FloatFormat.number, FloatFormat.val40, Sys2Proof.val40]
    by_cases h : a.extractLsb' 8 8 = 0#8
    · simp [h, exact40, exponent40]
    · have hz : (a.extractLsb' 8 8).toNat ≠ 0 := fun hz => h (BitVec.eq_of_toNat_eq hz)
      have he : exact40 a = mantissa40 a <<< ((a.extractLsb' 8 8).toNat + 143) := if_neg hz
      rw [he, if_neg h, Int.shiftLeft_eq]
      have hm : (mantissa40 a : ℚ) = ((if a.getLsbD 39 then -2 else 1)
          + (((a.extractLsb' 16 23).toNat * 2 ^ 8 + (a.extractLsb' 0 8).toNat : ℕ) : ℚ) / 2 ^ 31) * 2 ^ 31 := by
        have hf : (a.extractLsb' 16 23 ++ a.extractLsb' 0 8).toNat
            = (a.extractLsb' 16 23).toNat * 2 ^ 8 + (a.extractLsb' 0 8).toNat := by
          rw [BitVec.toNat_append, Nat.shiftLeft_eq, Nat.mul_comm,
            ← Nat.two_pow_add_eq_or_of_lt (a.extractLsb' 0 8).isLt]
        unfold mantissa40
        simp only [hf]
        split <;> push_cast <;> ring
      rw [Int.cast_mul, hm]
      generalize (if a.getLsbD 39 then (-2 : ℚ) else 1)
          + (((a.extractLsb' 16 23).toNat * 2 ^ 8 + (a.extractLsb' 0 8).toNat : ℕ) : ℚ) / 2 ^ 31 = c
      generalize (a.extractLsb' 8 8).toNat = e
      have hp : (2 : ℚ) ^ 302 = 2 ^ 31 * 2 ^ 143 * 2 ^ 128 := by rw [← pow_add, ← pow_add]
      rw [zpow_sub₀ two_ne_zero, zpow_natCast, hp]
      push_cast
      rw [pow_add]
      field_simp
      rfl

end Sys2Proof
end

