-- ==== Sys2Proof/Laws/Decode.lean ====
section
/-! SUPPORT. The encoder's words, read back: the codes of the operand types are inverted by their readers,
and each format's fields are found where the decoder looks for them. -/

namespace Sys2Proof

/-! ### Codes -/

theorem Reg.ofCode_code (r : Reg) : Reg.ofCode r.code = some r := by
  revert r; decide

theorem Reg.code_ne_pc (r : Reg) : r.code ≠ codePc := by revert r; decide

theorem Reg.code_ne_pcsh (r : Reg) : r.code ≠ codePcsh := by revert r; decide

theorem Reg.code_ne_minusN (r : Reg) : r.code ≠ codeMinusN := by revert r; decide

theorem Reg.code_ne_plusN (r : Reg) : r.code ≠ codePlusN := by revert r; decide

theorem Base.ofCode_code (b : Base) : Base.ofCode b.code = some b := by
  cases b with
  | reg r => simp [Base.ofCode, Base.code, Reg.code_ne_pc, Reg.ofCode_code]
  | pc => rfl

theorem Base.code_ne_pcsh (b : Base) : b.code ≠ codePcsh := by
  cases b with
  | reg r => exact Reg.code_ne_pcsh r
  | pc => decide

theorem Source.ofCode_code (b : Source) : Source.ofCode b.code = some b := by
  cases b with
  | reg r => simp [Source.ofCode, Source.code, Reg.code_ne_pc, Reg.code_ne_pcsh, Reg.ofCode_code]
  | pc => rfl
  | pcsh => rfl

theorem LoadDest.ofCode_code (b : LoadDest) : LoadDest.ofCode b.code = some b := by
  cases b with
  | reg r => simp [LoadDest.ofCode, LoadDest.code, Reg.code_ne_pcsh, Reg.ofCode_code]
  | pcsh => rfl

theorem Increment.ofCode_code (b : Increment) : Increment.ofCode b.code = some b := by
  cases b with
  | reg r =>
    simp [Increment.ofCode, Increment.code, Reg.code_ne_minusN, Reg.code_ne_plusN, Reg.ofCode_code]
  | minusN => rfl
  | plusN => rfl

theorem Cond.ofCode_code (c : Cond) : Cond.ofCode c.code = some c := by cases c <;> rfl

theorem Width.ofCode_code (w : Width) : Width.ofCode w.code = some w := by cases w <;> rfl

theorem IoReg.ofCode_code (i : IoReg) : IoReg.ofCode i.code = some i := by cases i <;> rfl

theorem PostMod.ofCode_code (i : PostMod) : PostMod.ofCode i.code = i := by
  cases i with
  | inc k => revert k; decide
  | keep => rfl
  | minus => rfl
  | plus => rfl

theorem DaMem.code_toNat (m : DaMem) : m.code.toNat = (m.p.val + 1) * 8 + m.i.code.toNat := by
  have := m.i.code.isLt
  simp [DaMem.code]; omega

theorem DaMem.ofCode_code (m : DaMem) : DaMem.ofCode m.code = some m := by
  have h := m.i.code.isLt
  have hp : m.code.toNat / 8 = m.p.val + 1 := by rw [DaMem.code_toNat]; omega
  have hi : m.code.toNat % 8 = m.i.code.toNat := by rw [DaMem.code_toNat]; omega
  simp only [DaMem.ofCode, hp, hi, BitVec.ofNat_toNat, BitVec.setWidth_eq, PostMod.ofCode_code]
  rw [dif_pos (by omega)]
  rfl

theorem DaOperand.ofCode_code (o : DaOperand) : DaOperand.ofCode o.code = some o := by
  cases o with
  | acc a => revert a; decide
  | mem m =>
    have : ¬ m.code.toNat < 4 := by rw [DaMem.code_toNat]; omega
    simp [DaOperand.ofCode, DaOperand.code, this, DaMem.ofCode_code]

theorem DaDest.ofCode_code (z : DaDest) : DaDest.ofCode z.code = some z := by
  cases z with
  | none => rfl
  | mem m =>
    have : m.code ≠ 0b0000111#7 := by
      intro h; have := congrArg BitVec.toNat h; rw [DaMem.code_toNat] at this; simp at this; omega
    simp [DaDest.ofCode, DaDest.code, this, DaMem.ofCode_code]

/-! ### Fields of a packed word -/

/-- The word of a row of fields. -/
abbrev wordOf (fs : List Field) : Word := BitVec.ofNat 32 (packNat fs)

/-- A bit field of the word of a number below 2^32, as a number. -/
theorem field_ofNat {w : Word} {n : Nat} (hw : w = BitVec.ofNat 32 n) (h : n < 2 ^ 32) (lo len : Nat) :
    (field w lo len).toNat = n / 2 ^ lo % 2 ^ len := by
  have h' : n % 4294967296 = n := Nat.mod_eq_of_lt h
  simp [hw, field, BitVec.extractLsb'_toNat, Nat.shiftRight_eq_div_pow, h']

/-- A bit field is the vector whose value the arithmetic gives. -/
theorem field_eq {w : Word} {n lo len : Nat} {v : BitVec len} (hw : w = BitVec.ofNat 32 n)
    (h : n < 2 ^ 32) (hv : n / 2 ^ lo % 2 ^ len = v.toNat) : field w lo len = v :=
  BitVec.eq_of_toNat_eq (by rw [field_ofNat hw h, hv])

/-! ### The formats, read back -/

/-- Format 0b (R133). -/
theorem fields0b_read (c : Cond) (rB : BitVec 5) (n : Half) :
    ∃ w, w = wordOf (fields0b c rB n) ∧ formatOf w = some .f0b ∧
      field w 0 16 = n ∧
      field w 16 5 = rB ∧
      field w 21 6 = c.code := by
  have := c.code.isLt
  have := rB.isLt
  have := n.isLt
  have hlt : packNat (fields0b c rB n) < 2 ^ 32 := by simp [packNat, fields0b]; omega
  obtain ⟨w, hw⟩ : ∃ w, w = wordOf (fields0b c rB n) := ⟨_, rfl⟩
  have e1 : field w 29 3 = 4#3 := field_eq hw hlt (by simp [packNat, fields0b]; omega)
  have e2 : (field w 25 4).toNat < 4 := by
    rw [field_ofNat hw hlt]; simp [packNat, fields0b]; omega
  refine ⟨w, hw, by simp [formatOf, e1, e2], ?_, ?_, ?_⟩ <;>
    apply field_eq hw hlt <;> simp [packNat, fields0b] <;> omega

/-- Format 3a (R134). -/
theorem fields3a_read (ra rb : BitVec 5) (n : Half) :
    ∃ w, w = wordOf (fieldsReg2Imm 0b000011#6 ra rb n) ∧ formatOf w = some .f3a ∧
      field w 0 16 = n ∧
      field w 16 5 = rb ∧
      field w 21 5 = ra := by
  have := ra.isLt
  have := rb.isLt
  have := n.isLt
  have hlt : packNat (fieldsReg2Imm 0b000011#6 ra rb n) < 2 ^ 32 := by simp [packNat, fieldsReg2Imm]; omega
  obtain ⟨w, hw⟩ : ∃ w, w = wordOf (fieldsReg2Imm 0b000011#6 ra rb n) := ⟨_, rfl⟩
  have e1 : field w 29 3 = 0#3 := field_eq hw hlt (by simp [packNat, fieldsReg2Imm]; omega)
  have e2 : (field w 25 4).toNat = 6 ∨ (field w 25 4).toNat = 7 := by
    rw [field_ofNat hw hlt]; simp [packNat, fieldsReg2Imm]; omega
  refine ⟨w, hw, by rcases e2 with e | e <;> simp [formatOf, e1, e], ?_, ?_, ?_⟩ <;>
    apply field_eq hw hlt <;> simp [packNat, fieldsReg2Imm] <;> omega

/-- Format 4a (R135). -/
theorem fields4a_read (ra rb : BitVec 5) (n : Half) :
    ∃ w, w = wordOf (fieldsReg2Imm 0b000100#6 ra rb n) ∧ formatOf w = some .f4a ∧
      field w 0 16 = n ∧
      field w 16 5 = rb ∧
      field w 21 5 = ra := by
  have := ra.isLt
  have := rb.isLt
  have := n.isLt
  have hlt : packNat (fieldsReg2Imm 0b000100#6 ra rb n) < 2 ^ 32 := by simp [packNat, fieldsReg2Imm]; omega
  obtain ⟨w, hw⟩ : ∃ w, w = wordOf (fieldsReg2Imm 0b000100#6 ra rb n) := ⟨_, rfl⟩
  have e1 : field w 29 3 = 0#3 := field_eq hw hlt (by simp [packNat, fieldsReg2Imm]; omega)
  have e2 : (field w 25 4).toNat = 8 ∨ (field w 25 4).toNat = 9 := by
    rw [field_ofNat hw hlt]; simp [packNat, fieldsReg2Imm]; omega
  refine ⟨w, hw, by rcases e2 with e | e <;> simp [formatOf, e1, e], ?_, ?_, ?_⟩ <;>
    apply field_eq hw hlt <;> simp [packNat, fieldsReg2Imm] <;> omega

/-- Format 4b (R137). -/
theorem fields4b_read (ra rb : BitVec 5) (n : Half) :
    ∃ w, w = wordOf (fieldsReg2Imm 0b100100#6 ra rb n) ∧ formatOf w = some .f4b ∧
      field w 0 16 = n ∧
      field w 16 5 = rb ∧
      field w 21 5 = ra := by
  have := ra.isLt
  have := rb.isLt
  have := n.isLt
  have hlt : packNat (fieldsReg2Imm 0b100100#6 ra rb n) < 2 ^ 32 := by simp [packNat, fieldsReg2Imm]; omega
  obtain ⟨w, hw⟩ : ∃ w, w = wordOf (fieldsReg2Imm 0b100100#6 ra rb n) := ⟨_, rfl⟩
  have e1 : field w 29 3 = 4#3 := field_eq hw hlt (by simp [packNat, fieldsReg2Imm]; omega)
  have e2 : (field w 25 4).toNat = 8 ∨ (field w 25 4).toNat = 9 := by
    rw [field_ofNat hw hlt]; simp [packNat, fieldsReg2Imm]; omega
  refine ⟨w, hw, by rcases e2 with e | e <;> simp [formatOf, e1, e], ?_, ?_, ?_⟩ <;>
    apply field_eq hw hlt <;> simp [packNat, fieldsReg2Imm] <;> omega

/-- Format 5a (R138). -/
theorem fields5a_read (ra rb : BitVec 5) (n : Half) :
    ∃ w, w = wordOf (fieldsReg2Imm 0b000101#6 ra rb n) ∧ formatOf w = some (.f5 .short) ∧
      field w 0 16 = n ∧
      field w 16 5 = rb ∧
      field w 21 5 = ra := by
  have := ra.isLt
  have := rb.isLt
  have := n.isLt
  have hlt : packNat (fieldsReg2Imm 0b000101#6 ra rb n) < 2 ^ 32 := by simp [packNat, fieldsReg2Imm]; omega
  obtain ⟨w, hw⟩ : ∃ w, w = wordOf (fieldsReg2Imm 0b000101#6 ra rb n) := ⟨_, rfl⟩
  have e1 : field w 29 3 = 0#3 := field_eq hw hlt (by simp [packNat, fieldsReg2Imm]; omega)
  have e2 : (field w 25 4).toNat = 10 ∨ (field w 25 4).toNat = 11 := by
    rw [field_ofNat hw hlt]; simp [packNat, fieldsReg2Imm]; omega
  refine ⟨w, hw, by rcases e2 with e | e <;> simp [formatOf, e1, e], ?_, ?_, ?_⟩ <;>
    apply field_eq hw hlt <;> simp [packNat, fieldsReg2Imm] <;> omega

/-- Format 5b (R138). -/
theorem fields5b_read (ra rb : BitVec 5) (n : Half) :
    ∃ w, w = wordOf (fieldsReg2Imm 0b100101#6 ra rb n) ∧ formatOf w = some (.f5 .long) ∧
      field w 0 16 = n ∧
      field w 16 5 = rb ∧
      field w 21 5 = ra := by
  have := ra.isLt
  have := rb.isLt
  have := n.isLt
  have hlt : packNat (fieldsReg2Imm 0b100101#6 ra rb n) < 2 ^ 32 := by simp [packNat, fieldsReg2Imm]; omega
  obtain ⟨w, hw⟩ : ∃ w, w = wordOf (fieldsReg2Imm 0b100101#6 ra rb n) := ⟨_, rfl⟩
  have e1 : field w 29 3 = 4#3 := field_eq hw hlt (by simp [packNat, fieldsReg2Imm]; omega)
  have e2 : (field w 25 4).toNat = 10 ∨ (field w 25 4).toNat = 11 := by
    rw [field_ofNat hw hlt]; simp [packNat, fieldsReg2Imm]; omega
  refine ⟨w, hw, by rcases e2 with e | e <;> simp [formatOf, e1, e], ?_, ?_, ?_⟩ <;>
    apply field_eq hw hlt <;> simp [packNat, fieldsReg2Imm] <;> omega

/-- Format 3b (R136). -/
theorem fields3b_00_read (k : BitVec 7) (l : BitVec 11) :
    ∃ w, w = wordOf (fields3b false false k l) ∧ formatOf w = some .f3b ∧
      field w 11 5 = 0#5 ∧
      field w 0 11 = l ∧
      field w 16 7 = k ∧
      field w 23 2 = 0#2 := by
  have := k.isLt
  have := l.isLt
  have hlt : packNat (fields3b false false k l) < 2 ^ 32 := by simp [packNat, fields3b, bit]; omega
  obtain ⟨w, hw⟩ : ∃ w, w = wordOf (fields3b false false k l) := ⟨_, rfl⟩
  have e1 : field w 29 3 = 4#3 := field_eq hw hlt (by simp [packNat, fields3b, bit]; omega)
  have e2 : (field w 25 4).toNat = 6 := by
    rw [field_ofNat hw hlt]; simp [packNat, fields3b, bit]; omega
  refine ⟨w, hw, by simp [formatOf, e1, e2], ?_, ?_, ?_, ?_⟩ <;>
    apply field_eq hw hlt <;> simp [packNat, fields3b, bit] <;> omega

/-- Format 3c (R136). -/
theorem fields3c_00_read (k : BitVec 7) (rM : Reg) :
    ∃ w, w = wordOf (fields3c false false k rM) ∧ formatOf w = some .f3c ∧
      field w 5 11 = 0#11 ∧
      field w 0 5 = rM.code ∧
      field w 16 7 = k ∧
      field w 23 2 = 0#2 := by
  have := k.isLt
  have := rM.code.isLt
  have hlt : packNat (fields3c false false k rM) < 2 ^ 32 := by simp [packNat, fields3c, bit]; omega
  obtain ⟨w, hw⟩ : ∃ w, w = wordOf (fields3c false false k rM) := ⟨_, rfl⟩
  have e1 : field w 29 3 = 4#3 := field_eq hw hlt (by simp [packNat, fields3c, bit]; omega)
  have e2 : (field w 25 4).toNat = 7 := by
    rw [field_ofNat hw hlt]; simp [packNat, fields3c, bit]; omega
  refine ⟨w, hw, by simp [formatOf, e1, e2], ?_, ?_, ?_, ?_⟩ <;>
    apply field_eq hw hlt <;> simp [packNat, fields3c, bit] <;> omega

/-- Format 3b (R136). -/
theorem fields3b_01_read (k : BitVec 7) (l : BitVec 11) :
    ∃ w, w = wordOf (fields3b false true k l) ∧ formatOf w = some .f3b ∧
      field w 11 5 = 0#5 ∧
      field w 0 11 = l ∧
      field w 16 7 = k ∧
      field w 23 2 = 1#2 := by
  have := k.isLt
  have := l.isLt
  have hlt : packNat (fields3b false true k l) < 2 ^ 32 := by simp [packNat, fields3b, bit]; omega
  obtain ⟨w, hw⟩ : ∃ w, w = wordOf (fields3b false true k l) := ⟨_, rfl⟩
  have e1 : field w 29 3 = 4#3 := field_eq hw hlt (by simp [packNat, fields3b, bit]; omega)
  have e2 : (field w 25 4).toNat = 6 := by
    rw [field_ofNat hw hlt]; simp [packNat, fields3b, bit]; omega
  refine ⟨w, hw, by simp [formatOf, e1, e2], ?_, ?_, ?_, ?_⟩ <;>
    apply field_eq hw hlt <;> simp [packNat, fields3b, bit] <;> omega

/-- Format 3c (R136). -/
theorem fields3c_01_read (k : BitVec 7) (rM : Reg) :
    ∃ w, w = wordOf (fields3c false true k rM) ∧ formatOf w = some .f3c ∧
      field w 5 11 = 0#11 ∧
      field w 0 5 = rM.code ∧
      field w 16 7 = k ∧
      field w 23 2 = 1#2 := by
  have := k.isLt
  have := rM.code.isLt
  have hlt : packNat (fields3c false true k rM) < 2 ^ 32 := by simp [packNat, fields3c, bit]; omega
  obtain ⟨w, hw⟩ : ∃ w, w = wordOf (fields3c false true k rM) := ⟨_, rfl⟩
  have e1 : field w 29 3 = 4#3 := field_eq hw hlt (by simp [packNat, fields3c, bit]; omega)
  have e2 : (field w 25 4).toNat = 7 := by
    rw [field_ofNat hw hlt]; simp [packNat, fields3c, bit]; omega
  refine ⟨w, hw, by simp [formatOf, e1, e2], ?_, ?_, ?_, ?_⟩ <;>
    apply field_eq hw hlt <;> simp [packNat, fields3c, bit] <;> omega

/-- Format 3b (R136). -/
theorem fields3b_10_read (k : BitVec 7) (l : BitVec 11) :
    ∃ w, w = wordOf (fields3b true false k l) ∧ formatOf w = some .f3b ∧
      field w 11 5 = 0#5 ∧
      field w 0 11 = l ∧
      field w 16 7 = k ∧
      field w 23 2 = 2#2 := by
  have := k.isLt
  have := l.isLt
  have hlt : packNat (fields3b true false k l) < 2 ^ 32 := by simp [packNat, fields3b, bit]; omega
  obtain ⟨w, hw⟩ : ∃ w, w = wordOf (fields3b true false k l) := ⟨_, rfl⟩
  have e1 : field w 29 3 = 4#3 := field_eq hw hlt (by simp [packNat, fields3b, bit]; omega)
  have e2 : (field w 25 4).toNat = 6 := by
    rw [field_ofNat hw hlt]; simp [packNat, fields3b, bit]; omega
  refine ⟨w, hw, by simp [formatOf, e1, e2], ?_, ?_, ?_, ?_⟩ <;>
    apply field_eq hw hlt <;> simp [packNat, fields3b, bit] <;> omega

/-- Format 3c (R136). -/
theorem fields3c_10_read (k : BitVec 7) (rM : Reg) :
    ∃ w, w = wordOf (fields3c true false k rM) ∧ formatOf w = some .f3c ∧
      field w 5 11 = 0#11 ∧
      field w 0 5 = rM.code ∧
      field w 16 7 = k ∧
      field w 23 2 = 2#2 := by
  have := k.isLt
  have := rM.code.isLt
  have hlt : packNat (fields3c true false k rM) < 2 ^ 32 := by simp [packNat, fields3c, bit]; omega
  obtain ⟨w, hw⟩ : ∃ w, w = wordOf (fields3c true false k rM) := ⟨_, rfl⟩
  have e1 : field w 29 3 = 4#3 := field_eq hw hlt (by simp [packNat, fields3c, bit]; omega)
  have e2 : (field w 25 4).toNat = 7 := by
    rw [field_ofNat hw hlt]; simp [packNat, fields3c, bit]; omega
  refine ⟨w, hw, by simp [formatOf, e1, e2], ?_, ?_, ?_, ?_⟩ <;>
    apply field_eq hw hlt <;> simp [packNat, fields3c, bit] <;> omega

/-- Formats 6a and 6b (R139). -/
theorem fields6reg_short_read (f : BitVec 4) (rD rS1 : Reg) (c : Cond) (rS2 : BitVec 5) :
    ∃ w, w = wordOf (fields6reg .short f rD rS1 c rS2) ∧ formatOf w = some (.f6reg .short) ∧
      field w 21 4 = f ∧
      field w 16 5 = rD.code ∧
      field w 11 5 = rS1.code ∧
      field w 5 6 = c.code ∧
      field w 0 5 = rS2 := by
  have := f.isLt
  have := rD.code.isLt
  have := rS1.code.isLt
  have := c.code.isLt
  have := rS2.isLt
  have hlt : packNat (fields6reg .short f rD rS1 c rS2) < 2 ^ 32 := by simp [packNat, fields6reg, Size.code]; omega
  obtain ⟨w, hw⟩ : ∃ w, w = wordOf (fields6reg .short f rD rS1 c rS2) := ⟨_, rfl⟩
  have e1 : field w 29 3 = 0#3 := field_eq hw hlt (by simp [packNat, fields6reg, Size.code]; omega)
  have e2 : (field w 25 4).toNat = 12 := by
    rw [field_ofNat hw hlt]; simp [packNat, fields6reg, Size.code]; omega
  refine ⟨w, hw, by simp [formatOf, e1, e2], ?_, ?_, ?_, ?_, ?_⟩ <;>
    apply field_eq hw hlt <;> simp [packNat, fields6reg, Size.code] <;> omega

/-- Formats 6c and 6d (R140). -/
theorem fields6imm_short_read (f : BitVec 4) (rD : Reg) (n : Half) :
    ∃ w, w = wordOf (fields6imm .short f rD n) ∧ formatOf w = some (.f6imm .short) ∧
      field w 21 4 = f ∧
      field w 16 5 = rD.code ∧
      field w 0 16 = n := by
  have := f.isLt
  have := rD.code.isLt
  have := n.isLt
  have hlt : packNat (fields6imm .short f rD n) < 2 ^ 32 := by simp [packNat, fields6imm, Size.code]; omega
  obtain ⟨w, hw⟩ : ∃ w, w = wordOf (fields6imm .short f rD n) := ⟨_, rfl⟩
  have e1 : field w 29 3 = 0#3 := field_eq hw hlt (by simp [packNat, fields6imm, Size.code]; omega)
  have e2 : (field w 25 4).toNat = 13 := by
    rw [field_ofNat hw hlt]; simp [packNat, fields6imm, Size.code]; omega
  refine ⟨w, hw, by simp [formatOf, e1, e2], ?_, ?_, ?_⟩ <;>
    apply field_eq hw hlt <;> simp [packNat, fields6imm, Size.code] <;> omega

/-- Formats 6a and 6b (R139). -/
theorem fields6reg_long_read (f : BitVec 4) (rD rS1 : Reg) (c : Cond) (rS2 : BitVec 5) :
    ∃ w, w = wordOf (fields6reg .long f rD rS1 c rS2) ∧ formatOf w = some (.f6reg .long) ∧
      field w 21 4 = f ∧
      field w 16 5 = rD.code ∧
      field w 11 5 = rS1.code ∧
      field w 5 6 = c.code ∧
      field w 0 5 = rS2 := by
  have := f.isLt
  have := rD.code.isLt
  have := rS1.code.isLt
  have := c.code.isLt
  have := rS2.isLt
  have hlt : packNat (fields6reg .long f rD rS1 c rS2) < 2 ^ 32 := by simp [packNat, fields6reg, Size.code]; omega
  obtain ⟨w, hw⟩ : ∃ w, w = wordOf (fields6reg .long f rD rS1 c rS2) := ⟨_, rfl⟩
  have e1 : field w 29 3 = 4#3 := field_eq hw hlt (by simp [packNat, fields6reg, Size.code]; omega)
  have e2 : (field w 25 4).toNat = 12 := by
    rw [field_ofNat hw hlt]; simp [packNat, fields6reg, Size.code]; omega
  refine ⟨w, hw, by simp [formatOf, e1, e2], ?_, ?_, ?_, ?_, ?_⟩ <;>
    apply field_eq hw hlt <;> simp [packNat, fields6reg, Size.code] <;> omega

/-- Formats 6c and 6d (R140). -/
theorem fields6imm_long_read (f : BitVec 4) (rD : Reg) (n : Half) :
    ∃ w, w = wordOf (fields6imm .long f rD n) ∧ formatOf w = some (.f6imm .long) ∧
      field w 21 4 = f ∧
      field w 16 5 = rD.code ∧
      field w 0 16 = n := by
  have := f.isLt
  have := rD.code.isLt
  have := n.isLt
  have hlt : packNat (fields6imm .long f rD n) < 2 ^ 32 := by simp [packNat, fields6imm, Size.code]; omega
  obtain ⟨w, hw⟩ : ∃ w, w = wordOf (fields6imm .long f rD n) := ⟨_, rfl⟩
  have e1 : field w 29 3 = 4#3 := field_eq hw hlt (by simp [packNat, fields6imm, Size.code]; omega)
  have e2 : (field w 25 4).toNat = 13 := by
    rw [field_ofNat hw hlt]; simp [packNat, fields6imm, Size.code]; omega
  refine ⟨w, hw, by simp [formatOf, e1, e2], ?_, ?_, ?_⟩ <;>
    apply field_eq hw hlt <;> simp [packNat, fields6imm, Size.code] <;> omega

/-- Format 7a (R144). -/
theorem fields7a_0_read (wd : Width) (rH : BitVec 5) (l : Half) :
    ∃ w, w = wordOf (fields7a false wd rH l) ∧ formatOf w = some .f7a ∧
      field w 24 1 = 0#1 ∧
      field w 21 3 = wd.code ∧
      field w 16 5 = rH ∧
      field w 0 16 = l := by
  have := wd.code.isLt
  have := rH.isLt
  have := l.isLt
  have hlt : packNat (fields7a false wd rH l) < 2 ^ 32 := by simp [packNat, fields7a, bit]; omega
  obtain ⟨w, hw⟩ : ∃ w, w = wordOf (fields7a false wd rH l) := ⟨_, rfl⟩
  have e1 : field w 29 3 = 0#3 := field_eq hw hlt (by simp [packNat, fields7a, bit]; omega)
  have e2 : (field w 25 4).toNat = 14 := by
    rw [field_ofNat hw hlt]; simp [packNat, fields7a, bit]; omega
  refine ⟨w, hw, by simp [formatOf, e1, e2], ?_, ?_, ?_, ?_⟩ <;>
    apply field_eq hw hlt <;> simp [packNat, fields7a, bit] <;> omega

/-- Format 7b (R145). -/
theorem fields7b_0_read (wd : Width) (rH : BitVec 5) (io : IoReg) :
    ∃ w, w = wordOf (fields7b false wd rH io) ∧ formatOf w = some .f7bc ∧
      field w 24 1 = 0#1 ∧
      field w 21 3 = wd.code ∧
      field w 16 5 = rH ∧
      field w 11 5 = 0#5 ∧
      field w 10 1 = 1#1 ∧
      field w 5 5 = 0#5 ∧
      field w 0 5 = io.code := by
  have := wd.code.isLt
  have := rH.isLt
  have := io.code.isLt
  have hlt : packNat (fields7b false wd rH io) < 2 ^ 32 := by simp [packNat, fields7b, bit]; omega
  obtain ⟨w, hw⟩ : ∃ w, w = wordOf (fields7b false wd rH io) := ⟨_, rfl⟩
  have e1 : field w 29 3 = 4#3 := field_eq hw hlt (by simp [packNat, fields7b, bit]; omega)
  have e2 : (field w 25 4).toNat = 14 := by
    rw [field_ofNat hw hlt]; simp [packNat, fields7b, bit]; omega
  refine ⟨w, hw, by simp [formatOf, e1, e2], ?_, ?_, ?_, ?_, ?_, ?_, ?_⟩ <;>
    apply field_eq hw hlt <;> simp [packNat, fields7b, bit] <;> omega

/-- Format 7c (R146). -/
theorem fields7c_0_read (wd : Width) (rH : BitVec 5) (rP : Reg) (rI : Increment) :
    ∃ w, w = wordOf (fields7c false wd rH rP rI) ∧ formatOf w = some .f7bc ∧
      field w 24 1 = 0#1 ∧
      field w 21 3 = wd.code ∧
      field w 16 5 = rH ∧
      field w 11 5 = rP.code ∧
      field w 10 1 = 0#1 ∧
      field w 5 5 = 0#5 ∧
      field w 0 5 = rI.code := by
  have := wd.code.isLt
  have := rH.isLt
  have := rP.code.isLt
  have := rI.code.isLt
  have hlt : packNat (fields7c false wd rH rP rI) < 2 ^ 32 := by simp [packNat, fields7c, bit]; omega
  obtain ⟨w, hw⟩ : ∃ w, w = wordOf (fields7c false wd rH rP rI) := ⟨_, rfl⟩
  have e1 : field w 29 3 = 4#3 := field_eq hw hlt (by simp [packNat, fields7c, bit]; omega)
  have e2 : (field w 25 4).toNat = 14 := by
    rw [field_ofNat hw hlt]; simp [packNat, fields7c, bit]; omega
  refine ⟨w, hw, by simp [formatOf, e1, e2], ?_, ?_, ?_, ?_, ?_, ?_, ?_⟩ <;>
    apply field_eq hw hlt <;> simp [packNat, fields7c, bit] <;> omega

/-- Format 7d (R147). -/
theorem fields7d_0_read (wd : Width) (io : IoReg) (rP : Reg) (rI : Increment) :
    ∃ w, w = wordOf (fields7d false wd io rP rI) ∧ formatOf w = some .f7d ∧
      field w 24 1 = 0#1 ∧
      field w 21 3 = wd.code ∧
      field w 16 5 = io.code ∧
      field w 11 5 = rP.code ∧
      field w 5 6 = 0#6 ∧
      field w 0 5 = rI.code := by
  have := wd.code.isLt
  have := io.code.isLt
  have := rP.code.isLt
  have := rI.code.isLt
  have hlt : packNat (fields7d false wd io rP rI) < 2 ^ 32 := by simp [packNat, fields7d, bit]; omega
  obtain ⟨w, hw⟩ : ∃ w, w = wordOf (fields7d false wd io rP rI) := ⟨_, rfl⟩
  have e1 : field w 29 3 = 4#3 := field_eq hw hlt (by simp [packNat, fields7d, bit]; omega)
  have e2 : (field w 25 4).toNat = 15 := by
    rw [field_ofNat hw hlt]; simp [packNat, fields7d, bit]; omega
  refine ⟨w, hw, by simp [formatOf, e1, e2], ?_, ?_, ?_, ?_, ?_, ?_⟩ <;>
    apply field_eq hw hlt <;> simp [packNat, fields7d, bit] <;> omega

/-- Format 7a (R144). -/
theorem fields7a_1_read (wd : Width) (rH : BitVec 5) (l : Half) :
    ∃ w, w = wordOf (fields7a true wd rH l) ∧ formatOf w = some .f7a ∧
      field w 24 1 = 1#1 ∧
      field w 21 3 = wd.code ∧
      field w 16 5 = rH ∧
      field w 0 16 = l := by
  have := wd.code.isLt
  have := rH.isLt
  have := l.isLt
  have hlt : packNat (fields7a true wd rH l) < 2 ^ 32 := by simp [packNat, fields7a, bit]; omega
  obtain ⟨w, hw⟩ : ∃ w, w = wordOf (fields7a true wd rH l) := ⟨_, rfl⟩
  have e1 : field w 29 3 = 0#3 := field_eq hw hlt (by simp [packNat, fields7a, bit]; omega)
  have e2 : (field w 25 4).toNat = 14 := by
    rw [field_ofNat hw hlt]; simp [packNat, fields7a, bit]; omega
  refine ⟨w, hw, by simp [formatOf, e1, e2], ?_, ?_, ?_, ?_⟩ <;>
    apply field_eq hw hlt <;> simp [packNat, fields7a, bit] <;> omega

/-- Format 7b (R145). -/
theorem fields7b_1_read (wd : Width) (rH : BitVec 5) (io : IoReg) :
    ∃ w, w = wordOf (fields7b true wd rH io) ∧ formatOf w = some .f7bc ∧
      field w 24 1 = 1#1 ∧
      field w 21 3 = wd.code ∧
      field w 16 5 = rH ∧
      field w 11 5 = 0#5 ∧
      field w 10 1 = 1#1 ∧
      field w 5 5 = 0#5 ∧
      field w 0 5 = io.code := by
  have := wd.code.isLt
  have := rH.isLt
  have := io.code.isLt
  have hlt : packNat (fields7b true wd rH io) < 2 ^ 32 := by simp [packNat, fields7b, bit]; omega
  obtain ⟨w, hw⟩ : ∃ w, w = wordOf (fields7b true wd rH io) := ⟨_, rfl⟩
  have e1 : field w 29 3 = 4#3 := field_eq hw hlt (by simp [packNat, fields7b, bit]; omega)
  have e2 : (field w 25 4).toNat = 14 := by
    rw [field_ofNat hw hlt]; simp [packNat, fields7b, bit]; omega
  refine ⟨w, hw, by simp [formatOf, e1, e2], ?_, ?_, ?_, ?_, ?_, ?_, ?_⟩ <;>
    apply field_eq hw hlt <;> simp [packNat, fields7b, bit] <;> omega

/-- Format 7c (R146). -/
theorem fields7c_1_read (wd : Width) (rH : BitVec 5) (rP : Reg) (rI : Increment) :
    ∃ w, w = wordOf (fields7c true wd rH rP rI) ∧ formatOf w = some .f7bc ∧
      field w 24 1 = 1#1 ∧
      field w 21 3 = wd.code ∧
      field w 16 5 = rH ∧
      field w 11 5 = rP.code ∧
      field w 10 1 = 0#1 ∧
      field w 5 5 = 0#5 ∧
      field w 0 5 = rI.code := by
  have := wd.code.isLt
  have := rH.isLt
  have := rP.code.isLt
  have := rI.code.isLt
  have hlt : packNat (fields7c true wd rH rP rI) < 2 ^ 32 := by simp [packNat, fields7c, bit]; omega
  obtain ⟨w, hw⟩ : ∃ w, w = wordOf (fields7c true wd rH rP rI) := ⟨_, rfl⟩
  have e1 : field w 29 3 = 4#3 := field_eq hw hlt (by simp [packNat, fields7c, bit]; omega)
  have e2 : (field w 25 4).toNat = 14 := by
    rw [field_ofNat hw hlt]; simp [packNat, fields7c, bit]; omega
  refine ⟨w, hw, by simp [formatOf, e1, e2], ?_, ?_, ?_, ?_, ?_, ?_, ?_⟩ <;>
    apply field_eq hw hlt <;> simp [packNat, fields7c, bit] <;> omega

/-- Format 7d (R147). -/
theorem fields7d_1_read (wd : Width) (io : IoReg) (rP : Reg) (rI : Increment) :
    ∃ w, w = wordOf (fields7d true wd io rP rI) ∧ formatOf w = some .f7d ∧
      field w 24 1 = 1#1 ∧
      field w 21 3 = wd.code ∧
      field w 16 5 = io.code ∧
      field w 11 5 = rP.code ∧
      field w 5 6 = 0#6 ∧
      field w 0 5 = rI.code := by
  have := wd.code.isLt
  have := io.code.isLt
  have := rP.code.isLt
  have := rI.code.isLt
  have hlt : packNat (fields7d true wd io rP rI) < 2 ^ 32 := by simp [packNat, fields7d, bit]; omega
  obtain ⟨w, hw⟩ : ∃ w, w = wordOf (fields7d true wd io rP rI) := ⟨_, rfl⟩
  have e1 : field w 29 3 = 4#3 := field_eq hw hlt (by simp [packNat, fields7d, bit]; omega)
  have e2 : (field w 25 4).toNat = 15 := by
    rw [field_ofNat hw hlt]; simp [packNat, fields7d, bit]; omega
  refine ⟨w, hw, by simp [formatOf, e1, e2], ?_, ?_, ?_, ?_, ?_, ?_⟩ <;>
    apply field_eq hw hlt <;> simp [packNat, fields7d, bit] <;> omega

/-- Format 8a (R148). -/
theorem fields8a_read (r : BitVec 5) (m : BitVec 24) :
    ∃ w, w = wordOf (fields8 5#3 r m) ∧ formatOf w = some .f8a ∧
      field w 16 5 = r ∧
      field w 21 8 = m.extractLsb' 16 8 ∧
      field w 0 16 = m.extractLsb' 0 16 := by
  have := r.isLt
  have := (m.extractLsb' 16 8).isLt
  have := (m.extractLsb' 0 16).isLt
  have hlt : packNat (fields8 5#3 r m) < 2 ^ 32 := by simp [packNat, fields8, -BitVec.extractLsb'_toNat]; omega
  obtain ⟨w, hw⟩ : ∃ w, w = wordOf (fields8 5#3 r m) := ⟨_, rfl⟩
  have e1 : field w 29 3 = 5#3 := field_eq hw hlt (by simp [packNat, fields8, -BitVec.extractLsb'_toNat]; omega)
  refine ⟨w, hw, by simp [formatOf, e1], ?_, ?_, ?_⟩ <;>
    apply field_eq hw hlt <;> simp [packNat, fields8, -BitVec.extractLsb'_toNat] <;> omega

/-- Format 8b (R148). -/
theorem fields8b_read (r : BitVec 5) (m : BitVec 24) :
    ∃ w, w = wordOf (fields8 6#3 r m) ∧ formatOf w = some .f8b ∧
      field w 16 5 = r ∧
      field w 21 8 = m.extractLsb' 16 8 ∧
      field w 0 16 = m.extractLsb' 0 16 := by
  have := r.isLt
  have := (m.extractLsb' 16 8).isLt
  have := (m.extractLsb' 0 16).isLt
  have hlt : packNat (fields8 6#3 r m) < 2 ^ 32 := by simp [packNat, fields8, -BitVec.extractLsb'_toNat]; omega
  obtain ⟨w, hw⟩ : ∃ w, w = wordOf (fields8 6#3 r m) := ⟨_, rfl⟩
  have e1 : field w 29 3 = 6#3 := field_eq hw hlt (by simp [packNat, fields8, -BitVec.extractLsb'_toNat]; omega)
  refine ⟨w, hw, by simp [formatOf, e1], ?_, ?_, ?_⟩ <;>
    apply field_eq hw hlt <;> simp [packNat, fields8, -BitVec.extractLsb'_toNat] <;> omega

/-- Format 8c (R148). -/
theorem fields8c_read (r : BitVec 5) (m : BitVec 24) :
    ∃ w, w = wordOf (fields8 7#3 r m) ∧ formatOf w = some .f8c ∧
      field w 16 5 = r ∧
      field w 21 8 = m.extractLsb' 16 8 ∧
      field w 0 16 = m.extractLsb' 0 16 := by
  have := r.isLt
  have := (m.extractLsb' 16 8).isLt
  have := (m.extractLsb' 0 16).isLt
  have hlt : packNat (fields8 7#3 r m) < 2 ^ 32 := by simp [packNat, fields8, -BitVec.extractLsb'_toNat]; omega
  obtain ⟨w, hw⟩ : ∃ w, w = wordOf (fields8 7#3 r m) := ⟨_, rfl⟩
  have e1 : field w 29 3 = 7#3 := field_eq hw hlt (by simp [packNat, fields8, -BitVec.extractLsb'_toNat]; omega)
  refine ⟨w, hw, by simp [formatOf, e1], ?_, ?_, ?_⟩ <;>
    apply field_eq hw hlt <;> simp [packNat, fields8, -BitVec.extractLsb'_toNat] <;> omega

/-- The immediate M is its two parts (R148). -/
theorem imm24_append (m : BitVec 24) : m.extractLsb' 16 8 ++ m.extractLsb' 0 16 = m := by
  rw [BitVec.extractLsb'_append_extractLsb'_eq_extractLsb' (by rfl)]
  simp

/-- DA format 1 (R160). -/
theorem fieldsDa_1_read (m : BitVec 3) (negT negP : Bool) (aN : AccNo) (x y : DaOperand) (z : DaDest)
    (hm : m.toNat < 6) :
    ∃ w, w = wordOf (fieldsDa 1#3 m negT negP aN x y z) ∧ formatOf w = some .da1 ∧
      field w 23 1 = 0#1 ∧ field w 14 7 = x.code ∧ field w 7 7 = y.code ∧ field w 0 7 = z.code ∧
      field w 25 1 = BitVec.ofBool negT ∧ field w 24 1 = BitVec.ofBool negP ∧
      AccNo.ofCode (field w 21 2) = aN ∧ field w 26 3 = m ∧ field w 26 2 = m.setWidth 2 := by
  have := x.code.isLt
  have := y.code.isLt
  have := z.code.isLt
  have := aN.isLt
  have hp : packNat (fieldsDa 1#3 m negT negP aN x y z) = ((((((((1 * 8 + m.toNat) * 2 + negT.toNat) * 2 + negP.toNat) * 2) * 4 + aN.val) * 128 + x.code.toNat) * 128 + y.code.toNat) * 128 + z.code.toNat) := by
    cases negT <;> cases negP <;> simp [packNat, fieldsDa, bit]
  have b1 : negT.toNat < 2 := by cases negT <;> decide
  have b2 : negP.toNat < 2 := by cases negP <;> decide
  have t1 : (BitVec.ofBool negT).toNat = negT.toNat := by cases negT <;> rfl
  have t2 : (BitVec.ofBool negP).toNat = negP.toNat := by cases negP <;> rfl
  have hlt : packNat (fieldsDa 1#3 m negT negP aN x y z) < 2 ^ 32 := by rw [hp]; omega
  obtain ⟨w, hw⟩ : ∃ w, w = wordOf (fieldsDa 1#3 m negT negP aN x y z) := ⟨_, rfl⟩
  have e1 : field w 29 3 = 1#3 := field_eq hw hlt (by rw [hp]; simp; omega)
  have e2 : field w 26 3 = m := field_eq hw hlt (by rw [hp]; simp; omega)
  refine ⟨w, hw, by simp [formatOf, e1, e2, hm], ?_, ?_, ?_, ?_, ?_, ?_, ?_, e2, ?_⟩
  · exact field_eq hw hlt (by rw [hp]; simp; omega)
  · exact field_eq hw hlt (by rw [hp]; simp; omega)
  · exact field_eq hw hlt (by rw [hp]; simp; omega)
  · exact field_eq hw hlt (by rw [hp]; simp; omega)
  · exact field_eq hw hlt (by rw [hp, t1]; simp; omega)
  · exact field_eq hw hlt (by rw [hp, t2]; simp; omega)
  · have : field w 21 2 = BitVec.ofFin aN := field_eq hw hlt (by rw [hp]; simp; omega)
    rw [this]; rfl
  · exact field_eq hw hlt (by rw [hp]; simp; omega)

/-- DA format 2 (R160). -/
theorem fieldsDa_2_read (m : BitVec 3) (negT negP : Bool) (aN : AccNo) (x y : DaOperand) (z : DaDest)
    (hm : m.toNat < 6) :
    ∃ w, w = wordOf (fieldsDa 2#3 m negT negP aN x y z) ∧ formatOf w = some .da2 ∧
      field w 23 1 = 0#1 ∧ field w 14 7 = x.code ∧ field w 7 7 = y.code ∧ field w 0 7 = z.code ∧
      field w 25 1 = BitVec.ofBool negT ∧ field w 24 1 = BitVec.ofBool negP ∧
      AccNo.ofCode (field w 21 2) = aN ∧ field w 26 3 = m ∧ field w 26 2 = m.setWidth 2 := by
  have := x.code.isLt
  have := y.code.isLt
  have := z.code.isLt
  have := aN.isLt
  have hp : packNat (fieldsDa 2#3 m negT negP aN x y z) = ((((((((2 * 8 + m.toNat) * 2 + negT.toNat) * 2 + negP.toNat) * 2) * 4 + aN.val) * 128 + x.code.toNat) * 128 + y.code.toNat) * 128 + z.code.toNat) := by
    cases negT <;> cases negP <;> simp [packNat, fieldsDa, bit]
  have b1 : negT.toNat < 2 := by cases negT <;> decide
  have b2 : negP.toNat < 2 := by cases negP <;> decide
  have t1 : (BitVec.ofBool negT).toNat = negT.toNat := by cases negT <;> rfl
  have t2 : (BitVec.ofBool negP).toNat = negP.toNat := by cases negP <;> rfl
  have hlt : packNat (fieldsDa 2#3 m negT negP aN x y z) < 2 ^ 32 := by rw [hp]; omega
  obtain ⟨w, hw⟩ : ∃ w, w = wordOf (fieldsDa 2#3 m negT negP aN x y z) := ⟨_, rfl⟩
  have e1 : field w 29 3 = 2#3 := field_eq hw hlt (by rw [hp]; simp; omega)
  have e2 : field w 26 3 = m := field_eq hw hlt (by rw [hp]; simp; omega)
  refine ⟨w, hw, by simp [formatOf, e1, e2, hm], ?_, ?_, ?_, ?_, ?_, ?_, ?_, e2, ?_⟩
  · exact field_eq hw hlt (by rw [hp]; simp; omega)
  · exact field_eq hw hlt (by rw [hp]; simp; omega)
  · exact field_eq hw hlt (by rw [hp]; simp; omega)
  · exact field_eq hw hlt (by rw [hp]; simp; omega)
  · exact field_eq hw hlt (by rw [hp, t1]; simp; omega)
  · exact field_eq hw hlt (by rw [hp, t2]; simp; omega)
  · have : field w 21 2 = BitVec.ofFin aN := field_eq hw hlt (by rw [hp]; simp; omega)
    rw [this]; rfl
  · exact field_eq hw hlt (by rw [hp]; simp; omega)

/-- DA format 3 (R160). -/
theorem fieldsDa_3_read (m : BitVec 3) (negT negP : Bool) (aN : AccNo) (x y : DaOperand) (z : DaDest)
    (hm : m.toNat < 6) :
    ∃ w, w = wordOf (fieldsDa 3#3 m negT negP aN x y z) ∧ formatOf w = some .da3 ∧
      field w 23 1 = 0#1 ∧ field w 14 7 = x.code ∧ field w 7 7 = y.code ∧ field w 0 7 = z.code ∧
      field w 25 1 = BitVec.ofBool negT ∧ field w 24 1 = BitVec.ofBool negP ∧
      AccNo.ofCode (field w 21 2) = aN ∧ field w 26 3 = m ∧ field w 26 2 = m.setWidth 2 := by
  have := x.code.isLt
  have := y.code.isLt
  have := z.code.isLt
  have := aN.isLt
  have hp : packNat (fieldsDa 3#3 m negT negP aN x y z) = ((((((((3 * 8 + m.toNat) * 2 + negT.toNat) * 2 + negP.toNat) * 2) * 4 + aN.val) * 128 + x.code.toNat) * 128 + y.code.toNat) * 128 + z.code.toNat) := by
    cases negT <;> cases negP <;> simp [packNat, fieldsDa, bit]
  have b1 : negT.toNat < 2 := by cases negT <;> decide
  have b2 : negP.toNat < 2 := by cases negP <;> decide
  have t1 : (BitVec.ofBool negT).toNat = negT.toNat := by cases negT <;> rfl
  have t2 : (BitVec.ofBool negP).toNat = negP.toNat := by cases negP <;> rfl
  have hlt : packNat (fieldsDa 3#3 m negT negP aN x y z) < 2 ^ 32 := by rw [hp]; omega
  obtain ⟨w, hw⟩ : ∃ w, w = wordOf (fieldsDa 3#3 m negT negP aN x y z) := ⟨_, rfl⟩
  have e1 : field w 29 3 = 3#3 := field_eq hw hlt (by rw [hp]; simp; omega)
  have e2 : field w 26 3 = m := field_eq hw hlt (by rw [hp]; simp; omega)
  refine ⟨w, hw, by simp [formatOf, e1, e2, hm], ?_, ?_, ?_, ?_, ?_, ?_, ?_, e2, ?_⟩
  · exact field_eq hw hlt (by rw [hp]; simp; omega)
  · exact field_eq hw hlt (by rw [hp]; simp; omega)
  · exact field_eq hw hlt (by rw [hp]; simp; omega)
  · exact field_eq hw hlt (by rw [hp]; simp; omega)
  · exact field_eq hw hlt (by rw [hp, t1]; simp; omega)
  · exact field_eq hw hlt (by rw [hp, t2]; simp; omega)
  · have : field w 21 2 = BitVec.ofFin aN := field_eq hw hlt (by rw [hp]; simp; omega)
    rw [this]; rfl
  · exact field_eq hw hlt (by rw [hp]; simp; omega)

/-- DA format 4 (R160). -/
theorem fieldsDa_4_read (negT negP : Bool) (aN : AccNo) (x y : DaOperand) (z : DaDest) :
    ∃ w, w = wordOf (fieldsDa 1#3 6#3 negT negP aN x y z) ∧ formatOf w = some .da4 ∧
      field w 23 1 = 0#1 ∧ field w 14 7 = x.code ∧ field w 7 7 = y.code ∧ field w 0 7 = z.code ∧
      field w 25 1 = BitVec.ofBool negT ∧ field w 24 1 = BitVec.ofBool negP ∧
      AccNo.ofCode (field w 21 2) = aN := by
  have := x.code.isLt
  have := y.code.isLt
  have := z.code.isLt
  have := aN.isLt
  have hp : packNat (fieldsDa 1#3 6#3 negT negP aN x y z) = ((((((((1 * 8 + 6) * 2 + negT.toNat) * 2 + negP.toNat) * 2) * 4 + aN.val) * 128 + x.code.toNat) * 128 + y.code.toNat) * 128 + z.code.toNat) := by
    cases negT <;> cases negP <;> simp [packNat, fieldsDa, bit]
  have b1 : negT.toNat < 2 := by cases negT <;> decide
  have b2 : negP.toNat < 2 := by cases negP <;> decide
  have t1 : (BitVec.ofBool negT).toNat = negT.toNat := by cases negT <;> rfl
  have t2 : (BitVec.ofBool negP).toNat = negP.toNat := by cases negP <;> rfl
  have hlt : packNat (fieldsDa 1#3 6#3 negT negP aN x y z) < 2 ^ 32 := by rw [hp]; omega
  obtain ⟨w, hw⟩ : ∃ w, w = wordOf (fieldsDa 1#3 6#3 negT negP aN x y z) := ⟨_, rfl⟩
  have e1 : field w 29 3 = 1#3 := field_eq hw hlt (by rw [hp]; simp; omega)
  have e2 : field w 26 3 = 6#3 := field_eq hw hlt (by rw [hp]; simp; omega)
  refine ⟨w, hw, by simp [formatOf, e1, e2], ?_, ?_, ?_, ?_, ?_, ?_, ?_⟩
  · exact field_eq hw hlt (by rw [hp]; simp; omega)
  · exact field_eq hw hlt (by rw [hp]; simp; omega)
  · exact field_eq hw hlt (by rw [hp]; simp; omega)
  · exact field_eq hw hlt (by rw [hp]; simp; omega)
  · exact field_eq hw hlt (by rw [hp, t1]; simp; omega)
  · exact field_eq hw hlt (by rw [hp, t2]; simp; omega)
  · have : field w 21 2 = BitVec.ofFin aN := field_eq hw hlt (by rw [hp]; simp; omega)
    rw [this]; rfl

/-- DA format 5 (R160, R163). -/
theorem fieldsDa5_read (g : BitVec 4) (aN : AccNo) (y : DaOperand) (z : DaDest) :
    ∃ w, w = wordOf (fieldsDa5 g aN y z) ∧ formatOf w = some .da5 ∧
      field w 14 7 = 0#7 ∧ field w 7 7 = y.code ∧ field w 0 7 = z.code ∧
      AccNo.ofCode (field w 21 2) = aN ∧ field w 23 4 = g := by
  have := y.code.isLt
  have := z.code.isLt
  have := aN.isLt
  have := g.isLt
  have hlt : packNat (fieldsDa5 g aN y z) < 2 ^ 32 := by simp [packNat, fieldsDa5]; omega
  obtain ⟨w, hw⟩ : ∃ w, w = wordOf (fieldsDa5 g aN y z) := ⟨_, rfl⟩
  have e1 : field w 29 3 = 3#3 := field_eq hw hlt (by simp [packNat, fieldsDa5]; omega)
  have e2 : ¬ (field w 26 3).toNat < 6 := by
    rw [field_ofNat hw hlt]; simp [packNat, fieldsDa5]; omega
  refine ⟨w, hw, by simp [formatOf, e1]; omega, ?_, ?_, ?_, ?_, ?_⟩
  · exact field_eq hw hlt (by simp [packNat, fieldsDa5]; omega)
  · exact field_eq hw hlt (by simp [packNat, fieldsDa5]; omega)
  · exact field_eq hw hlt (by simp [packNat, fieldsDa5]; omega)
  · have : field w 21 2 = BitVec.ofFin aN := field_eq hw hlt (by simp [packNat, fieldsDa5]; omega)
    rw [this]; rfl
  · exact field_eq hw hlt (by simp [packNat, fieldsDa5]; omega)

end Sys2Proof
end

