-- ==== Sys2Proof/Laws/Encoding.lean ====
section
/-! SUPPORT. The parameters of the encoding at their defaults: the decoder with an encoding is then the
decoder of the spec's default. -/

namespace Sys2Proof
open Machine

/-! ### Bits and fields -/

/-- A bit of a field. -/
theorem getLsbD_field (w : Word) (lo len i : Nat) :
    (field w lo len).getLsbD i = (decide (i < len) && w.getLsbD (lo + i)) := by
  simp [field]

/-- A field is zero where all its bits are. -/
theorem field_eq_zero {w : Word} {lo len : Nat} :
    field w lo len = 0#len ↔ ∀ i, i < len → w.getLsbD (lo + i) = false := by
  constructor
  · intro h i hi
    have := congrArg (·.getLsbD i) h
    simp only [getLsbD_field] at this
    simpa [hi] using this
  · intro h
    apply BitVec.eq_of_getLsbD_eq
    intro i hi
    simp [getLsbD_field, h i hi]

/-- No bit of a mask is set. -/
theorem and_eq_zero {w m : Word} :
    w &&& m = 0#32 ↔ ∀ i, i < 32 → m.getLsbD i = true → w.getLsbD i = false := by
  constructor
  · intro h i _ hm
    have := congrArg (·.getLsbD i) h
    simpa [hm] using this
  · intro h
    apply BitVec.eq_of_getLsbD_eq
    intro i hi
    cases hm : m.getLsbD i
    · simp [hm]
    · simp [h i hi hm]

/-- A mask that is a field finds no bit where the field is zero. -/
theorem stray_iff (w : Word) (lo len : Nat) (m : Word)
    (hm : ∀ i : Fin 32, m.getLsbD i = decide (lo ≤ i.val ∧ i.val < lo + len)) (h : lo + len ≤ 32) :
    w &&& m = 0#32 ↔ field w lo len = 0#len := by
  rw [and_eq_zero, field_eq_zero]
  constructor
  · intro a i hi
    have := hm ⟨lo + i, by omega⟩
    exact a (lo + i) (by omega) (by rw [this]; simp; omega)
  · intro a i hi hb
    rw [hm ⟨i, hi⟩] at hb
    simp at hb
    have := a (i - lo) (by omega)
    rwa [Nat.add_sub_cancel' hb.1] at this

/-! ### The default words are canonical -/

/-- The bits that a default format leaves over are its must-be-zero bits. -/
theorem stray3b (w : Word) : w &&& ~~~defaultEncoding.covered .f3b = 0#32 ↔ field w 11 5 = 0#5 :=
  stray_iff w 11 5 _ (by decide) (by decide)
@[inherit_doc stray3b]
theorem stray3c (w : Word) : w &&& ~~~defaultEncoding.covered .f3c = 0#32 ↔ field w 5 11 = 0#11 :=
  stray_iff w 5 11 _ (by decide) (by decide)
@[inherit_doc stray3b]
theorem strayDa (w : Word) {fmt : Format} (hd : fmt = .da1 ∨ fmt = .da2 ∨ fmt = .da3 ∨ fmt = .da4) :
    w &&& ~~~defaultEncoding.covered fmt = 0#32 ↔ field w 23 1 = 0#1 := by
  rcases hd with rfl | rfl | rfl | rfl <;> exact stray_iff w 23 1 _ (by decide) (by decide)
@[inherit_doc stray3b]
theorem strayDa5 (w : Word) : w &&& ~~~defaultEncoding.covered .da5 = 0#32 ↔ field w 14 7 = 0#7 :=
  stray_iff w 14 7 _ (by decide) (by decide)

/-- What (B, M) selects by default (R136). -/
theorem default_doMode : ∀ c : BitVec 2, defaultEncoding.doModes[c.toFin] = c := by decide

/-- The ALU functions 1000 to 1111 by default (R152). -/
theorem default_fHigh : ∀ c : BitVec 3, BitVec.ofFin (w := 3) defaultEncoding.fHigh[c.toFin] = c := by
  decide

/-- By default a word of a do format is canonical. -/
theorem canonical3b {w : Word} (h : field w 11 5 = 0#5) : defaultEncoding.canonicalDo w 0 11 = w := by
  have hz := field_eq_zero.1 h
  have h0 := hz 0 (by decide)
  have h1 := hz 1 (by decide)
  have h2 := hz 2 (by decide)
  have h3 := hz 3 (by decide)
  have h4 := hz 4 (by decide)
  simp only [Nat.reduceAdd] at h0 h1 h2 h3 h4
  apply BitVec.eq_of_getLsbD_eq
  intro i hi
  simp only [Encoding.canonicalDo, default_doMode, BitVec.getLsbD_or, BitVec.getLsbD_shiftLeft,
    BitVec.getLsbD_setWidth, BitVec.getLsbD_append, getLsbD_field, show defaultEncoding.doK = 16 from rfl]
  interval_cases i <;> simp_all

@[inherit_doc canonical3b]
theorem canonical3c {w : Word} (h : field w 5 11 = 0#11) : defaultEncoding.canonicalDo w 0 5 = w := by
  have hz := field_eq_zero.1 h
  apply BitVec.eq_of_getLsbD_eq
  intro i hi
  simp only [Encoding.canonicalDo, default_doMode, BitVec.getLsbD_or, BitVec.getLsbD_shiftLeft,
    BitVec.getLsbD_setWidth, BitVec.getLsbD_append, getLsbD_field, show defaultEncoding.doK = 16 from rfl]
  by_cases hb : 5 ≤ i ∧ i < 16
  · have := hz (i - 5) (by omega)
    rw [Nat.add_sub_cancel' hb.1] at this
    rw [this]
    obtain ⟨h1, h2⟩ := hb
    clear hz h this hi
    interval_cases i <;> simp
  · clear hz h
    interval_cases i <;> simp_all

/-- By default a word of an ALU format is canonical. -/
theorem canonicalAlu_default (w : Word) : defaultEncoding.canonicalAlu w = w := by
  unfold Encoding.canonicalAlu
  split
  · next h =>
    have h24 : w.getLsbD 24 = true := by
      have := congrArg (·.getLsbD 0) h
      rw [getLsbD_field] at this
      simpa using this
    apply BitVec.eq_of_getLsbD_eq
    intro i hi
    simp only [default_fHigh, BitVec.getLsbD_append, getLsbD_field]
    interval_cases i <;> simp_all
  · rfl

/-- Two neighbouring fields are one. -/
theorem field_append (w : Word) (lo a b : Nat) : field w (lo + b) a ++ field w lo b = field w lo (a + b) := by
  apply BitVec.eq_of_getLsbD_eq
  intro i hi
  rw [BitVec.getLsbD_append]
  simp only [getLsbD_field]
  by_cases h : i < b
  · simp [h]; omega
  · simp only [h, if_false, show lo + b + (i - b) = lo + i by omega]
    congr 1
    simp only [decide_eq_decide]
    omega

/-- The patterns of DA formats 1 to 4 (R132). -/
theorem formatOf_da {w : Word} {fmt : Format} (h : formatOf w = some fmt) :
    (fmt = .da1 → (field w 29 3).toNat = 1 ∧ (field w 26 3).toNat < 6) ∧
    (fmt = .da2 → (field w 29 3).toNat = 2 ∧ (field w 26 3).toNat < 6) ∧
    (fmt = .da3 → (field w 29 3).toNat = 3 ∧ (field w 26 3).toNat < 6) ∧
    (fmt = .da4 → (field w 29 3).toNat = 1 ∧ (field w 26 3).toNat = 6) := by
  unfold formatOf at h
  simp only at h
  generalize (field w 29 3).toNat = c at h ⊢
  generalize (field w 26 3).toNat = m at h ⊢
  generalize (field w 25 4).toNat = sub at h
  refine ⟨?_, ?_, ?_, ?_⟩ <;> rintro rfl <;> (split at h <;> (repeat' split at h) <;>
    first | exact ⟨rfl, by assumption⟩ | cases h)

/-- The default forms by the first bits (R320). -/
theorem formBits_table : ∀ c m : BitVec 3,
    (c.toNat = 1 ∧ m.toNat < 6 → formBits 0 m = some (c ++ m)) ∧
    (c.toNat = 2 ∧ m.toNat < 6 → formBits 1 m = some (c ++ m)) ∧
    (c.toNat = 3 ∧ m.toNat < 6 → formBits 2 m = some (c ++ m)) ∧
    (c.toNat = 1 ∧ m.toNat = 6 → formBits 3 0b101#3 = some (c ++ m)) := by decide

/-- By default the form of a word of DA formats 1 to 4 is its bits I[31:26]. -/
theorem form_default {w : Word} {fmt : Format} (h : formatOf w = some fmt)
    (hd : fmt = .da1 ∨ fmt = .da2 ∨ fmt = .da3 ∨ fmt = .da4) :
    defaultEncoding.form fmt w = some (field w 26 6) := by
  rw [← field_append w 26 3 3]
  obtain ⟨f1, f2, f3, f4⟩ := formatOf_da h
  obtain ⟨t1, t2, t3, t4⟩ := formBits_table (field w (26 + 3) 3) (field w 26 3)
  have e1 : defaultEncoding.form .da1 w = formBits 0 (field w 26 3) := rfl
  have e2 : defaultEncoding.form .da2 w = formBits 1 (field w 26 3) := rfl
  have e3 : defaultEncoding.form .da3 w = formBits 2 (field w 26 3) := rfl
  have e4 : defaultEncoding.form .da4 w = formBits 3 0b101#3 := rfl
  rcases hd with rfl | rfl | rfl | rfl
  · rw [e1, t1 (f1 rfl)]
  · rw [e2, t2 (f2 rfl)]
  · rw [e3, t3 (f3 rfl)]
  · rw [e4, t4 (f4 rfl)]

/-- By default a word of DA formats 1 to 4 is canonical. -/
theorem canonicalMac_default {w : Word} (hz : field w 23 1 = 0#1) :
    defaultEncoding.canonicalMac (field w 26 6) w = w := by
  have h23 := field_eq_zero.1 hz 0 (by decide)
  simp only [Nat.reduceAdd] at h23
  apply BitVec.eq_of_getLsbD_eq
  intro i hi
  simp only [Encoding.canonicalMac, Encoding.operandField, defaultEncoding, if_false, Bool.false_eq_true,
    BitVec.getLsbD_append, getLsbD_field]
  clear hz
  interval_cases i <;> simp_all

/-- By default a word of DA format 5 is canonical. -/
theorem canonicalSpecial_default {w : Word} (hz : field w 14 7 = 0#7) :
    defaultEncoding.canonicalSpecial w = w := by
  have hz := field_eq_zero.1 hz
  apply BitVec.eq_of_getLsbD_eq
  intro i hi
  simp only [Encoding.canonicalSpecial, Encoding.operandField, defaultEncoding,
    if_false, Bool.false_eq_true, BitVec.getLsbD_append, getLsbD_field]
  by_cases hb : 14 ≤ i ∧ i < 21
  · have := hz (i - 14) (by omega)
    rw [Nat.add_sub_cancel' hb.1] at this
    rw [this]
    obtain ⟨h1, h2⟩ := hb
    clear hz this hi
    interval_cases i <;> simp
  · clear hz
    interval_cases i <;> simp_all

/-- The spec's default encoding is that of `decode`. -/
theorem decodeWith_default (w : Word) : decodeWith defaultEncoding w = decode w := by
  unfold decodeWith
  cases hf : formatOf w with
  | none => simp only [decode, hf]
  | some fmt =>
    have hd : decode w = decodeFormat fmt w := by simp only [decode, hf]
    have done {p : Prop} [Decidable p] (h : p → defaultEncoding.canonical fmt w = some w)
        (h' : ¬ p → decodeFormat fmt w = .reserved .unnamedBit) :
        (if p then need (defaultEncoding.canonical fmt w) .form decode else .reserved .unnamedBit)
          = decode w := by
      by_cases hp : p
      · rw [if_pos hp, h hp]; rfl
      · rw [if_neg hp, hd, h' hp]
    have hall : w &&& ~~~maskOf [(0, 32)] = 0#32 := by
      rw [show ~~~maskOf [(0, 32)] = 0#32 from by decide]; simp
    have mac (hk : fmt = .da1 ∨ fmt = .da2 ∨ fmt = .da3 ∨ fmt = .da4)
        (h : w &&& ~~~defaultEncoding.covered fmt = 0#32) :
        (defaultEncoding.form fmt w).map (defaultEncoding.canonicalMac · w) = some w := by
      rw [form_default hf hk, Option.map_some, canonicalMac_default ((strayDa w hk).1 h)]
    cases fmt with
    | f3b =>
      exact done (fun h => congrArg some (canonical3b ((stray3b w).1 h)))
        fun h => if_neg (mt (stray3b w).2 h)
    | f3c =>
      exact done (fun h => congrArg some (canonical3c ((stray3c w).1 h)))
        fun h => if_neg (mt (stray3c w).2 h)
    | da1 => exact done (mac (by simp)) fun h => if_neg (mt (strayDa w (by simp)).2 h)
    | da2 => exact done (mac (by simp)) fun h => if_neg (mt (strayDa w (by simp)).2 h)
    | da3 => exact done (mac (by simp)) fun h => if_neg (mt (strayDa w (by simp)).2 h)
    | da4 => exact done (mac (by simp)) fun h => if_neg (mt (strayDa w (by simp)).2 h)
    | da5 =>
      exact done (fun h => congrArg some (canonicalSpecial_default ((strayDa5 w).1 h)))
        fun h => if_neg (mt (strayDa5 w).2 h)
    | f6reg sz | f6imm sz =>
      exact done (fun _ => congrArg some (canonicalAlu_default w)) fun h => absurd hall h
    | f0b | f3a | f4a | f4b | f5 _ | f7a | f7bc | f7d | f8a | f8b | f8c =>
      exact done (fun _ => rfl) fun h => absurd hall h

end Sys2Proof
end

