-- ==== Sys2Proof/Laws/State.lean ====
section
/-! SUPPORT. One lemma per field of State and per named update: the field is as before.  The fields that an
update writes, and the accessors, follow. -/

namespace Sys2Proof.Machine

variable (s : State)

/-! ### setReg -/

@[simp] theorem State.setReg_pc (r : Reg) (v : Word) : (s.setReg r v).pc = s.pc := rfl
@[simp] theorem State.setReg_npc (r : Reg) (v : Word) : (s.setReg r v).npc = s.npc := rfl
@[simp] theorem State.setReg_ir (r : Reg) (v : Word) : (s.setReg r v).ir = s.ir := rfl
@[simp] theorem State.setReg_pcsh (r : Reg) (v : Word) : (s.setReg r v).pcsh = s.pcsh := rfl
@[simp] theorem State.setReg_accs (r : Reg) (v : Word) : (s.setReg r v).accs = s.accs := rfl
@[simp] theorem State.setReg_ps (r : Reg) (v : Word) : (s.setReg r v).ps = s.ps := rfl
@[simp] theorem State.setReg_emr (r : Reg) (v : Word) : (s.setReg r v).emr = s.emr := rfl
@[simp] theorem State.setReg_pcw (r : Reg) (v : Word) : (s.setReg r v).pcw = s.pcw := rfl
@[simp] theorem State.setReg_pcwLocked (r : Reg) (v : Word) : (s.setReg r v).pcwLocked = s.pcwLocked := rfl
@[simp] theorem State.setReg_dauc (r : Reg) (v : Word) : (s.setReg r v).dauc = s.dauc := rfl
@[simp] theorem State.setReg_ctr (r : Reg) (v : Word) : (s.setReg r v).ctr = s.ctr := rfl
@[simp] theorem State.setReg_periph (r : Reg) (v : Word) : (s.setReg r v).periph = s.periph := rfl
@[simp] theorem State.setReg_pins (r : Reg) (v : Word) : (s.setReg r v).pins = s.pins := rfl
@[simp] theorem State.setReg_level (r : Reg) (v : Word) : (s.setReg r v).level = s.level := rfl
@[simp] theorem State.setReg_shadow (r : Reg) (v : Word) : (s.setReg r v).shadow = s.shadow := rfl
@[simp] theorem State.setReg_loop (r : Reg) (v : Word) : (s.setReg r v).loop = s.loop := rfl
@[simp] theorem State.setReg_waiting (r : Reg) (v : Word) : (s.setReg r v).waiting = s.waiting := rfl
@[simp] theorem State.setReg_pending (r : Reg) (v : Word) : (s.setReg r v).pending = s.pending := rfl
@[simp] theorem State.setReg_errorRequest (r : Reg) (v : Word) : (s.setReg r v).errorRequest = s.errorRequest := rfl
@[simp] theorem State.setReg_inhibit (r : Reg) (v : Word) : (s.setReg r v).inhibit = s.inhibit := rfl
@[simp] theorem State.setReg_inSlot (r : Reg) (v : Word) : (s.setReg r v).inSlot = s.inSlot := rfl
@[simp] theorem State.setReg_pendingLoad (r : Reg) (v : Word) : (s.setReg r v).pendingLoad = s.pendingLoad := rfl
@[simp] theorem State.setReg_queue (r : Reg) (v : Word) : (s.setReg r v).queue = s.queue := rfl
@[simp] theorem State.setReg_history (r : Reg) (v : Word) : (s.setReg r v).history = s.history := rfl
@[simp] theorem State.setReg_mem (r : Reg) (v : Word) : (s.setReg r v).mem = s.mem := rfl
@[simp] theorem State.setReg_params (r : Reg) (v : Word) : (s.setReg r v).params = s.params := rfl
@[simp] theorem State.setReg_draws (r : Reg) (v : Word) : (s.setReg r v).draws = s.draws := rfl
@[simp] theorem State.setReg_env (r : Reg) (v : Word) : (s.setReg r v).env = s.env := rfl
@[simp] theorem State.setReg_out (r : Reg) (v : Word) : (s.setReg r v).out = s.out := rfl

/-! ### setAcc -/

@[simp] theorem State.setAcc_regs (a : AccNo) (v : Acc40) : (s.setAcc a v).regs = s.regs := rfl
@[simp] theorem State.setAcc_pc (a : AccNo) (v : Acc40) : (s.setAcc a v).pc = s.pc := rfl
@[simp] theorem State.setAcc_npc (a : AccNo) (v : Acc40) : (s.setAcc a v).npc = s.npc := rfl
@[simp] theorem State.setAcc_ir (a : AccNo) (v : Acc40) : (s.setAcc a v).ir = s.ir := rfl
@[simp] theorem State.setAcc_pcsh (a : AccNo) (v : Acc40) : (s.setAcc a v).pcsh = s.pcsh := rfl
@[simp] theorem State.setAcc_ps (a : AccNo) (v : Acc40) : (s.setAcc a v).ps = s.ps := rfl
@[simp] theorem State.setAcc_emr (a : AccNo) (v : Acc40) : (s.setAcc a v).emr = s.emr := rfl
@[simp] theorem State.setAcc_pcw (a : AccNo) (v : Acc40) : (s.setAcc a v).pcw = s.pcw := rfl
@[simp] theorem State.setAcc_pcwLocked (a : AccNo) (v : Acc40) : (s.setAcc a v).pcwLocked = s.pcwLocked := rfl
@[simp] theorem State.setAcc_dauc (a : AccNo) (v : Acc40) : (s.setAcc a v).dauc = s.dauc := rfl
@[simp] theorem State.setAcc_ctr (a : AccNo) (v : Acc40) : (s.setAcc a v).ctr = s.ctr := rfl
@[simp] theorem State.setAcc_periph (a : AccNo) (v : Acc40) : (s.setAcc a v).periph = s.periph := rfl
@[simp] theorem State.setAcc_pins (a : AccNo) (v : Acc40) : (s.setAcc a v).pins = s.pins := rfl
@[simp] theorem State.setAcc_level (a : AccNo) (v : Acc40) : (s.setAcc a v).level = s.level := rfl
@[simp] theorem State.setAcc_shadow (a : AccNo) (v : Acc40) : (s.setAcc a v).shadow = s.shadow := rfl
@[simp] theorem State.setAcc_loop (a : AccNo) (v : Acc40) : (s.setAcc a v).loop = s.loop := rfl
@[simp] theorem State.setAcc_waiting (a : AccNo) (v : Acc40) : (s.setAcc a v).waiting = s.waiting := rfl
@[simp] theorem State.setAcc_pending (a : AccNo) (v : Acc40) : (s.setAcc a v).pending = s.pending := rfl
@[simp] theorem State.setAcc_errorRequest (a : AccNo) (v : Acc40) : (s.setAcc a v).errorRequest = s.errorRequest := rfl
@[simp] theorem State.setAcc_inhibit (a : AccNo) (v : Acc40) : (s.setAcc a v).inhibit = s.inhibit := rfl
@[simp] theorem State.setAcc_inSlot (a : AccNo) (v : Acc40) : (s.setAcc a v).inSlot = s.inSlot := rfl
@[simp] theorem State.setAcc_pendingLoad (a : AccNo) (v : Acc40) : (s.setAcc a v).pendingLoad = s.pendingLoad := rfl
@[simp] theorem State.setAcc_queue (a : AccNo) (v : Acc40) : (s.setAcc a v).queue = s.queue := rfl
@[simp] theorem State.setAcc_history (a : AccNo) (v : Acc40) : (s.setAcc a v).history = s.history := rfl
@[simp] theorem State.setAcc_latch (a : AccNo) (v : Acc40) : (s.setAcc a v).latch = s.latch := rfl
@[simp] theorem State.setAcc_mem (a : AccNo) (v : Acc40) : (s.setAcc a v).mem = s.mem := rfl
@[simp] theorem State.setAcc_params (a : AccNo) (v : Acc40) : (s.setAcc a v).params = s.params := rfl
@[simp] theorem State.setAcc_draws (a : AccNo) (v : Acc40) : (s.setAcc a v).draws = s.draws := rfl
@[simp] theorem State.setAcc_env (a : AccNo) (v : Acc40) : (s.setAcc a v).env = s.env := rfl
@[simp] theorem State.setAcc_out (a : AccNo) (v : Acc40) : (s.setAcc a v).out = s.out := rfl

/-! ### setCau -/

@[simp] theorem State.setCau_regs (f : CauFlags) : (s.setCau f).regs = s.regs := rfl
@[simp] theorem State.setCau_pc (f : CauFlags) : (s.setCau f).pc = s.pc := rfl
@[simp] theorem State.setCau_npc (f : CauFlags) : (s.setCau f).npc = s.npc := rfl
@[simp] theorem State.setCau_ir (f : CauFlags) : (s.setCau f).ir = s.ir := rfl
@[simp] theorem State.setCau_pcsh (f : CauFlags) : (s.setCau f).pcsh = s.pcsh := rfl
@[simp] theorem State.setCau_accs (f : CauFlags) : (s.setCau f).accs = s.accs := rfl
@[simp] theorem State.setCau_emr (f : CauFlags) : (s.setCau f).emr = s.emr := rfl
@[simp] theorem State.setCau_pcw (f : CauFlags) : (s.setCau f).pcw = s.pcw := rfl
@[simp] theorem State.setCau_pcwLocked (f : CauFlags) : (s.setCau f).pcwLocked = s.pcwLocked := rfl
@[simp] theorem State.setCau_dauc (f : CauFlags) : (s.setCau f).dauc = s.dauc := rfl
@[simp] theorem State.setCau_ctr (f : CauFlags) : (s.setCau f).ctr = s.ctr := rfl
@[simp] theorem State.setCau_periph (f : CauFlags) : (s.setCau f).periph = s.periph := rfl
@[simp] theorem State.setCau_pins (f : CauFlags) : (s.setCau f).pins = s.pins := rfl
@[simp] theorem State.setCau_level (f : CauFlags) : (s.setCau f).level = s.level := rfl
@[simp] theorem State.setCau_shadow (f : CauFlags) : (s.setCau f).shadow = s.shadow := rfl
@[simp] theorem State.setCau_loop (f : CauFlags) : (s.setCau f).loop = s.loop := rfl
@[simp] theorem State.setCau_waiting (f : CauFlags) : (s.setCau f).waiting = s.waiting := rfl
@[simp] theorem State.setCau_pending (f : CauFlags) : (s.setCau f).pending = s.pending := rfl
@[simp] theorem State.setCau_errorRequest (f : CauFlags) : (s.setCau f).errorRequest = s.errorRequest := rfl
@[simp] theorem State.setCau_inhibit (f : CauFlags) : (s.setCau f).inhibit = s.inhibit := rfl
@[simp] theorem State.setCau_inSlot (f : CauFlags) : (s.setCau f).inSlot = s.inSlot := rfl
@[simp] theorem State.setCau_pendingLoad (f : CauFlags) : (s.setCau f).pendingLoad = s.pendingLoad := rfl
@[simp] theorem State.setCau_queue (f : CauFlags) : (s.setCau f).queue = s.queue := rfl
@[simp] theorem State.setCau_history (f : CauFlags) : (s.setCau f).history = s.history := rfl
@[simp] theorem State.setCau_mem (f : CauFlags) : (s.setCau f).mem = s.mem := rfl
@[simp] theorem State.setCau_params (f : CauFlags) : (s.setCau f).params = s.params := rfl
@[simp] theorem State.setCau_draws (f : CauFlags) : (s.setCau f).draws = s.draws := rfl
@[simp] theorem State.setCau_env (f : CauFlags) : (s.setCau f).env = s.env := rfl
@[simp] theorem State.setCau_out (f : CauFlags) : (s.setCau f).out = s.out := rfl

/-! ### pushFlags -/

@[simp] theorem State.pushFlags_regs (e : FlagEntry) : (s.pushFlags e).regs = s.regs := rfl
@[simp] theorem State.pushFlags_pc (e : FlagEntry) : (s.pushFlags e).pc = s.pc := rfl
@[simp] theorem State.pushFlags_npc (e : FlagEntry) : (s.pushFlags e).npc = s.npc := rfl
@[simp] theorem State.pushFlags_ir (e : FlagEntry) : (s.pushFlags e).ir = s.ir := rfl
@[simp] theorem State.pushFlags_pcsh (e : FlagEntry) : (s.pushFlags e).pcsh = s.pcsh := rfl
@[simp] theorem State.pushFlags_accs (e : FlagEntry) : (s.pushFlags e).accs = s.accs := rfl
@[simp] theorem State.pushFlags_ps (e : FlagEntry) : (s.pushFlags e).ps = s.ps := rfl
@[simp] theorem State.pushFlags_emr (e : FlagEntry) : (s.pushFlags e).emr = s.emr := rfl
@[simp] theorem State.pushFlags_pcw (e : FlagEntry) : (s.pushFlags e).pcw = s.pcw := rfl
@[simp] theorem State.pushFlags_pcwLocked (e : FlagEntry) : (s.pushFlags e).pcwLocked = s.pcwLocked := rfl
@[simp] theorem State.pushFlags_dauc (e : FlagEntry) : (s.pushFlags e).dauc = s.dauc := rfl
@[simp] theorem State.pushFlags_ctr (e : FlagEntry) : (s.pushFlags e).ctr = s.ctr := rfl
@[simp] theorem State.pushFlags_periph (e : FlagEntry) : (s.pushFlags e).periph = s.periph := rfl
@[simp] theorem State.pushFlags_pins (e : FlagEntry) : (s.pushFlags e).pins = s.pins := rfl
@[simp] theorem State.pushFlags_level (e : FlagEntry) : (s.pushFlags e).level = s.level := rfl
@[simp] theorem State.pushFlags_shadow (e : FlagEntry) : (s.pushFlags e).shadow = s.shadow := rfl
@[simp] theorem State.pushFlags_loop (e : FlagEntry) : (s.pushFlags e).loop = s.loop := rfl
@[simp] theorem State.pushFlags_waiting (e : FlagEntry) : (s.pushFlags e).waiting = s.waiting := rfl
@[simp] theorem State.pushFlags_pending (e : FlagEntry) : (s.pushFlags e).pending = s.pending := rfl
@[simp] theorem State.pushFlags_errorRequest (e : FlagEntry) : (s.pushFlags e).errorRequest = s.errorRequest := rfl
@[simp] theorem State.pushFlags_inhibit (e : FlagEntry) : (s.pushFlags e).inhibit = s.inhibit := rfl
@[simp] theorem State.pushFlags_inSlot (e : FlagEntry) : (s.pushFlags e).inSlot = s.inSlot := rfl
@[simp] theorem State.pushFlags_pendingLoad (e : FlagEntry) : (s.pushFlags e).pendingLoad = s.pendingLoad := rfl
@[simp] theorem State.pushFlags_history (e : FlagEntry) : (s.pushFlags e).history = s.history := rfl
@[simp] theorem State.pushFlags_latch (e : FlagEntry) : (s.pushFlags e).latch = s.latch := rfl
@[simp] theorem State.pushFlags_mem (e : FlagEntry) : (s.pushFlags e).mem = s.mem := rfl
@[simp] theorem State.pushFlags_params (e : FlagEntry) : (s.pushFlags e).params = s.params := rfl
@[simp] theorem State.pushFlags_draws (e : FlagEntry) : (s.pushFlags e).draws = s.draws := rfl
@[simp] theorem State.pushFlags_env (e : FlagEntry) : (s.pushFlags e).env = s.env := rfl
@[simp] theorem State.pushFlags_out (e : FlagEntry) : (s.pushFlags e).out = s.out := rfl

/-! ### settle -/

@[simp] theorem State.settle_regs (e : FlagEntry) : (s.settle e).regs = s.regs := rfl
@[simp] theorem State.settle_pc (e : FlagEntry) : (s.settle e).pc = s.pc := rfl
@[simp] theorem State.settle_npc (e : FlagEntry) : (s.settle e).npc = s.npc := rfl
@[simp] theorem State.settle_ir (e : FlagEntry) : (s.settle e).ir = s.ir := rfl
@[simp] theorem State.settle_pcsh (e : FlagEntry) : (s.settle e).pcsh = s.pcsh := rfl
@[simp] theorem State.settle_accs (e : FlagEntry) : (s.settle e).accs = s.accs := rfl
@[simp] theorem State.settle_emr (e : FlagEntry) : (s.settle e).emr = s.emr := rfl
@[simp] theorem State.settle_pcw (e : FlagEntry) : (s.settle e).pcw = s.pcw := rfl
@[simp] theorem State.settle_pcwLocked (e : FlagEntry) : (s.settle e).pcwLocked = s.pcwLocked := rfl
@[simp] theorem State.settle_dauc (e : FlagEntry) : (s.settle e).dauc = s.dauc := rfl
@[simp] theorem State.settle_periph (e : FlagEntry) : (s.settle e).periph = s.periph := rfl
@[simp] theorem State.settle_pins (e : FlagEntry) : (s.settle e).pins = s.pins := rfl
@[simp] theorem State.settle_level (e : FlagEntry) : (s.settle e).level = s.level := rfl
@[simp] theorem State.settle_shadow (e : FlagEntry) : (s.settle e).shadow = s.shadow := rfl
@[simp] theorem State.settle_loop (e : FlagEntry) : (s.settle e).loop = s.loop := rfl
@[simp] theorem State.settle_waiting (e : FlagEntry) : (s.settle e).waiting = s.waiting := rfl
@[simp] theorem State.settle_errorRequest (e : FlagEntry) : (s.settle e).errorRequest = s.errorRequest := rfl
@[simp] theorem State.settle_inhibit (e : FlagEntry) : (s.settle e).inhibit = s.inhibit := rfl
@[simp] theorem State.settle_inSlot (e : FlagEntry) : (s.settle e).inSlot = s.inSlot := rfl
@[simp] theorem State.settle_pendingLoad (e : FlagEntry) : (s.settle e).pendingLoad = s.pendingLoad := rfl
@[simp] theorem State.settle_queue (e : FlagEntry) : (s.settle e).queue = s.queue := rfl
@[simp] theorem State.settle_history (e : FlagEntry) : (s.settle e).history = s.history := rfl
@[simp] theorem State.settle_latch (e : FlagEntry) : (s.settle e).latch = s.latch := rfl
@[simp] theorem State.settle_mem (e : FlagEntry) : (s.settle e).mem = s.mem := rfl
@[simp] theorem State.settle_params (e : FlagEntry) : (s.settle e).params = s.params := rfl
@[simp] theorem State.settle_draws (e : FlagEntry) : (s.settle e).draws = s.draws := rfl
@[simp] theorem State.settle_env (e : FlagEntry) : (s.settle e).env = s.env := rfl
@[simp] theorem State.settle_out (e : FlagEntry) : (s.settle e).out = s.out := rfl

/-! ### issue -/

@[simp] theorem State.issue_regs (l : PendingLoad) : (s.issue l).regs = s.regs := rfl
@[simp] theorem State.issue_pc (l : PendingLoad) : (s.issue l).pc = s.pc := rfl
@[simp] theorem State.issue_npc (l : PendingLoad) : (s.issue l).npc = s.npc := rfl
@[simp] theorem State.issue_ir (l : PendingLoad) : (s.issue l).ir = s.ir := rfl
@[simp] theorem State.issue_pcsh (l : PendingLoad) : (s.issue l).pcsh = s.pcsh := rfl
@[simp] theorem State.issue_accs (l : PendingLoad) : (s.issue l).accs = s.accs := rfl
@[simp] theorem State.issue_ps (l : PendingLoad) : (s.issue l).ps = s.ps := rfl
@[simp] theorem State.issue_emr (l : PendingLoad) : (s.issue l).emr = s.emr := rfl
@[simp] theorem State.issue_pcw (l : PendingLoad) : (s.issue l).pcw = s.pcw := rfl
@[simp] theorem State.issue_pcwLocked (l : PendingLoad) : (s.issue l).pcwLocked = s.pcwLocked := rfl
@[simp] theorem State.issue_dauc (l : PendingLoad) : (s.issue l).dauc = s.dauc := rfl
@[simp] theorem State.issue_ctr (l : PendingLoad) : (s.issue l).ctr = s.ctr := rfl
@[simp] theorem State.issue_periph (l : PendingLoad) : (s.issue l).periph = s.periph := rfl
@[simp] theorem State.issue_pins (l : PendingLoad) : (s.issue l).pins = s.pins := rfl
@[simp] theorem State.issue_level (l : PendingLoad) : (s.issue l).level = s.level := rfl
@[simp] theorem State.issue_shadow (l : PendingLoad) : (s.issue l).shadow = s.shadow := rfl
@[simp] theorem State.issue_loop (l : PendingLoad) : (s.issue l).loop = s.loop := rfl
@[simp] theorem State.issue_waiting (l : PendingLoad) : (s.issue l).waiting = s.waiting := rfl
@[simp] theorem State.issue_pending (l : PendingLoad) : (s.issue l).pending = s.pending := rfl
@[simp] theorem State.issue_errorRequest (l : PendingLoad) : (s.issue l).errorRequest = s.errorRequest := rfl
@[simp] theorem State.issue_inSlot (l : PendingLoad) : (s.issue l).inSlot = s.inSlot := rfl
@[simp] theorem State.issue_pendingLoad (l : PendingLoad) : (s.issue l).pendingLoad = s.pendingLoad := rfl
@[simp] theorem State.issue_queue (l : PendingLoad) : (s.issue l).queue = s.queue := rfl
@[simp] theorem State.issue_history (l : PendingLoad) : (s.issue l).history = s.history := rfl
@[simp] theorem State.issue_mem (l : PendingLoad) : (s.issue l).mem = s.mem := rfl
@[simp] theorem State.issue_params (l : PendingLoad) : (s.issue l).params = s.params := rfl
@[simp] theorem State.issue_draws (l : PendingLoad) : (s.issue l).draws = s.draws := rfl
@[simp] theorem State.issue_env (l : PendingLoad) : (s.issue l).env = s.env := rfl
@[simp] theorem State.issue_out (l : PendingLoad) : (s.issue l).out = s.out := rfl

/-! ### branchTo -/

@[simp] theorem State.branchTo_regs (a : Word) : (s.branchTo a).regs = s.regs := rfl
@[simp] theorem State.branchTo_pc (a : Word) : (s.branchTo a).pc = s.pc := rfl
@[simp] theorem State.branchTo_npc (a : Word) : (s.branchTo a).npc = s.npc := rfl
@[simp] theorem State.branchTo_ir (a : Word) : (s.branchTo a).ir = s.ir := rfl
@[simp] theorem State.branchTo_pcsh (a : Word) : (s.branchTo a).pcsh = s.pcsh := rfl
@[simp] theorem State.branchTo_accs (a : Word) : (s.branchTo a).accs = s.accs := rfl
@[simp] theorem State.branchTo_ps (a : Word) : (s.branchTo a).ps = s.ps := rfl
@[simp] theorem State.branchTo_emr (a : Word) : (s.branchTo a).emr = s.emr := rfl
@[simp] theorem State.branchTo_pcw (a : Word) : (s.branchTo a).pcw = s.pcw := rfl
@[simp] theorem State.branchTo_pcwLocked (a : Word) : (s.branchTo a).pcwLocked = s.pcwLocked := rfl
@[simp] theorem State.branchTo_dauc (a : Word) : (s.branchTo a).dauc = s.dauc := rfl
@[simp] theorem State.branchTo_ctr (a : Word) : (s.branchTo a).ctr = s.ctr := rfl
@[simp] theorem State.branchTo_periph (a : Word) : (s.branchTo a).periph = s.periph := rfl
@[simp] theorem State.branchTo_pins (a : Word) : (s.branchTo a).pins = s.pins := rfl
@[simp] theorem State.branchTo_level (a : Word) : (s.branchTo a).level = s.level := rfl
@[simp] theorem State.branchTo_shadow (a : Word) : (s.branchTo a).shadow = s.shadow := rfl
@[simp] theorem State.branchTo_loop (a : Word) : (s.branchTo a).loop = s.loop := rfl
@[simp] theorem State.branchTo_waiting (a : Word) : (s.branchTo a).waiting = s.waiting := rfl
@[simp] theorem State.branchTo_pending (a : Word) : (s.branchTo a).pending = s.pending := rfl
@[simp] theorem State.branchTo_errorRequest (a : Word) : (s.branchTo a).errorRequest = s.errorRequest := rfl
@[simp] theorem State.branchTo_inhibit (a : Word) : (s.branchTo a).inhibit = s.inhibit := rfl
@[simp] theorem State.branchTo_inSlot (a : Word) : (s.branchTo a).inSlot = s.inSlot := rfl
@[simp] theorem State.branchTo_pendingLoad (a : Word) : (s.branchTo a).pendingLoad = s.pendingLoad := rfl
@[simp] theorem State.branchTo_queue (a : Word) : (s.branchTo a).queue = s.queue := rfl
@[simp] theorem State.branchTo_history (a : Word) : (s.branchTo a).history = s.history := rfl
@[simp] theorem State.branchTo_mem (a : Word) : (s.branchTo a).mem = s.mem := rfl
@[simp] theorem State.branchTo_params (a : Word) : (s.branchTo a).params = s.params := rfl
@[simp] theorem State.branchTo_draws (a : Word) : (s.branchTo a).draws = s.draws := rfl
@[simp] theorem State.branchTo_env (a : Word) : (s.branchTo a).env = s.env := rfl
@[simp] theorem State.branchTo_out (a : Word) : (s.branchTo a).out = s.out := rfl

/-! ### holdInterrupts -/

@[simp] theorem State.holdInterrupts_regs : s.holdInterrupts.regs = s.regs := rfl
@[simp] theorem State.holdInterrupts_pc : s.holdInterrupts.pc = s.pc := rfl
@[simp] theorem State.holdInterrupts_npc : s.holdInterrupts.npc = s.npc := rfl
@[simp] theorem State.holdInterrupts_ir : s.holdInterrupts.ir = s.ir := rfl
@[simp] theorem State.holdInterrupts_pcsh : s.holdInterrupts.pcsh = s.pcsh := rfl
@[simp] theorem State.holdInterrupts_accs : s.holdInterrupts.accs = s.accs := rfl
@[simp] theorem State.holdInterrupts_ps : s.holdInterrupts.ps = s.ps := rfl
@[simp] theorem State.holdInterrupts_emr : s.holdInterrupts.emr = s.emr := rfl
@[simp] theorem State.holdInterrupts_pcw : s.holdInterrupts.pcw = s.pcw := rfl
@[simp] theorem State.holdInterrupts_pcwLocked : s.holdInterrupts.pcwLocked = s.pcwLocked := rfl
@[simp] theorem State.holdInterrupts_dauc : s.holdInterrupts.dauc = s.dauc := rfl
@[simp] theorem State.holdInterrupts_ctr : s.holdInterrupts.ctr = s.ctr := rfl
@[simp] theorem State.holdInterrupts_periph : s.holdInterrupts.periph = s.periph := rfl
@[simp] theorem State.holdInterrupts_pins : s.holdInterrupts.pins = s.pins := rfl
@[simp] theorem State.holdInterrupts_level : s.holdInterrupts.level = s.level := rfl
@[simp] theorem State.holdInterrupts_shadow : s.holdInterrupts.shadow = s.shadow := rfl
@[simp] theorem State.holdInterrupts_loop : s.holdInterrupts.loop = s.loop := rfl
@[simp] theorem State.holdInterrupts_waiting : s.holdInterrupts.waiting = s.waiting := rfl
@[simp] theorem State.holdInterrupts_pending : s.holdInterrupts.pending = s.pending := rfl
@[simp] theorem State.holdInterrupts_errorRequest : s.holdInterrupts.errorRequest = s.errorRequest := rfl
@[simp] theorem State.holdInterrupts_inSlot : s.holdInterrupts.inSlot = s.inSlot := rfl
@[simp] theorem State.holdInterrupts_pendingLoad : s.holdInterrupts.pendingLoad = s.pendingLoad := rfl
@[simp] theorem State.holdInterrupts_queue : s.holdInterrupts.queue = s.queue := rfl
@[simp] theorem State.holdInterrupts_history : s.holdInterrupts.history = s.history := rfl
@[simp] theorem State.holdInterrupts_latch : s.holdInterrupts.latch = s.latch := rfl
@[simp] theorem State.holdInterrupts_mem : s.holdInterrupts.mem = s.mem := rfl
@[simp] theorem State.holdInterrupts_params : s.holdInterrupts.params = s.params := rfl
@[simp] theorem State.holdInterrupts_draws : s.holdInterrupts.draws = s.draws := rfl
@[simp] theorem State.holdInterrupts_env : s.holdInterrupts.env = s.env := rfl
@[simp] theorem State.holdInterrupts_out : s.holdInterrupts.out = s.out := rfl

/-! ### startLoop -/

@[simp] theorem State.startLoop_regs (kind : DoKind) (k : BitVec 7) (c : BitVec 11) : (s.startLoop kind k c).regs = s.regs := rfl
@[simp] theorem State.startLoop_pc (kind : DoKind) (k : BitVec 7) (c : BitVec 11) : (s.startLoop kind k c).pc = s.pc := rfl
@[simp] theorem State.startLoop_npc (kind : DoKind) (k : BitVec 7) (c : BitVec 11) : (s.startLoop kind k c).npc = s.npc := rfl
@[simp] theorem State.startLoop_ir (kind : DoKind) (k : BitVec 7) (c : BitVec 11) : (s.startLoop kind k c).ir = s.ir := rfl
@[simp] theorem State.startLoop_pcsh (kind : DoKind) (k : BitVec 7) (c : BitVec 11) : (s.startLoop kind k c).pcsh = s.pcsh := rfl
@[simp] theorem State.startLoop_accs (kind : DoKind) (k : BitVec 7) (c : BitVec 11) : (s.startLoop kind k c).accs = s.accs := rfl
@[simp] theorem State.startLoop_ps (kind : DoKind) (k : BitVec 7) (c : BitVec 11) : (s.startLoop kind k c).ps = s.ps := rfl
@[simp] theorem State.startLoop_emr (kind : DoKind) (k : BitVec 7) (c : BitVec 11) : (s.startLoop kind k c).emr = s.emr := rfl
@[simp] theorem State.startLoop_pcw (kind : DoKind) (k : BitVec 7) (c : BitVec 11) : (s.startLoop kind k c).pcw = s.pcw := rfl
@[simp] theorem State.startLoop_pcwLocked (kind : DoKind) (k : BitVec 7) (c : BitVec 11) : (s.startLoop kind k c).pcwLocked = s.pcwLocked := rfl
@[simp] theorem State.startLoop_dauc (kind : DoKind) (k : BitVec 7) (c : BitVec 11) : (s.startLoop kind k c).dauc = s.dauc := rfl
@[simp] theorem State.startLoop_ctr (kind : DoKind) (k : BitVec 7) (c : BitVec 11) : (s.startLoop kind k c).ctr = s.ctr := rfl
@[simp] theorem State.startLoop_periph (kind : DoKind) (k : BitVec 7) (c : BitVec 11) : (s.startLoop kind k c).periph = s.periph := rfl
@[simp] theorem State.startLoop_pins (kind : DoKind) (k : BitVec 7) (c : BitVec 11) : (s.startLoop kind k c).pins = s.pins := rfl
@[simp] theorem State.startLoop_level (kind : DoKind) (k : BitVec 7) (c : BitVec 11) : (s.startLoop kind k c).level = s.level := rfl
@[simp] theorem State.startLoop_shadow (kind : DoKind) (k : BitVec 7) (c : BitVec 11) : (s.startLoop kind k c).shadow = s.shadow := rfl
@[simp] theorem State.startLoop_waiting (kind : DoKind) (k : BitVec 7) (c : BitVec 11) : (s.startLoop kind k c).waiting = s.waiting := rfl
@[simp] theorem State.startLoop_pending (kind : DoKind) (k : BitVec 7) (c : BitVec 11) : (s.startLoop kind k c).pending = s.pending := rfl
@[simp] theorem State.startLoop_errorRequest (kind : DoKind) (k : BitVec 7) (c : BitVec 11) : (s.startLoop kind k c).errorRequest = s.errorRequest := rfl
@[simp] theorem State.startLoop_inhibit (kind : DoKind) (k : BitVec 7) (c : BitVec 11) : (s.startLoop kind k c).inhibit = s.inhibit := rfl
@[simp] theorem State.startLoop_inSlot (kind : DoKind) (k : BitVec 7) (c : BitVec 11) : (s.startLoop kind k c).inSlot = s.inSlot := rfl
@[simp] theorem State.startLoop_pendingLoad (kind : DoKind) (k : BitVec 7) (c : BitVec 11) : (s.startLoop kind k c).pendingLoad = s.pendingLoad := rfl
@[simp] theorem State.startLoop_queue (kind : DoKind) (k : BitVec 7) (c : BitVec 11) : (s.startLoop kind k c).queue = s.queue := rfl
@[simp] theorem State.startLoop_history (kind : DoKind) (k : BitVec 7) (c : BitVec 11) : (s.startLoop kind k c).history = s.history := rfl
@[simp] theorem State.startLoop_latch (kind : DoKind) (k : BitVec 7) (c : BitVec 11) : (s.startLoop kind k c).latch = s.latch := rfl
@[simp] theorem State.startLoop_mem (kind : DoKind) (k : BitVec 7) (c : BitVec 11) : (s.startLoop kind k c).mem = s.mem := rfl
@[simp] theorem State.startLoop_params (kind : DoKind) (k : BitVec 7) (c : BitVec 11) : (s.startLoop kind k c).params = s.params := rfl
@[simp] theorem State.startLoop_draws (kind : DoKind) (k : BitVec 7) (c : BitVec 11) : (s.startLoop kind k c).draws = s.draws := rfl
@[simp] theorem State.startLoop_env (kind : DoKind) (k : BitVec 7) (c : BitVec 11) : (s.startLoop kind k c).env = s.env := rfl
@[simp] theorem State.startLoop_out (kind : DoKind) (k : BitVec 7) (c : BitVec 11) : (s.startLoop kind k c).out = s.out := rfl

/-! ### emit -/

@[simp] theorem State.emit_regs (e : Event) : (s.emit e).regs = s.regs := rfl
@[simp] theorem State.emit_pc (e : Event) : (s.emit e).pc = s.pc := rfl
@[simp] theorem State.emit_npc (e : Event) : (s.emit e).npc = s.npc := rfl
@[simp] theorem State.emit_ir (e : Event) : (s.emit e).ir = s.ir := rfl
@[simp] theorem State.emit_pcsh (e : Event) : (s.emit e).pcsh = s.pcsh := rfl
@[simp] theorem State.emit_accs (e : Event) : (s.emit e).accs = s.accs := rfl
@[simp] theorem State.emit_ps (e : Event) : (s.emit e).ps = s.ps := rfl
@[simp] theorem State.emit_emr (e : Event) : (s.emit e).emr = s.emr := rfl
@[simp] theorem State.emit_pcw (e : Event) : (s.emit e).pcw = s.pcw := rfl
@[simp] theorem State.emit_pcwLocked (e : Event) : (s.emit e).pcwLocked = s.pcwLocked := rfl
@[simp] theorem State.emit_dauc (e : Event) : (s.emit e).dauc = s.dauc := rfl
@[simp] theorem State.emit_ctr (e : Event) : (s.emit e).ctr = s.ctr := rfl
@[simp] theorem State.emit_periph (e : Event) : (s.emit e).periph = s.periph := rfl
@[simp] theorem State.emit_pins (e : Event) : (s.emit e).pins = s.pins := rfl
@[simp] theorem State.emit_level (e : Event) : (s.emit e).level = s.level := rfl
@[simp] theorem State.emit_shadow (e : Event) : (s.emit e).shadow = s.shadow := rfl
@[simp] theorem State.emit_loop (e : Event) : (s.emit e).loop = s.loop := rfl
@[simp] theorem State.emit_waiting (e : Event) : (s.emit e).waiting = s.waiting := rfl
@[simp] theorem State.emit_pending (e : Event) : (s.emit e).pending = s.pending := rfl
@[simp] theorem State.emit_errorRequest (e : Event) : (s.emit e).errorRequest = s.errorRequest := rfl
@[simp] theorem State.emit_inhibit (e : Event) : (s.emit e).inhibit = s.inhibit := rfl
@[simp] theorem State.emit_inSlot (e : Event) : (s.emit e).inSlot = s.inSlot := rfl
@[simp] theorem State.emit_pendingLoad (e : Event) : (s.emit e).pendingLoad = s.pendingLoad := rfl
@[simp] theorem State.emit_queue (e : Event) : (s.emit e).queue = s.queue := rfl
@[simp] theorem State.emit_history (e : Event) : (s.emit e).history = s.history := rfl
@[simp] theorem State.emit_latch (e : Event) : (s.emit e).latch = s.latch := rfl
@[simp] theorem State.emit_mem (e : Event) : (s.emit e).mem = s.mem := rfl
@[simp] theorem State.emit_params (e : Event) : (s.emit e).params = s.params := rfl
@[simp] theorem State.emit_draws (e : Event) : (s.emit e).draws = s.draws := rfl
@[simp] theorem State.emit_env (e : Event) : (s.emit e).env = s.env := rfl

/-! ### countDraw -/

@[simp] theorem State.countDraw_regs : s.countDraw.regs = s.regs := rfl
@[simp] theorem State.countDraw_pc : s.countDraw.pc = s.pc := rfl
@[simp] theorem State.countDraw_npc : s.countDraw.npc = s.npc := rfl
@[simp] theorem State.countDraw_ir : s.countDraw.ir = s.ir := rfl
@[simp] theorem State.countDraw_pcsh : s.countDraw.pcsh = s.pcsh := rfl
@[simp] theorem State.countDraw_accs : s.countDraw.accs = s.accs := rfl
@[simp] theorem State.countDraw_ps : s.countDraw.ps = s.ps := rfl
@[simp] theorem State.countDraw_emr : s.countDraw.emr = s.emr := rfl
@[simp] theorem State.countDraw_pcw : s.countDraw.pcw = s.pcw := rfl
@[simp] theorem State.countDraw_pcwLocked : s.countDraw.pcwLocked = s.pcwLocked := rfl
@[simp] theorem State.countDraw_dauc : s.countDraw.dauc = s.dauc := rfl
@[simp] theorem State.countDraw_ctr : s.countDraw.ctr = s.ctr := rfl
@[simp] theorem State.countDraw_periph : s.countDraw.periph = s.periph := rfl
@[simp] theorem State.countDraw_pins : s.countDraw.pins = s.pins := rfl
@[simp] theorem State.countDraw_level : s.countDraw.level = s.level := rfl
@[simp] theorem State.countDraw_shadow : s.countDraw.shadow = s.shadow := rfl
@[simp] theorem State.countDraw_loop : s.countDraw.loop = s.loop := rfl
@[simp] theorem State.countDraw_waiting : s.countDraw.waiting = s.waiting := rfl
@[simp] theorem State.countDraw_pending : s.countDraw.pending = s.pending := rfl
@[simp] theorem State.countDraw_errorRequest : s.countDraw.errorRequest = s.errorRequest := rfl
@[simp] theorem State.countDraw_inhibit : s.countDraw.inhibit = s.inhibit := rfl
@[simp] theorem State.countDraw_inSlot : s.countDraw.inSlot = s.inSlot := rfl
@[simp] theorem State.countDraw_pendingLoad : s.countDraw.pendingLoad = s.pendingLoad := rfl
@[simp] theorem State.countDraw_queue : s.countDraw.queue = s.queue := rfl
@[simp] theorem State.countDraw_history : s.countDraw.history = s.history := rfl
@[simp] theorem State.countDraw_latch : s.countDraw.latch = s.latch := rfl
@[simp] theorem State.countDraw_mem : s.countDraw.mem = s.mem := rfl
@[simp] theorem State.countDraw_params : s.countDraw.params = s.params := rfl
@[simp] theorem State.countDraw_env : s.countDraw.env = s.env := rfl
@[simp] theorem State.countDraw_out : s.countDraw.out = s.out := rfl

/-! ### addDraws -/

@[simp] theorem State.addDraws_regs (k : Nat) : (s.addDraws k).regs = s.regs := rfl
@[simp] theorem State.addDraws_pc (k : Nat) : (s.addDraws k).pc = s.pc := rfl
@[simp] theorem State.addDraws_npc (k : Nat) : (s.addDraws k).npc = s.npc := rfl
@[simp] theorem State.addDraws_ir (k : Nat) : (s.addDraws k).ir = s.ir := rfl
@[simp] theorem State.addDraws_pcsh (k : Nat) : (s.addDraws k).pcsh = s.pcsh := rfl
@[simp] theorem State.addDraws_accs (k : Nat) : (s.addDraws k).accs = s.accs := rfl
@[simp] theorem State.addDraws_ps (k : Nat) : (s.addDraws k).ps = s.ps := rfl
@[simp] theorem State.addDraws_emr (k : Nat) : (s.addDraws k).emr = s.emr := rfl
@[simp] theorem State.addDraws_pcw (k : Nat) : (s.addDraws k).pcw = s.pcw := rfl
@[simp] theorem State.addDraws_pcwLocked (k : Nat) : (s.addDraws k).pcwLocked = s.pcwLocked := rfl
@[simp] theorem State.addDraws_dauc (k : Nat) : (s.addDraws k).dauc = s.dauc := rfl
@[simp] theorem State.addDraws_ctr (k : Nat) : (s.addDraws k).ctr = s.ctr := rfl
@[simp] theorem State.addDraws_periph (k : Nat) : (s.addDraws k).periph = s.periph := rfl
@[simp] theorem State.addDraws_pins (k : Nat) : (s.addDraws k).pins = s.pins := rfl
@[simp] theorem State.addDraws_level (k : Nat) : (s.addDraws k).level = s.level := rfl
@[simp] theorem State.addDraws_shadow (k : Nat) : (s.addDraws k).shadow = s.shadow := rfl
@[simp] theorem State.addDraws_loop (k : Nat) : (s.addDraws k).loop = s.loop := rfl
@[simp] theorem State.addDraws_waiting (k : Nat) : (s.addDraws k).waiting = s.waiting := rfl
@[simp] theorem State.addDraws_pending (k : Nat) : (s.addDraws k).pending = s.pending := rfl
@[simp] theorem State.addDraws_errorRequest (k : Nat) : (s.addDraws k).errorRequest = s.errorRequest := rfl
@[simp] theorem State.addDraws_inhibit (k : Nat) : (s.addDraws k).inhibit = s.inhibit := rfl
@[simp] theorem State.addDraws_inSlot (k : Nat) : (s.addDraws k).inSlot = s.inSlot := rfl
@[simp] theorem State.addDraws_pendingLoad (k : Nat) : (s.addDraws k).pendingLoad = s.pendingLoad := rfl
@[simp] theorem State.addDraws_queue (k : Nat) : (s.addDraws k).queue = s.queue := rfl
@[simp] theorem State.addDraws_history (k : Nat) : (s.addDraws k).history = s.history := rfl
@[simp] theorem State.addDraws_latch (k : Nat) : (s.addDraws k).latch = s.latch := rfl
@[simp] theorem State.addDraws_mem (k : Nat) : (s.addDraws k).mem = s.mem := rfl
@[simp] theorem State.addDraws_params (k : Nat) : (s.addDraws k).params = s.params := rfl
@[simp] theorem State.addDraws_env (k : Nat) : (s.addDraws k).env = s.env := rfl
@[simp] theorem State.addDraws_out (k : Nat) : (s.addDraws k).out = s.out := rfl

/-! ### The fields that an update writes -/

@[simp] theorem State.setReg_regs (r : Reg) (v : Word) : (s.setReg r v).regs = writeRegs s.regs r v := rfl
@[simp] theorem State.setReg_wroteRegs (r : Reg) (v : Word) :
    (s.setReg r v).latch = { s.latch with wroteRegs := r :: s.latch.wroteRegs } := rfl
@[simp] theorem State.setAcc_accs (a : AccNo) (v : Acc40) :
    (s.setAcc a v).accs = s.accs.set a.val v := rfl
@[simp] theorem State.setCau_ps (f : CauFlags) : (s.setCau f).ps = withCau s.ps f.nibble := rfl
@[simp] theorem State.setCau_latch (f : CauFlags) :
    (s.setCau f).latch = { s.latch with wroteFlags := true } := rfl
@[simp] theorem State.pushFlags_queue (e : FlagEntry) : (s.pushFlags e).queue = s.queue ++ [e] := rfl
@[simp] theorem State.settle_ps (e : FlagEntry) : (s.settle e).ps = withDau s.ps (entryNibble e) := rfl
@[simp] theorem State.settle_ctr (e : FlagEntry) :
    (s.settle e).ctr = 0#2 ++ s.ctr.extractLsb' 0 5 ++ BitVec.ofBool e.n := rfl
@[simp] theorem State.settle_pending (e : FlagEntry) :
    (s.settle e).pending = request (request s.pending 5 (e.v || e.u)) 6 e.nan := rfl
@[simp] theorem State.issue_latch (l : PendingLoad) :
    (s.issue l).latch = { s.latch with load := some l } := rfl
@[simp] theorem State.issue_inhibit (l : PendingLoad) : (s.issue l).inhibit = true := rfl
@[simp] theorem State.branchTo_latch (a : Word) :
    (s.branchTo a).latch = { s.latch with target := some a } := rfl
@[simp] theorem State.holdInterrupts_inhibit : s.holdInterrupts.inhibit = true := rfl
@[simp] theorem State.emit_out (e : Event) : (s.emit e).out = s.out ++ [e] := rfl
@[simp] theorem State.countDraw_draws : s.countDraw.draws = s.draws + 1 := rfl
@[simp] theorem State.addDraws_draws (k : Nat) : (s.addDraws k).draws = s.draws + k := rfl
@[simp] theorem State.startLoop_loop (kind : DoKind) (k : BitVec 7) (c : BitVec 11) :
    (s.startLoop kind k c).loop =
      { active := true
        kind := kind
        start := s.pc + 4#32
        stop := s.pc + 4#32 + 4#32 * k.setWidth 32
        iter := c
        tail := false
        passes := 0#12 } := rfl

/-! ### Registers and accumulators through the accessors -/

/-- r0 reads as zero in every state (R21). -/
@[simp] theorem State.reg_zero : s.reg 0 = 0#32 := rfl

/-- A register depends on the register file only. -/
theorem State.reg_congr {s t : State} (h : t.regs = s.regs) (r : Reg) : t.reg r = s.reg r := by
  simp only [State.reg, h]

/-- What a register reads after a write of one (R21). -/
theorem State.reg_setReg (r q : Reg) (v : Word) :
    (s.setReg r v).reg q = if q = r ∧ r ≠ 0 then v else s.reg q := by
  simp only [State.reg, State.setReg, writeRegs, ne_eq, Fin.ext_iff, Fin.val_zero]
  by_cases hq : q.val = 0
  · simp [hq]; intro h h'; exact absurd (Fin.ext h.symm) h'
  · by_cases hr : r.val = 0
    · simp [hq, hr]
    · by_cases h : q.val = r.val
      · simp [h, hr]
      · have : r.val - 1 ≠ q.val - 1 := by omega
        simp [hq, hr, h, Vector.getElem_set_ne, this]

@[simp] theorem State.reg_setReg_same (r : Reg) (v : Word) (h : r ≠ 0) : (s.setReg r v).reg r = v := by
  simp [State.reg_setReg, h]

@[simp] theorem State.reg_setReg_zero (v : Word) (q : Reg) : (s.setReg 0 v).reg q = s.reg q := by
  simp [State.reg_setReg]

theorem State.reg_setReg_other {r q : Reg} (v : Word) (h : q ≠ r) : (s.setReg r v).reg q = s.reg q := by
  simp [State.reg_setReg, h]

/-- What an accumulator reads after a write of one. -/
theorem State.acc_setAcc (a b : AccNo) (v : Acc40) :
    (s.setAcc a v).acc b = if b = a then v else s.acc b := by
  simp only [State.acc, State.setAcc]
  by_cases h : b = a
  · subst h; simp
  · have : a.val ≠ b.val := fun e => h (Fin.ext e.symm)
    simp [h, Vector.getElem_set_ne, this]

@[simp] theorem State.acc_setAcc_same (a : AccNo) (v : Acc40) : (s.setAcc a v).acc a = v := by
  simp [State.acc_setAcc]

theorem State.acc_setAcc_other {a b : AccNo} (v : Acc40) (h : b ≠ a) :
    (s.setAcc a v).acc b = s.acc b := by
  simp [State.acc_setAcc, h]

@[simp] theorem State.acc_setReg (r : Reg) (v : Word) (q : AccNo) : (s.setReg r v).acc q = s.acc q := rfl
@[simp] theorem State.cau_setReg (r : Reg) (v : Word) : (s.setReg r v).cau = s.cau := rfl
@[simp] theorem State.reg_setAcc (a : AccNo) (v : Acc40) (q : Reg) : (s.setAcc a v).reg q = s.reg q := rfl
@[simp] theorem State.cau_setAcc (a : AccNo) (v : Acc40) : (s.setAcc a v).cau = s.cau := rfl
@[simp] theorem State.reg_setCau (f : CauFlags) (q : Reg) : (s.setCau f).reg q = s.reg q := rfl
@[simp] theorem State.acc_setCau (f : CauFlags) (q : AccNo) : (s.setCau f).acc q = s.acc q := rfl
@[simp] theorem State.reg_pushFlags (e : FlagEntry) (q : Reg) : (s.pushFlags e).reg q = s.reg q := rfl
@[simp] theorem State.acc_pushFlags (e : FlagEntry) (q : AccNo) : (s.pushFlags e).acc q = s.acc q := rfl
@[simp] theorem State.cau_pushFlags (e : FlagEntry) : (s.pushFlags e).cau = s.cau := rfl
@[simp] theorem State.reg_settle (e : FlagEntry) (q : Reg) : (s.settle e).reg q = s.reg q := rfl
@[simp] theorem State.acc_settle (e : FlagEntry) (q : AccNo) : (s.settle e).acc q = s.acc q := rfl
@[simp] theorem State.reg_issue (l : PendingLoad) (q : Reg) : (s.issue l).reg q = s.reg q := rfl
@[simp] theorem State.acc_issue (l : PendingLoad) (q : AccNo) : (s.issue l).acc q = s.acc q := rfl
@[simp] theorem State.cau_issue (l : PendingLoad) : (s.issue l).cau = s.cau := rfl
@[simp] theorem State.reg_branchTo (a : Word) (q : Reg) : (s.branchTo a).reg q = s.reg q := rfl
@[simp] theorem State.acc_branchTo (a : Word) (q : AccNo) : (s.branchTo a).acc q = s.acc q := rfl
@[simp] theorem State.cau_branchTo (a : Word) : (s.branchTo a).cau = s.cau := rfl
@[simp] theorem State.reg_holdInterrupts (q : Reg) : s.holdInterrupts.reg q = s.reg q := rfl
@[simp] theorem State.acc_holdInterrupts (q : AccNo) : s.holdInterrupts.acc q = s.acc q := rfl
@[simp] theorem State.cau_holdInterrupts : s.holdInterrupts.cau = s.cau := rfl
@[simp] theorem State.reg_startLoop (kind : DoKind) (k : BitVec 7) (c : BitVec 11) (q : Reg) : (s.startLoop kind k c).reg q = s.reg q := rfl
@[simp] theorem State.acc_startLoop (kind : DoKind) (k : BitVec 7) (c : BitVec 11) (q : AccNo) : (s.startLoop kind k c).acc q = s.acc q := rfl
@[simp] theorem State.cau_startLoop (kind : DoKind) (k : BitVec 7) (c : BitVec 11) : (s.startLoop kind k c).cau = s.cau := rfl
@[simp] theorem State.reg_emit (e : Event) (q : Reg) : (s.emit e).reg q = s.reg q := rfl
@[simp] theorem State.acc_emit (e : Event) (q : AccNo) : (s.emit e).acc q = s.acc q := rfl
@[simp] theorem State.cau_emit (e : Event) : (s.emit e).cau = s.cau := rfl
@[simp] theorem State.reg_countDraw (q : Reg) : s.countDraw.reg q = s.reg q := rfl
@[simp] theorem State.acc_countDraw (q : AccNo) : s.countDraw.acc q = s.acc q := rfl
@[simp] theorem State.cau_countDraw : s.countDraw.cau = s.cau := rfl
@[simp] theorem State.reg_addDraws (k : Nat) (q : Reg) : (s.addDraws k).reg q = s.reg q := rfl
@[simp] theorem State.acc_addDraws (k : Nat) (q : AccNo) : (s.addDraws k).acc q = s.acc q := rfl
@[simp] theorem State.cau_addDraws (k : Nat) : (s.addDraws k).cau = s.cau := rfl

/-! ### Flags -/

/-- A bit of ps[7:0] put together from two nibbles. -/
theorem getLsbD_nibbles (x y : BitVec 4) (i : Nat) :
    (x ++ y : BitVec 8).getLsbD i = if i < 4 then y.getLsbD i else x.getLsbD (i - 4) := by
  rw [BitVec.getLsbD_append (x := x) (y := y)]

/-- The bits of the CAU nibble. -/
theorem CauFlags.nibble_bits (f : CauFlags) :
    f.nibble.getLsbD 0 = f.n ∧ f.nibble.getLsbD 1 = f.z ∧ f.nibble.getLsbD 2 = f.v ∧
      f.nibble.getLsbD 3 = f.c := by
  obtain ⟨n, z, v, c⟩ := f
  cases n <;> cases z <;> cases v <;> cases c <;> decide

/-- The bits of the DAU nibble. -/
theorem entryNibble_bits (e : FlagEntry) :
    (entryNibble e).getLsbD 0 = e.n ∧ (entryNibble e).getLsbD 1 = e.z ∧
      (entryNibble e).getLsbD 2 = e.u ∧ (entryNibble e).getLsbD 3 = e.v := by
  obtain ⟨n, z, v, u, nan, k⟩ := e
  cases n <;> cases z <;> cases v <;> cases u <;> simp only [entryNibble] <;> decide

/-- The CAU flags of a state whose ps was written by them. -/
theorem State.cau_of_withCau (f : CauFlags) (ps : BitVec 8) (h : s.ps = withCau ps f.nibble) :
    s.cau = f := by
  have b := f.nibble_bits
  simp only [State.cau, h, withCau, getLsbD_nibbles, Nat.reduceLT, if_true, b]

@[simp] theorem State.cau_setCau (f : CauFlags) : (s.setCau f).cau = f :=
  State.cau_of_withCau _ f s.ps rfl

/-- A write of the CAU flags keeps the DAU flags. -/
@[simp] theorem withCau_high (ps : BitVec 8) (nib : BitVec 4) :
    (withCau ps nib).extractLsb' 4 4 = ps.extractLsb' 4 4 := by
  apply BitVec.eq_of_getLsbD_eq
  intro i hi
  have h : ¬ 4 + i < 4 := by omega
  simp only [BitVec.getLsbD_extractLsb', withCau, getLsbD_nibbles, h, hi, decide_true, Bool.true_and,
    if_false, Nat.add_sub_cancel_left]

/-- A write of the DAU flags keeps the CAU flags. -/
@[simp] theorem withDau_low (ps : BitVec 8) (nib : BitVec 4) :
    (withDau ps nib).extractLsb' 0 4 = ps.extractLsb' 0 4 := by
  apply BitVec.eq_of_getLsbD_eq
  intro i hi
  simp only [BitVec.getLsbD_extractLsb', withDau, getLsbD_nibbles, Nat.zero_add, hi, decide_true,
    Bool.true_and, if_true]

/-- A write of the DAU flags gives them. -/
theorem withDau_bits (ps : BitVec 8) (nib : BitVec 4) (i : Nat) (h : i < 4) :
    (withDau ps nib).getLsbD (4 + i) = nib.getLsbD i := by
  have : ¬ 4 + i < 4 := by omega
  simp only [withDau, getLsbD_nibbles, this, if_false, Nat.add_sub_cancel_left]

/-- A settled result shows in ps[7:4] (R33, R446). -/
theorem State.dau_settle (e : FlagEntry) :
    (s.settle e).dauN = e.n ∧ (s.settle e).dauZ = e.z ∧ (s.settle e).dauU = e.u ∧
      (s.settle e).dauV = e.v := by
  have b := entryNibble_bits e
  refine ⟨?_, ?_, ?_, ?_⟩
  · exact (withDau_bits _ _ 0 (by decide)).trans b.1
  · exact (withDau_bits _ _ 1 (by decide)).trans b.2.1
  · exact (withDau_bits _ _ 2 (by decide)).trans b.2.2.1
  · exact (withDau_bits _ _ 3 (by decide)).trans b.2.2.2

/-- The CAU flags depend on ps[3:0] only. -/
theorem State.cau_congr {s t : State} (h : t.ps.extractLsb' 0 4 = s.ps.extractLsb' 0 4) :
    t.cau = s.cau := by
  have b : ∀ i, i < 4 → t.ps.getLsbD i = s.ps.getLsbD i := by
    intro i hi
    have := congrArg (fun v => BitVec.getLsbD v i) h
    simpa [BitVec.getLsbD_extractLsb', hi] using this
  simp only [State.cau, b 0 (by decide), b 1 (by decide), b 2 (by decide), b 3 (by decide)]

@[simp] theorem State.cau_settle (e : FlagEntry) : (s.settle e).cau = s.cau :=
  State.cau_congr (withDau_low s.ps (entryNibble e))

end Sys2Proof.Machine
end

