-- ==== Sys2Proof/Laws/Memory.lean ====
section
/-! SUPPORT. Memory: the canonical form and what keeps it, reads after writes, what an access depends on, and
what each access can do. -/

namespace Sys2Proof.Machine

/-! ### The byte list -/

theorem Memory.above_mono {j k : Nat} (h : j ≤ k) : ∀ m : Memory, Memory.above k m = true →
    Memory.above j m = true
  | [], _ => rfl
  | c :: m, ha => by
    simp only [Memory.above, decide_eq_true_eq] at ha ⊢
    omega

theorem Memory.wf_cons (c : Host.Cell) (m : Memory) :
    Memory.wf (c :: m) = true ↔
      c.2 ≠ unlistedByte ∧ Memory.above c.1 m = true ∧ Memory.wf m = true := by
  simp [Memory.wf, and_assoc]

/-- A key below the whole list reads as unlisted. -/
theorem Memory.read_above (k : Nat) : ∀ m : Memory, Memory.wf m = true → Memory.above k m = true →
    Memory.read m k = unlistedByte
  | [], _, _ => rfl
  | c :: m, hw, ha => by
    have hw := (Memory.wf_cons c m).1 hw
    simp only [Memory.above, decide_eq_true_eq] at ha
    have : ¬ c.1 = k := by omega
    simp only [Memory.read, this, if_false]
    exact Memory.read_above k m hw.2.2 (Memory.above_mono (by omega) m hw.2.1)

theorem Memory.read_put_same (k : Nat) (v : Byte) (m : Memory) (h : Memory.read m k = unlistedByte) :
    Memory.read (Memory.put k v m) k = v := by
  unfold Memory.put
  split
  · next e => rw [h, e]
  · simp [Memory.read]

theorem Memory.read_put_other {j k : Nat} (v : Byte) (m : Memory) (h : j ≠ k) :
    Memory.read (Memory.put k v m) j = Memory.read m j := by
  unfold Memory.put
  split
  · rfl
  · simp [Memory.read, h.symm]

theorem Memory.above_put {j k : Nat} (v : Byte) (m : Memory) (h : j < k)
    (hm : Memory.above j m = true) : Memory.above j (Memory.put k v m) = true := by
  unfold Memory.put
  split
  · exact hm
  · simpa [Memory.above] using h

theorem Memory.wf_put (k : Nat) (v : Byte) (m : Memory) (hw : Memory.wf m = true)
    (ha : Memory.above k m = true) : Memory.wf (Memory.put k v m) = true := by
  unfold Memory.put
  split
  · exact hw
  · next h => exact (Memory.wf_cons _ _).2 ⟨h, ha, hw⟩

theorem Memory.above_write {j k : Nat} (v : Byte) : ∀ m : Memory, Memory.wf m = true → j < k →
    Memory.above j m = true → Memory.above j (Memory.write m k v) = true
  | [], _, h, hm => Memory.above_put v [] h hm
  | c :: m, hw, h, hm => by
    have hw := (Memory.wf_cons c m).1 hw
    simp only [Memory.write]
    split
    · exact Memory.above_put v _ h hm
    · split
      · next e =>
        refine Memory.above_put v _ h (Memory.above_mono (Nat.le_of_lt h) m ?_)
        rw [e]; exact hw.2.1
      · exact hm

/-- A write keeps the canonical form. -/
theorem Memory.wf_write (k : Nat) (v : Byte) : ∀ m : Memory, Memory.wf m = true →
    Memory.wf (Memory.write m k v) = true
  | [], _ => Memory.wf_put k v [] rfl rfl
  | c :: m, hw => by
    have hc := (Memory.wf_cons c m).1 hw
    simp only [Memory.write]
    split
    · next h => exact Memory.wf_put k v _ hw (by simpa [Memory.above] using h)
    · split
      · next e => exact Memory.wf_put k v m hc.2.2 (by rw [e]; exact hc.2.1)
      · next h1 h2 =>
        exact (Memory.wf_cons _ _).2
          ⟨hc.1, Memory.above_write v m hc.2.2 (by omega) hc.2.1, Memory.wf_write k v m hc.2.2⟩

/-- A read of the key written gives the value written. -/
theorem Memory.read_write_same (k : Nat) (v : Byte) : ∀ m : Memory, Memory.wf m = true →
    Memory.read (Memory.write m k v) k = v
  | [], _ => Memory.read_put_same k v [] rfl
  | c :: m, hw => by
    have hc := (Memory.wf_cons c m).1 hw
    simp only [Memory.write]
    split
    · next h =>
      exact Memory.read_put_same k v _ (Memory.read_above k _ hw (by simpa [Memory.above] using h))
    · split
      · next e =>
        exact Memory.read_put_same k v m (Memory.read_above k m hc.2.2 (by rw [e]; exact hc.2.1))
      · next h1 h2 =>
        have : ¬ c.1 = k := fun e => h2 e.symm
        simp only [Memory.read, this, if_false]
        exact Memory.read_write_same k v m hc.2.2

/-- A read of another key gives what it gave. -/
theorem Memory.read_write_other {j k : Nat} (v : Byte) (h : j ≠ k) : ∀ m : Memory,
    Memory.read (Memory.write m k v) j = Memory.read m j
  | [] => Memory.read_put_other v [] h
  | c :: m => by
    simp only [Memory.write]
    split
    · exact Memory.read_put_other v _ h
    · split
      · next e =>
        rw [Memory.read_put_other v m h]
        have : ¬ c.1 = j := fun e' => h (by rw [← e', e])
        simp [Memory.read, this]
      · simp only [Memory.read, Memory.read_write_other v h m]

/-! ### What the memory map and the reads depend on -/

/-- The part of the state that decides what stands at an address (R100 to R104). -/
structure SameMap (s t : State) : Prop where
  pcw : t.pcw = s.pcw
  params : t.params = s.params
  pins : t.pins = s.pins

theorem SameMap.rfl {s : State} : SameMap s s := ⟨Eq.refl _, Eq.refl _, Eq.refl _⟩

theorem SameMap.trans {s t u : State} (h : SameMap s t) (h' : SameMap t u) : SameMap s u :=
  ⟨h'.pcw.trans h.pcw, h'.params.trans h.params, h'.pins.trans h.pins⟩

theorem SameMap.offset {s t : State} (h : SameMap s t) (a : Word) : t.offset a = s.offset a := by
  simp only [State.offset, State.onchipBase, h.pcw]

theorem SameMap.onchip {s t : State} (h : SameMap s t) (a : Word) : t.onchip a = s.onchip a := by
  simp only [State.onchip, h.offset, h.params]

theorem SameMap.mmioAt {s t : State} (h : SameMap s t) (a : Word) : t.mmioAt a = s.mmioAt a := by
  simp only [State.mmioAt, h.onchip, h.offset, h.params]

theorem SameMap.place {s t : State} (h : SameMap s t) (a : Word) : t.place a = s.place a := by
  simp only [State.place, h.onchip, h.offset, h.mmioAt, h.params, h.pins]

theorem SameMap.bigEndian {s t : State} (h : SameMap s t) : t.bigEndian = s.bigEndian := by
  simp only [State.bigEndian, h.pcw]

theorem SameMap.readByte {s t : State} (h : SameMap s t) (hm : t.mem = s.mem) (a : Word) :
    t.readByte a = s.readByte a := by
  simp only [State.readByte, h.place, hm]

theorem SameMap.readBytes {s t : State} (h : SameMap s t) (hm : t.mem = s.mem) :
    ∀ (n : Nat) (a : Word), t.readBytes a n = s.readBytes a n
  | 0, _ => Eq.refl _
  | n + 1, a => by
    simp only [State.readBytes, h.readByte hm, SameMap.readBytes h hm n]

/-- A fetch depends on the map, emr[4] and memory. -/
theorem SameMap.fetch {s t : State} (h : SameMap s t) (hm : t.mem = s.mem) (he : t.emr = s.emr)
    (a : Word) : t.fetch a = s.fetch a := by
  simp only [State.fetch, State.checkAlign, h.params, he, h.readBytes hm, h.bigEndian]

/-- Different addresses of read-write memory have different keys. -/
theorem State.place_ram_injective (s : State) {a b : Word} {k : Nat} (ha : s.place a = .ram k)
    (hb : s.place b = .ram k) : a = b := by
  have key : ∀ c : Word, s.place c = .ram k →
      (s.onchip c = true ∧ k = 2 ^ 32 + s.offset c) ∨ (s.onchip c = false ∧ k = c.toNat) := by
    intro c hc
    unfold State.place at hc
    split at hc
    · next ho =>
      simp only at hc
      split at hc
      · cases hc
      · split at hc
        · cases hc
        · split at hc
          · cases hc; exact .inl ⟨ho, Eq.refl _⟩
          · cases hc
    · next ho =>
      split at hc
      · cases hc
      · cases hc; exact .inr ⟨by simpa using ho, Eq.refl _⟩
  have la := a.isLt
  have lb := b.isLt
  rcases key a ha with ⟨-, ea⟩ | ⟨-, ea⟩ <;> rcases key b hb with ⟨-, eb⟩ | ⟨-, eb⟩
  · have h : s.offset a = s.offset b := by omega
    have h : a - s.onchipBase = b - s.onchipBase := BitVec.eq_of_toNat_eq h
    have h' := congrArg (· + s.onchipBase) h
    simpa using h'
  · omega
  · omega
  · exact BitVec.eq_of_toNat_eq (by omega)

/-! ### One byte -/

/-- Everything a write of one byte can do. -/
theorem State.writeByte_ok {s t : State} {a : Word} {v : Byte} (h : s.writeByte a v = .ok t) :
    ∃ k, s.place a = .ram k ∧ t = { s with mem := s.mem.write k v } := by
  unfold State.writeByte at h
  split at h
  · next k hk => cases h; exact ⟨k, hk, rfl⟩
  all_goals cases h

/-- A write of one byte to read-write memory succeeds. -/
theorem State.writeByte_ram {s : State} {a : Word} {k : Nat} (h : s.place a = .ram k) (v : Byte) :
    s.writeByte a v = .ok { s with mem := s.mem.write k v } := by
  simp only [State.writeByte, h]

theorem State.readByte_ram {s : State} {a : Word} {k : Nat} (h : s.place a = .ram k) :
    s.readByte a = .ok (s.mem.read k) := by
  simp only [State.readByte, h]

theorem State.writeByte_map {s t : State} {a : Word} {v : Byte} (h : s.writeByte a v = .ok t) :
    SameMap s t := by
  obtain ⟨k, -, rfl⟩ := State.writeByte_ok h
  exact ⟨rfl, rfl, rfl⟩

/-- The byte written reads as written. -/
theorem State.writeByte_read_same {s t : State} {a : Word} {v : Byte} (hw : s.mem.wf = true)
    (h : s.writeByte a v = .ok t) : t.readByte a = .ok v := by
  have hm := State.writeByte_map h
  obtain ⟨k, hk, rfl⟩ := State.writeByte_ok h
  rw [State.readByte_ram ((hm.place a).trans hk), Memory.read_write_same k v _ hw]

/-- Every other byte reads as before. -/
theorem State.writeByte_read_other {s t : State} {a b : Word} {v : Byte}
    (h : s.writeByte a v = .ok t) (hb : b ≠ a) : t.readByte b = s.readByte b := by
  have hm := State.writeByte_map h
  obtain ⟨k, hk, rfl⟩ := State.writeByte_ok h
  simp only [State.readByte, hm.place]
  cases hp : s.place b with
  | ram j =>
    have : j ≠ k := fun e => hb (s.place_ram_injective (e ▸ hp) hk)
    simp only [Memory.read_write_other v this]
  | rom | mmio | empty | berr => rfl

/-! ### Several bytes -/

/-- The address of byte j + 1 is that of byte j of the rest. -/
theorem addr_succ (a : Word) (j : Nat) :
    a + BitVec.ofNat 32 (j + 1) = a + 1 + BitVec.ofNat 32 j := by
  rw [Nat.add_comm j 1, ← BitVec.ofNat_add_ofNat, ← BitVec.add_assoc]; rfl

/-- Everything a write of bytes can do to the rest of the state. -/
theorem State.writeBytes_ok : ∀ (bs : List Byte) {s t : State} {a : Word},
    s.writeBytes a bs = .ok t →
    t = { s with mem := t.mem } ∧ (s.mem.wf = true → t.mem.wf = true) ∧ SameMap s t
  | [], s, t, a, h => by
    cases h
    exact ⟨rfl, id, .rfl⟩
  | b :: bs, s, t, a, h => by
    simp only [State.writeBytes] at h
    cases hb : s.writeByte a b with
    | error e => rw [hb] at h; cases h
    | ok u =>
      rw [hb] at h
      have ih := State.writeBytes_ok bs h
      have hm := State.writeByte_map hb
      obtain ⟨k, -, rfl⟩ := State.writeByte_ok hb
      refine ⟨?_, fun hw => ih.2.1 (Memory.wf_write k b _ hw), hm.trans ih.2.2⟩
      rw [ih.1]

/-- Bytes outside the written ones read as before. -/
theorem State.writeBytes_read_other : ∀ (bs : List Byte) {s t : State} {a b : Word},
    s.writeBytes a bs = .ok t → (∀ j, j < bs.length → b ≠ a + BitVec.ofNat 32 j) →
    t.readByte b = s.readByte b
  | [], s, t, a, b, h, _ => by cases h; rfl
  | v :: bs, s, t, a, b, h, hb => by
    simp only [State.writeBytes] at h
    cases hv : s.writeByte a v with
    | error e => rw [hv] at h; cases h
    | ok u =>
      rw [hv] at h
      rw [State.writeBytes_read_other bs h, State.writeByte_read_other hv]
      · simpa using hb 0 (by simp)
      · intro j hj
        have := hb (j + 1) (by simpa using hj)
        rwa [addr_succ] at this

/-- The j-th of at most 2^32 written bytes reads as written. -/
theorem State.writeBytes_read_same : ∀ (bs : List Byte) {s t : State} {a : Word},
    s.mem.wf = true → bs.length ≤ 2 ^ 32 → s.writeBytes a bs = .ok t →
    ∀ j (hj : j < bs.length), t.readByte (a + BitVec.ofNat 32 j) = .ok bs[j]
  | [], _, _, _, _, _, _, j, hj => by simp at hj
  | v :: bs, s, t, a, hw, hl, h, j, hj => by
    simp only [State.writeBytes] at h
    cases hv : s.writeByte a v with
    | error e => rw [hv] at h; cases h
    | ok u =>
      rw [hv] at h
      have hu : u.mem.wf = true := by
        obtain ⟨k, -, rfl⟩ := State.writeByte_ok hv
        exact Memory.wf_write k v _ hw
      have hl' : bs.length < 2 ^ 32 := by simpa using hl
      cases j with
      | zero =>
        rw [State.writeBytes_read_other bs h]
        · simpa using State.writeByte_read_same hw hv
        · intro j hj'
          have h1 : (1 + j) % 2 ^ 32 ≠ 0 ∨ 1 + j = 2 ^ 32 := by omega
          intro e
          have e' := congrArg (fun x => (x - a).toNat) e
          simp [BitVec.toNat_add, BitVec.toNat_sub] at e'
          bv_omega
      | succ j =>
        have hj' : j < bs.length := by simpa using hj
        show t.readByte (a + BitVec.ofNat 32 (j + 1)) = .ok bs[j]
        rw [addr_succ]
        exact State.writeBytes_read_same bs hu (Nat.le_of_lt hl') h j hj'

/-- A write of bytes succeeds where all of them are read-write memory. -/
theorem State.writeBytes_ram : ∀ (bs : List Byte) {s : State} {a : Word},
    (∀ j, j < bs.length → ∃ k, s.place (a + BitVec.ofNat 32 j) = .ram k) →
    ∃ t, s.writeBytes a bs = .ok t
  | [], s, _, _ => ⟨s, rfl⟩
  | v :: bs, s, a, h => by
    obtain ⟨k, hk⟩ := h 0 (by simp)
    have hk : s.place a = .ram k := by simpa using hk
    have hb := State.writeByte_ram hk v
    have hm := State.writeByte_map hb
    obtain ⟨t, ht⟩ := State.writeBytes_ram bs (s := { s with mem := s.mem.write k v }) (a := a + 1) (by
      intro j hj
      have := h (j + 1) (by simpa using hj)
      rw [addr_succ] at this
      simpa only [hm.place] using this)
    exact ⟨t, by simp only [State.writeBytes, hb]; exact ht⟩

/-- A read of bytes gives each of them. -/
theorem State.readBytes_ok : ∀ (n : Nat) {s : State} {a : Word} {bs : List Byte},
    s.readBytes a n = .ok bs →
    bs.length = n ∧ ∀ j (hj : j < bs.length), s.readByte (a + BitVec.ofNat 32 j) = .ok bs[j]
  | 0, s, a, bs, h => by
    cases h
    exact ⟨rfl, fun j hj => by simp at hj⟩
  | n + 1, s, a, bs, h => by
    simp only [State.readBytes] at h
    cases hb : s.readByte a with
    | error e => rw [hb] at h; cases h
    | ok b =>
      rw [hb] at h
      cases hr : s.readBytes (a + 1) n with
      | error e => rw [hr] at h; cases h
      | ok l =>
        rw [hr] at h
        cases h
        have ih := State.readBytes_ok n hr
        refine ⟨by simp [ih.1], fun j hj => ?_⟩
        cases j with
        | zero => simpa using hb
        | succ j =>
          have hj' : j < l.length := by simpa using hj
          show s.readByte (a + BitVec.ofNat 32 (j + 1)) = .ok l[j]
          rw [addr_succ]
          exact ih.2 j hj'

/-- A read of bytes succeeds where each of them can be read, and gives them. -/
theorem State.readBytes_of : ∀ (bs : List Byte) {s : State} {a : Word},
    (∀ j (hj : j < bs.length), s.readByte (a + BitVec.ofNat 32 j) = .ok bs[j]) →
    s.readBytes a bs.length = .ok bs
  | [], _, _, _ => rfl
  | b :: bs, s, a, h => by
    have h0 : s.readByte a = .ok b := by
      have := h 0 (Nat.zero_lt_succ _)
      rwa [BitVec.add_zero] at this
    have h1 := State.readBytes_of bs (s := s) (a := a + 1) (by
      intro j hj
      rw [← addr_succ]
      exact h (j + 1) (Nat.succ_lt_succ hj))
    simp only [List.length_cons, State.readBytes, h0]
    show (s.readBytes (a + 1) bs.length >>= fun l => .ok (b :: l)) = _
    rw [h1]; rfl

/-! ### Byte order -/

theorem length_bytesOf (big : Bool) (n : Nat) (v : Word) : (bytesOf big n v).length = n := by
  cases big <;> simp [bytesOf]

/-- The j-th byte in address order (R92). -/
theorem getElem_bytesOf (big : Bool) (n : Nat) (v : Word) (j : Nat)
    (hj : j < (bytesOf big n v).length) :
    (bytesOf big n v)[j] = v.extractLsb' (8 * if big then n - 1 - j else j) 8 := by
  cases big <;> simp [bytesOf]

/-! ### The core's accesses -/

/-- Everything a load can answer. -/
theorem State.load_ok {s : State} {a : Word} {n : Nat} {v : Word} (h : s.load a n = .ok v) :
    s.checkAlign a n = .ok () ∧
    ((∃ e, s.mmioAt a = some e ∧ s.mmioFits e a n = true ∧ v = lowBytes n (s.mmioRead e.reg)) ∨
     (s.mmioAt a = none ∧ ∃ bs, s.readBytes a n = .ok bs ∧ v = valueOf s.bigEndian bs)) := by
  unfold State.load at h
  cases hc : s.checkAlign a n with
  | error e => rw [hc] at h; cases h
  | ok u =>
    rw [hc] at h
    refine ⟨rfl, ?_⟩
    change (match s.mmioAt a with
      | some e => if s.mmioFits e a n then .ok (lowBytes n (s.mmioRead e.reg))
        else .error (.refuse .mmioAccess)
      | none => s.readBytes a n >>= fun bs => .ok (valueOf s.bigEndian bs) : Res Word) = .ok v at h
    cases hm : s.mmioAt a with
    | some e =>
      rw [hm] at h
      simp only at h
      split at h
      · next hf => cases h; exact .inl ⟨e, rfl, hf, rfl⟩
      · cases h
    | none =>
      rw [hm] at h
      simp only at h
      cases hr : s.readBytes a n with
      | error e => rw [hr] at h; cases h
      | ok bs => rw [hr] at h; cases h; exact .inr ⟨rfl, bs, rfl, rfl⟩

/-- Everything a store can do. -/
theorem State.store_ok {s t : State} {a : Word} {n : Nat} {v : Word} (h : s.store a n v = .ok t) :
    s.checkAlign a n = .ok () ∧
    ((∃ e, s.mmioAt a = some e ∧ s.mmioFits e a n = true ∧
        t = { s with periph := s.periph.write e.reg (lowBytes n v) }) ∨
     (s.mmioAt a = none ∧ s.writeBytes a (bytesOf s.bigEndian n v) = .ok t)) := by
  unfold State.store at h
  cases hc : s.checkAlign a n with
  | error e => rw [hc] at h; cases h
  | ok u =>
    rw [hc] at h
    refine ⟨rfl, ?_⟩
    change (match s.mmioAt a with
      | some e => if s.mmioFits e a n then
          .ok { s with periph := s.periph.write e.reg (lowBytes n v) }
        else .error (.refuse .mmioAccess)
      | none => s.writeBytes a (bytesOf s.bigEndian n v) : Res State) = .ok t at h
    cases hm : s.mmioAt a with
    | some e =>
      rw [hm] at h
      simp only at h
      split at h
      · next hf => cases h; exact .inl ⟨e, rfl, hf, rfl⟩
      · cases h
    | none => rw [hm] at h; exact .inr ⟨rfl, h⟩

/-- A store keeps the canonical form. -/
theorem State.store_wf {s t : State} {a : Word} {n : Nat} {v : Word} (h : s.store a n v = .ok t)
    (hw : s.mem.wf = true) : t.mem.wf = true := by
  rcases (State.store_ok h).2 with ⟨e, -, -, rfl⟩ | ⟨-, hb⟩
  · exact hw
  · exact (State.writeBytes_ok _ hb).2.1 hw

/-- An event of the environment keeps the canonical form. -/
theorem State.event_wf {s : State} (e : EnvEvent) (hw : s.mem.wf = true) :
    (s.event e).mem.wf = true := by
  cases e with
  | busWrite a v => exact Memory.wf_write _ _ _ hw
  | dmaWrite a v =>
    simp only [State.event]
    split
    · exact Memory.wf_write _ _ _ hw
    all_goals exact hw
  | timerTick =>
    simp only [State.event, State.timerTicks, State.timerExpires]
    split
    · split <;> exact hw
    · exact hw
  | timerZero =>
    simp only [State.event, State.timerExpires]
    split <;> exact hw
  | periphData r v =>
    simp only [State.event]
    split <;> exact hw
  | sioStatus | ir0 | ir1 | bioPins | sioRequest | shiftRegisters | berr | restn => exact hw

/-- The placing of a word keeps the canonical form. -/
theorem placeWord_wf {s : State} (w : Word) (hw : s.mem.wf = true) : (placeWord s w).mem.wf = true := by
  unfold placeWord
  split
  · next t h => exact (State.writeBytes_ok _ h).2.1 hw
  · exact hw

/-- Memory right after reset has the canonical form. -/
theorem reset_mem_wf : State.reset.mem.wf = true := rfl

end Sys2Proof.Machine
end

