-- ==== Sys2Proof/Laws/Environment.lean ====
section
/-! SUPPORT. What the other agents can do at a moment inside an instruction (R112). -/

namespace Sys2Proof.Machine

/-! ### One event -/

/-- An event other than RESTN reaches memory, the peripheral registers, the pins and the requests only. -/
theorem State.event_eq (s : State) {e : EnvEvent} (h : isRestn e = false) :
    s.event e = { s with
      mem := (s.event e).mem
      periph := (s.event e).periph
      pins := (s.event e).pins
      pending := (s.event e).pending } := by
  cases e with
  | restn straps => cases h
  | timerTick =>
    simp only [State.event, State.timerTicks, State.timerExpires]
    split
    · split <;> rfl
    · rfl
  | timerZero =>
    simp only [State.event, State.timerExpires]
    split <;> rfl
  | periphData r v =>
    simp only [State.event]
    split <;> rfl
  | dmaWrite a v =>
    simp only [State.event]
    split <;> rfl
  | sioStatus | ir0 | ir1 | bioPins | sioRequest | shiftRegisters | berr | busWrite => rfl

/-- An event that is no access to memory leaves memory alone. -/
theorem State.event_mem (s : State) {e : EnvEvent} (h : isMemEvent e = false) : (s.event e).mem = s.mem := by
  cases e with
  | busWrite | dmaWrite => cases h
  | timerTick =>
    simp only [State.event, State.timerTicks, State.timerExpires]
    split
    · split <;> rfl
    · rfl
  | timerZero =>
    simp only [State.event, State.timerExpires]
    split <;> rfl
  | periphData r v =>
    simp only [State.event]
    split <;> rfl
  | sioStatus | ir0 | ir1 | bioPins | sioRequest | shiftRegisters | berr | restn => rfl

/-! ### A list of events -/

theorem State.events_eq (es : List EnvEvent) (h : ∀ e ∈ es, isRestn e = false) (s : State) :
    es.foldl State.event s = { s with
      mem := (es.foldl State.event s).mem
      periph := (es.foldl State.event s).periph
      pins := (es.foldl State.event s).pins
      pending := (es.foldl State.event s).pending } := by
  induction es generalizing s with
  | nil => rfl
  | cons e es ih =>
    simp only [List.foldl_cons]
    rw [ih (fun x hx => h x (List.mem_cons_of_mem _ hx)) (s.event e)]
    rw [State.event_eq s (h e List.mem_cons_self)]

theorem State.events_mem (es : List EnvEvent) (h : ∀ e ∈ es, isMemEvent e = false) (s : State) :
    (es.foldl State.event s).mem = s.mem := by
  induction es generalizing s with
  | nil => rfl
  | cons e es ih =>
    rw [List.foldl_cons, ih (fun x hx => h x (List.mem_cons_of_mem _ hx)),
      State.event_mem s (h e List.mem_cons_self)]

theorem State.events_wf (es : List EnvEvent) (s : State) (hw : s.mem.wf = true) :
    (es.foldl State.event s).mem.wf = true := by
  induction es generalizing s with
  | nil => exact hw
  | cons e es ih => exact ih _ (State.event_wf e hw)

/-! ### A moment inside an instruction -/

/-- It reaches memory, the peripheral registers, the pins, the requests and the list of events only. -/
theorem State.interleave_eq (s : State) :
    s.interleave = { s with
      mem := s.interleave.mem
      periph := s.interleave.periph
      pins := s.interleave.pins
      pending := s.interleave.pending
      env := s.interleave.env } := by
  unfold State.interleave State.moment
  split
  · rfl
  · next es rest _ =>
    have h : ∀ e ∈ es.filter (! (fun e => isRestn e || s.holdsBus && isMemEvent e) ·),
        isRestn e = false := by
      intro e he
      have := (List.mem_filter.mp he).2
      cases hr : isRestn e
      · rfl
      · simp [hr] at this
    rw [State.events_eq _ h]

/-- Without events nothing happens. -/
theorem State.interleave_of_nil {s : State} (h : s.env = []) : s.interleave = s := by
  unfold State.interleave State.moment
  rw [h]

/-- A dolock loop and a quad word keep other agents from memory (R112). -/
theorem State.interleave_mem_of_holdsBus {s : State} (h : s.holdsBus = true) :
    s.interleave.mem = s.mem := by
  unfold State.interleave State.moment
  split
  · rfl
  · refine State.events_mem _ (fun e he => ?_) _
    have := (List.mem_filter.mp he).2
    cases hm : isMemEvent e
    · rfl
    · simp [hm, h] at this

/-- It keeps the canonical form of memory. -/
theorem State.interleave_wf {s : State} (hw : s.mem.wf = true) : s.interleave.mem.wf = true := by
  unfold State.interleave State.moment
  split
  · exact hw
  · exact State.events_wf _ _ hw

@[simp] theorem State.interleave_regs (s : State) : s.interleave.regs = s.regs := by
  rw [s.interleave_eq]
@[simp] theorem State.interleave_reg (s : State) (r : Reg) : s.interleave.reg r = s.reg r := by
  rw [s.interleave_eq]; rfl
@[simp] theorem State.interleave_pc (s : State) : s.interleave.pc = s.pc := by rw [s.interleave_eq]
@[simp] theorem State.interleave_npc (s : State) : s.interleave.npc = s.npc := by rw [s.interleave_eq]
@[simp] theorem State.interleave_ir (s : State) : s.interleave.ir = s.ir := by rw [s.interleave_eq]
@[simp] theorem State.interleave_pcsh (s : State) : s.interleave.pcsh = s.pcsh := by rw [s.interleave_eq]
@[simp] theorem State.interleave_accs (s : State) : s.interleave.accs = s.accs := by rw [s.interleave_eq]
@[simp] theorem State.interleave_acc (s : State) (a : AccNo) : s.interleave.acc a = s.acc a := by
  rw [s.interleave_eq]; rfl
@[simp] theorem State.interleave_ps (s : State) : s.interleave.ps = s.ps := by rw [s.interleave_eq]
@[simp] theorem State.interleave_emr (s : State) : s.interleave.emr = s.emr := by rw [s.interleave_eq]
@[simp] theorem State.interleave_pcw (s : State) : s.interleave.pcw = s.pcw := by rw [s.interleave_eq]
@[simp] theorem State.interleave_pcwLocked (s : State) : s.interleave.pcwLocked = s.pcwLocked := by
  rw [s.interleave_eq]
@[simp] theorem State.interleave_dauc (s : State) : s.interleave.dauc = s.dauc := by rw [s.interleave_eq]
@[simp] theorem State.interleave_ctr (s : State) : s.interleave.ctr = s.ctr := by rw [s.interleave_eq]
@[simp] theorem State.interleave_level (s : State) : s.interleave.level = s.level := by
  rw [s.interleave_eq]
@[simp] theorem State.interleave_shadow (s : State) : s.interleave.shadow = s.shadow := by
  rw [s.interleave_eq]
@[simp] theorem State.interleave_loop (s : State) : s.interleave.loop = s.loop := by rw [s.interleave_eq]
@[simp] theorem State.interleave_waiting (s : State) : s.interleave.waiting = s.waiting := by
  rw [s.interleave_eq]
@[simp] theorem State.interleave_errorRequest (s : State) :
    s.interleave.errorRequest = s.errorRequest := by rw [s.interleave_eq]
@[simp] theorem State.interleave_inhibit (s : State) : s.interleave.inhibit = s.inhibit := by
  rw [s.interleave_eq]
@[simp] theorem State.interleave_inSlot (s : State) : s.interleave.inSlot = s.inSlot := by
  rw [s.interleave_eq]
@[simp] theorem State.interleave_pendingLoad (s : State) : s.interleave.pendingLoad = s.pendingLoad := by
  rw [s.interleave_eq]
@[simp] theorem State.interleave_queue (s : State) : s.interleave.queue = s.queue := by
  rw [s.interleave_eq]
@[simp] theorem State.interleave_history (s : State) : s.interleave.history = s.history := by
  rw [s.interleave_eq]
@[simp] theorem State.interleave_latch (s : State) : s.interleave.latch = s.latch := by
  rw [s.interleave_eq]
@[simp] theorem State.interleave_params (s : State) : s.interleave.params = s.params := by
  rw [s.interleave_eq]
@[simp] theorem State.interleave_draws (s : State) : s.interleave.draws = s.draws := by
  rw [s.interleave_eq]
@[simp] theorem State.interleave_out (s : State) : s.interleave.out = s.out := by rw [s.interleave_eq]

end Sys2Proof.Machine
end

