-- ==== Sys2Proof/Laws/Formats.lean ====
section
/-! SUPPORT. What holds of the numbers of every other format (R322), so that nothing later unfolds them. -/

namespace Sys2Proof.Machine

/-- The smallest magnitude is positive and at most 1. -/
theorem otherLeast_bounds (k : Nat) (neg : Bool) : 0 < otherLeast k neg ∧ otherLeast k neg ≤ 1 := by
  simp only [otherLeast]
  split
  · next h => exact ⟨lt_min one_pos h, min_le_left _ _⟩
  · exact ⟨one_pos, le_rfl⟩

/-- The largest word is at least 1. -/
theorem one_le_otherBound (k : Nat) (neg : Bool) : 1 ≤ otherBound k neg := le_max_left _ _

/-- The guard bits do not take from the range. -/
theorem otherBound_le_otherReach (k : Nat) (neg : Bool) : otherBound k neg ≤ otherReach k neg :=
  le_add_of_nonneg_right (abs_nonneg _)

@[simp] theorem otherVal40_zero (k : Nat) : otherVal40 k 0#40 = 0 := rfl

/-- Everything the value of 40 bits can be: zero, or within the bounds of its sign, those of a word where
no guard bit is set (R322 (c), (e)). -/
theorem otherVal40_cases (k : Nat) (a : Acc40) :
    let v := otherVal40 k a
    v = 0 ∨ (otherLeast k (v < 0) ≤ |v| ∧ |v| ≤ otherReach k (v < 0) ∧
      (a.extractLsb' 0 8 = 0#8 → |v| ≤ otherBound k (v < 0))) := by
  have hb := one_le_otherBound k
  have hr := otherBound_le_otherReach k
  have hl := otherLeast_bounds k
  dsimp only
  unfold otherVal40
  split
  · exact .inl rfl
  split
  · have h0 : ¬ otherBound k false < 0 := not_lt.2 (zero_le_one.trans (hb _))
    rw [abs_of_nonneg (not_lt.1 h0)]
    simp only [h0, decide_false]
    exact .inr ⟨(hl _).2.trans (hb _), hr _, fun _ => le_rfl⟩
  split
  · have h0 : -otherBound k true < 0 := neg_neg_of_pos (zero_lt_one.trans_le (hb _))
    rw [abs_of_neg h0]
    simp only [h0, decide_true, neg_neg]
    exact .inr ⟨(hl _).2.trans (hb _), hr _, fun _ => le_rfl⟩
  split
  · have h0 : ¬ (1 : ℚ) < 0 := by norm_num
    simp only [h0, decide_false, abs_one]
    exact .inr ⟨(hl _).2, (hb _).trans (hr _), fun _ => hb _⟩
  split
  · next h =>
    simp only [otherHolds, decide_eq_true_eq] at h
    refine .inr ⟨h.1, h.2.trans ?_, fun hg => by rw [if_pos hg] at h; exact h.2⟩
    split
    · exact hr _
    · exact le_rfl
  · exact .inl rfl

/-! ### The nearest number -/

/-- Nothing below `n` is nearer than `nearest`, and what is equally near is not greater (R365). -/
theorem nearest_spec (val : Nat → Rat) (v : Rat) : ∀ n i, i < n →
    |val (nearest val v n) - v| ≤ |val i - v| ∧
      (|val (nearest val v n) - v| = |val i - v| → val i ≤ val (nearest val v n))
  | 0, _, h => absurd h (Nat.not_lt_zero _)
  | n + 1, i, h => by
    have ih := nearest_spec val v n i
    simp only [nearest]
    rcases Nat.lt_or_eq_of_le (Nat.le_of_lt_succ h) with hi | rfl
    · obtain ⟨h1, h2⟩ := ih hi
      split
      · next hc =>
        rcases hc with hc | ⟨hc, hv⟩
        · exact ⟨(hc.trans_le h1).le, fun he => absurd he (hc.trans_le h1).ne⟩
        · exact ⟨hc.le.trans h1, fun he => (h2 (hc.symm.trans he)).trans hv.le⟩
      · exact ⟨h1, h2⟩
    · split
      · exact ⟨le_rfl, fun _ => le_rfl⟩
      · next hc =>
        obtain ⟨h1, h2⟩ := not_or.1 hc
        exact ⟨not_lt.1 h1, fun he => not_lt.1 fun hv => h2 ⟨he.symm, hv⟩⟩

/-- Everything `otherWordNear` can be: no word is nearer, and none equally near is greater. -/
theorem otherWordNear_spec (k : Nat) (v : Rat) (choice w : Word) :
    let r := otherVal32 k (otherWordNear k v choice)
    |r - v| ≤ |otherVal32 k w - v| ∧ (|r - v| = |otherVal32 k w - v| → otherVal32 k w ≤ r) := by
  have h := nearest_spec (fun i => otherVal32 k (BitVec.ofNat 32 i)) v (2 ^ 32) w.toNat w.isLt
  simp only [BitVec.ofNat_toNat, BitVec.setWidth_eq] at h
  simp only [otherWordNear]
  split
  · next hc => rw [hc]; exact h
  · exact h

/-- No word is nearer than `otherAccNear`. -/
theorem otherAccNear_spec (k : Nat) (v : Rat) (choice : Acc40) (w : Word) :
    |otherVal40 k (otherAccNear k v choice) - v| ≤ |otherVal32 k w - v| := by
  have h := nearest_spec (fun i => otherVal40 k (BitVec.ofNat 40 i)) v (2 ^ 40) (w ++ 0#8).toNat
    (w ++ 0#8).isLt
  simp only [BitVec.ofNat_toNat, BitVec.setWidth_eq] at h
  simp only [otherAccNear]
  split
  · next hc =>
    rcases hc with hc | hc
    · rw [hc]; exact h.1
    · rw [hc]; exact (otherWordNear_spec k v 0#32 w).1
  · exact h.1

/-! ### IEEE numbers -/

/-- `notNan` gives no NaN. -/
theorem notNan_spec (w : Word) (h : (notNan w).extractLsb' 23 8 = 255#8) :
    (notNan w).extractLsb' 0 23 = 0#23 := by
  unfold notNan at h ⊢
  split
  · apply BitVec.eq_of_getLsbD_eq
    intro i hi
    have hm : (0xFF800000#32).getLsbD i = false := by revert i; decide
    simp [hi, hm]
  · next hn => rw [if_neg hn] at h; exact absurd h hn

end Sys2Proof.Machine
end

