-- ==== Sys2Proof/Laws/Ops.lean ====
section
/-! SUPPORT. One lemma per shared operation: what it can do, so that nothing later unfolds it. -/

namespace Sys2Proof.Machine

/-! ### How an instruction ends -/

/-- A sequence of accesses that succeeds went through its first one. -/
theorem Res.bind_ok {α β : Type} {r : Res α} {f : α → Res β} {b : β} (h : r >>= f = .ok b) :
    ∃ a, r = .ok a ∧ f a = .ok b := by
  cases r with
  | error e => cases h
  | ok a => exact ⟨a, rfl, h⟩

/-- A next state of `resolve` is the result, or the state before with an error requested (R390). -/
theorem resolve_next {s t : State} {r : Res State} (h : resolve s r = .next t) :
    r = .ok t ∨ ∃ e, r = .error (.raise e) ∧ t = { s with errorRequest := some e } := by
  cases r with
  | ok u => cases h; exact .inl rfl
  | error e =>
    cases e with
    | raise e => cases h; exact .inr ⟨e, rfl, rfl⟩
    | fault | refuse => cases h

@[simp] theorem resolve_ok (s t : State) : resolve s (.ok t) = .next t := rfl
@[simp] theorem resolve_raise (s : State) (e : ErrorSource) :
    resolve s (.error (.raise e)) = .next { s with errorRequest := some e } := rfl
@[simp] theorem resolve_fault (s : State) (f : Fault) : resolve s (.error (.fault f)) = .fault f := rfl
@[simp] theorem resolve_refuse (s : State) (r : Refusal) :
    resolve s (.error (.refuse r)) = .refused r := rfl

/-- A conditional instruction does the one or the other (R233). -/
theorem conditionally_next {c : Cond} {s t u : State} (h : conditionally c s t = .next u) :
    (s.cond c = true ∧ u = t) ∨ (s.cond c = false ∧ u = s) := by
  unfold conditionally at h
  split at h
  · next hc => cases h; exact .inl ⟨hc, rfl⟩
  · next hc => cases h; exact .inr ⟨by simpa using hc, rfl⟩

/-! ### The level -/

/-- A change of level writes the level and the events (R401). -/
theorem State.setLevel_eq (s : State) (l : Level) :
    s.setLevel l = { s with
      level := l
      out := s.out ++ if s.emr.getLsbD 0 then [Event.level l] else [] } := by
  unfold State.setLevel State.emit
  dsimp only
  split
  · rfl
  · rw [List.append_nil]

/-! ### IO registers -/

/-- What a write of an IO register can touch. -/
theorem State.ioWrite_eq (s : State) (io : IoReg) (n : Nat) (d : Word) :
    s.ioWrite io n d = { s with
      ps := (s.ioWrite io n d).ps
      queue := (s.ioWrite io n d).queue
      latch := { s.latch with wroteFlags := (s.ioWrite io n d).latch.wroteFlags }
      emr := (s.ioWrite io n d).emr
      pcw := (s.ioWrite io n d).pcw
      pcwLocked := (s.ioWrite io n d).pcwLocked
      dauc := (s.ioWrite io n d).dauc
      ctr := (s.ioWrite io n d).ctr } := by
  cases io <;> try rfl
  have h : s.ioWrite .pcw n d = s ∨
      s.ioWrite .pcw n d = { s with pcw := merge16 s.pcw n d, pcwLocked := locksPcw n d } := by
    unfold State.ioWrite
    dsimp only
    split
    · exact .inl rfl
    · exact .inr rfl
  rcases h with h | h <;> rw [h]

/-- A write of pcw to a locked pcw changes nothing (R51). -/
theorem State.ioWrite_locked {s : State} (h : s.pcwLocked = true) (n : Nat) (d : Word) :
    s.ioWrite .pcw n d = s := by
  simp only [State.ioWrite, h, if_true]

/-! ### Flags in flight -/

/-- Settling entries changes ps[7:4], ctr and the requests, and nothing else. -/
theorem State.settleAll_eq : ∀ (es : List FlagEntry) (s : State),
    s.settleAll es = { s with
      ps := (s.settleAll es).ps
      ctr := (s.settleAll es).ctr
      pending := (s.settleAll es).pending }
  | [], _ => rfl
  | e :: es, s => by
    have h : s.settleAll (e :: es) = (s.settle e).settleAll es := rfl
    rw [h]
    conv_lhs => rw [State.settleAll_eq es (s.settle e)]
    rfl

/-- Settling entries keeps the CAU flags. -/
theorem State.settleAll_cau : ∀ (es : List FlagEntry) (s : State),
    (s.settleAll es).ps.extractLsb' 0 4 = s.ps.extractLsb' 0 4
  | [], _ => rfl
  | e :: es, s => (State.settleAll_cau es (s.settle e)).trans (withDau_low s.ps (entryNibble e))

/-- Advancing the queue: what is due settles, the rest moves on (R446). -/
theorem State.advanceFlags_eq (s : State) :
    s.advanceFlags = { s with
      ps := s.advanceFlags.ps
      ctr := s.advanceFlags.ctr
      pending := s.advanceFlags.pending
      queue := (s.queue.map fun e => { e with left := e.left - 1 }).filter (·.left != 0) } := by
  exact congrArg
    (fun t : State =>
      { t with queue := (s.queue.map fun e : FlagEntry => { e with left := e.left - 1 }).filter (·.left != 0) })
    (State.settleAll_eq _ s)

/-- Nothing in flight: nothing settles. -/
theorem State.advanceFlags_nil {s : State} (h : s.queue = []) : s.advanceFlags = s := by
  obtain ⟨regs, pc, npc, ir, pcsh, accs, ps, emr, pcw, pcwLocked, dauc, ctr, periph, pins, level, shadow,
    loop, waiting, pending, errorRequest, inhibit, inSlot, pendingLoad, queue, history, latch, mem, params,
    draws, env, out⟩ := s
  subst h
  rfl

/-! ### Delayed loads -/

/-- The write of the loaded register (R287). -/
theorem State.commitDest_eq (s : State) (rD : LoadDest) (v : Word) :
    s.commitDest rD v = { s with
      regs := (s.commitDest rD v).regs
      pcsh := (s.commitDest rD v).pcsh
      draws := (s.commitDest rD v).draws } := by
  unfold State.commitDest
  split
  · rfl
  · split <;> rfl

/-- The flags of a load (R287). -/
theorem State.commitFlags_eq (s : State) (v : Word) :
    s.commitFlags v = { s with ps := (s.commitFlags v).ps, draws := (s.commitFlags v).draws } := by
  unfold State.commitFlags
  split <;> rfl

/-- They are CAU flags. -/
theorem State.commitFlags_dau (s : State) (v : Word) :
    (s.commitFlags v).ps.extractLsb' 4 4 = s.ps.extractLsb' 4 4 := by
  unfold State.commitFlags
  split <;> exact withCau_high _ _

/-- What the write of a delayed load can touch (R287, R293). -/
theorem State.commitLoad_cases (s : State) :
    (s.pendingLoad = none ∧ s.commitLoad = s) ∨
    (∃ rD v, s.pendingLoad = some (.reg rD v) ∧ s.commitLoad = (s.commitDest rD v).commitFlags v) ∨
    (∃ io n d, s.pendingLoad = some (.ior io n d) ∧ s.commitLoad = s.ioWrite io n d) := by
  cases h : s.pendingLoad with
  | none => exact .inl ⟨rfl, by simp only [State.commitLoad, h]⟩
  | some p =>
    cases p with
    | ior io n d => exact .inr (.inr ⟨io, n, d, rfl, by simp only [State.commitLoad, h]⟩)
    | reg rD v => exact .inr (.inl ⟨rD, v, rfl, by simp only [State.commitLoad, h]⟩)

/-! ### Exceptions -/

/-- The address of a vector and the word there depend on r22, the map, emr and memory. -/
theorem State.fetch_vector {s t : State} (i : Nat) (hr : t.regs = s.regs) (h : SameMap s t)
    (hm : t.mem = s.mem) (he : t.emr = s.emr) :
    t.fetch (t.vector i) = s.fetch (s.vector i) := by
  have hv : t.vector i = s.vector i := by
    simp only [State.vector, State.reg_congr hr]
  rw [hv]
  exact h.fetch hm he _

/-- Taking an interrupt (R386). -/
theorem State.takeInterrupt (s : State) (i : Nat) :
    s.takeException (.interrupt i) = .ok { s with
      shadow := s.shadowOf
      pcsh := s.npc
      queue := if s.params.exc.inFlight then [] else s.queue
      loop := s.loop.off
      pending := s.pending &&& ~~~(1#16 <<< i)
      level := .interrupt
      out := (s.out ++ if s.emr.getLsbD 0 then [Event.level .interrupt] else []) ++ [.acknowledge i]
      pc := s.vector i
      npc := s.vector i + 4#32
      ir := s.fetch (s.vector i)
      history := []
      inSlot := false } := by
  unfold State.takeException State.goVector
  dsimp only
  rw [State.setLevel_eq, State.fetch_vector (s := s) i rfl ⟨rfl, rfl, rfl⟩ rfl rfl]
  rfl

/-- What the entry of an error saves (R390). -/
theorem State.saveAtError_eq (s : State) :
    s.saveAtError = { s with
      pcsh := s.saveAtError.pcsh
      shadow := s.saveAtError.shadow
      draws := s.saveAtError.draws } := by
  unfold State.saveAtError
  split <;> rfl

/-- Taking an error (R390): at double error level there is no entry (R383). -/
theorem State.takeError (s : State) (e : ErrorSource) :
    (s.level.afterError = none ∧ s.takeException (.error e) = .error (.refuse .errorAtDoubleError)) ∨
    ∃ l, s.level.afterError = some l ∧ s.takeException (.error e) = .ok { s with
      errorRequest := none
      waiting := false
      inhibit := false
      queue := []
      loop := s.loop.off
      pcsh := s.saveAtError.pcsh
      shadow := s.saveAtError.shadow
      draws := s.saveAtError.draws
      level := l
      out := s.out ++ if s.emr.getLsbD 0 then [Event.level l] else []
      pc := s.vector e.index
      npc := s.vector e.index + 4#32
      ir := s.fetch (s.vector e.index)
      history := []
      inSlot := false } := by
  simp only [State.takeException]
  cases h : s.level.afterError with
  | none => exact .inl ⟨rfl, rfl⟩
  | some l =>
    refine .inr ⟨l, rfl, ?_⟩
    rw [State.saveAtError_eq]
    unfold State.goVector
    dsimp only
    rw [State.setLevel_eq, State.fetch_vector (s := s) e.index rfl ⟨rfl, rfl, rfl⟩ rfl rfl]
    rfl

/-- The return from an interrupt (R392). -/
theorem State.returnFromInterrupt_ok {s t : State} (h : s.returnFromInterrupt = .ok t) :
    s.level = .interrupt ∧ t = { s with
      ps := s.shadow.ps
      queue := if s.params.exc.inFlight then s.shadow.queue else s.queue
      loop := s.shadow.loop
      inhibit := true
      latch := { s.latch with
        wroteFlags := true
        resume := some (s.shadow.instr, s.shadow.pc, s.pcsh) }
      level := .base
      out := s.out ++ if s.emr.getLsbD 0 then [Event.level .base] else [] } := by
  unfold State.returnFromInterrupt at h
  split at h
  · next hl =>
    refine ⟨hl, ?_⟩
    simp only [State.setLevel_eq] at h
    cases h; rfl
  · cases h

/-- sftrst (R394). -/
theorem State.softReset_ok {s t : State} (h : s.softReset = .ok t) :
    (s.level = .error ∨ s.level = .doubleError) ∧ t = { s with
      level := .base
      out := s.out ++ if s.emr.getLsbD 0 then [Event.level .base] else [] } := by
  unfold State.softReset at h
  cases hl : s.level <;> rw [hl] at h <;> simp only [State.setLevel_eq] at h <;> cases h <;> simp

/-- waiti (R396). -/
theorem State.waitForInterrupt_ok {s t : State} (h : s.waitForInterrupt = .ok t) :
    s.level = .base ∧ t = { s with
      ps := t.ps
      ctr := t.ctr
      pending := t.pending
      queue := []
      waiting := t.waiting } := by
  unfold State.waitForInterrupt at h
  split at h
  · next hl =>
    refine ⟨hl, ?_⟩
    simp only at h
    split at h <;> cases h <;> rw [State.settleAll_eq]
  · cases h

/-! ### Moves -/

/-- The pointer update writes the pointer and nothing else (R283). -/
theorem State.bumpPointer_frame (s : State) (rP : Reg) (i : Increment) (n : Nat) :
    s.bumpPointer rP i n = { s with
      regs := (s.bumpPointer rP i n).regs
      latch := { s.latch with wroteRegs := (s.bumpPointer rP i n).latch.wroteRegs } } := rfl

/-- Every form of the update counts as a write of the pointer (R283, R287). -/
@[simp] theorem State.bumpPointer_wroteRegs (s : State) (rP : Reg) (i : Increment) (n : Nat) :
    (s.bumpPointer rP i n).latch.wroteRegs = rP :: s.latch.wroteRegs := rfl

/-- The check of sp (R285). -/
theorem checkSp_ok {rP : Reg} {w : Width} (h : checkSp rP w = .ok ()) : rP = Reg.sp → w = .long := by
  unfold checkSp at h
  split at h
  · cases h
  · next hn => intro hr; exact Classical.not_not.1 fun hw => hn ⟨hr, hw⟩

/-! ### DA operands -/

/-- The post-modification of one pointer touches that pointer only (R327). -/
theorem State.postModify_frame (s : State) (m : DaMem) (n : Nat) :
    s.postModify m n = { s with
      regs := (s.postModify m n).regs
      latch := { s.latch with wroteRegs := (s.postModify m n).latch.wroteRegs } } := by
  unfold State.postModify
  split <;> rfl

/-- What every register holds after a post-modification (R327). -/
theorem State.reg_postModify (s : State) (m : DaMem) (n : Nat) (q : Reg) :
    (s.postModify m n).reg q =
      if q = m.reg then s.reg m.reg + s.daIncrement m.i n else s.reg q := by
  have h0 : m.reg ≠ 0 := by
    intro h
    have := congrArg Fin.val h
    simp [DaMem.reg] at this
  unfold State.postModify
  split
  · next hk =>
    split
    · next hq => subst hq; simp [hk, State.daIncrement]
    · rfl
  · rw [State.reg_setReg]
    simp [h0]

theorem State.postOperand_frame (s : State) (o : DaOperand) (n : Nat) :
    s.postOperand o n = { s with
      regs := (s.postOperand o n).regs
      latch := { s.latch with wroteRegs := (s.postOperand o n).latch.wroteRegs } } := by
  cases o with
  | acc => rfl
  | mem m => exact s.postModify_frame m n

theorem State.postDest_frame (s : State) (z : DaDest) (n : Nat) :
    s.postDest z n = { s with
      regs := (s.postDest z n).regs
      latch := { s.latch with wroteRegs := (s.postDest z n).latch.wroteRegs } } := by
  cases z with
  | none => rfl
  | mem m => exact s.postModify_frame m n

/-- What a Z write can do (R326). -/
theorem State.daWrite_ok {s t : State} {z : DaDest} {n : Nat} {v : Word}
    (h : s.daWrite z n v = .ok t) :
    (z = .none ∧ t = s) ∨ ∃ m, z = .mem m ∧ s.store (s.reg m.reg) n v = .ok t := by
  cases z with
  | none => cases h; exact .inl ⟨rfl, rfl⟩
  | mem m => exact .inr ⟨m, rfl, h⟩

/-- Everything the common execution of formats 1 to 4 can do (R338). -/
theorem macCommon_next {zk : ZKind} {aN : AccNo} {x y : DaOperand} {z : DaDest}
    {f : DaValue → DaValue → DauResult} {s t : State} (h : macCommon zk aN x y z f s = .next t) :
    (∃ e, t = { s.interleave.interleave with errorRequest := some e }) ∨
    ∃ xv yv u, s.daRead x 4 = .ok xv ∧ s.interleave.daRead y 4 = .ok yv ∧
      s.interleave.interleave.daWrite z 4 (zData zk (f xv yv).value yv) = .ok u ∧
      t = ((((u.setAcc aN (f xv yv).value).postOperand x 4).postOperand y 4).postDest z 4).pushFlags
        (f xv yv).entry := by
  unfold macCommon at h
  rcases resolve_next h with h | ⟨e, -, rfl⟩
  · obtain ⟨xv, hx, h⟩ := Res.bind_ok h
    obtain ⟨yv, hy, h⟩ := Res.bind_ok h
    obtain ⟨u, hu, h⟩ := Res.bind_ok h
    cases h
    exact .inr ⟨xv, yv, u, hx, hy, hu, rfl⟩
  · exact .inl ⟨e, rfl⟩

/-- Where the accesses of formats 1 to 4 succeed, the instruction does (R338). -/
theorem macCommon_of {zk : ZKind} {aN : AccNo} {x y : DaOperand} {z : DaDest}
    {f : DaValue → DaValue → DauResult} {s u : State} {xv yv : DaValue}
    (hx : s.daRead x 4 = .ok xv) (hy : s.interleave.daRead y 4 = .ok yv)
    (hu : s.interleave.interleave.daWrite z 4 (zData zk (f xv yv).value yv) = .ok u) :
    macCommon zk aN x y z f s = .next
      (((((u.setAcc aN (f xv yv).value).postOperand x 4).postOperand y 4).postDest z 4).pushFlags
        (f xv yv).entry) := by
  simp only [macCommon, hx, hy]
  show resolve _ (s.interleave.interleave.daWrite z 4 _ >>= _) = _
  rw [hu]; rfl

/-- Everything the common execution of format 5 can do (R352). -/
theorem specialCommon_next {yn zn : Nat} {aN : AccNo} {y : DaOperand} {z : DaDest}
    {f : DaValue → SpecialResult} {s t : State} (h : specialCommon yn zn aN y z f s = .next t) :
    (∃ e, t = { s.interleave with errorRequest := some e }) ∨
    ∃ yv u, s.daRead y yn = .ok yv ∧ s.interleave.zWrite z zn (f yv).zdata = .ok u ∧
      t = ((((u.setAcc aN (f yv).value).postOperand y yn).postDest z zn).pushOptional
        (f yv).flags).addDraws (f yv).draws := by
  unfold specialCommon at h
  rcases resolve_next h with h | ⟨e, -, rfl⟩
  · obtain ⟨yv, hy, h⟩ := Res.bind_ok h
    obtain ⟨u, hu, h⟩ := Res.bind_ok h
    cases h
    exact .inr ⟨yv, u, hy, hu, rfl⟩
  · exact .inl ⟨e, rfl⟩

/-- Where the accesses of format 5 succeed, the instruction does (R352). -/
theorem specialCommon_of {yn zn : Nat} {aN : AccNo} {y : DaOperand} {z : DaDest}
    {f : DaValue → SpecialResult} {s u : State} {yv : DaValue}
    (hy : s.daRead y yn = .ok yv) (hu : s.interleave.zWrite z zn (f yv).zdata = .ok u) :
    specialCommon yn zn aN y z f s = .next
      (((((u.setAcc aN (f yv).value).postOperand y yn).postDest z zn).pushOptional
        (f yv).flags).addDraws (f yv).draws) := by
  simp only [specialCommon, hy]
  show resolve _ (s.interleave.zWrite z zn _ >>= _) = _
  rw [hu]; rfl

/-! ### The end of the step -/

/-- In the default encoding a word is what `decode` says. -/
theorem State.decoded_default {s : State} (h : s.params.encoding = defaultEncoding) (w : Word) :
    s.decoded w = decode w := by
  rw [State.decoded, h, decodeWith_default]

/-- The instruction in `ir` is the one its word decodes to. -/
theorem State.irInstr_eq_some {s : State} {i : Instr} :
    s.irInstr = some i ↔ ∃ w, s.ir = .word w ∧ s.decoded w = .instr i := by
  unfold State.irInstr
  constructor
  · intro h
    split at h
    · cases h
    · next w hw =>
      split at h
      · next j hj => cases h; exact ⟨w, hw, hj⟩
      · cases h
      · cases h
  · rintro ⟨w, hw, hi⟩
    simp only [hw, hi]

/-- The sequencing at the end of a step (R190 steps 6 and 7) changes nothing else. -/
theorem State.moveOn_eq (s : State) (pf : Fetched) :
    s.moveOn pf = { s with
      pc := (s.moveOn pf).pc
      npc := (s.moveOn pf).npc
      ir := (s.moveOn pf).ir
      history := (s.moveOn pf).history
      loop := (s.moveOn pf).loop } := by
  unfold State.moveOn
  split
  · rfl
  · split <;> rfl

/-- The history only shrinks there. -/
theorem State.moveOn_history (s : State) (pf : Fetched) :
    (s.moveOn pf).history = s.history ∨ (s.moveOn pf).history = [] := by
  unfold State.moveOn
  split
  · exact .inr rfl
  · split <;> exact .inl rfl

end Sys2Proof.Machine
end

