-- ==== Sys2Proof/Laws/PerInstr.lean ====
section
/-! SUPPORT. The family `EncodeRoundTrip`: the decoder reads a well-formed instruction's word as that
instruction, one lemma per constructor. -/

namespace Sys2Proof.Laws

/-! ### What the decoder makes of a format's fields -/

theorem decode_6reg (sz : Size) (f : BitVec 4) (rD rS1 : Reg) (c : Cond) (rS2 : BitVec 5) :
    decode (wordOf (fields6reg sz f rD rS1 c rS2)) =
      if rS2 = codePlusN then aluConst f sz c rD rS1 false
      else if rS2 = codeMinusN then aluConst f sz c rD rS1 true
      else need (Reg.ofCode rS2) .register fun r => aluReg f sz c rD rS1 r := by
  cases sz
  · obtain ⟨v, hx, hf, h1, h2, h3, h4, h5⟩ := fields6reg_short_read f rD rS1 c rS2
    rw [← hx]
    simp [decode, hf, decodeFormat, decode6reg, h1, h2, h3, h4, h5, Reg.ofCode_code, Cond.ofCode_code,
      need]
  · obtain ⟨v, hx, hf, h1, h2, h3, h4, h5⟩ := fields6reg_long_read f rD rS1 c rS2
    rw [← hx]
    simp [decode, hf, decodeFormat, decode6reg, h1, h2, h3, h4, h5, Reg.ofCode_code, Cond.ofCode_code,
      need]

theorem decode_6regReg (sz : Size) (f : BitVec 4) (rD rS1 : Reg) (c : Cond) (rS2 : Reg) :
    decode (wordOf (fields6reg sz f rD rS1 c rS2.code)) = aluReg f sz c rD rS1 rS2 := by
  simp [decode_6reg, Reg.code_ne_plusN, Reg.code_ne_minusN, Reg.ofCode_code, need]

theorem decode_6regConst (sz : Size) (f : BitVec 4) (rD rS1 : Reg) (c : Cond) (dec : Bool) :
    decode (wordOf (fields6reg sz f rD rS1 c (constCode dec))) = aluConst f sz c rD rS1 dec := by
  cases dec
  · simp [decode_6reg, constCode]
  · simp [decode_6reg, constCode, codeMinusN, codePlusN]

theorem decode_6imm (sz : Size) (f : BitVec 4) (rD : Reg) (n : Half) :
    decode (wordOf (fields6imm sz f rD n)) = aluImm f sz rD n := by
  cases sz
  · obtain ⟨v, hx, hf, h1, h2, h3⟩ := fields6imm_short_read f rD n
    rw [← hx]
    simp only [decode, hf, decodeFormat, decode6imm, h1, h2, h3, Reg.ofCode_code, need]
  · obtain ⟨v, hx, hf, h1, h2, h3⟩ := fields6imm_long_read f rD n
    rw [← hx]
    simp only [decode, hf, decodeFormat, decode6imm, h1, h2, h3, Reg.ofCode_code, need]

theorem decode_5 (sz : Size) (rD : Reg) (rS3 : Source) (n : Half) :
    decode (wordOf (fieldsReg2Imm (sz.code ++ 0b00101#5) rD.code rS3.code n)) =
      if sz = .short ∧ rS3 = .reg 0 then .instr (.set rD n) else .instr (.add3 sz rD rS3 n) := by
  cases sz
  · obtain ⟨v, hx, hf, h1, h2, h3⟩ := fields5a_read rD.code rS3.code n
    rw [show wordOf (fieldsReg2Imm (Size.short.code ++ 0b00101#5) rD.code rS3.code n) = v from hx.symm]
    simp [decode, hf, decodeFormat, decode5, h1, h2, h3, Reg.ofCode_code, Source.ofCode_code, need]
  · obtain ⟨v, hx, hf, h1, h2, h3⟩ := fields5b_read rD.code rS3.code n
    rw [show wordOf (fieldsReg2Imm (Size.long.code ++ 0b00101#5) rD.code rS3.code n) = v from hx.symm]
    simp [decode, hf, decodeFormat, decode5, h1, h2, h3, Reg.ofCode_code, Source.ofCode_code, need]

theorem decode_7bStore (w : Width) (rH : Source) (io : IoReg) :
    decode (wordOf (fields7b true w rH.code io)) = decodeStoreIo w rH io := by
  obtain ⟨v, hx, hf, h1, h2, h3, h4, h5, h6, h7⟩ := fields7b_1_read w rH.code io
  rw [← hx]
  simp [decode, hf, decodeFormat, decode7bc, h1, h2, h3, h4, h5, h6, h7, Width.ofCode_code,
    IoReg.ofCode_code, Source.ofCode_code, need]

theorem decode_da1 (m : BitVec 3) (f s : Bool) (aN : AccNo) (x y : DaOperand) (z : DaDest)
    (hm : m.toNat < 6) :
    decode (wordOf (fieldsDa 1#3 m f s aN x y z)) = mac1 m f s aN x y z := by
  obtain ⟨v, hx, hf, h1, h2, h3, h4, h5, h6, h7, h8, _⟩ := fieldsDa_1_read m f s aN x y z hm
  rw [← hx]
  cases f <;> cases s <;>
    simp [decode, hf, decodeFormat, decodeDa1, decodeDa, h1, h2, h3, h4, h5, h6, h7, h8,
      DaOperand.ofCode_code, DaDest.ofCode_code, need]

theorem decode_da2 (m : BitVec 3) (f s : Bool) (aN : AccNo) (x y : DaOperand) (z : DaDest)
    (hm : m.toNat < 6) :
    decode (wordOf (fieldsDa 2#3 m f s aN x y z)) = mac2 m f s aN x y z := by
  obtain ⟨v, hx, hf, h1, h2, h3, h4, h5, h6, h7, h8, _⟩ := fieldsDa_2_read m f s aN x y z hm
  rw [← hx]
  cases f <;> cases s <;>
    simp [decode, hf, decodeFormat, decodeDa2, decodeDa, h1, h2, h3, h4, h5, h6, h7, h8,
      DaOperand.ofCode_code, DaDest.ofCode_code, need]

theorem decode_da3 (m : BitVec 3) (f s : Bool) (aN : AccNo) (x y : DaOperand) (z : DaDest)
    (hm : m.toNat < 6) :
    decode (wordOf (fieldsDa 3#3 m f s aN x y z)) = mac3 m f s aN x y z := by
  obtain ⟨v, hx, hf, h1, h2, h3, h4, h5, h6, h7, h8, _⟩ := fieldsDa_3_read m f s aN x y z hm
  rw [← hx]
  cases f <;> cases s <;>
    simp [decode, hf, decodeFormat, decodeDa3, decodeDa, h1, h2, h3, h4, h5, h6, h7, h8,
      DaOperand.ofCode_code, DaDest.ofCode_code, need]

/-- The field M of an accumulator is none of the constants, and its low bits name it (R162). -/
theorem accField_lt (a : AccNo) : (accField a).toNat < 4 := by revert a; decide

theorem accField_setWidth (a : AccNo) : AccNo.ofCode ((accField a).setWidth 2) = a := by
  revert a; decide

theorem decode_da5 (g : BitVec 4) (aN : AccNo) (y : DaOperand) (z : DaDest) :
    decode (wordOf (fieldsDa5 g aN y z)) = specialOf g aN y z := by
  obtain ⟨v, hx, hf, h1, h2, h3, h4, h5⟩ := fieldsDa5_read g aN y z
  rw [← hx]
  simp only [decode, hf, decodeFormat, decodeDa5, h1, h2, h3, h4, h5, DaOperand.ofCode_code,
    DaDest.ofCode_code, need]
  rfl

namespace EncodeRoundTrip

/-- A well-formed instruction's word decodes to it (R130, R132). -/
def Statement (i : Instr) : Prop := WellFormed i = true → decode (encode i) = .instr i

theorem ifGoto (c : Cond) (rB : Base) (n : Half) : Statement (.ifGoto c rB n) := by
  intro hw
  obtain ⟨v, hx, hf, hn, hb, hc⟩ := fields0b_read c rB.code n
  rw [show encode (.ifGoto c rB n) = v from hx.symm]
  simp [decode, hf, decodeFormat, decode0b, hn, hb, hc, need, Cond.ofCode_code, Base.ofCode_code, Base.code_ne_pcsh]
  cases c <;> simp_all [WellFormed]

theorem goto (rB : Base) (n : Half) : Statement (.goto rB n) := by
  intro hw
  obtain ⟨v, hx, hf, hn, hb, hc⟩ := fields0b_read .always rB.code n
  rw [show encode (.goto rB n) = v from hx.symm]
  simp [decode, hf, decodeFormat, decode0b, hn, hb, hc, need, Cond.ofCode_code, Base.ofCode_code, Base.code_ne_pcsh]
  cases rB <;> simp_all [WellFormed]

theorem nop (rB : Base) (n : Half) : Statement (.nop rB n) := by
  intro hw
  obtain ⟨v, hx, hf, hn, hb, hc⟩ := fields0b_read .never rB.code n
  rw [show encode (.nop rB n) = v from hx.symm]
  simp [decode, hf, decodeFormat, decode0b, hn, hb, hc, need, Cond.ofCode_code, Base.ofCode_code, Base.code_ne_pcsh]

theorem ret (rM : Reg) : Statement (.ret rM) := by
  intro hw
  obtain ⟨v, hx, hf, hn, hb, hc⟩ := fields0b_read .always rM.code 0#16
  rw [show encode (.ret rM) = v from hx.symm]
  have h1 : Base.ofCode rM.code = some (.reg rM) := Base.ofCode_code (.reg rM)
  simp [decode, hf, decodeFormat, decode0b, hn, hb, hc, need, Cond.ofCode_code, h1, Reg.code_ne_pcsh]
  simp_all [WellFormed, isReturnForm]

theorem ireturn : Statement .ireturn := by
  intro _; decide

theorem goto24 (rB : Base) (m : BitVec 24) : Statement (.goto24 rB m) := by
  intro _
  obtain ⟨v, hx, hf, hb, hh, hl⟩ := fields8a_read rB.code m
  rw [show encode (.goto24 rB m) = v from hx.symm]
  simp only [decode, hf, decodeFormat, imm24, hb, hh, hl, imm24_append,
    Base.ofCode_code, need]

theorem loopGoto (rM : Reg) (rB : Base) (n : Half) : Statement (.loopGoto rM rB n) := by
  intro hw
  obtain ⟨v, hx, hf, hn, hb, ha⟩ := fields3a_read rM.code rB.code n
  rw [show encode (.loopGoto rM rB n) = v from hx.symm]
  simp [decode, hf, decodeFormat, hn, hb, ha, Base.ofCode_code, Reg.ofCode_code,
    need, accept, hw]

theorem call (rM : Reg) (rB : Base) (n : Half) : Statement (.call rM rB n) := by
  intro hw
  obtain ⟨v, hx, hf, hn, hb, ha⟩ := fields4a_read rM.code rB.code n
  rw [show encode (.call rM rB n) = v from hx.symm]
  simp [decode, hf, decodeFormat, hn, hb, ha, Base.ofCode_code, Reg.ofCode_code,
    need, accept, hw]

theorem call24 (rM : Reg) (m : BitVec 24) : Statement (.call24 rM m) := by
  intro hw
  obtain ⟨v, hx, hf, hb, hh, hl⟩ := fields8c_read rM.code m
  rw [show encode (.call24 rM m) = v from hx.symm]
  simp only [decode, hf, decodeFormat, imm24, hb, hh, hl, imm24_append,
    Reg.ofCode_code, need, accept, hw, if_true]

theorem doImm (k : BitVec 7) (l : BitVec 11) : Statement (.doImm k l) := by
  intro hw
  obtain ⟨v, hx, hf, h1, h2, h3, h4⟩ := fields3b_00_read k l
  rw [show encode (.doImm k l) = v from hx.symm]
  simp [decode, hf, decodeFormat, decodeDo, h1, h2, h3, h4, accept, hw]

theorem doReg (k : BitVec 7) (rM : Reg) : Statement (.doReg k rM) := by
  intro hw
  obtain ⟨v, hx, hf, h1, h2, h3, h4⟩ := fields3c_00_read k rM
  rw [show encode (.doReg k rM) = v from hx.symm]
  simp [decode, hf, decodeFormat, decodeDo, h1, h2, h3, h4, Reg.ofCode_code, need,
    accept, hw]

theorem dolockImm (k : BitVec 7) (l : BitVec 11) : Statement (.dolockImm k l) := by
  intro hw
  obtain ⟨v, hx, hf, h1, h2, h3, h4⟩ := fields3b_01_read k l
  rw [show encode (.dolockImm k l) = v from hx.symm]
  simp [decode, hf, decodeFormat, decodeDo, h1, h2, h3, h4, accept, hw]

theorem dolockReg (k : BitVec 7) (rM : Reg) : Statement (.dolockReg k rM) := by
  intro hw
  obtain ⟨v, hx, hf, h1, h2, h3, h4⟩ := fields3c_01_read k rM
  rw [show encode (.dolockReg k rM) = v from hx.symm]
  simp [decode, hf, decodeFormat, decodeDo, h1, h2, h3, h4, Reg.ofCode_code, need,
    accept, hw]

theorem doblockImm (l : BitVec 11) : Statement (.doblockImm l) := by
  intro hw
  obtain ⟨v, hx, hf, h1, h2, h3, h4⟩ := fields3b_10_read 0#7 l
  rw [show encode (.doblockImm l) = v from hx.symm]
  simp [decode, hf, decodeFormat, decodeDo, h1, h2, h3, h4, accept, hw]

theorem doblockReg (rM : Reg) : Statement (.doblockReg rM) := by
  intro hw
  obtain ⟨v, hx, hf, h1, h2, h3, h4⟩ := fields3c_10_read 0#7 rM
  rw [show encode (.doblockReg rM) = v from hx.symm]
  simp [decode, hf, decodeFormat, decodeDo, h1, h2, h3, h4, Reg.ofCode_code, need,
    accept, hw]

theorem sftrst (w0 : Bool) : Statement (.sftrst w0) := by
  intro _
  revert w0; decide

theorem waiti : Statement .waiti := by
  intro _; decide

theorem bkpt (w0 : Bool) : Statement (.bkpt w0) := by
  intro _
  revert w0; decide

theorem add3 (sz : Size) (rD : Reg) (rS3 : Source) (n : Half) : Statement (.add3 sz rD rS3 n) := by
  intro hw
  have h := decode_5 sz rD rS3 n
  cases sz <;> simp_all [encode, encodeFields, WellFormed]

theorem set (rD : Reg) (n : Half) : Statement (.set rD n) := by
  intro _
  exact (decode_5 .short rD (.reg 0) n).trans rfl

theorem addReg (sz : Size) (c : Cond) (rD : Reg) (rS1 : Reg) (rS2 : Reg) :
    Statement (.addReg sz c rD rS1 rS2) := by
  intro _
  exact (decode_6regReg sz _ rD rS1 c rS2).trans rfl

theorem incDec (sz : Size) (c : Cond) (rD : Reg) (rS : Reg) (dec : Bool) :
    Statement (.incDec sz c rD rS dec) := by
  intro hw
  refine (decode_6regConst sz _ rD rS c dec).trans ?_
  have h : rS ≠ Reg.sp := by intro h; subst h; simp [WellFormed] at hw
  simp [aluConst, h, accept, hw]

theorem spIncDec (c : Cond) (dec : Bool) : Statement (.spIncDec c dec) := by
  intro _
  exact (decode_6regConst .long _ Reg.sp Reg.sp c dec).trans rfl

theorem subReg (sz : Size) (c : Cond) (rD : Reg) (rS1 : Reg) (rS2 : Reg) :
    Statement (.subReg sz c rD rS1 rS2) := by
  intro hw
  refine (decode_6regReg sz _ rD rS1 c rS2).trans ?_
  have h : rS1 ≠ 0 := by intro h; subst h; simp [WellFormed] at hw
  simp [aluReg, h]

theorem subImm (sz : Size) (rD : Reg) (n : Half) : Statement (.subImm sz rD n) := by
  intro _
  exact (decode_6imm sz _ rD n).trans rfl

theorem rsubImm (sz : Size) (rD : Reg) (n : Half) : Statement (.rsubImm sz rD n) := by
  intro _
  exact (decode_6imm sz _ rD n).trans rfl

theorem neg (sz : Size) (c : Cond) (rD : Reg) (rS : Reg) : Statement (.neg sz c rD rS) := by
  intro _
  exact (decode_6regReg sz _ rD 0 c rS).trans rfl

theorem cmpReg (sz : Size) (c : Cond) (rD : Reg) (rS1 : Reg) (rS2 : Reg) :
    Statement (.cmpReg sz c rD rS1 rS2) := by
  intro _
  exact (decode_6regReg sz _ rD rS1 c rS2).trans rfl

theorem cmpImm (sz : Size) (rD : Reg) (n : Half) : Statement (.cmpImm sz rD n) := by
  intro _
  exact (decode_6imm sz _ rD n).trans rfl

theorem crAddReg (sz : Size) (c : Cond) (rD : Reg) (rS1 : Reg) (rS2 : Reg) :
    Statement (.crAddReg sz c rD rS1 rS2) := by
  intro _
  exact (decode_6regReg sz _ rD rS1 c rS2).trans rfl

theorem crAddImm (sz : Size) (rD : Reg) (n : Half) : Statement (.crAddImm sz rD n) := by
  intro _
  exact (decode_6imm sz _ rD n).trans rfl

theorem andReg (sz : Size) (c : Cond) (rD : Reg) (rS1 : Reg) (rS2 : Reg) :
    Statement (.andReg sz c rD rS1 rS2) := by
  intro _
  exact (decode_6regReg sz _ rD rS1 c rS2).trans rfl

theorem andImm (sz : Size) (rD : Reg) (n : Half) : Statement (.andImm sz rD n) := by
  intro _
  exact (decode_6imm sz _ rD n).trans rfl

theorem bitReg (sz : Size) (c : Cond) (rD : Reg) (rS1 : Reg) (rS2 : Reg) :
    Statement (.bitReg sz c rD rS1 rS2) := by
  intro _
  exact (decode_6regReg sz _ rD rS1 c rS2).trans rfl

theorem bitImm (sz : Size) (rD : Reg) (n : Half) : Statement (.bitImm sz rD n) := by
  intro _
  exact (decode_6imm sz _ rD n).trans rfl

theorem andcReg (sz : Size) (c : Cond) (rD : Reg) (rS1 : Reg) (rS2 : Reg) :
    Statement (.andcReg sz c rD rS1 rS2) := by
  intro _
  exact (decode_6regReg sz _ rD rS1 c rS2).trans rfl

theorem orReg (sz : Size) (c : Cond) (rD : Reg) (rS1 : Reg) (rS2 : Reg) :
    Statement (.orReg sz c rD rS1 rS2) := by
  intro _
  exact (decode_6regReg sz _ rD rS1 c rS2).trans rfl

theorem orImm (sz : Size) (rD : Reg) (n : Half) : Statement (.orImm sz rD n) := by
  intro _
  exact (decode_6imm sz _ rD n).trans rfl

theorem xorReg (sz : Size) (c : Cond) (rD : Reg) (rS1 : Reg) (rS2 : Reg) :
    Statement (.xorReg sz c rD rS1 rS2) := by
  intro _
  exact (decode_6regReg sz _ rD rS1 c rS2).trans rfl

theorem xorImm (sz : Size) (rD : Reg) (n : Half) : Statement (.xorImm sz rD n) := by
  intro _
  exact (decode_6imm sz _ rD n).trans rfl

theorem shlReg (sz : Size) (c : Cond) (rD : Reg) (rS1 : Reg) (rS2 : Reg) :
    Statement (.shlReg sz c rD rS1 rS2) := by
  intro _
  exact (decode_6regReg sz _ rD rS1 c rS2).trans rfl

theorem shlImm (sz : Size) (rD : Reg) (n : Half) : Statement (.shlImm sz rD n) := by
  intro _
  exact (decode_6imm sz _ rD n).trans rfl

theorem shrReg (sz : Size) (c : Cond) (rD : Reg) (rS1 : Reg) (rS2 : Reg) :
    Statement (.shrReg sz c rD rS1 rS2) := by
  intro _
  exact (decode_6regReg sz _ rD rS1 c rS2).trans rfl

theorem shrImm (sz : Size) (rD : Reg) (n : Half) : Statement (.shrImm sz rD n) := by
  intro _
  exact (decode_6imm sz _ rD n).trans rfl

theorem sarReg (sz : Size) (c : Cond) (rD : Reg) (rS1 : Reg) (rS2 : Reg) :
    Statement (.sarReg sz c rD rS1 rS2) := by
  intro _
  exact (decode_6regReg sz _ rD rS1 c rS2).trans rfl

theorem sarImm (sz : Size) (rD : Reg) (n : Half) : Statement (.sarImm sz rD n) := by
  intro _
  exact (decode_6imm sz _ rD n).trans rfl

theorem shl1 (sz : Size) (c : Cond) (rD : Reg) (rS : Reg) : Statement (.shl1 sz c rD rS) := by
  intro hw
  refine (decode_6regConst sz _ rD rS c false).trans ?_
  simp [aluConst, accept, hw]

theorem shr1 (sz : Size) (c : Cond) (rD : Reg) (rS : Reg) : Statement (.shr1 sz c rD rS) := by
  intro hw
  refine (decode_6regConst sz _ rD rS c false).trans ?_
  simp [aluConst, accept, hw]

theorem half (sz : Size) (c : Cond) (rD : Reg) (rS : Reg) : Statement (.half sz c rD rS) := by
  intro hw
  refine (decode_6regConst sz _ rD rS c false).trans ?_
  simp [aluConst, accept, hw]

theorem ror1 (sz : Size) (c : Cond) (rD : Reg) (rS : Reg) (rS2 : Reg) :
    Statement (.ror1 sz c rD rS rS2) := by
  intro _
  exact (decode_6regReg sz _ rD rS c rS2).trans rfl

theorem rol1 (sz : Size) (c : Cond) (rD : Reg) (rS : Reg) (rS2 : Reg) :
    Statement (.rol1 sz c rD rS rS2) := by
  intro _
  exact (decode_6regReg sz _ rD rS c rS2).trans rfl

theorem shiftOr (rD : Reg) (rS : Reg) (n : Half) : Statement (.shiftOr rD rS n) := by
  intro _
  obtain ⟨v, hx, hf, hn, hb, ha⟩ := fields4b_read rD.code rS.code n
  rw [show encode (.shiftOr rD rS n) = v from hx.symm]
  simp [decode, hf, decodeFormat, hn, hb, ha, Reg.ofCode_code, need]

theorem set24 (rD : Reg) (m : BitVec 24) : Statement (.set24 rD m) := by
  intro _
  obtain ⟨v, hx, hf, hb, hh, hl⟩ := fields8b_read rD.code m
  rw [show encode (.set24 rD m) = v from hx.symm]
  simp only [decode, hf, decodeFormat, imm24, hb, hh, hl, imm24_append,
    Reg.ofCode_code, need]

theorem loadDirect (w : Width) (rH : LoadDest) (l : Half) : Statement (.loadDirect w rH l) := by
  intro _
  obtain ⟨v, hx, hf, h1, h2, h3, h4⟩ := fields7a_0_read w rH.code l
  rw [show encode (.loadDirect w rH l) = v from hx.symm]
  simp [decode, hf, decodeFormat, h1, h2, h3, h4, Width.ofCode_code,
    LoadDest.ofCode_code, need]

theorem storeDirect (w : Width) (rH : Source) (l : Half) : Statement (.storeDirect w rH l) := by
  intro _
  obtain ⟨v, hx, hf, h1, h2, h3, h4⟩ := fields7a_1_read w rH.code l
  rw [show encode (.storeDirect w rH l) = v from hx.symm]
  simp [decode, hf, decodeFormat, h1, h2, h3, h4, Width.ofCode_code,
    Source.ofCode_code, need]

theorem loadMem (w : Width) (rH : LoadDest) (rP : Reg) (rI : Increment) :
    Statement (.loadMem w rH rP rI) := by
  intro _
  obtain ⟨v, hx, hf, h1, h2, h3, h4, h5, h6, h7⟩ := fields7c_0_read w rH.code rP rI
  rw [show encode (.loadMem w rH rP rI) = v from hx.symm]
  simp [decode, hf, decodeFormat, decode7bc, h1, h2, h3, h4, h5, h6, h7,
    Width.ofCode_code, LoadDest.ofCode_code, Reg.ofCode_code, Increment.ofCode_code, need]

theorem storeMem (w : Width) (rH : Source) (rP : Reg) (rI : Increment) :
    Statement (.storeMem w rH rP rI) := by
  intro _
  obtain ⟨v, hx, hf, h1, h2, h3, h4, h5, h6, h7⟩ := fields7c_1_read w rH.code rP rI
  rw [show encode (.storeMem w rH rP rI) = v from hx.symm]
  simp [decode, hf, decodeFormat, decode7bc, h1, h2, h3, h4, h5, h6, h7,
    Width.ofCode_code, Source.ofCode_code, Reg.ofCode_code, Increment.ofCode_code, need]

theorem loadIo (w : Width) (rH : Reg) (io : IoReg) : Statement (.loadIo w rH io) := by
  intro _
  obtain ⟨v, hx, hf, h1, h2, h3, h4, h5, h6, h7⟩ := fields7b_0_read w rH.code io
  rw [show encode (.loadIo w rH io) = v from hx.symm]
  simp [decode, hf, decodeFormat, decode7bc, h1, h2, h3, h4, h5, h6, h7,
    Width.ofCode_code, IoReg.ofCode_code, Reg.ofCode_code, need]

theorem storeIo (w : Width) (rH : Source) (io : IoReg) : Statement (.storeIo w rH io) := by
  intro hw
  refine (decode_7bStore w rH io).trans ?_
  by_cases h : io = .spc ∧ rH = .reg 0
  · obtain ⟨rfl, rfl⟩ := h
    cases w <;> simp_all [WellFormed, decodeStoreIo, Width.isCommand]
  · simp [decodeStoreIo, h]

theorem loadIor (w : Width) (io : IoReg) (rP : Reg) (rI : Increment) :
    Statement (.loadIor w io rP rI) := by
  intro _
  obtain ⟨v, hx, hf, h1, h2, h3, h4, h5, h6⟩ := fields7d_0_read w io rP rI
  rw [show encode (.loadIor w io rP rI) = v from hx.symm]
  simp [decode, hf, decodeFormat, decode7d, h1, h2, h3, h4, h5, h6,
    Width.ofCode_code, IoReg.ofCode_code, Reg.ofCode_code, Increment.ofCode_code, need]

theorem storeIor (w : Width) (io : IoReg) (rP : Reg) (rI : Increment) :
    Statement (.storeIor w io rP rI) := by
  intro _
  obtain ⟨v, hx, hf, h1, h2, h3, h4, h5, h6⟩ := fields7d_1_read w io rP rI
  rw [show encode (.storeIor w io rP rI) = v from hx.symm]
  simp [decode, hf, decodeFormat, decode7d, h1, h2, h3, h4, h5, h6,
    Width.ofCode_code, IoReg.ofCode_code, Reg.ofCode_code, Increment.ofCode_code, need]

theorem fmultAccStore (aM : AccNo) (negT : Bool) (negP : Bool) (aN : AccNo) (x : DaOperand) (y : DaOperand) (z : DaDest) :
    Statement (.fmultAccStore aM negT negP aN x y z) := by
  intro _
  have hlt := accField_lt aM
  refine (decode_da3 (accField aM) negT negP aN x y z (by omega)).trans ?_
  simp only [mac3]
  split <;> first | omega | simp [accField_setWidth]

theorem fmultAccTap (aM : AccNo) (negT : Bool) (negP : Bool) (aN : AccNo) (x : DaOperand) (y : DaOperand) (z : DaDest) :
    Statement (.fmultAccTap aM negT negP aN x y z) := by
  intro _
  have hlt := accField_lt aM
  refine (decode_da2 (accField aM) negT negP aN x y z (by omega)).trans ?_
  simp only [mac2]
  split <;> first | omega | simp [accField_setWidth]

theorem fmultAddStore (aM : AccNo) (negT : Bool) (negP : Bool) (aN : AccNo) (x : DaOperand) (y : DaOperand) (z : DaDest) :
    Statement (.fmultAddStore aM negT negP aN x y z) := by
  intro _
  have hlt := accField_lt aM
  refine (decode_da1 (accField aM) negT negP aN x y z (by omega)).trans ?_
  simp only [mac1]
  split <;> first | omega | simp [accField_setWidth]

theorem fmultStore (negP : Bool) (aN : AccNo) (x : DaOperand) (y : DaOperand) (z : DaDest) :
    Statement (.fmultStore negP aN x y z) := by
  intro _
  exact (decode_da3 4#3 false negP aN x y z (by decide)).trans rfl

theorem fmultTap (negP : Bool) (aN : AccNo) (x : DaOperand) (y : DaOperand) (z : DaDest) :
    Statement (.fmultTap negP aN x y z) := by
  intro _
  exact (decode_da2 4#3 false negP aN x y z (by decide)).trans rfl

theorem faddStore (negT : Bool) (negP : Bool) (aN : AccNo) (x : DaOperand) (y : DaOperand) (z : DaDest) :
    Statement (.faddStore negT negP aN x y z) := by
  intro _
  exact (decode_da1 5#3 negT negP aN x y z (by decide)).trans rfl

theorem faddTap (negT : Bool) (negP : Bool) (aN : AccNo) (x : DaOperand) (y : DaOperand) (z : DaDest) :
    Statement (.faddTap negT negP aN x y z) := by
  intro _
  obtain ⟨v, hx, hf, h1, h2, h3, h4, h5, h6, h7⟩ := fieldsDa_4_read negT negP aN x y z
  rw [show encode (.faddTap negT negP aN x y z) = v from hx.symm]
  cases negT <;> cases negP <;>
    simp [decode, hf, decodeFormat, decodeDa4, decodeDa, h1, h2, h3, h4, h5, h6,
      h7, DaOperand.ofCode_code, DaDest.ofCode_code, need]

theorem floadStore (negT : Bool) (aN : AccNo) (y : DaOperand) (z : DaDest) :
    Statement (.floadStore negT aN y z) := by
  intro _
  exact (decode_da1 4#3 negT false aN (.acc 0) y z (by decide)).trans rfl

theorem fzeroAddStore (negT : Bool) (negP : Bool) (aN : AccNo) (x : DaOperand) (y : DaOperand) (z : DaDest) :
    Statement (.fzeroAddStore negT negP aN x y z) := by
  intro hw
  refine (decode_da1 4#3 negT negP aN x y z (by decide)).trans ?_
  have : (!negP && x == .acc 0) = false := by cases negP <;> simp_all [WellFormed]
  simp [mac1, this]

theorem fconstTap (one : Bool) (negT : Bool) (negP : Bool) (aN : AccNo) (x : DaOperand) (y : DaOperand) (z : DaDest) :
    Statement (.fconstTap one negT negP aN x y z) := by
  intro hw
  cases one
  · have h : negT = true := by simpa [WellFormed] using hw
    subst h
    exact (decode_da2 4#3 true negP aN x y z (by decide)).trans rfl
  · exact (decode_da2 5#3 negT negP aN x y z (by decide)).trans rfl

theorem fconstStore (one : Bool) (negT : Bool) (negP : Bool) (aN : AccNo) (x : DaOperand) (y : DaOperand) (z : DaDest) :
    Statement (.fconstStore one negT negP aN x y z) := by
  intro hw
  cases one
  · have h : negT = true := by simpa [WellFormed] using hw
    subst h
    exact (decode_da3 4#3 true negP aN x y z (by decide)).trans rfl
  · exact (decode_da3 5#3 negT negP aN x y z (by decide)).trans rfl

theorem ic (aN : AccNo) (y : DaOperand) (z : DaDest) : Statement (.ic aN y z) := by
  intro _
  exact (decode_da5 _ aN y z).trans rfl

theorem oc (aN : AccNo) (y : DaOperand) (z : DaDest) : Statement (.oc aN y z) := by
  intro _
  exact (decode_da5 _ aN y z).trans rfl

theorem float16 (aN : AccNo) (y : DaOperand) (z : DaDest) : Statement (.float16 aN y z) := by
  intro _
  exact (decode_da5 _ aN y z).trans rfl

theorem int16 (aN : AccNo) (y : DaOperand) (z : DaDest) : Statement (.int16 aN y z) := by
  intro _
  exact (decode_da5 _ aN y z).trans rfl

theorem round (aN : AccNo) (y : DaOperand) (z : DaDest) : Statement (.round aN y z) := by
  intro _
  exact (decode_da5 _ aN y z).trans rfl

theorem ifalt (aN : AccNo) (y : DaOperand) (z : DaDest) : Statement (.ifalt aN y z) := by
  intro _
  exact (decode_da5 _ aN y z).trans rfl

theorem ifaeq (aN : AccNo) (y : DaOperand) (z : DaDest) : Statement (.ifaeq aN y z) := by
  intro _
  exact (decode_da5 _ aN y z).trans rfl

theorem ifagt (aN : AccNo) (y : DaOperand) (z : DaDest) : Statement (.ifagt aN y z) := by
  intro _
  exact (decode_da5 _ aN y z).trans rfl

theorem float32 (aN : AccNo) (y : DaOperand) (z : DaDest) : Statement (.float32 aN y z) := by
  intro _
  exact (decode_da5 _ aN y z).trans rfl

theorem int32 (aN : AccNo) (y : DaOperand) (z : DaDest) : Statement (.int32 aN y z) := by
  intro _
  exact (decode_da5 _ aN y z).trans rfl

theorem ieee (aN : AccNo) (y : DaOperand) (z : DaDest) : Statement (.ieee aN y z) := by
  intro _
  exact (decode_da5 _ aN y z).trans rfl

theorem dsp (aN : AccNo) (y : DaOperand) (z : DaDest) : Statement (.dsp aN y z) := by
  intro _
  exact (decode_da5 _ aN y z).trans rfl

theorem seed (aN : AccNo) (y : DaOperand) (z : DaDest) : Statement (.seed aN y z) := by
  intro _
  exact (decode_da5 _ aN y z).trans rfl

end EncodeRoundTrip
end Sys2Proof.Laws
end

