-- ==== Sys2Proof/Tests/Slice0.lean ====
section
/-! SUPPORT. The tests: a term that each check of WellFormed refuses, a word written out for every constructor,
vectors of 95_test_vectors.md, and a witness for the hypotheses of every statement that has some. -/

namespace Sys2Proof.Tests

set_option Elab.async false

open Sys2Proof Sys2Proof.Machine

/-! ### WellFormed refuses -/

theorem test_wf_ifGoto_never : WellFormed (.ifGoto .never (.reg 1) 0) = false := by decide
theorem test_wf_ifGoto_always : WellFormed (.ifGoto .always (.reg 1) 4) = false := by decide
theorem test_wf_goto_return : WellFormed (.goto (.reg 18) 0) = false := by decide
theorem test_wf_ret_r0 : WellFormed (.ret 0) = false := by decide
theorem test_wf_loopGoto_r0 : WellFormed (.loopGoto 0 (.reg 1) 0) = false := by decide
theorem test_wf_call_r0 : WellFormed (.call 0 .pc 8) = false := by decide
theorem test_wf_call24_r0 : WellFormed (.call24 0 0x123456) = false := by decide
theorem test_wf_doReg_r0 : WellFormed (.doReg 2 0) = false := by decide
theorem test_wf_dolockReg_r0 : WellFormed (.dolockReg 2 0) = false := by decide
theorem test_wf_doblockReg_r0 : WellFormed (.doblockReg 0) = false := by decide
theorem test_wf_add3_short_r0 : WellFormed (.add3 .short 1 (.reg 0) 5) = false := by decide
theorem test_wf_incDec_to_sp : WellFormed (.incDec .long .always 21 1 false) = false := by decide
theorem test_wf_incDec_of_sp : WellFormed (.incDec .long .always 1 21 false) = false := by decide
theorem test_wf_subReg_from_r0 : WellFormed (.subReg .long .always 2 0 1) = false := by decide
theorem test_wf_shl1_sp : WellFormed (.shl1 .long .always 1 21) = false := by decide
theorem test_wf_shr1_sp_short : WellFormed (.shr1 .short .always 21 21) = false := by decide
theorem test_wf_half_sp : WellFormed (.half .long .always 2 21) = false := by decide
theorem test_wf_storeIo_command : WellFormed (.storeIo .byte (.reg 0) .spc) = false := by decide
theorem test_wf_fzeroAdd_fload : WellFormed (.fzeroAddStore true false 0 (.acc 0) (.mem ⟨1, .keep⟩) .none) = false := by decide
theorem test_wf_fconstTap_ftap : WellFormed (.fconstTap false false true 0 (.acc 0) (.mem ⟨1, .keep⟩) .none) = false := by decide
theorem test_wf_fconstStore_fmult : WellFormed (.fconstStore false false true 0 (.acc 1) (.mem ⟨1, .keep⟩) .none) = false := by decide

/-! ### Decoding: one written-out word for every constructor

The words are those of 95_test_vectors.md; the others are put together from the fields of
30_encoding.md, given beside them from bit 31 down. -/

/-- C1 -/
theorem test_decode_ifGoto : decode 0x80A10004#32 = .instr (.ifGoto .eq (.reg 1) 4) := by decide
/-- C6 -/
theorem test_decode_goto : decode 0x802FFFF8#32 = .instr (.goto .pc 0xFFF8) := by decide
/-- C9 -/
theorem test_decode_nop : decode 0x80000000#32 = .instr (.nop (.reg 0) 0) := by decide
/-- C17 -/
theorem test_decode_ret : decode 0x80340000#32 = .instr (.ret 18) := by decide
/-- C22 -/
theorem test_decode_ireturn : decode 0x803E0000#32 = .instr (.ireturn) := by decide
/-- C8 -/
theorem test_decode_goto24 : decode 0xA2413456#32 = .instr (.goto24 (.reg 1) 0x123456) := by decide
/-- program P1 -/
theorem test_decode_loopGoto : decode 0x0C4FFFF0#32 = .instr (.loopGoto 2 .pc 0xFFF0) := by decide
/-- C14 -/
theorem test_decode_call : decode 0x12810008#32 = .instr (.call 18 (.reg 1) 8) := by decide
/-- C16 -/
theorem test_decode_call24 : decode 0xE2543456#32 = .instr (.call24 18 0x123456) := by decide
/-- C18 -/
theorem test_decode_doImm : decode 0x8C020007#32 = .instr (.doImm 2 7) := by decide
/-- C19 -/
theorem test_decode_doReg : decode 0x8E000004#32 = .instr (.doReg 0 4) := by decide
/-- C20 -/
theorem test_decode_dolockImm : decode 0x8C810003#32 = .instr (.dolockImm 1 3) := by decide
/-- 1000111, B 0, M 1, 0000001, rM 00100 -/
theorem test_decode_dolockReg : decode 0x8E810004#32 = .instr (.dolockReg 1 4) := by decide
/-- C21 -/
theorem test_decode_doblockImm : decode 0x8D000003#32 = .instr (.doblockImm 3) := by decide
/-- 1000111, B 1, M 0, rM 00100 -/
theorem test_decode_doblockReg : decode 0x8F000004#32 = .instr (.doblockReg 4) := by decide
/-- M33 -/
theorem test_decode_sftrst : decode 0x9D00040A#32 = .instr (.sftrst false) := by decide
/-- M31 -/
theorem test_decode_waiti : decode 0x9DE0040A#32 = .instr (.waiti) := by decide
/-- M32 -/
theorem test_decode_bkpt : decode 0x9D60040A#32 = .instr (.bkpt true) := by decide
/-- A4 -/
theorem test_decode_add3 : decode 0x94618000#32 = .instr (.add3 .long 3 (.reg 1) 0x8000) := by decide
/-- M18 -/
theorem test_decode_set : decode 0x14208000#32 = .instr (.set 1 0x8000) := by decide
/-- A8 -/
theorem test_decode_addReg : decode 0x980308A2#32 = .instr (.addReg .long .eq 3 1 2) := by decide
/-- A35 -/
theorem test_decode_incDec : decode 0x98010836#32 = .instr (.incDec .long .always 1 1 true) := by decide
/-- A38 -/
theorem test_decode_spIncDec : decode 0x9819C837#32 = .instr (.spIncDec .always false) := by decide
/-- A10 -/
theorem test_decode_subReg : decode 0x98830822#32 = .instr (.subReg .long .always 3 1 2) := by decide
/-- A11 -/
theorem test_decode_subImm : decode 0x9A810001#32 = .instr (.subImm .long 1 1) := by decide
/-- A13 -/
theorem test_decode_rsubImm : decode 0x9A41000A#32 = .instr (.rsubImm .long 1 10) := by decide
/-- A20 -/
theorem test_decode_neg : decode 0x18820021#32 = .instr (.neg .short .always 2 1) := by decide
/-- A16 -/
theorem test_decode_cmpReg : decode 0x98E00822#32 = .instr (.cmpReg .long .always 0 1 2) := by decide
/-- A15 -/
theorem test_decode_cmpImm : decode 0x9AE10005#32 = .instr (.cmpImm .long 1 5) := by decide
/-- A21 -/
theorem test_decode_crAddReg : decode 0x98630822#32 = .instr (.crAddReg .long .always 3 1 2) := by decide
/-- A24 -/
theorem test_decode_crAddImm : decode 0x1A614000#32 = .instr (.crAddImm .short 1 0x4000) := by decide
/-- 1001100, F 1110, rD 00011, rS1 00001, C 000001, rS2 00010 -/
theorem test_decode_andReg : decode 0x99C30822#32 = .instr (.andReg .long .always 3 1 2) := by decide
/-- A40 -/
theorem test_decode_andImm : decode 0x9BC1FBFF#32 = .instr (.andImm .long 1 0xFBFF) := by decide
/-- 1001100, F 1111, rD 00000, rS1 00001, C 000001, rS2 00010 -/
theorem test_decode_bitReg : decode 0x99E00822#32 = .instr (.bitReg .long .always 0 1 2) := by decide
/-- A41 -/
theorem test_decode_bitImm : decode 0x9BE12000#32 = .instr (.bitImm .long 1 0x2000) := by decide
/-- A25 -/
theorem test_decode_andcReg : decode 0x98C30822#32 = .instr (.andcReg .long .always 3 1 2) := by decide
/-- A43 -/
theorem test_decode_orReg : decode 0x99430822#32 = .instr (.orReg .long .always 3 1 2) := by decide
/-- A44 -/
theorem test_decode_orImm : decode 0x1B418000#32 = .instr (.orImm .short 1 0x8000) := by decide
/-- A45 -/
theorem test_decode_xorReg : decode 0x99030822#32 = .instr (.xorReg .long .always 3 1 2) := by decide
/-- 1001101, F 1000, rD 00001, N -/
theorem test_decode_xorImm : decode 0x9B01000F#32 = .instr (.xorImm .long 1 15) := by decide
/-- A30 -/
theorem test_decode_shlReg : decode 0x98230822#32 = .instr (.shlReg .long .always 3 1 2) := by decide
/-- A26 -/
theorem test_decode_shlImm : decode 0x9A210004#32 = .instr (.shlImm .long 1 4) := by decide
/-- 1001100, F 1100, rD 00011, rS1 00001, C 000001, rS2 00010 -/
theorem test_decode_shrReg : decode 0x99830822#32 = .instr (.shrReg .long .always 3 1 2) := by decide
/-- A46 -/
theorem test_decode_shrImm : decode 0x9B81001F#32 = .instr (.shrImm .long 1 31) := by decide
/-- 1001100, F 1101, rD 00011, rS1 00001, C 000001, rS2 00010 -/
theorem test_decode_sarReg : decode 0x99A30822#32 = .instr (.sarReg .long .always 3 1 2) := by decide
/-- A49 -/
theorem test_decode_sarImm : decode 0x1BA10004#32 = .instr (.sarImm .short 1 4) := by decide
/-- A31 -/
theorem test_decode_shl1 : decode 0x98220837#32 = .instr (.shl1 .long .always 2 1) := by decide
/-- A52 -/
theorem test_decode_shr1 : decode 0x99820837#32 = .instr (.shr1 .long .always 2 1) := by decide
/-- A51 -/
theorem test_decode_half : decode 0x99A20837#32 = .instr (.half .long .always 2 1) := by decide
/-- A55 -/
theorem test_decode_ror1 : decode 0x19220820#32 = .instr (.ror1 .short .always 2 1 0) := by decide
/-- A56 -/
theorem test_decode_rol1 : decode 0x99620820#32 = .instr (.rol1 .long .always 2 1 0) := by decide
/-- A32 -/
theorem test_decode_shiftOr : decode 0x90406000#32 = .instr (.shiftOr 2 0 0x6000) := by decide
/-- M21 -/
theorem test_decode_set24 : decode 0xDFE3FFFF#32 = .instr (.set24 3 0xFFFFFF) := by decide
/-- M22 -/
theorem test_decode_loadDirect : decode 0x1CE5E004#32 = .instr (.loadDirect .long (.reg 5) 0xE004) := by decide
/-- M24 -/
theorem test_decode_storeDirect : decode 0x1D65FFFE#32 = .instr (.storeDirect .short (.reg 5) 0xFFFE) := by decide
/-- M9 -/
theorem test_decode_loadMem : decode 0x9CE30812#32 = .instr (.loadMem .long (.reg 3) 1 (.reg 16)) := by decide
/-- M15 -/
theorem test_decode_storeMem : decode 0x9D631017#32 = .instr (.storeMem .short (.reg 3) 2 .plusN) := by decide
/-- M25 -/
theorem test_decode_loadIo : decode 0x9C61040C#32 = .instr (.loadIo .short 1 .pcw) := by decide
/-- M27 -/
theorem test_decode_storeIo : decode 0x9D02040E#32 = .instr (.storeIo .byte (.reg 2) .dauc) := by decide
/-- M29 -/
theorem test_decode_loadIor : decode 0x9E680817#32 = .instr (.loadIor .short .emr 1 .plusN) := by decide
/-- M30 -/
theorem test_decode_storeIor : decode 0x9F681017#32 = .instr (.storeIor .short .emr 2 .plusN) := by decide
/-- D1 -/
theorem test_decode_fmultAccStore : decode 0x6022081F#32 = .instr (.fmultAccStore 0 false false 1 (.mem ⟨0, .keep⟩) (.mem ⟨1, .keep⟩) (.mem ⟨2, .plus⟩)) := by decide
/-- D3 -/
theorem test_decode_fmultAccTap : decode 0x44020818#32 = .instr (.fmultAccTap 1 false false 0 (.mem ⟨0, .keep⟩) (.mem ⟨1, .keep⟩) (.mem ⟨2, .keep⟩)) := by decide
/-- D4 -/
theorem test_decode_fmultAddStore : decode 0x24420807#32 = .instr (.fmultAddStore 1 false false 2 (.mem ⟨0, .keep⟩) (.mem ⟨1, .keep⟩) .none) := by decide
/-- D6 -/
theorem test_decode_fmultStore : decode 0x71020807#32 = .instr (.fmultStore true 0 (.mem ⟨0, .keep⟩) (.mem ⟨1, .keep⟩) .none) := by decide
/-- D7 -/
theorem test_decode_fmultTap : decode 0x50000818#32 = .instr (.fmultTap false 0 (.acc 0) (.mem ⟨1, .keep⟩) (.mem ⟨2, .keep⟩)) := by decide
/-- D9 -/
theorem test_decode_faddStore : decode 0x37020818#32 = .instr (.faddStore true true 0 (.mem ⟨0, .keep⟩) (.mem ⟨1, .keep⟩) (.mem ⟨2, .keep⟩)) := by decide
/-- D10 -/
theorem test_decode_faddTap : decode 0x39020818#32 = .instr (.faddTap false true 0 (.mem ⟨0, .keep⟩) (.mem ⟨1, .keep⟩) (.mem ⟨2, .keep⟩)) := by decide
/-- D12 -/
theorem test_decode_floadStore : decode 0x32200818#32 = .instr (.floadStore true 1 (.mem ⟨1, .keep⟩) (.mem ⟨2, .keep⟩)) := by decide
/-- 001, M 100, F 0, S 1, 0, N 00, X, Y, Z as in D6 -/
theorem test_decode_fzeroAddStore : decode 0x31020807#32 = .instr (.fzeroAddStore false true 0 (.mem ⟨0, .keep⟩) (.mem ⟨1, .keep⟩) .none) := by decide
/-- 010, M 101, the rest as in D3 -/
theorem test_decode_fconstTap : decode 0x54020818#32 = .instr (.fconstTap true false false 0 (.mem ⟨0, .keep⟩) (.mem ⟨1, .keep⟩) (.mem ⟨2, .keep⟩)) := by decide
/-- 011, M 101, F 1, S 1, the rest as in D9 -/
theorem test_decode_fconstStore : decode 0x77020818#32 = .instr (.fconstStore true true true 0 (.mem ⟨0, .keep⟩) (.mem ⟨1, .keep⟩) (.mem ⟨2, .keep⟩)) := by decide
/-- S61 -/
theorem test_decode_ic : decode 0x78000B87#32 = .instr (.ic 0 (.mem ⟨1, .plus⟩) .none) := by decide
/-- S62 -/
theorem test_decode_oc : decode 0x7880081F#32 = .instr (.oc 0 (.mem ⟨1, .keep⟩) (.mem ⟨2, .plus⟩)) := by decide
/-- S8 -/
theorem test_decode_float16 : decode 0x7920001F#32 = .instr (.float16 1 (.acc 0) (.mem ⟨2, .plus⟩)) := by decide
/-- S14 -/
theorem test_decode_int16 : decode 0x7980081F#32 = .instr (.int16 0 (.mem ⟨1, .keep⟩) (.mem ⟨2, .plus⟩)) := by decide
/-- S24 -/
theorem test_decode_round : decode 0x7A200007#32 = .instr (.round 1 (.acc 0) .none) := by decide
/-- S56 -/
theorem test_decode_ifalt : decode 0x7AA00B98#32 = .instr (.ifalt 1 (.mem ⟨1, .plus⟩) (.mem ⟨2, .keep⟩)) := by decide
/-- S59 -/
theorem test_decode_ifaeq : decode 0x7B200007#32 = .instr (.ifaeq 1 (.acc 0) .none) := by decide
/-- S60 -/
theorem test_decode_ifagt : decode 0x7BA00007#32 = .instr (.ifagt 1 (.acc 0) .none) := by decide
/-- S9 -/
theorem test_decode_float32 : decode 0x7C000818#32 = .instr (.float32 0 (.mem ⟨1, .keep⟩) (.mem ⟨2, .keep⟩)) := by decide
/-- S20 -/
theorem test_decode_int32 : decode 0x7CA00018#32 = .instr (.int32 1 (.acc 0) (.mem ⟨2, .keep⟩)) := by decide
/-- S48 -/
theorem test_decode_ieee : decode 0x7E000818#32 = .instr (.ieee 0 (.mem ⟨1, .keep⟩) (.mem ⟨2, .keep⟩)) := by decide
/-- S36 -/
theorem test_decode_dsp : decode 0x7E800818#32 = .instr (.dsp 0 (.mem ⟨1, .keep⟩) (.mem ⟨2, .keep⟩)) := by decide
/-- S31 -/
theorem test_decode_seed : decode 0x7F000807#32 = .instr (.seed 0 (.mem ⟨1, .keep⟩) .none) := by decide

/-- Y12: a reserved F code is refused (R175) -/
theorem test_decode_reserved_function : decode 0x9AA10000#32 = .reserved .function := by decide
/-- Y13: an unnamed bit of format 7b (R145) -/
theorem test_decode_unnamed_bit : decode 0x9C030C00#32 = .reserved .unnamedBit := by decide
/-- Y14: W = 101 (R151) -/
theorem test_decode_width : decode 0x9CA30800#32 = .reserved .width := by decide
/-- X6: a word of the reserved format 0a is an illegal opcode (R175) -/
theorem test_decode_illegal : decode 0x00000000#32 = .illegal := by decide
/-- The host's numbering: one word, bit 0 its least significant bit. -/
theorem test_decodeTableWord : decodeTableWord 32 0x98030822 = some (.addReg .long .always 3 1 2) := by decide

/-! ### One step

`start` is the state of 95_test_vectors.md before an instruction: at 0x2000 in external memory, base
level, nothing in flight. -/

/-- Put big-endian words in memory from an external address on. -/
def words (a : Nat) (ws : List Nat) (s : State) : State :=
  ws.zipIdx.foldl (fun s p =>
    (bytesOf true 4 (BitVec.ofNat 32 p.1)).zipIdx.foldl
      (fun s b => { s with mem := s.mem.write (a + 4 * p.2 + b.2) b.1 }) s) s

/-- Registers of the CAU. -/
def regs (l : List (Reg × Word)) (s : State) : State :=
  { s with regs := l.foldl (fun r p => writeRegs r p.1 p.2) s.regs }

/-- An accumulator. -/
def acc (a : AccNo) (v : Acc40) (s : State) : State := s.setAcc a v

/-- ps[7:0]. -/
def ps (v : BitVec 8) (s : State) : State := { s with ps := v }

/-- The start. -/
def start : State := { State.reset with pc := 0x2000#32, npc := 0x2004#32 }

/-- The start with the operands of the DA vectors: r1 = 0x1000 at x, r2 = 0x1010 at y, r3 = 0x1020. -/
def daStart (x y : Nat) : State :=
  regs [(1, 0x1000#32), (2, 0x1010#32), (3, 0x1020#32)] (words 0x1000 [x] (words 0x1010 [y] start))

/-- One step that runs `w`: what `f` sees of the next state. -/
def runs {α : Type} (w : Word) (s : State) (f : State → α) : Option α :=
  match step { s with ir := .word w } with
  | .next t => some (f t)
  | .fault _ => none
  | .refused _ => none

/-- The refusal of one step that runs `w`. -/
def refuses (w : Word) (s : State) : Option Refusal :=
  match step { s with ir := .word w } with
  | .refused r => some r
  | .next _ => none
  | .fault _ => none

/-- A register with the CAU flags nzvc. -/
def regFlags (r : Reg) (t : State) : Word × BitVec 4 := (t.reg r, t.ps.extractLsb' 0 4)

/-- The big-endian word at an external address. -/
def wordAt (a : Nat) (t : State) : Word :=
  valueOf true ((List.range 4).map fun i => t.mem.read (a + i))

/-- The newest DAU flags NZVU, as the vectors print them. -/
def newest (t : State) : Option (BitVec 4) :=
  t.queue.getLast?.map fun e =>
    BitVec.ofBool e.n ++ BitVec.ofBool e.z ++ BitVec.ofBool e.v ++ BitVec.ofBool e.u

/-- pc and npc. -/
def flow (t : State) : Word × Word := (t.pc, t.npc)

theorem test_A1_addReg :
    runs 0x98030822#32 (ps 0x00#8 (regs [(1, 0x7FFFFFFF#32), (2, 0x00000001#32)] start)) (regFlags 3) = some (0x80000000#32, 0x5#4) := by
  decide +kernel
theorem test_A8_addReg_not :
    runs 0x980308A2#32 (ps 0x09#8 (regs [(1, 0x00000001#32), (2, 0x00000002#32), (3, 0x00000055#32)] start)) (regFlags 3) = some (0x00000055#32, 0x9#4) := by
  decide +kernel
theorem test_A4_add3 :
    runs 0x94618000#32 (ps 0x00#8 (regs [(1, 0x00008000#32)] start)) (regFlags 3) = some (0x00000000#32, 0xA#4) := by
  decide +kernel
theorem test_M18_set :
    runs 0x14208000#32 (ps 0x0C#8 (regs [] start)) (regFlags 1) = some (0xFFFF8000#32, 0x1#4) := by
  decide +kernel
theorem test_A36_incDec :
    runs 0x98010836#32 (ps 0x00#8 (regs [(1, 0x00000001#32)] start)) (regFlags 1) = some (0x00000000#32, 0xA#4) := by
  decide +kernel
theorem test_A39_spIncDec :
    runs 0x9819C836#32 (ps 0x00#8 (regs [(21, 0x00000000#32)] start)) (regFlags 21) = some (0xFFFFFFFC#32, 0x1#4) := by
  decide +kernel
theorem test_A10_subReg :
    runs 0x98830822#32 (ps 0x00#8 (regs [(1, 0x00000005#32), (2, 0x00000007#32)] start)) (regFlags 3) = some (0xFFFFFFFE#32, 0x9#4) := by
  decide +kernel
theorem test_A12_subImm :
    runs 0x1A810001#32 (ps 0x00#8 (regs [(1, 0x12340000#32)] start)) (regFlags 1) = some (0xFFFFFFFF#32, 0x9#4) := by
  decide +kernel
theorem test_A14_rsubImm :
    runs 0x9A410003#32 (ps 0x00#8 (regs [(1, 0x0000000A#32)] start)) (regFlags 1) = some (0xFFFFFFF9#32, 0x9#4) := by
  decide +kernel
theorem test_A17_neg :
    runs 0x98820021#32 (ps 0x00#8 (regs [(1, 0x80000000#32)] start)) (regFlags 2) = some (0x80000000#32, 0xD#4) := by
  decide +kernel
theorem test_A16_cmpReg :
    runs 0x98E00822#32 (ps 0x00#8 (regs [(1, 0x80000000#32), (2, 0x00000001#32)] start)) (regFlags 1) = some (0x80000000#32, 0x4#4) := by
  decide +kernel
theorem test_A15_cmpImm :
    runs 0x9AE10005#32 (ps 0x00#8 (regs [(1, 0x00000005#32)] start)) (regFlags 1) = some (0x00000005#32, 0x2#4) := by
  decide +kernel
theorem test_A22_crAddReg :
    runs 0x98630822#32 (ps 0x00#8 (regs [(1, 0xC0000000#32), (2, 0x40000000#32)] start)) (regFlags 3) = some (0xA0000000#32, 0x1#4) := by
  decide +kernel
theorem test_A24_crAddImm :
    runs 0x1A614000#32 (ps 0x00#8 (regs [(1, 0x0000C000#32)] start)) (regFlags 1) = some (0xFFFFA000#32, 0x1#4) := by
  decide +kernel
theorem test_andReg_R247 :
    runs 0x99C30822#32 (ps 0x0C#8 (regs [(1, 0xF0F0F0F0#32), (2, 0x80F00FF0#32)] start)) (regFlags 3) = some (0x80F000F0#32, 0x1#4) := by
  decide +kernel
theorem test_A40_andImm :
    runs 0x9BC1FBFF#32 (ps 0x00#8 (regs [(1, 0x00003FFF#32)] start)) (regFlags 1) = some (0x00003BFF#32, 0x0#4) := by
  decide +kernel
theorem test_bitReg_R248 :
    runs 0x99E00822#32 (ps 0x0D#8 (regs [(1, 0x000000F0#32), (2, 0x0000000F#32)] start)) (regFlags 1) = some (0x000000F0#32, 0x2#4) := by
  decide +kernel
theorem test_A42_bitImm :
    runs 0x9BE12000#32 (ps 0x00#8 (regs [(1, 0x00000400#32)] start)) (regFlags 1) = some (0x00000400#32, 0x2#4) := by
  decide +kernel
theorem test_A25_andcReg :
    runs 0x98C30822#32 (ps 0x0C#8 (regs [(1, 0xFF00FF00#32), (2, 0x0F0F0F0F#32)] start)) (regFlags 3) = some (0xF000F000#32, 0x1#4) := by
  decide +kernel
theorem test_A43_orReg :
    runs 0x99430822#32 (ps 0x00#8 (regs [(1, 0x80000000#32), (2, 0x00000001#32)] start)) (regFlags 3) = some (0x80000001#32, 0x1#4) := by
  decide +kernel
theorem test_A44_orImm :
    runs 0x1B418000#32 (ps 0x00#8 (regs [(1, 0x00000001#32)] start)) (regFlags 1) = some (0xFFFF8001#32, 0x1#4) := by
  decide +kernel
theorem test_A45_xorReg :
    runs 0x99030822#32 (ps 0x0D#8 (regs [(1, 0xAAAAAAAA#32), (2, 0xAAAAAAAA#32)] start)) (regFlags 3) = some (0x00000000#32, 0x2#4) := by
  decide +kernel
theorem test_xorImm_R251 :
    runs 0x9B018000#32 (ps 0x00#8 (regs [(1, 0x000000FF#32)] start)) (regFlags 1) = some (0xFFFF80FF#32, 0x1#4) := by
  decide +kernel
theorem test_A30_shlReg :
    runs 0x98230822#32 (ps 0x00#8 (regs [(1, 0x00000001#32), (2, 0xFFFFFFFF#32)] start)) (regFlags 3) = some (0x80000000#32, 0x1#4) := by
  decide +kernel
theorem test_A28_shlImm :
    runs 0x1A210004#32 (ps 0x00#8 (regs [(1, 0xFFFF1234#32)] start)) (regFlags 1) = some (0x00002340#32, 0x0#4) := by
  decide +kernel
theorem test_shrReg_R253 :
    runs 0x99830822#32 (ps 0x00#8 (regs [(1, 0x80000000#32), (2, 0x00000021#32)] start)) (regFlags 3) = some (0x40000000#32, 0x0#4) := by
  decide +kernel
theorem test_A47_shrImm :
    runs 0x1B81000F#32 (ps 0x00#8 (regs [(1, 0xFFFF8000#32)] start)) (regFlags 1) = some (0x00000001#32, 0x0#4) := by
  decide +kernel
theorem test_sarReg_R254 :
    runs 0x99A30822#32 (ps 0x00#8 (regs [(1, 0x80000000#32), (2, 0x00000004#32)] start)) (regFlags 3) = some (0xF8000000#32, 0x1#4) := by
  decide +kernel
theorem test_A50_sarImm :
    runs 0x1BA10014#32 (ps 0x00#8 (regs [(1, 0x00008000#32)] start)) (regFlags 1) = some (0xFFFFFFFF#32, 0x1#4) := by
  decide +kernel
theorem test_A31_shl1 :
    runs 0x98220837#32 (ps 0x00#8 (regs [(1, 0xC0000001#32)] start)) (regFlags 2) = some (0x80000002#32, 0x1#4) := by
  decide +kernel
theorem test_A52_shr1 :
    runs 0x99820837#32 (ps 0x00#8 (regs [(1, 0xFFFFFFFD#32)] start)) (regFlags 2) = some (0x7FFFFFFE#32, 0x0#4) := by
  decide +kernel
theorem test_A51_half :
    runs 0x99A20837#32 (ps 0x00#8 (regs [(1, 0xFFFFFFFD#32)] start)) (regFlags 2) = some (0xFFFFFFFE#32, 0x1#4) := by
  decide +kernel
theorem test_A53_ror1 :
    runs 0x99220820#32 (ps 0x08#8 (regs [(1, 0x00000002#32)] start)) (regFlags 2) = some (0x80000001#32, 0x1#4) := by
  decide +kernel
theorem test_A56_rol1 :
    runs 0x99620820#32 (ps 0x08#8 (regs [(1, 0x80000000#32)] start)) (regFlags 2) = some (0x00000001#32, 0xC#4) := by
  decide +kernel
theorem test_A33_shiftOr :
    runs 0x90218000#32 (ps 0x0E#8 (regs [(1, 0x00001234#32)] start)) (regFlags 1) = some (0x80001234#32, 0x1#4) := by
  decide +kernel
theorem test_M21_set24 :
    runs 0xDFE3FFFF#32 (ps 0x0D#8 (regs [(3, 0xFFFFFFFF#32)] start)) (regFlags 3) = some (0x00FFFFFF#32, 0xD#4) := by
  decide +kernel

theorem test_C1_ifGoto :
    runs 0x80A10004#32 (ps 0x02#8 (regs [(1, 0x00000100#32)] start)) flow
      = some (0x00002004#32, 0x00000104#32) := by
  decide +kernel
theorem test_C2_ifGoto_not :
    runs 0x80A10004#32 (ps 0x00#8 (regs [(1, 0x00000100#32)] start)) flow
      = some (0x00002004#32, 0x00002008#32) := by
  decide +kernel
theorem test_C6_goto :
    runs 0x802FFFF8#32 (ps 0x00#8 (regs [] start)) flow
      = some (0x00002004#32, 0x00002000#32) := by
  decide +kernel
theorem test_C9_nop :
    runs 0x80000000#32 (ps 0x00#8 (regs [] start)) flow
      = some (0x00002004#32, 0x00002008#32) := by
  decide +kernel
theorem test_C17_ret :
    runs 0x80340000#32 (ps 0x00#8 (regs [(18, 0x00002468#32)] start)) flow
      = some (0x00002004#32, 0x00002468#32) := by
  decide +kernel
theorem test_C8_goto24 :
    runs 0xA2413456#32 (ps 0x00#8 (regs [(1, 0xFF000000#32)] start)) flow
      = some (0x00002004#32, 0xFF123456#32) := by
  decide +kernel
theorem test_C11_loopGoto :
    runs 0x0C410000#32 (ps 0x00#8 (regs [(1, 0x00003000#32), (2, 0x00000000#32)] start)) flow
      = some (0x00002004#32, 0x00003000#32) := by
  decide +kernel
theorem test_C13_loopGoto_not :
    runs 0x0C410000#32 (ps 0x00#8 (regs [(1, 0x00003000#32), (2, 0x80000000#32)] start)) flow
      = some (0x00002004#32, 0x00002008#32) := by
  decide +kernel
theorem test_C14_call :
    runs 0x12810008#32 (ps 0x00#8 (regs [(1, 0x00003000#32)] start)) flow
      = some (0x00002004#32, 0x00003008#32) := by
  decide +kernel
theorem test_C16_call24 :
    runs 0xE2543456#32 (ps 0x00#8 (regs [] start)) flow
      = some (0x00002004#32, 0x00123456#32) := by
  decide +kernel
theorem test_C19_doReg :
    runs 0x8E000004#32 (ps 0x00#8 (regs [(4, 0xFFFFF805#32)] start)) flow
      = some (0x00002004#32, 0x00002004#32) := by
  decide +kernel

/-- The sequencing registers of a loop: kind, start, end, count. -/
def loopOf (t : State) : DoKind × Word × Word × BitVec 11 :=
  (t.loop.kind, t.loop.start, t.loop.stop, t.loop.iter)

theorem test_C18_doImm :
    runs 0x8C020007#32 start loopOf = some (.plain, 0x2004#32, 0x200C#32, 7#11) := by decide +kernel
theorem test_C20_dolockImm :
    runs 0x8C810003#32 start loopOf = some (.lock, 0x2004#32, 0x2008#32, 3#11) := by decide +kernel
theorem test_dolockReg_R209 :
    runs 0x8E810004#32 (regs [(4, 3#32)] start) loopOf = some (.lock, 0x2004#32, 0x2008#32, 3#11) := by
  decide +kernel
/-- C21; the first wrap is part of the step (C19), so the count is one less at its end. -/
theorem test_C21_doblockImm :
    runs 0x8D000003#32 start loopOf = some (.block, 0x2004#32, 0x2004#32, 2#11) := by decide +kernel
theorem test_doblockReg_R210 :
    runs 0x8F000004#32 (regs [(4, 3#32)] start) loopOf = some (.block, 0x2004#32, 0x2004#32, 2#11) := by
  decide +kernel
/-- H16: a control transfer in a delay slot (R191). -/
theorem test_H16_transfer_in_slot :
    refuses 0x80220000#32 { start with inSlot := true } = some .transferInDelaySlot := by decide +kernel

/-- R191: an untaken goto has a delay slot too; a nop has none. -/
theorem test_R191_slot_of_untaken :
    runs 0x80A10004#32 start State.inSlot = some true ∧
    runs 0x80000000#32 start State.inSlot = some false := by decide +kernel
/-- R110, R397: in Computer mode the host writes external location 0, which the core sees in Processor
mode and not before. -/
theorem test_R397_host_writes_location_0 :
    let s := { start with pcw := 0x078F#16 }.event (.busWrite 0#32 0x12#8)
    s.readByte 0#32 = .ok (bootByte 0) ∧ { s with pcw := 0x038F#16 }.readByte 0#32 = .ok 0x12#8 := by
  decide +kernel
/-- R112: a bus master writes X's word and Y's word between the two reads of a0 = (Z=Y) - X: X was 10 and
Y is now 0. -/
theorem test_R112_between_x_and_y :
    runs 0x39020818#32
      { daStart 0x20000083 0x0000007F with
        env := [[], [], [], [.busWrite 0x1003#32 0x00#8, .busWrite 0x1013#32 0x00#8]] }
      (fun t => (t.acc 0, wordAt 0x1020 t, wordAt 0x1000 t)) =
    some (0xE000008300#40, 0x00000000#32, 0x20000000#32) := by decide +kernel
/-- R112: a write of the next word before the prefetch is fetched, one after it is not. -/
theorem test_R112_around_the_prefetch :
    runs 0x80000000#32 { start with env := [[], [.busWrite 0x2007#32 0x80#8]] } State.ir
      = some (.word 0x00000080#32) ∧
    runs 0x80000000#32 { start with env := [[], [], [.busWrite 0x2007#32 0x80#8]] } (fun t => (t.ir, wordAt 0x2004 t))
      = some (.word 0x00000000#32, 0x00000080#32) := by decide +kernel
/-- R112: in a dolock loop the write waits. -/
theorem test_R112_dolock :
    runs 0x39020818#32
      { daStart 0x20000083 0x0000007F with
        env := [[], [], [], [.busWrite 0x1013#32 0x00#8]]
        loop := ⟨true, .lock, 0x2000#32, 0x2008#32, 5#11, false, 0#12⟩ }
      (fun t => (wordAt 0x1020 t, t.env)) =
    some (0x0000007F#32, [[.busWrite 0x1013#32 0x00#8]]) := by decide +kernel
/-- R9: another DA_LAYOUT and DA_FORMAT_MAP: p low in its field, formats 1 and 3 exchanged, S first.  The
fields of D6 in their places: 001, M 100, 0, 1, 0, N 00, X 0000001, Y 0000010, Z 1110000 with F = 1. -/
theorem test_R9_other_encoding :
    decodeWith { defaultEncoding with daPLow := true, daForms := #v[2, 1, 0, 3], daSignSwap := true }
      0x32004170#32 = .instr (.fmultStore true 0 (.mem ⟨0, .keep⟩) (.mem ⟨1, .keep⟩) .none) := by
  decide +kernel
/-- R9, R320: formats 1 and 4 exchanged.  The fields of D9 stand in format 4, 001110 with F = S = 1; in
format 1, M = 101 is FADD-TAP and M = 001 has no form. -/
theorem test_R320_format_four :
    let e := { defaultEncoding with daForms := #v[3, 1, 2, 0] }
    decodeWith e 0x3B020818#32
      = .instr (.faddStore true true 0 (.mem ⟨0, .keep⟩) (.mem ⟨1, .keep⟩) (.mem ⟨2, .keep⟩)) ∧
    decodeWith e 0x37020818#32
      = .instr (.faddTap true true 0 (.mem ⟨0, .keep⟩) (.mem ⟨1, .keep⟩) (.mem ⟨2, .keep⟩)) ∧
    decodeWith e 0x25020818#32 = .reserved .form := by
  decide +kernel
/-- R9, R160: the unused bit left of S at I[24], left of F at I[25] (F = 1, S = 0), and left of M at I[28]
(format 2, M = 100). -/
theorem test_R160_unused_bit :
    decodeWith { defaultEncoding with daS := 23 } 0x38820818#32
      = .instr (.faddTap false true 0 (.mem ⟨0, .keep⟩) (.mem ⟨1, .keep⟩) (.mem ⟨2, .keep⟩)) ∧
    decodeWith { defaultEncoding with daF := 24, daS := 23 } 0x39020818#32
      = .instr (.faddTap true false 0 (.mem ⟨0, .keep⟩) (.mem ⟨1, .keep⟩) (.mem ⟨2, .keep⟩)) ∧
    decodeWith { defaultEncoding with daF := 24, daS := 23 } 0x3B020818#32 = .reserved .unnamedBit ∧
    decodeWith { defaultEncoding with daM := 25, daF := 24, daS := 23 } 0x48000818#32
      = .instr (.fmultTap false 0 (.acc 0) (.mem ⟨1, .keep⟩) (.mem ⟨2, .keep⟩)) := by
  decide +kernel

/-! Exceptions and the spc commands -/

theorem test_C22_ireturn :
    runs 0x803E0000#32
      { start with
        level := .interrupt
        pcsh := 0x2468#32
        shadow := { Shadow.reset with pc := 0x3000#32, instr := .word 0x94840001#32 } }
      (fun t => (flow t, t.ir, t.level)) =
    some ((0x3000#32, 0x2468#32), .word 0x94840001#32, .base) := by decide +kernel
theorem test_X9_ireturn_at_base : refuses 0x803E0000#32 start = some .ireturnLevel := by decide +kernel
theorem test_X8_sftrst :
    runs 0x9D00040A#32 { start with level := .error } State.level = some .base := by decide +kernel
theorem test_X10_waiti_ignored :
    runs 0x9DE0040A#32 { start with emr := 0x0100#16, pending := 0x0100#16, inhibit := true }
      State.waiting = some false := by decide +kernel
theorem test_X11_waiti :
    runs 0x9DE0040A#32 { start with pending := 0x0100#16 } State.waiting = some true := by decide +kernel
theorem test_X13_bkpt : runs 0x9D60040A#32 start State.out = some [.breakpoint] := by decide +kernel
/-- X1: the boundary takes interrupt 15. -/
theorem test_X1_interrupt :
    (match (regs [(22, 0x50030000#32)] { start with
        emr := 0x8000#16, pending := 0x8000#16 }).boundary with
      | .ok t => some (flow t, t.pcsh, t.shadow.pc, t.pending, t.level)
      | .error _ => none) =
    some ((0x50030078#32, 0x5003007C#32), 0x2004#32, 0x2000#32, 0#16, .interrupt) := by decide +kernel
/-- X6: an illegal opcode writes nothing but the error request. -/
theorem test_X6_illegal :
    runs 0x00000000#32 (regs [(22, 0x3000#32)] start) State.errorRequest
      = some (some .illegalOpcode) := by decide +kernel
/-- X17: the straps. -/
theorem test_X17_reset : (start.event (.restn 0b1000#4)).pcw = 0x078F#16 := by decide +kernel

/-! Moves -/

theorem test_M9_loadMem :
    runs 0x9CE30812#32
      (regs [(1, 0x1000#32), (16, 0xFFFFFFF0#32)] (words 0x1000 [0x807FFE01] start))
      (fun t => (t.reg 1, t.pendingLoad)) =
    some (0x0FF0#32, some (.reg (.reg 3) 0x807FFE01#32)) := by decide +kernel
theorem test_M5_loadMem_hbyte :
    runs 0x9C830800#32 (regs [(1, 0x1000#32)] (words 0x1000 [0x807FFE01] start)) State.pendingLoad =
    some (some (.reg (.reg 3) 0x8000#32)) := by decide +kernel
theorem test_M14_storeMem_hbyte :
    runs 0x9D831000#32 (regs [(2, 0x1101#32), (3, 0xA1B2C3D4#32)] start) (wordAt 0x1100) =
    some 0x00C30000#32 := by decide +kernel
theorem test_M17_storeMem_pointer :
    runs 0x9DE21017#32 (regs [(2, 0x1100#32)] start) (fun t => (t.reg 2, wordAt 0x1100 t)) =
    some (0x1104#32, 0x00001100#32) := by decide +kernel
/-- R283, R287: r3 = *r1 after a load of r1 writes r1, which is then a free value; r3 = *r2 does not. -/
theorem test_R287_pointer_write :
    (let s := { start with pendingLoad := some (.reg (.reg 1) 5#32) }
     runs 0x9CE30800#32 s State.draws = some 1 ∧ runs 0x9CE31000#32 s State.draws = some 0) := by
  decide +kernel
/-- M22, with the Boot ROM's word at offset 4 for the RAM's. -/
theorem test_M22_loadDirect :
    runs 0x1CE50004#32 start State.pendingLoad = some (some (.reg (.reg 5) 0x9C61040C#32)) := by
  decide +kernel
theorem test_M24_storeDirect :
    runs 0x1D65FFFE#32 (regs [(5, 0x11223344#32)] start)
      (fun t => (t.mem.read (ramKey 0xFFFE), t.mem.read (ramKey 0xFFFF))) =
    some (0x33#8, 0x44#8) := by decide +kernel
theorem test_M25_loadIo :
    runs 0x9C61040C#32 { start with pcw := 0x078F#16 } State.pendingLoad =
    some (some (.reg (.reg 1) 0x078F#32)) := by decide +kernel
theorem test_M27_storeIo_dauc :
    runs 0x9D02040E#32 (regs [(2, 0x130#32)] start) State.dauc = some 0x30#8 := by decide +kernel
theorem test_X14_storeIo_hbyte : refuses 0x9D80040A#32 start = some .spcCommand := by decide +kernel
theorem test_M29_loadIor :
    runs 0x9E680817#32 (regs [(1, 0x1000#32)] (words 0x1000 [0x807F0000] start))
      (fun t => (t.reg 1, t.pendingLoad, t.inhibit)) =
    some (0x1002#32, some (.ior .emr 2 0x807F#32), true) := by decide +kernel
theorem test_M30_storeIor :
    runs 0x9F681017#32 (regs [(2, 0x1100#32)] { start with emr := 0x8100#16 })
      (fun t => (t.reg 2, wordAt 0x1100 t)) =
    some (0x1102#32, 0x81000000#32) := by decide +kernel
/-- Y10: a misaligned access is refused by default. -/
theorem test_Y10_misaligned :
    refuses 0x9CE30800#32 (regs [(1, 0x1002#32)] start) = some .misaligned := by decide +kernel

/-! The DAU -/

theorem test_D1_fmultAccStore :
    runs 0x6022081F#32 (acc 0 0x4000008000#40 (daStart 0xC0000081 0x00000081)) (fun t => (t.acc 1, newest t, wordAt 0x1020 t)) =
    some (0xF000008200#40, some 0b1000#4, 0xF0000082#32) := by decide +kernel
theorem test_D3_fmultAccTap :
    runs 0x44020818#32 (acc 1 0x8000007F00#40 (daStart 0x0000007F 0x00000083)) (fun t => (t.acc 0, newest t, wordAt 0x1020 t)) =
    some (0x4000008100#40, some 0b0000#4, 0x00000083#32) := by decide +kernel
theorem test_D4_fmultAddStore :
    runs 0x24420807#32 (acc 1 0x00000080FF#40 (daStart 0x20000082 0x0000007E)) (fun t => (t.acc 2, newest t)) =
    some (0x2800008200#40, some 0b0000#4) := by decide +kernel
theorem test_D5_fmultStore :
    runs 0x70020818#32 (acc 0 0x6000008200#40 (daStart 0xC0000080 0xC0000080)) (fun t => (t.acc 0, newest t, wordAt 0x1020 t)) =
    some (0x1000008100#40, some 0b0000#4, 0x10000081#32) := by decide +kernel
theorem test_D7_fmultTap :
    runs 0x50000818#32 (daStart 0x00000000 0xDEADBEEF) (fun t => (t.acc 0, newest t, wordAt 0x1020 t)) =
    some (0x0000000000#40, some 0b0100#4, 0xDEADBEEF#32) := by decide +kernel
theorem test_D9_faddStore :
    runs 0x37020818#32 (daStart 0x00000080 0x00000080) (fun t => (t.acc 0, newest t, wordAt 0x1020 t)) =
    some (0x8000008000#40, some 0b1000#4, 0x80000080#32) := by decide +kernel
theorem test_D10_faddTap :
    runs 0x39020818#32 (daStart 0x20000083 0x0000007F) (fun t => (t.acc 0, newest t, wordAt 0x1020 t)) =
    some (0xE800008300#40, some 0b1000#4, 0x0000007F#32) := by decide +kernel
theorem test_D12_floadStore :
    runs 0x32200818#32 (acc 0 0x1000008300#40 (daStart 0x00000000 0x80000080)) (fun t => (t.acc 1, newest t, wordAt 0x1020 t)) =
    some (0x0000008100#40, some 0b0000#4, 0x00000081#32) := by decide +kernel
theorem test_fzeroAddStore_R339 :
    runs 0x31020807#32 (daStart 0xC0000081 0x00000081) (fun t => (t.acc 0, newest t)) =
    some (0x0000008100#40, some 0b0000#4) := by decide +kernel
theorem test_fconstTap_R339 :
    runs 0x54020818#32 (daStart 0x00000081 0x00000081) (fun t => (t.acc 0, newest t, wordAt 0x1020 t)) =
    some (0x2000008200#40, some 0b0000#4, 0x00000081#32) := by decide +kernel
theorem test_fconstStore_R339 :
    runs 0x77020818#32 (daStart 0x00000080 0x00000080) (fun t => (t.acc 0, newest t, wordAt 0x1020 t)) =
    some (0x8000008000#40, some 0b1000#4, 0x80000080#32) := by decide +kernel
theorem test_S4_float16 :
    runs 0x79000807#32 (daStart 0x00000000 0xFFFD0000) (fun t => (t.acc 0, newest t)) =
    some (0xC000008100#40, some 0b1000#4) := by decide +kernel
theorem test_S11_float32 :
    runs 0x7C000818#32 (daStart 0x00000000 0x7FFFFFFF) (fun t => (t.acc 0, newest t, wordAt 0x1020 t)) =
    some (0x7FFFFF9EFE#40, some 0b0000#4, 0x7FFFFF9E#32) := by decide +kernel
theorem test_S29_round :
    runs 0x7A200007#32 (acc 0 0xFFFFFF0180#40 (daStart 0x00000000 0x00000000)) (fun t => (t.acc 1, newest t)) =
    some (0x0000000000#40, some 0b0101#4) := by decide +kernel
theorem test_S34_seed :
    runs 0x7F000807#32 (daStart 0x00000000 0x123456FF) (fun t => (t.acc 0, newest t)) =
    some (0x0000000000#40, some 0b0101#4) := by decide +kernel
theorem test_S38_dsp :
    runs 0x7E800818#32 (daStart 0x00000000 0xBFC00000) (fun t => (t.acc 0, newest t, wordAt 0x1020 t)) =
    some (0xC000008000#40, some 0b1000#4, 0xC0000080#32) := by decide +kernel
theorem test_S44_dsp_nan :
    runs 0x7E800818#32 (daStart 0x00000000 0x7FC00000) (fun t => (t.acc 0, newest t, wordAt 0x1020 t)) =
    some (0x7FFFFFFF00#40, some 0b0010#4, 0x7FFFFFFF#32) := by decide +kernel
/-- S61 with the byte 0xC8 at 0x1010. -/
theorem test_S61_ic :
    runs 0x78000B87#32 { daStart 0 0xC8000000 with dauc := 0x04#8 } (fun t => (t.acc 0, t.reg 2)) =
    some (0x4800008700#40, 0x1011#32) := by decide +kernel
theorem test_S62_oc :
    runs 0x7880081F#32 { daStart 0 0x48000087 with dauc := 0x08#8 }
      (fun t => (t.mem.read 0x1020, t.reg 3)) = some (0xC8#8, 0x1021#32) := by decide +kernel
/-- R363: beyond the values of the codes the limiting code. -/
theorem test_R363_saturate :
    saturate (fun b => b.toInt) (255 / 2) 3#8 = 0x7F#8 ∧ saturate (fun b => b.toInt) (-129) 3#8 = 0x80#8 ∧
    saturate (fun b => b.toInt) 127 3#8 = 3#8 := by decide +kernel
/-- S14, floor. -/
theorem test_S14_int16 :
    runs 0x7980081F#32 { daStart 0 0x20000081 with dauc := 0x10#8 }
      (fun t => (t.mem.read 0x1020, t.mem.read 0x1021, t.reg 3)) = some (0#8, 2#8, 0x1022#32) := by
  decide +kernel
theorem test_S20_int32 :
    runs 0x7CA00018#32 (acc 0 0x4350409000#40 (daStart 0 0)) (wordAt 0x1020) =
    some 0x000186A1#32 := by decide +kernel
theorem test_S49_ieee :
    runs 0x7E000818#32 (daStart 0 0x8000007F) (wordAt 0x1020) =
    some 0xBF800000#32 := by decide +kernel
/-- S56 and S58: the last DA result is negative, or not. -/
theorem test_S56_ifalt :
    runs 0x7AA00B98#32 (acc 1 0x0000008000#40 { daStart 0 0x81 with
        queue := [⟨true, false, false, false, false, 3⟩] })
      (fun t => (t.acc 1, wordAt 0x1020 t, t.reg 2)) =
    some (0x0000008100#40, 0x00000081#32, 0x1014#32) := by decide +kernel
theorem test_S58_ifalt_skips :
    runs 0x7AA00B98#32 (acc 1 0x0000008000#40 { daStart 0 0x81 with dauc := 0x40#8 })
      (fun t => (t.acc 1, wordAt 0x1020 t, t.reg 2)) =
    some (0x0000008000#40, 0x00000000#32, 0x1014#32) := by decide +kernel
theorem test_S59_ifaeq :
    runs 0x7B200007#32 (acc 0 0x40000081AB#40 { start with
        queue := [⟨false, true, false, false, false, 3⟩] }) (fun t => t.acc 1) =
    some 0x40000081AB#40 := by decide +kernel
theorem test_S60_ifagt :
    runs 0x7BA00007#32 (acc 0 0x40000081AB#40 { start with
        queue := [⟨false, true, false, false, false, 3⟩] }) (fun t => t.acc 1) = some 0#40 := by
  decide +kernel
/-- Section 1.1 of the vectors, B1: the bio transfer table. -/
theorem test_B1_bio : bioWrite 0b10100101#8 0xE4E4#16 = 0b01001101#8 := by decide +kernel


/-! ### Witnesses: the hypotheses of the statements can be met, clause by clause -/

/-- A word about to run from `start`. -/
def ready (w : Word) (s : State) : State := { s with ir := .word w }

/-- A flag entry. -/
def entry (left : Nat) : FlagEntry := ⟨true, false, true, false, true, left⟩

/-- Which outcome. -/
def isNext : Host.Outcome State Fault Refusal → Bool
  | .next _ => true
  | .fault _ | .refused _ => false

/-- The next state, or `start`. -/
def nextOf : Host.Outcome State Fault Refusal → State
  | .next t => t
  | .fault _ | .refused _ => start

/-- Does an access succeed? -/
def succeeds {α : Type} : Res α → Bool
  | .ok _ => true
  | .error _ => false

theorem isNext_eq {o : Host.Outcome State Fault Refusal} (h : isNext o = true) :
    o = .next (nextOf o) := by
  cases o with
  | next => rfl
  | fault | refused => cases h

theorem succeeds_ex {α : Type} {r : Res α} (h : succeeds r = true) : ∃ a, r = .ok a := by
  cases r with
  | ok a => exact ⟨a, rfl⟩
  | error => cases h

theorem witness_EncodeThenDecode : WellFormed (.incDec .short .eq 3 20 true) = true := by decide

theorem witness_DecodeThenEncode :
    decodeWith defaultEncoding 0x980308A2#32 = .instr (.addReg .long .eq 3 1 2) := by decide

theorem witness_StepRunsTheDecodedInstruction :
    ∃ s i t, Ready s i ∧ exec i (opened s) = .next t :=
  ⟨ready 0x98030822#32 start, .addReg .long .always 3 1 2, _,
    ⟨⟨rfl, rfl, by decide, rfl⟩, ⟨_, rfl, by decide +kernel⟩, by decide, by decide⟩,
    isNext_eq (by decide)⟩

/-- With agents at work before the prefetch and before the first access. -/
theorem witness_StepRunsTheDecodedInstruction_agents :
    let s := { ready 0x98030822#32 start with
      env := [[.bioPins 1#8], [.busWrite 0x2007#32 0x80#8], [.dmaWrite 0x1000#32 1#8]] }
    ∃ b, s.boundary = .ok b ∧ b.waiting = false ∧
      b.interleave.interleave.ir = .word 0x98030822#32 ∧
      b.interleave.interleave.decoded 0x98030822#32 = .instr (.addReg .long .always 3 1 2) ∧
      b.interleave.interleave.fetchTooEarly = false ∧
      b.interleave.interleave.check (.addReg .long .always 3 1 2) = none ∧
      isNext (exec (.addReg .long .always 3 1 2) b.interleave.interleave) = true :=
  ⟨_, rfl, by decide +kernel, by decide +kernel, by decide +kernel, by decide +kernel, by decide +kernel,
    by decide +kernel⟩

/-- One moment inside an instruction: with events, in a dolock loop, without events. -/
theorem witness_StepRunsTheDecodedInstruction_moment :
    (∀ k, EnvEvent.restn k ∉ [EnvEvent.busWrite 0#32 1#8]) ∧ ¬ Exclusive start ∧ start.env = [] ∧
    Exclusive { start with loop := ⟨true, .lock, 0x2000#32, 0x2008#32, 5#11, false, 0#12⟩ } :=
  ⟨fun k h => by simp at h, fun h => absurd h.1 (by decide), rfl, .inl rfl, .inl rfl⟩

/-- A loop of one instruction, in its body; and no loop. -/
theorem witness_StepRunsTheDecodedInstruction_prefetch :
    Repeats { start with npc := 0x2000#32, loop := ⟨true, .plain, 0x2000#32, 0x2000#32, 5#11, false, 0#12⟩ } ∧
    ¬ Repeats start :=
  ⟨⟨rfl, rfl, rfl, rfl⟩, fun h => absurd h.1 (by decide)⟩

theorem witness_PlacedWordIsTheOneFetched :
    start.mem.wf = true ∧ start.pc.toNat % 4 = 0 ∧
      ∀ j, j < 4 → start.place (start.pc + BitVec.ofNat 32 j) = .ram (0x2000 + j) := by decide

/-- A loop of three instructions from `start` on, `iter` passes to go. -/
def inLoop (iter : BitVec 11) (kind : DoKind) (s : State) : State :=
  { s with loop := ⟨true, kind, 0x2004#32, 0x200C#32, iter, false, 0#12⟩ }

theorem witness_BranchTakesEffectAfterTheNextInstruction :
    (start.decoded 0x80A10004#32 = .instr (.ifGoto .eq (.reg 1) 4) ∧
      hasSlot (.ifGoto .eq (.reg 1) 4) = true ∧ hasSlot (.nop (.reg 0) 0) = false) ∧
    (start.branchTo 0x3000#32).latch.resume = none ∧
    (start.branchTo 0x3000#32).latch.target = some 0x3000#32 ∧
    start.latch.resume = none ∧ start.latch.target = none ∧ start.loop.active = false ∧
    (inLoop 1 .plain start).loop.active = true ∧
    (inLoop 1 .plain start).npc ≠ (inLoop 1 .plain start).loop.stop ∧
    (inLoop 1 .plain { start with npc := 0x200C#32 }).npc
      = (inLoop 1 .plain { start with npc := 0x200C#32 }).loop.stop ∧
    (inLoop 1 .plain start).loop.iter ≠ 0#11 ∧
    (inLoop 0 .plain { start with npc := 0x200C#32 }).loop.iter = 0#11 ∧
    (inLoop 1 .block start).loop.kind = .block ∧
    start.pendingLoad = none := by decide +kernel

theorem witness_StepKeepsTheInvariant : ∃ s t, Inv s ∧ step s = .next t :=
  ⟨ready 0x98030822#32 start, _,
    ⟨rfl, rfl, rfl, rfl, rfl, by decide, by decide, by decide, by decide,
      ⟨.nil, by intro e h; cases h⟩, ⟨.nil, by intro e h; cases h⟩, by decide, rfl⟩,
    isNext_eq (by decide +kernel)⟩

theorem witness_StoreThenLoadReturnsTheValue :
    start.mem.wf = true ∧
    (∀ n ∈ [1, 2, 4], (0x5003E000#32).toNat % n = 0 ∧ ∀ j, j < 4 → j < n →
      start.place (0x5003E000#32 + BitVec.ofNat 32 j) = .ram (ramKey (0xE000 + j))) ∧
    (0x5003FFFF#32).toNat % 1 = 0 ∧ start.place 0x5003FFFF#32 = .ram (ramKey 0xFFFF) := by decide

/-- A state with two memory-mapped registers. -/
def mapped : State :=
  { start with params := { defaultParams with mmio := [⟨.bio, 0x410, 0⟩, ⟨.ioc, 0x414, 0⟩] } }

theorem witness_StoreTouchesOnlyItsBytes :
    (start.mmioAt 0x1000#32 = none ∧ succeeds (start.store 0x1000#32 4 0x11223344#32) = true) ∧
    (mapped.mmioAt 0x50030410#32 = some ⟨.bio, 0x410, 0⟩ ∧
      succeeds (mapped.store 0x50030410#32 2 0xE4E4#32) = true) := by decide +kernel

theorem witness_ByteOrderFollowsPcw :
    start.mem.wf = true ∧ start.mmioAt 0xFFFFFFFC#32 = none ∧
    (∀ n ∈ [1, 2, 4], succeeds (start.store 0xFFFFFFFC#32 n 0x11223344#32) = true ∧
      succeeds (start.load 0xFFFFFFFC#32 n) = true) := by decide +kernel

/-- Each clause at the two ends of its range: offsets 0 and 0xFF of the ROM, 0xE000 and 0xFFFF of the RAM,
0x100 and 0xDFFF of what is empty, 0x10000 for external memory, and a word answered with BERRN. -/
theorem witness_MemoryMapDecidesTheAccess :
    let s := { start with pins := { start.pins with berr := [⟨0x60000000, 4⟩] } }
    let off := fun a : Word => (a - 0x50030000#32).toNat
    s.mem.wf = true ∧ s.pcw.getLsbD 10 = false ∧
    s.params.onchipSize ≤ off 0x50040000#32 ∧
    (∀ r ∈ s.pins.berr, r.has (0x50040000#32).toNat = false) ∧
    s.params.onchipSize ≤ off 0x60000003#32 ∧
    (∃ r ∈ s.pins.berr, r.has (0x60000003#32).toNat = true) ∧
    ([0x50030000#32, 0x500300FF#32].all fun a =>
      off a < s.params.onchipSize && s.mmioAt a == none && off a < s.params.romSize) = true ∧
    ([0x5003E000#32, 0x5003FFFF#32].all fun a => off a < s.params.onchipSize && s.mmioAt a == none &&
      s.params.romSize ≤ off a && s.params.ram.any (·.has (off a))) = true ∧
    ([0x50030100#32, 0x5003DFFF#32].all fun a => off a < s.params.onchipSize && s.mmioAt a == none &&
      s.params.romSize ≤ off a && s.params.ram.all (!·.has (off a))) = true ∧
    -- location 0, seen under pcw[10] = 0, and the word above the region, seen under both
    s.params.onchipSize ≤ off 0#32 ∧ (∀ r ∈ s.pins.berr, r.has (0#32 : Word).toNat = false) ∧
    s.params.onchipSize ≤ (0x00010000#32 - 0x00000000#32).toNat := by decide +kernel

theorem witness_MisalignedAccessFollowsTheParameter :
    (0x1001#32).toNat % 2 ≠ 0 ∧ (0x1002#32).toNat % 4 ≠ 0 ∧ (0x1003#32).toNat % 4 ≠ 0 ∧
    start.params.misaligned = .refuse ∧
    (let s := { start with params := { defaultParams with misaligned := .addressError }, emr := 0x10#16 }
     s.params.misaligned = .addressError ∧ s.emr.getLsbD 4 = true) ∧
    (let s := { start with params := { defaultParams with misaligned := .split } }
     s.params.misaligned = .split ∧ ∀ a ∈ [0x1001, 0x1002, 0x1003], ∀ j, j < 4 →
      s.place (BitVec.ofNat 32 a + BitVec.ofNat 32 j) = .ram (a + j)) := by decide +kernel

theorem witness_FaultingInstructionWritesNothing :
    let s := regs [(2, 0x60000000#32)]
      { start with pins := { start.pins with berr := [⟨0x60000000, 4⟩] } }
    isNext (exec (.storeMem .long (.reg 3) 2 .plusN) s) = true ∧
    (nextOf (exec (.storeMem .long (.reg 3) 2 .plusN) s)).errorRequest ≠ s.errorRequest ∧
    -- through a pointer
    (∀ w ∈ [Width.byte, .char, .ushort, .short, .hbyte, .long],
      s.load (s.reg 2) (bytesMoved w) = .error (.raise .busError) ∧
      s.store (s.reg 2) (bytesMoved w) (storedWord w (sourceOf s .pc)) = .error (.raise .busError) ∧
      s.store (s.reg 2) (bytesMoved w) (ioData s .ctr (bytesMoved w)) = .error (.raise .busError)) ∧
    -- X, Y or Z of a DA instruction, r2 being the pointer
    (s.daRead (.mem ⟨1, .plus⟩) 4 = .error (.raise .busError) ∧ succeeds (s.daRead (.acc 0) 4) = true ∧
      ∃ d, daView (.ifalt 0 (.acc 1) (.mem ⟨1, .keep⟩)) = some d ∧ s.ifSkipsZ .lt = false ∧
        succeeds ((yState s d).daRead d.y d.yBytes) = true ∧
        (lastAccess s (.ifalt 0 (.acc 1) (.mem ⟨1, .keep⟩))).daWrite d.z d.zBytes 0#32
          = .error (.raise .busError)) ∧
    -- the word fetched, and the last byte of four
    (s.fetch 0x60000000#32 = .trouble (.raise .busError) ∧ s.place 0x5FFFFFFF#32 = .ram 0x5FFFFFFF ∧
      s.place 0x60000003#32 = .berr ∧ (0x60000000#32).toNat % 4 = 0) := by
  refine ⟨by decide +kernel, by decide +kernel, by decide +kernel,
    ⟨by decide +kernel, by decide +kernel, _, rfl, by decide +kernel, by decide +kernel, by decide +kernel⟩,
    by decide +kernel⟩

/-- A direct address is on the chip: it meets the address error, where the parameter asks for it. -/
theorem witness_FaultingInstructionWritesNothing_direct :
    let s := { start with params := { defaultParams with misaligned := .addressError }, emr := 0x10#16 }
    s.load (directOf s 0xE001) (bytesMoved .long) = .error (.raise .addressError) ∧
    s.store (directOf s 0xE001) (bytesMoved .short) (storedWord .short (sourceOf s .pc))
      = .error (.raise .addressError) := by decide +kernel

/-- The word that stands in `ir` after a fetch that met BERRN. -/
theorem witness_FaultingInstructionWritesNothing_fetch :
    let s := { start with ir := .trouble (.raise .busError) }
    Quiet s ∧ s.ir = .trouble (.raise .busError) ∧ s.fetchTooEarly = false :=
  ⟨⟨rfl, rfl, by decide, rfl⟩, rfl, by decide⟩

theorem witness_IllegalOpcodeEntersVectorTwo :
    Quiet (ready 0#32 start) ∧ start.decoded 0#32 = .illegal ∧ (ready 0#32 start).fetchTooEarly = false ∧
    start.pendingLoad = none ∧ start.queue = [] ∧ start.loop.active = false ∧
    start.loop.tail = false ∧ start.level = .base :=
  ⟨⟨rfl, rfl, by decide, rfl⟩, by decide, by decide, rfl, rfl, rfl, rfl, rfl⟩

/-- With requests 9, 12 and 15 pending and enabled (vector X3). -/
def requested : State := { start with pending := 0x9200#16, emr := 0x9200#16 }

theorem witness_InterruptEntrySavesAndVectors :
    requested.env = [] ∧ requested.errorRequest = none ∧ requested.waiting = false ∧
    requested.blocked = false ∧ requested.candidate = some 9 := by decide

theorem witness_InterruptsAreHeldOff :
    requested.env = [] ∧ requested.errorRequest = none ∧
    { requested with waiting := true }.waiting = true ∧ { requested with inhibit := true }.inhibit = true ∧
    { requested with level := .interrupt }.level ≠ .base ∧
    (inLoop 1 .lock requested).loop.kind = .lock ∧
    (let s := { inLoop 1 .block requested with
        loop := { (inLoop 1 .block requested).loop with passes := 3#12 } }
     s.loop.active = true ∧ s.loop.kind = .block ∧ s.loop.passes.toNat % 4 ≠ 0) := by decide

theorem witness_LowestIndexHasPriority :
    requested.candidate = some 9 ∧ { requested with pending := 0x8000#16 }.candidate = some 15 ∧
    { requested with pending := 0x0020#16, emr := 0xFFFF#16 }.candidate = some 5 := by decide

theorem witness_ErrorEntryRaisesTheLevel :
    ∀ l ∈ [Level.base, .interrupt, .error, .doubleError], ∀ e ∈ [ErrorSource.busError, .addressError],
      let s := { start with level := l, errorRequest := some e }
      s.env = [] ∧ s.errorRequest = some e ∧ s.params.exc.errorShadow = .unknown ∧
      { s with params := { defaultParams with exc := ⟨true, .kept⟩ } }.params.exc.errorShadow = .kept := by
  decide

theorem witness_IreturnGivesBackWhatTheInterruptTook :
    ∃ u h b, { requested with queue := [entry 3] }.takeException (.interrupt 9) = .ok u ∧
      (∀ e ∈ [entry 3], 2 ≤ e.left) ∧ requested.params.exc.inFlight = true ∧
      h.level = .interrupt ∧ h.shadow = u.shadow ∧ h.pcsh = u.pcsh ∧ h.params = requested.params ∧
      h.pendingLoad = none ∧ h.loop.active = false ∧ h.loop.tail = false ∧
      exec .ireturn h = .next b :=
  ⟨_, _, _, rfl, by decide, rfl, rfl, rfl, rfl, rfl, rfl, rfl, rfl, isNext_eq (by decide +kernel)⟩

theorem witness_ProcessorControlCompletes :
    { start with level := .interrupt }.level = .interrupt ∧ start.level ≠ .interrupt ∧
    { start with level := .doubleError }.level = .doubleError ∧ start.level = .base ∧
    { start with queue := [entry 1, entry 3] }.queue.getLast? = some (entry 3) := by decide

theorem witness_OnlyFewEventsChangeTheLevel :
    let s := ready 0x9D00040A#32 { start with level := .error }
    isNext (step s) = true ∧ (nextOf (step s)).level ≠ s.level ∧ s.env = [] ∧
    s.errorRequest = none ∧ s.candidate = none := by decide +kernel

theorem witness_LockedPcwStays :
    (start.pcwLocked = false ∧ bytesMoved .short ≠ 1 ∧ bytesMoved .long ≠ 1 ∧
      (sourceOf (regs [(1, 0x2000#32)] start) (.reg 1)).getLsbD 13 = true) ∧
    (let s := ready 0x9DE1040C#32 { start with pcw := 0x238F#16, pcwLocked := true }
     s.pcwLocked = true ∧ s.env.head? = none ∧ isNext (step s) = true) := by decide +kernel

theorem witness_BrokenRestrictionsStopTheStep :
    Quiet start ∧
    -- H1
    (start.decoded 0x98041820#32 = .instr (.addReg .long .always 4 3 0) ∧
      (3 : Reg) ∈ namedRegs (.addReg .long .always 4 3 0)) ∧
    -- H3
    (start.decoded 0x9DE62800#32 = .instr (.storeMem .long (.reg 6) 5 (.reg 0)) ∧
      isStore (.storeMem .long (.reg 6) 5 (.reg 0)) = true) ∧
    -- Latency 1: a data word, and the word the instruction itself lies in
    (Touches (regs [(1, 0x1002#32)] start) (.loadMem .short (.reg 3) 1 (.reg 0)) 0x1000#32 ∧
      Touches start (.nop (.reg 0) 0) 0x2000#32) ∧
    -- H14: aM as multiplier input
    (start.decoded 0x20220807#32
        = .instr (.fmultAddStore 0 false false 1 (.mem ⟨0, .keep⟩) (.mem ⟨1, .keep⟩) .none) ∧
      (0 : AccNo) ∈ mulInputs (.fmultAddStore 0 false false 1 (.mem ⟨0, .keep⟩) (.mem ⟨1, .keep⟩) .none) ∧
      ¬ ((start.loop.active = true ∨ start.loop.tail = true) ∧ start.loop.kind = .block)) ∧
    -- H19, and a reference by name, to ps and to pcw
    (Refers start (.fmultStore false 0 (.mem ⟨0, .keep⟩) (.mem ⟨1, .keep⟩) .none) .dauc ∧
      Refers start (.loadIo .short 1 .emr) .emr ∧ Refers start (.ifGoto .eq .pc 8) .ps ∧
      Refers start (.addReg .long .always 4 3 0) .ps ∧ Refers start (.loadDirect .long .pcsh 0) .pcw) ∧
    -- one pointer in X and Y, moved by Y
    SharesPointer (.fmultStore false 0 (.mem ⟨0, .keep⟩) (.mem ⟨0, .plus⟩) .none) ∧
    -- H16, H17
    (start.decoded 0x80220000#32 = .instr (.ret 2) ∧ isTransfer (.ret 2) = true ∧
      { start with inSlot := true }.inSlot = true ∧ (inLoop 1 .plain start).loop.active = true) ∧
    -- H20
    (start.decoded 0x80000000#32 = .instr (.nop (.reg 0) 0) ∧ isBlockMove (.nop (.reg 0) 0) = false ∧
      (inLoop 1 .block start).loop.kind = .block) ∧
    start.latch.resume = none := by
  refine ⟨⟨rfl, rfl, by decide, rfl⟩, by decide +kernel, by decide +kernel, ⟨?_, ?_⟩, by decide +kernel,
    ⟨?_, ?_, ?_, ?_, ?_⟩, ⟨_, rfl, ?_⟩, by decide +kernel, by decide +kernel, rfl⟩
  · exact ⟨(0x1002#32, 2), by decide, 0, by decide, by decide⟩
  · exact ⟨(0x2000#32, 4), by decide, 3, by decide, by decide⟩
  · exact .inr (.inr (.inl ⟨rfl, rfl⟩))
  · exact .inl rfl
  · exact .inr (.inl ⟨rfl, .inl ⟨.eq, rfl, by decide, by decide⟩⟩)
  · exact .inr (.inl ⟨rfl, .inr (.inl rfl)⟩)
  · exact .inr (.inr (.inr ⟨rfl, by decide⟩))
  · unfold PointersApart; decide

theorem witness_ConditionsTestTheirFlags :
    (0b011010#6 : BitVec 6) ≤ 0b011010#6 ∧ (0b100111#6 : BitVec 6) ≤ 0b100111#6 ∧
    (0b110000#6 : BitVec 6) ≤ 0b111111#6 ∧ Cond.le.code = Cond.gt.code ^^^ 1#6 ∧ Cond.always.code = Cond.never.code ^^^ 1#6 ∧
    Cond.ir1s.code = Cond.ir1c.code ^^^ 1#6 := by decide

theorem witness_FalseConditionChangesNothing :
    condOf (.spIncDec .eq true) = some .eq ∧ condOf (.ifGoto .eq .pc 8) = some .eq ∧
    condOf (.ror1 .short .eq 3 1 0) = some .eq ∧ start.cond .eq = false := by decide

theorem witness_AdditionsGiveTheSum :
    start.cond .always = true ∧ (ps 0x02#8 start).cond .eq = true ∧ (20 : Reg) ≠ 21 := by decide

theorem witness_SubtractionsGiveTheDifference : (ps 0x0A#8 start).cond .ls = true := by decide

theorem witness_LogicWorksBitByBit : (ps 0x01#8 start).cond .lt = true := by decide

theorem witness_ShiftsMultiplyAndDivide : (ps 0x80#8 start).cond .avs = true := by decide

theorem witness_RotatesPassThroughTheCarry : (ps 0x08#8 start).cond .cs = true := by decide

theorem witness_CarryReverseAddsMirrored : start.cond .always = true := by decide

theorem witness_CompareOrdersItsOperands :
    start.cond .always = true ∧
    isNext (exec (.cmpReg .short .always 0 1 2) start) = true ∧
    isNext (exec (.cmpImm .long 1 0x8000) start) = true := by decide +kernel

theorem witness_LoadsIssueTheirValue :
    (∀ w ∈ [Width.byte, .char, .ushort, .short, .hbyte, .long],
      succeeds (start.load (directOf start 0xFFFC) (bytesMoved w)) = true) ∧
    (spFits 21 .long ∧ spFits 22 .byte) ∧
    (∀ w ∈ [Width.byte, .char, .ushort, .short, .hbyte, .long],
      succeeds (start.load (start.reg 1) (bytesMoved w)) = true) := by
  refine ⟨by decide +kernel, ⟨fun _ => rfl, fun h => absurd h (by decide)⟩, by decide +kernel⟩

theorem witness_StoresWriteTheirBytes :
    (∀ w ∈ [Width.byte, .char, .ushort, .short, .hbyte, .long],
      succeeds (start.store (directOf start 0xFFFC) (bytesMoved w)
        (storedWord w (sourceOf start .pc))) = true) ∧
    (∀ w ∈ [Width.byte, .char, .ushort, .short, .hbyte, .long],
      succeeds (start.store (start.reg 2) (bytesMoved w) (storedWord w (sourceOf start .pcsh))) = true) := by
  decide +kernel

theorem witness_LoadsCommitOneInstructionLater :
    (∀ rD ∈ [LoadDest.pcsh, .reg 0, .reg 3], ∃ v,
      { start with pendingLoad := some (.reg rD 0x80000000#32) }.pendingLoad = some (.reg rD v)) ∧
    ((3 : Reg) ∉ start.latch.wroteRegs ∧ (3 : Reg) ∈ (start.setReg 3 1#32).latch.wroteRegs) ∧
    start.latch.wroteFlags = false ∧ (start.setCau ⟨true, true, true, true⟩).latch.wroteFlags = true ∧
    { start with pendingLoad := some (.ior .pcw 1 0x38#32) }.pendingLoad = some (.ior .pcw 1 0x38#32) ∧
    start.pendingLoad = none ∧ ¬ EndsBlock start start :=
  ⟨fun rD _ => ⟨0x80000000#32, rfl⟩, by decide, rfl, rfl, rfl, rfl, fun h => absurd h.1 (by decide)⟩

theorem witness_IoLoadsIssueTheirValue :
    IoReg.ctr ≠ .spc ∧ Width.long ≠ .hbyte ∧ spFits 21 .long ∧
    start.load (start.reg 21) (bytesMoved .long) = .ok 0#32 ∧ (0#32 : Word).getLsbD 7 = false :=
  ⟨by decide, by decide, fun _ => rfl, by decide +kernel, by decide⟩

theorem witness_IoStoresFollowEachRegister :
    (∀ io ∈ [IoReg.ps, .emr, .pcw, .ctr], io ≠ .spc ∧ io ≠ .dauc) ∧
    (storedWord .byte (sourceOf (regs [(1, 0x7F#32)] start) (.reg 1))).getLsbD 7 = false ∧
    (storedWord .byte (sourceOf (regs [(1, 0x80#32)] start) (.reg 1))).getLsbD 7 = true ∧
    succeeds (start.store (start.reg 2) (bytesMoved .short) (ioData start .ps (bytesMoved .short)))
      = true := by decide +kernel

theorem witness_SpTransfersAreLong :
    ∀ w ∈ [Width.byte, .char, .ushort, .short, .hbyte], w ≠ .long := by decide

/-- 1.0 + 2.0 * -3.0 = -5.0 -/
theorem witness_MacIsExactWhereItCanBe :
    ∃ a : Acc40, val40 a = macValue 0x0000008000#40 false false 0x00000081#32 0xC0000081#32 :=
  ⟨0xE000008200#40, by decide +kernel⟩

/-- Dirty zeros of the default format, and a sum of zero. -/
theorem witness_MacIsExactWhereItCanBe_zeros :
    FloatFormat.excess128.val40 0x8000000001#40 = 0 ∧ FloatFormat.excess128.val32 0x80000000#32 = 0 ∧
    FloatFormat.excess128.macValue 0x0000008000#40 true false 0x00000080#32 0x00000080#32 = 0 := by
  decide +kernel

/-- In the default format both flags occur. -/
theorem witness_MacSaturatesAndUnderflows_flags :
    (FloatFormat.excess128.mac 0#40 false true 0x7FFFFFFF#32 0x7FFFFFFF#32).v = true ∧
    (FloatFormat.excess128.mac 0#40 false true 0x00000001#32 0x00000001#32).u = true := by
  decide +kernel

/-- R322 (d): a dirty zero as the first term acts as 0 where the product is no 40-bit value, too. -/
theorem test_R322_dirty_zero :
    FloatFormat.excess128.mac 0x8000000001#40 true false 0x55555580#32 0x55555580#32
      = FloatFormat.excess128.mac 0#40 false false 0x55555580#32 0x55555580#32 := rfl

/-- The greatest value squared, its negative, the smallest value squared, its negative. -/
theorem witness_MacSaturatesAndUnderflows :
    2 ^ 128 ≤ macValue 0#40 false false 0x7FFFFFFF#32 0x7FFFFFFF#32 ∧
    macValue 0#40 false true 0x7FFFFFFF#32 0x7FFFFFFF#32 < -2 ^ 128 ∧
    (0 < macValue 0#40 false false 0x00000001#32 0x00000001#32 ∧
      macValue 0#40 false false 0x00000001#32 0x00000001#32 < 1 / 2 ^ 127) ∧
    (-(1 / 2 ^ 127) ≤ macValue 0#40 false true 0x00000001#32 0x00000001#32 ∧
      macValue 0#40 false true 0x00000001#32 0x00000001#32 < 0) := by decide +kernel

/-- Both operands in memory and a Z write, or accumulators and none. -/
theorem witness_StoreFormsWriteTheResult :
    (let s := daStart 0x80 0x81
     let sz := s.interleave.interleave
     succeeds (s.daRead (.mem ⟨0, .plus⟩) 4) = true ∧
     succeeds (s.interleave.daRead (.mem ⟨1, .minus⟩) 4) = true ∧
     succeeds (sz.daWrite (.mem ⟨2, .inc 4⟩) 4 0x00000081#32) = true ∧
     succeeds (s.daRead (.acc 3) 4) = true ∧ succeeds (sz.daWrite .none 4 0x00000081#32) = true) ∧
    PointersApart (memOperands (.mem ⟨0, .plus⟩) (.mem ⟨1, .minus⟩) (.mem ⟨2, .inc 4⟩) 4 4) ∧
    PointersApart (memOperands (.mem ⟨0, .keep⟩) (.mem ⟨0, .keep⟩) .none 4 4) := by
  refine ⟨by decide +kernel, ?_, ?_⟩ <;> unfold PointersApart <;> decide

theorem witness_TapFormsCopyY :
    (daStart 0x80 0xDEADBEEF).daRead (.mem ⟨0, .keep⟩) 4 = .ok (.mem 0x80#32) ∧
    (daStart 0x80 0xDEADBEEF).interleave.load ((daStart 0x80 0xDEADBEEF).reg (DaMem.reg ⟨1, .plus⟩)) 4
      = .ok 0xDEADBEEF#32 ∧
    succeeds ((daStart 0x80 0xDEADBEEF).interleave.interleave.daWrite (.mem ⟨2, .plus⟩) 4 0xDEADBEEF#32) = true := by
  decide +kernel

theorem witness_IntegersConvertExactly :
    -2 ^ 31 ≤ (-2147483648 : ℤ) ∧ (2147483647 : ℤ) < 2 ^ 31 ∧ -2 ^ 24 ≤ (-16777216 : ℤ) ∧
    (16777216 : ℤ) ≤ 2 ^ 24 ∧
    { start with dauc := 0x04#8 }.dauc.getLsbD 2 = true ∧
    (∀ n ∈ [1, 2, 4], succeeds ((daStart 0 0x81).daRead (.mem ⟨1, .plus⟩) n) = true) ∧
    succeeds ((daStart 0 0x81).interleave.daWrite (.mem ⟨2, .plus⟩) 4 0x81#32) = true := by decide +kernel

theorem witness_FloatsRoundAndSaturate :
    succeeds ((daStart 0 0x81).daRead (.mem ⟨1, .plus⟩) 4) = true ∧
    (∀ n ∈ [1, 2, 4], succeeds ((daStart 0 0x81).interleave.daWrite (.mem ⟨2, .plus⟩) n 0xFF#32) = true) ∧
    { start with dauc := 0x08#8 }.dauc.getLsbD 3 = true := by decide +kernel

/-- In the default tables and format 2^20 lies above all values of both laws, and -2^20 below them. -/
theorem witness_FloatsRoundAndSaturate_limits :
    (∀ aLaw ∈ [false, true], ∀ b : Byte,
      ((CompandTables.g711.expand (if aLaw then .aLaw else .muLaw) b : ℤ) : ℚ)
        < FloatFormat.excess128.val40 0x0000009400#40 ∧
      FloatFormat.excess128.val40 0x8000009300#40
        < ((CompandTables.g711.expand (if aLaw then .aLaw else .muLaw) b : ℤ) : ℚ)) := by
  decide +kernel

theorem witness_SeedInvertsAllButTheSign :
    succeeds ((daStart 0 0xFF).daRead (.mem ⟨1, .plus⟩) 4) = true ∧
    succeeds ((daStart 0 0xFF).interleave.daWrite .none 4 0#32) = true := by decide +kernel

/-- A tie (S25), a value that is rounded down (S24), and the two ends where it overflows (S28) and
underflows (S29), each at its boundary. -/
theorem witness_RoundGivesTheNearestFloat :
    (round40 0x0000008080#40).v = false ∧ (round40 0x0000008080#40).u = false ∧
    (round40 0x000000807F#40).v = false ∧ (round40 0x000000807F#40).u = false ∧
    |val40 (round40 0x0000008080#40).value - val40 0x0000008080#40|
      = |val32 0x00000080#32 - val40 0x0000008080#40| ∧
    (round40 0x7FFFFFFF80#40).v = true ∧ (round40 0x7FFFFFFF7F#40).v = false ∧
    (round40 0xFFFFFF0180#40).u = true ∧ (round40 0xFFFFFF017F#40).u = false := by decide +kernel

/-- In every other format 0 rounds to 0, with no underflow. -/
theorem witness_RoundGivesTheNearestFloat_other (k : ℕ) : ((FloatFormat.other k).round 0#40).u = false := by
  simp [FloatFormat.round, otherRound, DauResult.zero, show otherVal40 k 0#40 = 0 from rfl]

/-- Exponents 1, 254, 255 and 0. -/
theorem witness_IeeeConversionsFollowTheirTables :
    (BitVec.extractLsb' 23 8 0x00800000#32).toNat = 1 ∧ (BitVec.extractLsb' 23 8 0x7F7FFFFF#32).toNat = 254 ∧
    (BitVec.extractLsb' 23 8 0xFF800001#32).toNat = 255 ∧
    (BitVec.extractLsb' 23 8 0x80000001#32).toNat = 0 ∧
    (ieeeIsNormal 0xBF800000#32 = true ∧ FloatFormat.excess128.val32 0x8000007F#32 = ieeeVal 0xBF800000#32) ∧
    (FloatFormat.excess128.val32 0x80000000#32 = 0 ∧
      (FloatFormat.excess128.ieeeOfDsp 0x800000FF#32).extractLsb' 23 8 = 255#8) ∧
    |val32 0x80000101#32| < 1 / 2 ^ 126 ∧ 1 / 2 ^ 126 ≤ |val32 0x80000001#32| ∧
    1 / 2 ^ 126 ≤ |val32 0x800001FF#32| ∧ (0x800001FF#32 : Word) ≠ 0x800000FF#32 ∧
    succeeds ((daStart 0 0xFF800001).daRead (.mem ⟨1, .plus⟩) 4) = true ∧
    succeeds ((daStart 0 0xFF800001).interleave.daWrite (.mem ⟨2, .plus⟩) 4 0x800000FF#32) = true := by
  decide +kernel

theorem witness_ConditionalLoadsFollowTheNewestFlags :
    start.params.ifaSettled = false ∧
    { start with queue := [entry 2, entry 3] }.queue.getLast? = some (entry 3) ∧
    (start.queue = [] ∧ (false = start.ps.getLsbD 4) ∧ (false = start.ps.getLsbD 5)) ∧
    succeeds (start.daRead (.acc 0) 4) = true ∧ succeeds (start.interleave.daWrite .none 4 0#32) = true := by decide

theorem witness_DauFlagsSettleAfterFourInstructions :
    (∀ e ∈ [entry 1, entry 2, entry 3], 1 ≤ e.left ∧ e.left ≤ 3) ∧ ¬ EndsBlock start start ∧
    EndsBlock { start with loop := ⟨false, .block, 0#32, 0#32, 0#11, true, 4#12⟩ } start :=
  ⟨by decide, fun h => absurd h.1 (by decide), rfl, rfl, rfl⟩

theorem witness_PortsFollowTheirFields :
    (0 < 8 ∧ 7 < 8) ∧ start.periph.bioc.getLsbD 1 = false ∧
    (let s := { start with periph := { start.periph with bioc := 0x02#8 } }
     s.periph.bioc.getLsbD 1 = true ∧ (1 ≠ 1 ∨ s.periph.tcon.getLsbD 4 = false)) ∧
    (let s := { start with periph := { start.periph with bioc := 0x02#8, tcon := 0x10#8 } }
     s.periph.bioc.getLsbD 1 = true ∧ 1 = 1 ∧ s.periph.tcon.getLsbD 4 = true) := by decide

theorem witness_TimerCountsDownToItsRequest :
    start.periph.tcon.getLsbD 0 = false ∧ start.periph.timerCount = 0#32 ∧
    { start with periph := { start.periph with tcon := 1#8 } }.periph.tcon.getLsbD 0 = true ∧
    2 ≤ (2#32 : Word).toNat ∧ (1#32 : Word).toNat = 1 := by decide

/-- R55: bits 31:24 of ioc read as zero. -/
theorem test_R55_ioc :
    { start with periph := start.periph.write .ioc 0xFFFFFFFF#32 }.mmioRead .ioc = 0x00FFFFFF#32 := by
  decide

theorem witness_MmioAccessHasTheRegistersSize :
    isDataRegister .timerInit = true ∧ MmioReg.bio ≠ .ioc ∧
    mapped.mmioAt 0x50030410#32 = some ⟨.bio, 0x410, 0⟩ ∧ (0x50030410#32).toNat % 2 = 0 ∧
    (2 = (⟨.bio, 0x410, 0⟩ : MmioEntry).width ∧ (0x50030410#32 - mapped.onchipBase).toNat = 0x410) ∧
    mapped.mmioAt 0x50030411#32 = some ⟨.bio, 0x410, 0⟩ ∧
    ¬ (1 = (⟨.bio, 0x410, 0⟩ : MmioEntry).width ∧ (0x50030411#32 - mapped.onchipBase).toNat = 0x410) := by
  decide

end Sys2Proof.Tests
end

section
/-! SUPPORT. What one instruction, one event and the end of a step can do to the part of the state that the
invariant speaks of. -/

namespace Sys2Proof.Machine

/-! ### Requests -/

/-- Only the sources of R384 have a request latch. -/
def OnlySources (p : BitVec 16) : Prop := p &&& 0x049F#16 = 0#16

/-- A request of a source of R384. -/
theorem OnlySources.request {p : BitVec 16} (h : OnlySources p) {i : Nat}
    (hi : (1#16 <<< i) &&& 0x049F#16 = 0#16) (b : Bool) : OnlySources (request p i b) := by
  unfold OnlySources at h ⊢
  cases b with
  | false => exact h
  | true => simp only [Machine.request, if_true, BitVec.and_or_distrib_right, h, hi, BitVec.or_zero]

/-- Clearing requests makes none. -/
theorem OnlySources.clear {p : BitVec 16} (h : OnlySources p) (m : BitVec 16) :
    OnlySources (p &&& m) := by
  unfold OnlySources at h ⊢
  rw [BitVec.and_assoc, BitVec.and_comm m, ← BitVec.and_assoc, h, BitVec.zero_and]

/-- ioc[31:24] read as zero after any write of a memory-mapped register (R55). -/
theorem Periph.write_ioc {p : Periph} (h : p.ioc.extractLsb' 24 8 = 0#8) (r : MmioReg) (v : Word) :
    (p.write r v).ioc.extractLsb' 24 8 = 0#8 := by
  cases r with
  | ioc =>
    show (v &&& 0x00FFFFFF#32).extractLsb' 24 8 = 0#8
    rw [BitVec.extractLsb'_and]
    exact BitVec.and_zero
  | _ => exact h

/-! ### What leaves the control state -/

/-- `t` differs from `s` in data only, or in what other agents may change: what the invariant says of
memory, ioc and the requests is kept, interrupts stay held off, and dauc, ctr, pcw, the loads, the level,
the wait, the shadow set and the flags in flight are as before. -/
structure KeepsControl (s t : State) : Prop where
  memory : s.mem.wf = true → t.mem.wf = true := by exact id
  ioc : s.periph.ioc.extractLsb' 24 8 = 0#8 → t.periph.ioc.extractLsb' 24 8 = 0#8 := by exact id
  pending : OnlySources s.pending → OnlySources t.pending := by exact id
  inhibit : s.inhibit = true → t.inhibit = true := by exact id
  dauc : t.dauc = s.dauc := by rfl
  ctr : t.ctr = s.ctr := by rfl
  pcw : t.pcw = s.pcw := by rfl
  pcwLocked : t.pcwLocked = s.pcwLocked := by rfl
  pendingLoad : t.pendingLoad = s.pendingLoad := by rfl
  load : t.latch.load = s.latch.load := by rfl
  level : t.level = s.level := by rfl
  waiting : t.waiting = s.waiting := by rfl
  shadow : t.shadow = s.shadow := by rfl
  queue : t.queue = s.queue := by rfl

namespace KeepsControl

theorem refl (s : State) : KeepsControl s s := { }

theorem trans {s t u : State} (h : KeepsControl s t) (k : KeepsControl t u) : KeepsControl s u where
  memory := k.memory ∘ h.memory
  ioc := k.ioc ∘ h.ioc
  pending := k.pending ∘ h.pending
  inhibit := k.inhibit ∘ h.inhibit
  dauc := k.dauc.trans h.dauc
  ctr := k.ctr.trans h.ctr
  pcw := k.pcw.trans h.pcw
  pcwLocked := k.pcwLocked.trans h.pcwLocked
  pendingLoad := k.pendingLoad.trans h.pendingLoad
  load := k.load.trans h.load
  level := k.level.trans h.level
  waiting := k.waiting.trans h.waiting
  shadow := k.shadow.trans h.shadow
  queue := k.queue.trans h.queue

variable (s : State)

theorem setReg (r : Reg) (v : Word) : KeepsControl s (s.setReg r v) :=
  { }

theorem setCau (f : CauFlags) : KeepsControl s (s.setCau f) :=
  { }

theorem setAcc (a : AccNo) (v : Acc40) : KeepsControl s (s.setAcc a v) :=
  { }

theorem putResult (r : Reg) (v : Word × CauFlags) : KeepsControl s (s.putResult r v) :=
  (setReg s r v.1).trans (setCau _ v.2)

theorem startLoop (kind : DoKind) (k : BitVec 7) (n : BitVec 11) : KeepsControl s (s.startLoop kind k n) :=
  { }

theorem holdInterrupts : KeepsControl s s.holdInterrupts :=
  { inhibit := fun _ => rfl }

theorem branchTo (a : Word) : KeepsControl s (s.branchTo a) :=
  { }

theorem branch (taken : Bool) (a : Word) : KeepsControl s (Machine.branch taken a s) := by
  cases taken with
  | false => exact holdInterrupts s
  | true => exact (branchTo s a).trans (holdInterrupts _)

theorem emit (e : Event) : KeepsControl s (s.emit e) :=
  { }

theorem addDraws (k : Nat) : KeepsControl s (s.addDraws k) :=
  { }

theorem requestError (e : Option ErrorSource) : KeepsControl s { s with errorRequest := e } :=
  { }

theorem postModify (m : DaMem) (n : Nat) : KeepsControl s (s.postModify m n) := by
  unfold State.postModify
  split
  · exact refl s
  · exact setReg s _ _

theorem postOperand (o : DaOperand) (n : Nat) : KeepsControl s (s.postOperand o n) := by
  cases o with
  | acc => exact refl s
  | mem m => exact postModify s m n

theorem postDest (z : DaDest) (n : Nat) : KeepsControl s (s.postDest z n) := by
  cases z with
  | none => exact refl s
  | mem m => exact postModify s m n

variable {s}

/-- A store reaches memory and the memory-mapped registers only. -/
theorem store {t : State} {a : Word} {n : Nat} {v : Word} (h : s.store a n v = .ok t) : KeepsControl s t := by
  obtain ⟨-, ⟨e, -, -, rfl⟩ | ⟨-, hb⟩⟩ := State.store_ok h
  · exact { ioc := fun hi => Periph.write_ioc hi _ _ }
  · obtain ⟨he, hw, -⟩ := State.writeBytes_ok _ hb
    rw [he]
    exact { memory := hw }

theorem daWrite {t : State} {z : DaDest} {n : Nat} {v : Word} (h : s.daWrite z n v = .ok t) :
    KeepsControl s t := by
  obtain ⟨-, rfl⟩ | ⟨m, -, hs⟩ := State.daWrite_ok h
  · exact refl t
  · exact store hs

theorem zWrite {t : State} {z : DaDest} {n : Nat} {d : Option Word} (h : s.zWrite z n d = .ok t) :
    KeepsControl s t := by
  cases d with
  | none => cases h; exact refl s
  | some v => exact daWrite h

/-! ### Other agents -/

theorem timerExpires (s : State) : KeepsControl s s.timerExpires := { pending := fun h => h.request rfl _ }

theorem timerTicks (s : State) : KeepsControl s s.timerTicks := by
  unfold State.timerTicks
  dsimp only
  split
  · split
    · exact timerExpires s
    · exact { }
  · exact refl s

/-- An event that is not RESTN. -/
theorem event {e : EnvEvent} (h : isRestn e = false) : KeepsControl s (s.event e) := by
  cases e with
  | restn => cases h
  | sioStatus | bioPins | shiftRegisters | berr => exact { }
  | busWrite => exact { memory := State.event_wf _ }
  | ir0 | ir1 => exact { pending := fun hp => hp.request rfl _ }
  | sioRequest k =>
    have hk : ∀ k : Fin 4, (1#16 <<< (11 + k.val)) &&& 0x049F#16 = 0#16 := by decide
    exact { pending := fun hp => hp.request (hk k) _ }
  | timerTick => exact timerTicks s
  | timerZero =>
    simp only [State.event]
    split
    · exact timerExpires s
    · exact refl s
  | periphData r v =>
    simp only [State.event]
    split
    · exact { ioc := fun hi => Periph.write_ioc hi r v }
    · exact refl s
  | dmaWrite a v =>
    simp only [State.event]
    split
    · exact { memory := Memory.wf_write _ _ _ }
    all_goals exact refl s

theorem events : ∀ (es : List EnvEvent) (s : State), (∀ e ∈ es, isRestn e = false) →
    KeepsControl s (es.foldl State.event s)
  | [], _, _ => refl _
  | e :: es, _, h =>
    (event (h e List.mem_cons_self)).trans (events es _ fun x hx => h x (List.mem_cons_of_mem _ hx))

/-- A moment in which RESTN does not come. -/
theorem moment (waits : EnvEvent → Bool)
    (h : ∀ es ∈ s.env.head?, ∀ e ∈ es, isRestn e = true → waits e = true) :
    KeepsControl s (s.moment waits) := by
  unfold State.moment
  split
  · exact refl s
  · next es rest henv =>
    have start : KeepsControl s { s with env := defer (es.filter waits) rest } :=
      { }
    refine start.trans (events _ _ fun e he => ?_)
    obtain ⟨hmem, hgoes⟩ := List.mem_filter.mp he
    have hw := h es (by rw [henv]; rfl) e hmem
    cases hr : isRestn e with
    | false => rfl
    | true => rw [hw hr] at hgoes; cases hgoes

theorem interleave (s : State) : KeepsControl s s.interleave :=
  moment _ fun _ _ e _ hr => by simp [hr]

end KeepsControl
end Sys2Proof.Machine
end

section
/-! SUPPORT. Everything an instruction can do to the control state. -/

namespace Sys2Proof.Machine

/-- What an instruction does to the control state: nothing, the issue of a load, a DAU flag result, the write
of an IO register, the return from an interrupt, or a command. -/
inductive Ran (i : Instr) (s : State) : State → Prop
  | plain {u : State} (h : KeepsControl s u) : Ran i s u
  | load {u : State} {l : PendingLoad} (h : KeepsControl s u) (hl : loadKeepsDauc (some l) = true) :
      Ran i s (u.issue l)
  | dau {u : State} {e : FlagEntry} (h : KeepsControl s u) (he : e.left = 4) : Ran i s (u.pushFlags e)
  | ioStore {io : IoReg} {n : Nat} {d : Word} (hd : checkIoData io d = .ok ()) : Ran i s (s.ioWrite io n d)
  | ireturn {t : State} (hi : i = .ireturn) (h : s.returnFromInterrupt = .ok t) : Ran i s t
  | softReset {t : State} (hi : isCommand i) (h : s.softReset = .ok t) : Ran i s t
  | wait {t : State} (h : s.waitForInterrupt = .ok t) : Ran i s t

namespace Ran

variable {i : Instr} {s t : State}

/-- An instruction that may meet a trouble: an error leaves the control state (R390). -/
theorem of_resolve {b : State} {r : Res State} (h : resolve b r = .next t) (hb : KeepsControl s b)
    (hr : r = .ok t → Ran i s t) : Ran i s t := by
  obtain hok | ⟨e, -, rfl⟩ := resolve_next h
  · exact hr hok
  · exact .plain (hb.trans (.requestError _ _))

/-- A conditional instruction whose effect leaves the control state (R233). -/
theorem of_conditionally {c : Cond} {u v : State} (h : conditionally c u v = .next t)
    (hu : KeepsControl s u) (hv : KeepsControl u v) : Ran i s t := by
  obtain ⟨-, rfl⟩ | ⟨-, rfl⟩ := conditionally_next h
  · exact .plain (hu.trans hv)
  · exact .plain hu

/-- A conditional instruction that writes a result. -/
theorem of_result {c : Cond} {rD : Reg} {v : Word × CauFlags}
    (h : conditionally c s (s.putResult rD v) = .next t) : Ran i s t :=
  of_conditionally h (.refl s) (.putResult s rD v)

/-- An instruction that always leaves the control state. -/
theorem of_next {u : State} (h : Host.Outcome.next u = (.next t : Host.Outcome State Fault Refusal))
    (hu : KeepsControl s u) : Ran i s t := by
  cases h
  exact .plain hu

end Ran

/-! ### Data for an IO register (R37) -/

theorem loadKeepsDauc_of_check {io : IoReg} {d : Word} (h : checkIoData io d = .ok ()) (n : Nat) :
    loadKeepsDauc (some (.ior io n d)) = true := by
  unfold checkIoData at h
  split at h
  · cases h
  · next hn =>
    cases io with
    | dauc =>
      have h7 : d.getLsbD 7 = false := Bool.eq_false_iff.2 fun h7 => hn ⟨rfl, h7⟩
      rw [loadKeepsDauc, h7, Bool.not_false]
    | _ => rfl

/-! ### DA instructions -/

theorem dspSpecial_left {w : Word} {r : FlagEntry × Word} (h : dspSpecial w = some r) : r.1.left = 4 := by
  unfold dspSpecial at h
  dsimp only at h
  split at h
  · cases h; rfl
  · split at h
    · cases h; rfl
    · cases h

/-- The flags of dsp are those of this instruction. -/
theorem dspOfIeee_left (fm : FloatFormat) (w : Word) : (fm.dspOfIeee w).1.left = 4 := by
  unfold FloatFormat.dspOfIeee
  split
  · next r hr => exact dspSpecial_left hr
  · rfl

/-- Formats 1 to 4 queue one flag result. -/
theorem macCommon_ran {i : Instr} {zk : ZKind} {aN : AccNo} {x y : DaOperand} {z : DaDest}
    {f : DaValue → DaValue → DauResult} {s t : State} (h : macCommon zk aN x y z f s = .next t) :
    Ran i s t := by
  have agents := (KeepsControl.interleave s).trans (.interleave _)
  obtain ⟨e, rfl⟩ | ⟨xv, yv, u, -, -, hu, rfl⟩ := macCommon_next h
  · exact .plain (agents.trans (.requestError _ _))
  · exact .dau ((((agents.trans (.daWrite hu)).trans (.setAcc _ _ _)).trans (.postOperand _ _ _)).trans
      (.postOperand _ _ _) |>.trans (.postDest _ _ _)) rfl

/-- Format 5 queues a flag result where its function has one. -/
theorem specialCommon_ran {i : Instr} {yn zn : Nat} {aN : AccNo} {y : DaOperand} {z : DaDest}
    {f : DaValue → SpecialResult} {s t : State} (h : specialCommon yn zn aN y z f s = .next t)
    (hf : ∀ yv, ∀ e ∈ (f yv).flags, e.left = 4) : Ran i s t := by
  obtain ⟨e, rfl⟩ | ⟨yv, u, -, hu, rfl⟩ := specialCommon_next h
  · exact .plain ((KeepsControl.interleave s).trans (.requestError _ _))
  · have moved : KeepsControl s (((u.setAcc aN (f yv).value).postOperand y yn).postDest z zn) :=
      (KeepsControl.interleave s).trans (.zWrite hu) |>.trans (.setAcc _ _ _) |>.trans
        (.postOperand _ _ _) |>.trans (.postDest _ _ _)
    have left := hf yv
    generalize (f yv).flags = flags at left
    cases flags with
    | none => exact .plain (moved.trans (.addDraws _ _))
    | some e => exact .dau (moved.trans (.addDraws _ (f yv).draws)) (left e rfl)

/-! ### Stores to an IO register -/

/-- A store to spc is a command. -/
theorem storeIo_ran {w : Width} {rH : Source} {io : IoReg} {s t : State}
    (h : execStoreIo w rH io s = .next t) : Ran (.storeIo w rH io) s t := by
  refine .of_resolve h (.refl s) fun hr => ?_
  split at hr
  · next hspc =>
    cases w with
    | long => exact .wait hr
    | ushort | short => cases hr; exact .plain (.emit s _)
    | byte | char => exact .softReset hspc hr
    | hbyte => cases hr
  · obtain ⟨_, hd, hr⟩ := Res.bind_ok hr
    cases hr
    exact .ioStore hd

/-! ### Every instruction -/

/-- What each instruction does to the control state. -/
theorem exec_ran {i : Instr} {s t : State} (h : exec i s = .next t) : Ran i s t := by
  cases i with
  | ifGoto | goto | nop | ret | goto24 => exact .of_next h (.branch s _ _)
  | loopGoto | call | call24 => exact .of_next h ((KeepsControl.setReg s _ _).trans (.branch _ _ _))
  | ireturn => exact .of_resolve h (.refl s) (.ireturn rfl)
  | doImm | doReg | dolockImm | dolockReg | doblockImm | doblockReg => exact .of_next h (.startLoop s _ _ _)
  | sftrst => exact .of_resolve h (.refl s) (.softReset trivial)
  | waiti => exact .of_resolve h (.refl s) .wait
  | bkpt => exact .of_next h (.emit s _)
  | add3 | set | subImm | rsubImm | crAddImm | andImm | orImm | xorImm | shlImm | shrImm | sarImm | shiftOr =>
    exact .of_next h (.putResult s _ _)
  | addReg | incDec | subReg | neg | crAddReg | andReg | andcReg | orReg | xorReg | shlReg | shrReg | sarReg
  | shl1 | shr1 | half | ror1 | rol1 => exact .of_result h
  | spIncDec => exact .of_conditionally h (.holdInterrupts s) (.putResult _ _ _)
  | cmpReg | bitReg => exact .of_conditionally h (.refl s) (.setCau s _)
  | cmpImm | bitImm => exact .of_next h (.setCau s _)
  | set24 => exact .of_next h (.setReg s _ _)
  | loadDirect w rH l =>
    refine .of_resolve h (.refl s) fun hr => ?_
    obtain ⟨d, -, hr⟩ := Res.bind_ok hr
    cases hr
    exact .load (.refl s) rfl
  | storeDirect => exact .of_resolve h (.refl s) fun hr => .plain (.store hr)
  | loadMem w rH rP rI =>
    refine .of_resolve h (.refl s) fun hr => ?_
    obtain ⟨_, -, hr⟩ := Res.bind_ok hr
    obtain ⟨d, -, hr⟩ := Res.bind_ok hr
    cases hr
    exact .load (.setReg s _ _) rfl
  | storeMem w rH rP rI =>
    refine .of_resolve h (.refl s) fun hr => ?_
    obtain ⟨_, -, hr⟩ := Res.bind_ok hr
    obtain ⟨u, hu, hr⟩ := Res.bind_ok hr
    cases hr
    exact .plain ((KeepsControl.store hu).trans (.setReg _ _ _))
  | loadIo w rH io =>
    refine .of_resolve h (.refl s) fun hr => ?_
    split at hr
    · cases hr
    · cases hr
      exact .load (.refl s) rfl
  | storeIo => exact storeIo_ran h
  | loadIor w io rP rI =>
    refine .of_resolve h (.refl s) fun hr => ?_
    obtain ⟨_, -, hr⟩ := Res.bind_ok hr
    obtain ⟨_, -, hr⟩ := Res.bind_ok hr
    obtain ⟨d, -, hr⟩ := Res.bind_ok hr
    obtain ⟨_, hd, hr⟩ := Res.bind_ok hr
    cases hr
    exact .load (.setReg s _ _) (loadKeepsDauc_of_check hd _)
  | storeIor w io rP rI =>
    refine .of_resolve h (.refl s) fun hr => ?_
    obtain ⟨_, -, hr⟩ := Res.bind_ok hr
    obtain ⟨_, -, hr⟩ := Res.bind_ok hr
    obtain ⟨u, hu, hr⟩ := Res.bind_ok hr
    cases hr
    exact .plain ((KeepsControl.store hu).trans (.setReg _ _ _))
  | fmultAccStore | fmultAccTap | fmultAddStore | fmultStore | fmultTap | faddStore | faddTap | floadStore
  | fzeroAddStore | fconstTap | fconstStore => exact macCommon_ran h
  | ic | float16 | round | float32 | seed =>
    exact specialCommon_ran h fun _ e he => by cases he; rfl
  | oc | int16 | ifalt | ifaeq | ifagt | int32 | ieee => exact specialCommon_ran h fun _ e he => by cases he
  | dsp aN y z =>
    cases y with
    | acc => cases h
    | mem m => exact specialCommon_ran h fun _ e he => by cases he; exact dspOfIeee_left _ _

end Sys2Proof.Machine
end

section
/-! SUPPORT. The end of a step: what it leaves as the instruction left it, and where the rest comes from. -/

namespace Sys2Proof.Machine

/-! ### The flags in flight do not see the records -/

theorem State.settleAll_records (p : Option PendingLoad) (l : List Record) :
    ∀ (es : List FlagEntry) (s : State),
      { s with pendingLoad := p, history := l }.settleAll es =
        { s.settleAll es with pendingLoad := p, history := l }
  | [], _ => rfl
  | e :: es, s => State.settleAll_records p l es (s.settle e)

theorem State.advanceFlags_records (s : State) (p : Option PendingLoad) (l : List Record) :
    { s with pendingLoad := p, history := l }.advanceFlags =
      { s.advanceFlags with pendingLoad := p, history := l } := by
  unfold State.advanceFlags
  dsimp only
  rw [State.settleAll_records]

/-! ### The pending load -/

/-- What the commit of a load can touch (R287, R293). -/
theorem State.commitLoad_eq (s : State) :
    s.commitLoad = { s with
      regs := s.commitLoad.regs
      pcsh := s.commitLoad.pcsh
      ps := s.commitLoad.ps
      emr := s.commitLoad.emr
      pcw := s.commitLoad.pcw
      pcwLocked := s.commitLoad.pcwLocked
      dauc := s.commitLoad.dauc
      ctr := s.commitLoad.ctr
      queue := s.commitLoad.queue
      latch := { s.latch with wroteFlags := s.commitLoad.latch.wroteFlags }
      draws := s.commitLoad.draws } := by
  obtain ⟨-, h⟩ | ⟨rD, v, -, h⟩ | ⟨io, n, d, -, h⟩ := s.commitLoad_cases <;> rw [h]
  · rw [State.commitFlags_eq, State.commitDest_eq]
  · rw [State.ioWrite_eq]

/-- A commit only takes free values. -/
theorem State.draws_le_commitLoad (s : State) : s.draws ≤ s.commitLoad.draws := by
  obtain ⟨-, h⟩ | ⟨rD, v, -, h⟩ | ⟨io, n, d, -, h⟩ := s.commitLoad_cases <;> rw [h]
  · have dest : s.draws ≤ (s.commitDest rD v).draws := by
      unfold State.commitDest
      split
      · exact Nat.le_refl _
      · split
        · exact Nat.le_succ _
        · exact Nat.le_refl _
    refine dest.trans ?_
    unfold State.commitFlags
    split
    · exact Nat.le_succ _
    · exact Nat.le_refl _
  · rw [State.ioWrite_eq]

/-! ### The end of the step -/

variable (b : State) (pf : Fetched) (t : State)

/-- The earlier load is committed, the flags in flight have advanced, and the instruction is recorded. -/
def advanced : State :=
  { t.commitLoad.advanceFlags with
    pendingLoad := t.latch.load, history := (b.irRecord :: t.commitLoad.history).take 3 }

theorem advanced_errorRequest : (advanced b t).errorRequest = t.errorRequest := by
  rw [advanced, State.advanceFlags_eq, State.commitLoad_eq]

theorem advanced_draws : (advanced b t).draws = t.commitLoad.draws := by
  rw [advanced, State.advanceFlags_eq]

/-- Only the loop and the sequencing registers are still to move. -/
def drained : State :=
  if b.loop.tail && b.loop.kind == .block && (advanced b t).errorRequest.isNone then (advanced b t).endBlock
  else advanced b t

theorem finish_eq_moveOn :
    finish b pf t =
      { { drained b t with loop := countPass b (drained b t).loop }.moveOn pf with
        latch := Latch.empty, inSlot := b.opensSlot } := by
  unfold finish drained advanced
  dsimp only
  rw [State.advanceFlags_records]

theorem endsBlock_iff :
    (b.loop.tail && b.loop.kind == .block && (advanced b t).errorRequest.isNone) = true ↔ EndsBlock b t := by
  simp [advanced_errorRequest, EndsBlock, and_assoc]

variable {b t} in
theorem drained_of_endsBlock (h : EndsBlock b t) : drained b t = (advanced b t).endBlock :=
  if_pos ((endsBlock_iff b t).2 h)

variable {b t} in
theorem drained_of_not_endsBlock (h : ¬ EndsBlock b t) : drained b t = advanced b t :=
  if_neg (mt (endsBlock_iff b t).1 h)

/-- The end of a doblock touches the flags and takes a free value (R210). -/
theorem drained_eq :
    drained b t = { advanced b t with
      queue := (drained b t).queue
      ps := (drained b t).ps
      draws := (drained b t).draws } := by
  by_cases h : EndsBlock b t
  · rw [drained_of_endsBlock h]
    rfl
  · rw [drained_of_not_endsBlock h]

/-- What the end of a step leaves of the commit and the advance. -/
theorem finish_eq :
    finish b pf t = { t.commitLoad.advanceFlags with
      pc := (finish b pf t).pc
      npc := (finish b pf t).npc
      ir := (finish b pf t).ir
      loop := (finish b pf t).loop
      history := (finish b pf t).history
      inSlot := b.opensSlot
      latch := Latch.empty
      pendingLoad := t.latch.load
      queue := (finish b pf t).queue
      ps := (finish b pf t).ps
      draws := (finish b pf t).draws } := by
  rw [finish_eq_moveOn, State.moveOn_eq, drained_eq]
  rfl

/-! ### The fields after the end of the step -/

@[simp] theorem finish_accs : (finish b pf t).accs = t.accs := by
  rw [finish_eq, State.advanceFlags_eq, State.commitLoad_eq]
@[simp] theorem finish_mem : (finish b pf t).mem = t.mem := by
  rw [finish_eq, State.advanceFlags_eq, State.commitLoad_eq]
@[simp] theorem finish_periph : (finish b pf t).periph = t.periph := by
  rw [finish_eq, State.advanceFlags_eq, State.commitLoad_eq]
@[simp] theorem finish_level : (finish b pf t).level = t.level := by
  rw [finish_eq, State.advanceFlags_eq, State.commitLoad_eq]
@[simp] theorem finish_shadow : (finish b pf t).shadow = t.shadow := by
  rw [finish_eq, State.advanceFlags_eq, State.commitLoad_eq]
@[simp] theorem finish_waiting : (finish b pf t).waiting = t.waiting := by
  rw [finish_eq, State.advanceFlags_eq, State.commitLoad_eq]
@[simp] theorem finish_inhibit : (finish b pf t).inhibit = t.inhibit := by
  rw [finish_eq, State.advanceFlags_eq, State.commitLoad_eq]
@[simp] theorem finish_latch : (finish b pf t).latch = Latch.empty := by
  rw [finish_eq]
@[simp] theorem finish_pendingLoad : (finish b pf t).pendingLoad = t.latch.load := by
  rw [finish_eq]
@[simp] theorem finish_regs : (finish b pf t).regs = t.commitLoad.regs := by
  rw [finish_eq, State.advanceFlags_eq]
@[simp] theorem finish_emr : (finish b pf t).emr = t.commitLoad.emr := by
  rw [finish_eq, State.advanceFlags_eq]
@[simp] theorem finish_pcw : (finish b pf t).pcw = t.commitLoad.pcw := by
  rw [finish_eq, State.advanceFlags_eq]
@[simp] theorem finish_pcwLocked : (finish b pf t).pcwLocked = t.commitLoad.pcwLocked := by
  rw [finish_eq, State.advanceFlags_eq]
@[simp] theorem finish_dauc : (finish b pf t).dauc = t.commitLoad.dauc := by
  rw [finish_eq, State.advanceFlags_eq]
@[simp] theorem finish_ctr : (finish b pf t).ctr = t.commitLoad.advanceFlags.ctr := by
  rw [finish_eq]
@[simp] theorem finish_pending : (finish b pf t).pending = t.commitLoad.advanceFlags.pending := by
  rw [finish_eq]

/-- The flags after the end of a step are those of the drained state. -/
theorem finish_flags :
    (finish b pf t).queue = (drained b t).queue ∧ (finish b pf t).ps = (drained b t).ps ∧
      (finish b pf t).draws = (drained b t).draws := by
  rw [finish_eq_moveOn, State.moveOn_eq]
  exact ⟨rfl, rfl, rfl⟩

variable {b t} in
/-- Elsewhere the flags of an advance stay (R446). -/
theorem finish_flags_of_not_endsBlock (h : ¬ EndsBlock b t) :
    (finish b pf t).queue = t.commitLoad.advanceFlags.queue ∧
      (finish b pf t).ps = t.commitLoad.advanceFlags.ps := by
  obtain ⟨hq, hp, -⟩ := finish_flags b pf t
  rw [hq, hp, drained_of_not_endsBlock h]
  exact ⟨rfl, rfl⟩

variable {b t} in
/-- At the end of a doblock nothing stays in flight and the DAU flags are a free value (R210). -/
theorem finish_flags_of_endsBlock (h : EndsBlock b t) :
    (finish b pf t).queue = [] ∧
      (finish b pf t).ps = withDau t.commitLoad.advanceFlags.ps (Config.free 4 t.commitLoad.draws) ∧
      (finish b pf t).draws = t.commitLoad.draws + 1 := by
  obtain ⟨hq, hp, hd⟩ := finish_flags b pf t
  rw [hq, hp, hd, drained_of_endsBlock h, ← advanced_draws b t]
  exact ⟨rfl, rfl, rfl⟩

variable {t} in
/-- Nothing in flight before the advance, nothing after it. -/
theorem finish_queue_nil (h : t.commitLoad.queue = []) : (finish b pf t).queue = [] := by
  by_cases he : EndsBlock b t
  · exact (finish_flags_of_endsBlock pf he).1
  · rw [(finish_flags_of_not_endsBlock pf he).1, State.advanceFlags_nil h, h]

/-- Three instructions are remembered (R440). -/
theorem finish_history_length : (finish b pf t).history.length ≤ 3 := by
  have three : (drained b t).history.length ≤ 3 := by
    rw [drained_eq]
    exact List.length_take_le _ _
  rw [finish_eq_moveOn]
  obtain h | h := State.moveOn_history { drained b t with loop := countPass b (drained b t).loop } pf
  · exact (congrArg List.length h).trans_le three
  · exact (congrArg List.length h).trans_le (Nat.zero_le 3)

end Sys2Proof.Machine
end

section
/-! SUPPORT. The invariant, from the boundary to the end of the step. -/

namespace Sys2Proof.Machine

/-! ### The flag queue (R446) -/

/-- A queue with the result of the instruction that just ran, which is the newest. -/
def QueueFull (q : List FlagEntry) : Prop :=
  q.Pairwise (fun a b => a.left < b.left) ∧ ∀ e ∈ q, 1 ≤ e.left ∧ e.left ≤ 4

theorem QueueOk.nil : QueueOk [] := ⟨.nil, fun _ h => absurd h List.not_mem_nil⟩

theorem QueueOk.full {q : List FlagEntry} (h : QueueOk q) : QueueFull q :=
  ⟨h.1, fun e he => ⟨(h.2 e he).1, (h.2 e he).2.trans (by decide)⟩⟩

theorem QueueOk.push {q : List FlagEntry} (h : QueueOk q) {e : FlagEntry} (he : e.left = 4) :
    QueueFull (q ++ [e]) := by
  constructor
  · refine List.pairwise_append.2 ⟨h.1, List.pairwise_singleton _ _, fun a ha b hb => ?_⟩
    rw [List.mem_singleton.1 hb, he]
    exact Nat.lt_succ_of_le (h.2 a ha).2
  · intro a ha
    obtain ha | ha := List.mem_append.1 ha
    · exact h.full.2 a ha
    · rw [List.mem_singleton.1 ha, he]
      decide

/-- What an advance leaves in flight. -/
theorem QueueFull.advance {q : List FlagEntry} (h : QueueFull q) :
    QueueOk ((q.map fun e => { e with left := e.left - 1 }).filter (·.left != 0)) := by
  obtain ⟨order, bounds⟩ := h
  constructor
  · refine List.Pairwise.filter _ (List.pairwise_map.2 (order.imp_of_mem fun ha _ hab => ?_))
    have := (bounds _ ha).1
    dsimp only
    omega
  · intro e he
    obtain ⟨hm, h0⟩ := List.mem_filter.1 he
    obtain ⟨a, ha, rfl⟩ := List.mem_map.1 hm
    have := bounds a ha
    simp only [bne_iff_ne] at h0
    dsimp only at h0 ⊢
    omega

theorem drawnEntry_left (b : BitVec 6) (k : Nat) : ∀ e ∈ drawnEntry b k, e.left = k := by
  unfold drawnEntry
  split
  · intro e he
    rw [List.mem_singleton.1 he]
  · intro e he
    cases he

theorem drawnEntry_pairwise (b : BitVec 6) (k : Nat) :
    (drawnEntry b k).Pairwise fun a b => a.left < b.left := by
  unfold drawnEntry
  split
  · exact List.pairwise_singleton _ _
  · exact .nil

/-- A shadow set of free values has a queue in order (R390). -/
theorem drawnShadow_queue (n : Nat) : QueueOk (drawnShadow n).queue := by
  have left : ∀ b k, ∀ e ∈ drawnEntry b k, e.left = k := drawnEntry_left
  constructor
  · simp only [drawnShadow, List.pairwise_append, drawnEntry_pairwise, List.mem_append, true_and]
    refine ⟨fun a ha b hb => ?_, fun a ha b hb => ?_⟩
    · rw [left _ _ a ha, left _ _ b hb]; decide
    · rw [left _ _ b hb]
      obtain ha | ha := ha <;> rw [left _ _ a ha] <;> decide
  · intro e he
    simp only [drawnShadow, List.mem_append] at he
    obtain (he | he) | he := he <;> rw [left _ _ e he] <;> decide

/-! ### IO registers and settled flags -/

/-- Two zeros above six bits. -/
theorem extract_high_two (x : BitVec 6) : (0#2 ++ x : BitVec 8).extractLsb' 6 2 = 0#2 := by
  revert x; decide

theorem State.ctr_settle (s : State) (e : FlagEntry) : (s.settle e).ctr.extractLsb' 6 2 = 0#2 := by
  rw [State.settle_ctr, BitVec.append_assoc]
  exact extract_high_two _

/-- ctr[7:6] read as zero after results settled (R38). -/
theorem State.ctr_settleAll : ∀ (es : List FlagEntry) {s : State}, s.ctr.extractLsb' 6 2 = 0#2 →
    (s.settleAll es).ctr.extractLsb' 6 2 = 0#2
  | [], _, h => h
  | e :: es, s, _ => State.ctr_settleAll es (s.ctr_settle e)

/-- A settled result requests sources 5 and 6 only (R384). -/
theorem State.pending_settleAll : ∀ (es : List FlagEntry) {s : State}, OnlySources s.pending →
    OnlySources (s.settleAll es).pending
  | [], _, h => h
  | _ :: es, _, h => State.pending_settleAll es ((h.request rfl _).request rfl _)

/-! ### From the instruction to the end of its step -/

/-- What holds of the state that an instruction leaves. -/
structure Finishable (t : State) : Prop where
  memory : t.mem.wf = true
  dauc : t.dauc.getLsbD 7 = false
  daucLoad : loadKeepsDauc t.pendingLoad = true
  ctr : t.ctr.extractLsb' 6 2 = 0#2
  ioc : t.periph.ioc.extractLsb' 24 8 = 0#8
  pending : OnlySources t.pending
  locked : t.pcwLocked = true → t.pcw.getLsbD 13 = true
  newLoad : loadKeepsDauc t.latch.load = true
  newHeld : t.latch.load ≠ none → t.inhibit = true
  waits : t.waiting = true → t.level = .base ∧ t.queue = [] ∧ t.latch.load = none
  flags : QueueFull t.queue
  savedFlags : QueueOk t.shadow.queue

namespace Finishable

variable {s t u : State}

theorem keepsControl (h : Finishable s) (k : KeepsControl s t) : Finishable t where
  memory := k.memory h.memory
  dauc := k.dauc ▸ h.dauc
  daucLoad := k.pendingLoad ▸ h.daucLoad
  ctr := k.ctr ▸ h.ctr
  ioc := k.ioc h.ioc
  pending := k.pending h.pending
  locked hl := k.pcw ▸ h.locked (k.pcwLocked ▸ hl)
  newLoad := k.load ▸ h.newLoad
  newHeld hl := k.inhibit (h.newHeld (k.load ▸ hl))
  waits hw := by
    rw [k.level, k.queue, k.load]
    exact h.waits (k.waiting ▸ hw)
  flags := k.queue ▸ h.flags
  savedFlags := k.shadow ▸ h.savedFlags

/-- A write of an IO register whose data keeps dauc[7] (R37, R38, R51). -/
theorem ioWrite (h : Finishable t) {io : IoReg} {n : Nat} {d : Word}
    (hd : loadKeepsDauc (some (.ior io n d)) = true) : Finishable (t.ioWrite io n d) := by
  cases io with
  | ps =>
    exact { h with
      waits := fun hw => ⟨(h.waits hw).1, rfl, (h.waits hw).2.2⟩
      flags := QueueOk.nil.full }
  | emr => exact { h with }
  | spc => exact h
  | pcw =>
    simp only [State.ioWrite]
    split
    · exact h
    · refine { h with locked := fun hl => ?_ }
      simp only [locksPcw, Bool.and_eq_true, bne_iff_ne] at hl
      simp only [merge16, hl.1, if_false, BitVec.getLsbD_extractLsb']
      simpa using hl.2
  | dauc =>
    have h7 : (d.extractLsb' 0 8).getLsbD 7 = false := by simpa [loadKeepsDauc] using hd
    exact { h with dauc := h7 }
  | ctr => exact { h with ctr := extract_high_two _ }

/-- The commit of the pending load. -/
theorem commitLoad (h : Finishable t) : Finishable t.commitLoad := by
  obtain ⟨-, he⟩ | ⟨rD, v, -, he⟩ | ⟨io, n, d, hp, he⟩ := t.commitLoad_cases <;> rw [he]
  · exact h
  · rw [State.commitFlags_eq, State.commitDest_eq]
    exact { h with }
  · exact h.ioWrite (hp ▸ h.daucLoad)

/-- The end of the step. -/
theorem finish (h : Finishable t) (b : State) (pf : Fetched) : Inv (finish b pf t) where
  memory := by rw [finish_mem]; exact h.memory
  dauc := by rw [finish_dauc]; exact h.commitLoad.dauc
  daucLoad := by rw [finish_pendingLoad]; exact h.newLoad
  ctr := by rw [finish_ctr]; exact State.ctr_settleAll _ h.commitLoad.ctr
  ioc := by rw [finish_periph]; exact h.ioc
  pending := by rw [finish_pending]; exact State.pending_settleAll _ h.commitLoad.pending
  locked := by rw [finish_pcwLocked, finish_pcw]; exact h.commitLoad.locked
  loadHeld := by rw [finish_pendingLoad, finish_inhibit]; exact h.newHeld
  waits hw := by
    have hc : t.commitLoad.waiting = true := by rwa [State.commitLoad_eq, ← finish_waiting b pf t]
    rw [finish_waiting] at hw
    exact ⟨(finish_level b pf t).trans (h.waits hw).1, finish_queue_nil b pf (h.commitLoad.waits hc).2.1,
      (finish_pendingLoad b pf t).trans (h.waits hw).2.2⟩
  flags := by
    by_cases he : EndsBlock b t
    · rw [(finish_flags_of_endsBlock pf he).1]
      exact .nil
    · rw [(finish_flags_of_not_endsBlock pf he).1, State.advanceFlags_eq]
      exact h.commitLoad.flags.advance
  savedFlags := by rw [finish_shadow]; exact h.savedFlags
  history := finish_history_length b pf t
  settled := finish_latch b pf t

end Finishable

end Sys2Proof.Machine
end

section
/-! SUPPORT. What a step does, phase by phase, and the invariant along it. -/

namespace Sys2Proof.Machine

/-! ### The phases of a step (R190) -/

/-- Everything the recognition of exceptions can do: an error is taken; no interrupt is taken and a waiting
processor may wake; or the candidate is taken (R386). -/
theorem State.recognize_ok {s b : State} (h : s.recognize = .ok b) :
    (∃ e, s.errorRequest = some e ∧ s.takeException (.error e) = .ok b) ∨
    (∃ w, (w = true → s.waiting = true) ∧ b = { s with inhibit := false, waiting := w }) ∨
    ∃ i, s.candidate = some i ∧ s.waiting = false ∧
      { s with inhibit := false }.takeException (.interrupt i) = .ok b := by
  unfold State.recognize at h
  split at h
  · next e he => exact .inl ⟨e, he, h⟩
  · refine .inr ?_
    dsimp only at h
    split at h
    · cases h
      exact .inl ⟨s.waiting, id, rfl⟩
    · next i hi =>
      split at h
      · cases h
        exact .inl ⟨false, fun hw => Bool.noConfusion hw, rfl⟩
      · next hw =>
        split at h
        · cases h
          exact .inl ⟨s.waiting, id, rfl⟩
        · exact .inr ⟨i, hi, by simpa using hw, h⟩

/-- A boundary without a next state is the error at double error level (R383). -/
theorem State.recognize_error {s : State} {x : Trouble} (h : s.recognize = .error x) :
    x = .refuse .errorAtDoubleError := by
  unfold State.recognize at h
  split at h
  · next e _ =>
    obtain ⟨-, he⟩ | ⟨l, -, he⟩ := s.takeError e <;> rw [he] at h <;> cases h
    rfl
  · dsimp only at h
    split at h
    · cases h
    · split at h
      · cases h
      · split at h
        · cases h
        · rw [State.takeInterrupt] at h
          cases h

/-- Everything a step can do: wait on, or run what stands in `ir` between the moments of the other
agents. -/
theorem step_next {s t : State} (h : step s = .next t) :
    ∃ b, s.boundary = .ok b ∧
      ((b.waiting = true ∧ t = b) ∨
       (b.waiting = false ∧ ∃ u, b.interleave.interleave.execute = .next u ∧
          t = finish b.interleave.interleave b.interleave.prefetch u)) := by
  simp only [step, cycle] at h
  cases hb : s.boundary with
  | error x =>
    rw [hb, State.recognize_error hb] at h
    cases h
  | ok b =>
    refine ⟨b, rfl, ?_⟩
    rw [hb] at h
    dsimp only at h
    split at h
    · next hw =>
      cases h
      exact .inl ⟨hw, rfl⟩
    · next hw =>
      split at h
      · next u hu =>
        cases h
        exact .inr ⟨by simpa using hw, u, hu, rfl⟩
      · cases h
      · cases h

/-- Everything the execution can do: request an error, or run the instruction in `ir`. -/
theorem State.execute_next {s t : State} (h : s.execute = .next t) :
    (∃ e, t = { s with errorRequest := some e }) ∨
    ∃ w i, s.ir = .word w ∧ s.decoded w = .instr i ∧ exec i s = .next t := by
  unfold State.execute at h
  split at h
  · cases h
  · split at h
    · obtain hok | ⟨e, -, he⟩ := resolve_next h
      · cases hok
      · exact .inl ⟨e, he⟩
    · next w hw =>
      split at h
      · obtain hok | ⟨e, -, he⟩ := resolve_next h
        · cases hok
        · exact .inl ⟨e, he⟩
      · cases h
      · next i hi =>
        split at h
        · cases h
        · exact .inr ⟨w, i, hw, hi, h⟩

/-! ### The invariant between steps -/

/-- Reset meets the invariant, whatever the straps and the word fetched. -/
theorem afterReset_inv (straps : BitVec 4) (ir : Fetched) : Inv (State.afterReset straps ir) where
  memory := rfl
  dauc := (by decide : (0#8).getLsbD 7 = false)
  daucLoad := rfl
  ctr := (by decide : (0#8).extractLsb' 6 2 = 0#2)
  ioc := (by decide : (0#32).extractLsb' 24 8 = 0#8)
  pending := BitVec.zero_and
  locked h := nomatch h
  loadHeld h := absurd rfl h
  waits h := nomatch h
  flags := .nil
  savedFlags := .nil
  history := Nat.zero_le 3
  settled := rfl

namespace Inv

variable {s t b : State}

theorem keepsControl (h : Inv s) (k : KeepsControl s t) (hh : t.history = s.history)
    (hl : t.latch = s.latch) : Inv t where
  memory := k.memory h.memory
  dauc := k.dauc ▸ h.dauc
  daucLoad := k.pendingLoad ▸ h.daucLoad
  ctr := k.ctr ▸ h.ctr
  ioc := k.ioc h.ioc
  pending := k.pending h.pending
  locked hp := k.pcw ▸ h.locked (k.pcwLocked ▸ hp)
  loadHeld hp := k.inhibit (h.loadHeld (k.pendingLoad ▸ hp))
  waits hw := by
    rw [k.level, k.queue, k.pendingLoad]
    exact h.waits (k.waiting ▸ hw)
  flags := k.queue ▸ h.flags
  savedFlags := k.shadow ▸ h.savedFlags
  history := hh ▸ h.history
  settled := hl.trans h.settled

/-- An event of the environment, RESTN among them. -/
theorem event (h : Inv s) (e : EnvEvent) : Inv (s.event e) := by
  cases hr : isRestn e with
  | true =>
    cases e with
    | restn straps => exact { afterReset_inv straps s.ir with memory := h.memory }
    | _ => cases hr
  | false =>
    have frame := s.event_eq hr
    exact h.keepsControl (.event hr) (by rw [frame]) (by rw [frame])

theorem events : ∀ (es : List EnvEvent) {s : State}, Inv s → Inv (es.foldl State.event s)
  | [], _, h => h
  | e :: es, _, h => events es (h.event e)

theorem environment (h : Inv s) : Inv s.environment := by
  unfold State.environment State.moment
  split
  · exact h
  · exact events _ (s := { s with env := _ }) { h with }

end Inv

/-! ### The invariant within a step -/

/-- What holds where an instruction starts: the invariant, but that interrupts need not be held off. -/
def Running (s : State) : Prop := Inv { s with inhibit := true }

theorem Inv.running {s : State} (h : Inv s) : Running s := { h with loadHeld := fun _ => rfl }

/-- A waiting processor has no load to hold interrupts off for. -/
theorem Running.inv_of_waiting {s : State} (h : Running s) (hw : s.waiting = true) : Inv s :=
  { h with loadHeld := fun hl => absurd (h.waits hw).2.2 hl }

/-- The shadow set of an interrupt has a queue in order. -/
theorem Running.shadowOf {s : State} (h : Running s) : QueueOk s.shadowOf.queue := by
  simp only [State.shadowOf]
  split
  · exact h.flags
  · exact .nil

/-- Taking an interrupt (R386). -/
theorem Running.takeInterrupt {s b : State} (h : Running s) (hw : s.waiting = false) {i : Nat}
    (hb : s.takeException (.interrupt i) = .ok b) : Running b := by
  rw [State.takeInterrupt] at hb
  cases hb
  refine { h with
    pending := OnlySources.clear h.pending _
    waits := fun h' => absurd h' (ne_true_of_eq_false hw)
    flags := ?_
    savedFlags := h.shadowOf
    history := Nat.zero_le 3 }
  dsimp only
  split
  · exact .nil
  · exact h.flags

/-- Taking an error (R390). -/
theorem Running.takeError {s b : State} (h : Running s) {e : ErrorSource}
    (hb : s.takeException (.error e) = .ok b) : Running b := by
  obtain ⟨-, he⟩ | ⟨l, -, he⟩ := s.takeError e <;> rw [he] at hb <;> cases hb
  refine { h with
    waits := fun h' => nomatch h'
    flags := .nil
    savedFlags := ?_
    history := Nat.zero_le 3 }
  simp only [State.saveAtError]
  split
  · exact drawnShadow_queue _
  · exact h.shadowOf
  · exact h.savedFlags

theorem Inv.recognize {s b : State} (h : Inv s) (hb : s.recognize = .ok b) : Running b := by
  obtain ⟨e, -, he⟩ | ⟨w, hw, rfl⟩ | ⟨i, -, hw, hi⟩ := State.recognize_ok hb
  · exact h.running.takeError he
  · exact { h.running with waits := fun h' => h.waits (hw h') }
  · exact Running.takeInterrupt (s := { s with inhibit := false }) h.running hw hi

/-- The boundary of a step. -/
theorem Inv.boundary {s b : State} (h : Inv s) (hb : s.boundary = .ok b) : Running b := by
  have opened : Inv { s with out := [], latch := Latch.empty } := { h with settled := rfl }
  exact opened.environment.recognize hb

/-- A moment of the other agents inside the step. -/
theorem Running.interleave {s : State} (h : Running s) : Running s.interleave :=
  Inv.keepsControl (s := { s with inhibit := true }) h
    { KeepsControl.interleave s with inhibit := fun _ => rfl } s.interleave_history s.interleave_latch

theorem Running.finishable {s : State} (h : Running s) (hw : s.waiting = false) : Finishable s := by
  have latch : s.latch = Latch.empty := h.settled
  exact { h with
    newLoad := by rw [latch]; rfl
    newHeld := fun hl => absurd (by rw [latch]; rfl) hl
    waits := fun h' => absurd h' (ne_true_of_eq_false hw)
    flags := h.flags.full }

/-- waiti settles what is in flight (R396, R446). -/
theorem State.waitForInterrupt_settles {s t : State} (h : s.waitForInterrupt = .ok t) :
    ∃ w, t = { s.settleAll s.queue with queue := [], waiting := w } := by
  unfold State.waitForInterrupt at h
  split at h
  · dsimp only at h
    split at h
    · cases h
      exact ⟨true, rfl⟩
    · cases h
      exact ⟨_, rfl⟩
  · cases h

/-- What an instruction leaves can be finished. -/
theorem Ran.finishable {i : Instr} {s t : State} (r : Ran i s t) (h : Running s) (hw : s.waiting = false) :
    Finishable t := by
  have start := h.finishable hw
  cases r with
  | plain k => exact start.keepsControl k
  | load k hl =>
    have u := start.keepsControl k
    exact { u with
      newLoad := hl
      newHeld := fun _ => rfl
      waits := fun h' => absurd h' (ne_true_of_eq_false (k.waiting.trans hw)) }
  | @dau u e k he =>
    have hu := start.keepsControl k
    have full : QueueFull (u.queue ++ [e]) := k.queue ▸ QueueOk.push h.flags he
    exact { hu with
      waits := fun h' => absurd h' (ne_true_of_eq_false (k.waiting.trans hw))
      flags := full }
  | ioStore hd => exact start.ioWrite (loadKeepsDauc_of_check hd _)
  | ireturn _ hr =>
    obtain ⟨-, rfl⟩ := State.returnFromInterrupt_ok hr
    refine { start with
      newHeld := fun _ => rfl
      waits := fun h' => absurd h' (ne_true_of_eq_false hw)
      flags := ?_ }
    dsimp only
    split
    · exact h.savedFlags.full
    · exact start.flags
  | softReset _ hr =>
    obtain ⟨-, rfl⟩ := State.softReset_ok hr
    exact { start with waits := fun h' => absurd h' (ne_true_of_eq_false hw) }
  | wait hr =>
    obtain ⟨v, rfl⟩ := State.waitForInterrupt_settles hr
    obtain ⟨hl, -⟩ := State.waitForInterrupt_ok hr
    have noLoad : s.latch.load = none := by
      rw [show s.latch = Latch.empty from h.settled]
      rfl
    have ctr := State.ctr_settleAll s.queue start.ctr
    have pending := State.pending_settleAll s.queue start.pending
    rw [State.settleAll_eq]
    exact { start with
      ctr := ctr
      pending := pending
      waits := fun _ => ⟨hl, rfl, noLoad⟩
      flags := QueueOk.nil.full }

theorem State.execute_finishable {s t : State} (h : Running s) (hw : s.waiting = false)
    (hx : s.execute = .next t) : Finishable t := by
  obtain ⟨e, rfl⟩ | ⟨w, i, -, -, hi⟩ := State.execute_next hx
  · exact (h.finishable hw).keepsControl (.requestError s _)
  · exact (exec_ran hi).finishable h hw

/-- The invariant is kept by every step. -/
theorem Inv.step {s t : State} (h : Inv s) (ht : step s = .next t) : Inv t := by
  obtain ⟨b, hb, ⟨hw, rfl⟩ | ⟨hw, u, hu, rfl⟩⟩ := step_next ht
  · exact (h.boundary hb).inv_of_waiting hw
  · have run : Running b.interleave.interleave := (h.boundary hb).interleave.interleave
    exact (State.execute_finishable run (by simpa using hw) hu).finish _ _

/-! ### The statements -/

/-- Settles O10: the boundary leaves `Running`, the instruction `Finishable`, and the end of the step the
invariant. -/
theorem stepKeepsTheInvariant : Obligations.StepKeepsTheInvariant :=
  fun _ _ h ht => h.step ht

/-- Settles O9: reset with every strap low is one of the resets of `afterReset_inv`. -/
theorem resetMeetsTheInvariant : Obligations.ResetMeetsTheInvariant :=
  afterReset_inv _ _

end Sys2Proof.Machine
end

section
/-! SUPPORT. The moves in the words of the statements: what a store takes, what a transfer of n bytes moves,
and what an access leaves. -/

namespace Sys2Proof.Machine

/-! ### Sizes and data -/

theorem widthBytes_eq (w : Width) : widthBytes w = bytesMoved w := by cases w <;> rfl

/-- The transfer sizes (R151). -/
theorem bytesMoved_cases (w : Width) : bytesMoved w = 1 ∨ bytesMoved w = 2 ∨ bytesMoved w = 4 := by
  cases w <;> decide

theorem State.sourceValue_eq (s : State) (r : Source) : s.sourceValue r = sourceOf s r := by cases r <;> rfl

/-- The data of a store fits its register. -/
theorem stored_lt (w : Width) (v : Word) : stored w v < 2 ^ 32 := by
  have := v.isLt
  cases w <;> simp only [stored] <;> omega

theorem storedWord_toNat (w : Width) (v : Word) : (storedWord w v).toNat = stored w v := by
  rw [storedWord, BitVec.toNat_ofNat, Nat.mod_eq_of_lt (stored_lt w v)]

/-- The data a store takes from its register (R290). -/
theorem placeStore_eq (w : Width) (v : Word) : placeStore w v = storedWord w v := by
  apply BitVec.eq_of_toNat_eq
  rw [storedWord_toNat]
  have := v.isLt
  cases w with
  | long => rfl
  | hbyte =>
    simp only [placeStore, stored, BitVec.toNat_setWidth, BitVec.extractLsb'_toNat, Nat.shiftRight_eq_div_pow]
    omega
  | byte | char | ushort | short =>
    simp only [placeStore, stored, BitVec.toNat_setWidth]
    omega

/-- The low bytes of a word as a number. -/
theorem lowBytes_eq {n : Nat} (h : n = 1 ∨ n = 2 ∨ n = 4) (v : Word) :
    lowBytes n v = BitVec.ofNat 32 (v.toNat % 2 ^ (8 * n)) := by
  apply BitVec.eq_of_toNat_eq
  have mask : ∀ k, k < 32 → (v &&& (1#32 <<< k - 1#32)).toNat = v.toNat % 2 ^ k := by
    intro k hk
    have hp : 2 ^ k < 2 ^ 32 := Nat.pow_lt_pow_right (by decide) hk
    have h1 : 1 ≤ 2 ^ k := Nat.one_le_two_pow
    have low : (1#32 <<< k - 1#32).toNat = 2 ^ k - 1 := by
      rw [BitVec.toNat_sub, BitVec.toNat_shiftLeft, Nat.shiftLeft_eq]
      simp only [BitVec.toNat_ofNat, Nat.one_mod, Nat.one_mul, Nat.mod_eq_of_lt hp]
      omega
    rw [BitVec.toNat_and, low, Nat.and_two_pow_sub_one_eq_mod]
  have := v.isLt
  obtain rfl | rfl | rfl := h
  · rw [lowBytes, if_pos (by decide), mask _ (by decide), BitVec.toNat_ofNat]
    omega
  · rw [lowBytes, if_pos (by decide), mask _ (by decide), BitVec.toNat_ofNat]
    omega
  · rw [lowBytes, if_neg (by decide), BitVec.toNat_ofNat]
    omega

/-! ### IO registers -/

/-- An IO register as it reads (R33, R35, R295). -/
theorem State.ioValue_toNat (s : State) (io : IoReg) : (s.ioValue io).toNat = ioNumber s io := by
  have low : ∀ (w : Nat) (x : BitVec w), w ≤ 32 → (x.setWidth 32).toNat = x.toNat := fun w x hw => by
    rw [BitVec.toNat_setWidth, Nat.mod_eq_of_lt (x.isLt.trans_le (Nat.pow_le_pow_right (by decide) hw))]
  cases io with
  | ps =>
    have pins : s.pins.psHigh.toNat = s.pins.ibf.toNat + 2 * s.pins.obe.toNat + 4 * s.pins.sy.toNat
        + 8 * s.pins.fb.toNat + 16 * s.pins.ir0.toNat + 32 * s.pins.ir1.toNat := by
      unfold Pins.psHigh
      generalize s.pins.ibf = a, s.pins.obe = b, s.pins.sy = c, s.pins.fb = d, s.pins.ir0 = e,
        s.pins.ir1 = f
      revert a b c d e f
      decide
    have := s.ps.isLt
    rw [State.ioValue, low _ _ (by decide), BitVec.toNat_append, ← Nat.shiftLeft_add_eq_or_of_lt this,
      Nat.shiftLeft_eq, pins, ioNumber]
    omega
  | emr | pcw | dauc | ctr => exact low _ _ (by decide)
  | spc => rfl

/-- The data of a transfer from an IO register (R295). -/
theorem State.ioRead_eq (s : State) (io : IoReg) (w : Width) :
    s.ioRead io (bytesMoved w) = ioData s io (bytesMoved w) := by
  rw [State.ioRead, lowBytes_eq (bytesMoved_cases w), State.ioValue_toNat, ioData]

/-- A 16-bit register after a transfer (R295). -/
theorem merge16_eq (old : Half) (n : Nat) (d : Word) : merge16 old n d = merged old n d.toNat := by
  apply BitVec.eq_of_toNat_eq
  unfold merge16 merged
  have hd := d.isLt
  have ho := old.isLt
  split
  · have low : (d.extractLsb' 0 8).toNat = d.toNat % 256 := by
      rw [BitVec.extractLsb'_toNat, Nat.shiftRight_zero]
    have high : (old.extractLsb' 8 8).toNat = old.toNat / 256 := by
      rw [BitVec.extractLsb'_toNat, Nat.shiftRight_eq_div_pow]
      omega
    rw [BitVec.toNat_append, ← Nat.shiftLeft_add_eq_or_of_lt (d.extractLsb' 0 8).isLt, low, high,
      Nat.shiftLeft_eq, BitVec.toNat_ofNat]
    omega
  · rw [BitVec.extractLsb'_toNat, Nat.shiftRight_zero, BitVec.toNat_ofNat]

/-- A write of an IO register (R34, R37, R39, R40, R51, R295). -/
theorem State.ioWrite_eq_ioWritten (s : State) (io : IoReg) (n : Nat) (d : Word) :
    s.ioWrite io n d = ioWritten s io n d.toNat := by
  have byte : d.extractLsb' 0 8 = BitVec.ofNat 8 d.toNat := by
    apply BitVec.eq_of_toNat_eq
    rw [BitVec.extractLsb'_toNat, Nat.shiftRight_zero, BitVec.toNat_ofNat]
  cases io with
  | ps | dauc => simp only [State.ioWrite, ioWritten, byte]
  | emr => simp only [State.ioWrite, ioWritten, merge16_eq]
  | spc => rfl
  | pcw =>
    have lock : locksPcw n d = decide (n ≠ 1 ∧ d.toNat.testBit 13 = true) := by
      rw [locksPcw, BitVec.getLsbD, Bool.decide_and, Bool.decide_eq_true, decide_not, bne, beq_eq_decide]
    simp only [State.ioWrite, ioWritten, merge16_eq, lock]
  | ctr =>
    have six : (0#2 ++ d.extractLsb' 0 6 : BitVec 8) = BitVec.ofNat 8 (d.toNat % 64) := by
      apply BitVec.eq_of_toNat_eq
      rw [BitVec.toNat_append, BitVec.extractLsb'_toNat, BitVec.toNat_ofNat, BitVec.toNat_ofNat,
        Nat.zero_mod, Nat.zero_shiftLeft, Nat.zero_or, Nat.shiftRight_zero]
      omega
    simp only [State.ioWrite, ioWritten, six]

/-! ### What a store and a pointer update leave -/

/-- A store reaches memory and the memory-mapped registers. -/
theorem State.store_frame {s t : State} {a : Word} {n : Nat} {v : Word} (h : s.store a n v = .ok t) :
    t = { s with mem := t.mem, periph := t.periph } := by
  obtain ⟨-, ⟨e, -, -, rfl⟩ | ⟨-, hb⟩⟩ := State.store_ok h
  · rfl
  · rw [(State.writeBytes_ok _ hb).1]

/-- A store leaves every byte but its own. -/
theorem State.store_onlyBytes {s t : State} {a : Word} {n : Nat} {v : Word} (h : s.store a n v = .ok t) :
    OnlyBytes s t a n := by
  intro b hb
  obtain ⟨-, ⟨e, -, -, rfl⟩ | ⟨-, hw⟩⟩ := State.store_ok h
  · exact SameMap.readByte ⟨rfl, rfl, rfl⟩ rfl b
  · refine State.writeBytes_read_other _ hw fun j hj he => ?_
    rw [length_bytesOf] at hj
    rw [he, BitVec.add_comm, BitVec.add_sub_cancel, BitVec.toNat_ofNat] at hb
    have := Nat.mod_le j (2 ^ 32)
    omega

/-- The pointer after its update (R283). -/
theorem State.increment_eq (s : State) (rP : Reg) (rI : Increment) (n : Nat) :
    s.reg rP + s.increment rI n = pointerAfter s rP rI n := by
  cases rI with
  | reg r =>
    by_cases hr : r = 0
    · subst hr; rfl
    · simp only [State.increment, pointerAfter, hr, if_false]
  | plusN | minusN => rfl

/-- The pointer update sets the pointer (R283, R287). -/
theorem State.bumpPointer_set {s t : State} (ht : t.regs = s.regs) (rP : Reg) (rI : Increment) (n : Nat) :
    PointerSet s (t.bumpPointer rP rI n) rP (pointerAfter s rP rI n) := by
  have value : t.reg rP + t.increment rI n = pointerAfter s rP rI n := by
    rw [← State.increment_eq]
    cases rI <;> simp only [State.increment, State.reg_congr ht]
  refine ⟨?_, fun r hr => ?_, List.mem_cons_self⟩
  · rw [State.bumpPointer, State.reg_setReg, value]
    by_cases hP : rP = 0
    · subst hP; simp
    · simp [hP]
  · rw [State.bumpPointer, State.reg_setReg_other _ _ hr, State.reg_congr ht]

theorem State.readByte_bumpPointer (s : State) (rP : Reg) (rI : Increment) (n : Nat) (b : Word) :
    (s.bumpPointer rP rI n).readByte b = s.readByte b :=
  SameMap.readByte ⟨rfl, rfl, rfl⟩ rfl b

/-! ### Stores to and from IO registers -/

theorem checkIoData_ok {io : IoReg} {d : Word} (h : io = .dauc → d.getLsbD 7 = false) :
    checkIoData io d = .ok () := by
  unfold checkIoData
  rw [if_neg]
  exact fun ⟨hio, h7⟩ => absurd h7 (ne_true_of_eq_false (h hio))

theorem checkSp_of_spFits {rP : Reg} {w : Width} (h : spFits rP w) : checkSp rP w = .ok () :=
  if_neg fun ⟨hr, hw⟩ => hw (h hr)

/-- A store to an IO register other than spc (R292, R295). -/
theorem exec_storeIo {s : State} {w : Width} {rH : Source} {io : IoReg} (hio : io ≠ .spc)
    (hd : io = .dauc → (storedWord w (sourceOf s rH)).getLsbD 7 = false) :
    exec (.storeIo w rH io) s = .next (ioWritten s io (bytesMoved w) (stored w (sourceOf s rH))) := by
  rw [← storedWord_toNat, ← State.ioWrite_eq_ioWritten]
  simp only [exec, execStoreIo, hio, if_false, placeStore_eq, State.sourceValue_eq, checkIoData_ok hd,
    widthBytes_eq]
  rfl

/-- A store that would set dauc[7] is refused (R37). -/
theorem exec_storeIo_daucBit7 {s : State} {w : Width} {rH : Source}
    (hd : (storedWord w (sourceOf s rH)).getLsbD 7 = true) :
    exec (.storeIo w rH .dauc) s = .refused .daucBit7 := by
  have bad : checkIoData .dauc (storedWord w (sourceOf s rH)) = .error (.refuse .daucBit7) :=
    if_pos ⟨rfl, hd⟩
  simp only [exec, execStoreIo, placeStore_eq, State.sourceValue_eq, bad]
  rfl

/-- A store from an IO register (R294). -/
theorem exec_storeIor {s u : State} {w : Width} {io : IoReg} {rP : Reg} {rI : Increment} (hio : io ≠ .spc)
    (hw : w ≠ .hbyte) (hsp : spFits rP w)
    (hu : s.store (s.reg rP) (bytesMoved w) (ioData s io (bytesMoved w)) = .ok u) :
    exec (.storeIor w io rP rI) s = .next (u.bumpPointer rP rI (bytesMoved w)) := by
  simp only [exec, execStoreIor, checkIor, hio, hw, if_false, checkSp_of_spFits hsp, State.ioRead_eq,
    widthBytes_eq]
  show resolve s (s.store _ _ _ >>= _) = _
  rw [hu]
  rfl

/-- Settles O45: each register by `State.ioWrite_eq_ioWritten`, the commands by their rows, and the stores from
an IO register by what a store and a pointer update leave. -/
theorem ioStoresFollowEachRegister : Obligations.IoStoresFollowEachRegister := by
  intro s w rH
  refine ⟨fun io hio hd => exec_storeIo hio hd, exec_storeIo_daucBit7, ?commands, rfl, ?fromIo⟩
  case commands =>
    intro b
    refine ⟨rfl, ?_, ?_⟩ <;> cases b <;> rfl
  case fromIo =>
    intro io rP rI u hio hw hsp hu
    have frame := State.store_frame hu
    refine ⟨_, exec_storeIor hio hw hsp hu, rfl, rfl,
      fun b hb => (State.readByte_bumpPointer u rP rI _ b).trans (State.store_onlyBytes hu b hb),
      State.bumpPointer_set (by rw [frame]) rP rI _, ?_⟩
    rw [State.bumpPointer_frame, frame]

end Sys2Proof.Machine
end

section
/-! SUPPORT. The recognition of exceptions at a boundary without events, the level and the lock. -/

namespace Sys2Proof.Machine

variable {s : State}

/-! ### A boundary without events -/

/-- Without events only the exceptions remain. -/
theorem State.boundary_of_nil (h : s.env = []) :
    s.boundary = { s with out := [], latch := Latch.empty }.recognize := by
  unfold State.boundary State.environment State.moment
  simp only [h]

theorem State.candidate_of_inhibit (s : State) (h : Bool) : { s with inhibit := h }.candidate = s.candidate :=
  rfl

/-- An interrupt is taken where none is held off (R386). -/
theorem State.recognize_takes (he : s.errorRequest = none) (hw : s.waiting = false)
    (hb : s.blocked = false) {i : Nat} (hc : s.candidate = some i) :
    s.recognize = { s with inhibit := false }.takeException (.interrupt i) := by
  unfold State.recognize
  rw [he]
  dsimp only
  rw [State.candidate_of_inhibit, hc, hw, hb]
  rfl

/-- Where interrupts are held off none is taken; a waiting processor wakes where one is pending and enabled
(R385, R396). -/
theorem State.recognize_held (he : s.errorRequest = none) (hb : s.waiting = true ∨ s.blocked = true) :
    s.recognize = .ok { s with
      inhibit := false
      waiting := s.waiting && decide (s.candidate = none) } := by
  unfold State.recognize
  rw [he]
  dsimp only
  rw [State.candidate_of_inhibit]
  cases s.candidate with
  | none => simp
  | some i =>
    cases hw : s.waiting with
    | true => simp
    | false => simp [hb.resolve_left (by simp [hw])]

/-- What holds interrupts off (R385). -/
theorem State.blocked_iff :
    s.blocked = true ↔ s.inhibit = true ∨ s.level ≠ .base ∨
      ((s.loop.active = true ∨ s.loop.tail = true) ∧
        (s.loop.kind = .lock ∨ (s.loop.kind = .block ∧ s.loop.passes.toNat % 4 ≠ 0))) := by
  simp only [State.blocked, State.locked, State.inBody, Bool.or_eq_true, Bool.and_eq_true, beq_iff_eq,
    bne_iff_ne, or_assoc]
  tauto

/-- Settles O19, by `State.recognize_held`. -/
theorem interruptsAreHeldOff : Obligations.InterruptsAreHeldOff := by
  intro s henv he hold
  refine ⟨_, ?_, rfl⟩
  rw [State.boundary_of_nil henv]
  have blocked : s.waiting = true ∨ s.blocked = true := by rwa [State.blocked_iff]
  exact State.recognize_held (s := { s with out := [], latch := Latch.empty }) he blocked

/-! ### Interrupt entry -/

/-- A candidate is one of the sources (R388). -/
theorem State.candidate_mem {i : Nat} (h : s.candidate = some i) : i ∈ interruptSources :=
  List.mem_of_find?_eq_some h

/-- Clearing the request of source `i` clears that one alone. -/
theorem getLsbD_clear (p : BitVec 16) (i j : Nat) :
    (p &&& ~~~(1#16 <<< i)).getLsbD j = (p.getLsbD j && decide (j ≠ i)) := by
  rw [BitVec.getLsbD_and, BitVec.getLsbD_not, BitVec.getLsbD_shiftLeft, BitVec.getLsbD_one]
  by_cases hj : j < 16
  · congr 1
    rw [Bool.eq_iff_iff]
    simp only [hj, decide_true, Bool.true_and, Bool.not_eq_true', Bool.and_eq_false_iff, decide_eq_true_eq,
      decide_eq_false_iff_not, Bool.not_eq_false', ne_eq]
    omega
  · rw [BitVec.getLsbD_of_ge p j (by omega)]
    rfl

/-- Settles O18: the boundary is the entry of `State.takeInterrupt`, and the fetch sees the same map. -/
theorem interruptEntrySavesAndVectors : Obligations.InterruptEntrySavesAndVectors := by
  intro s i henv he hw hb hc
  have entry := State.recognize_takes (s := { s with out := [], latch := Latch.empty }) he hw hb hc
  rw [← State.boundary_of_nil henv, State.takeInterrupt] at entry
  refine ⟨_, entry, rfl, rfl, rfl, fun hq => ?queue, rfl, rfl, rfl, rfl, ?cleared, fun j hj => ?others,
    ?acknowledged, rfl, rfl, rfl, rfl, ?fetched, rfl, rfl, rfl, rfl, rfl, rfl, rfl, rfl, rfl⟩
  case queue => simp only [State.shadowOf, hq, if_true, and_self]
  case cleared => exact (getLsbD_clear _ i i).trans (by simp)
  case others => exact (getLsbD_clear _ i j).trans (by simp [hj])
  case acknowledged => exact List.mem_append_right _ List.mem_cons_self
  case fetched => exact SameMap.fetch ⟨rfl, rfl, rfl⟩ rfl rfl _

/-! ### The level -/

/-- Only ireturn and sftrst change the level (R392, R394). -/
theorem Ran.level {i : Instr} {t : State} (r : Ran i s t) :
    t.level = s.level ∨ i = .ireturn ∨ isCommand i := by
  cases r with
  | plain k | load k | dau k => exact .inl k.level
  | ioStore => rw [State.ioWrite_eq]; exact .inl rfl
  | ireturn hi => exact .inr (.inl hi)
  | softReset hi => exact .inr (.inr hi)
  | wait h =>
    obtain ⟨-, ht⟩ := State.waitForInterrupt_ok h
    rw [ht]
    exact .inl rfl

/-- Settles O24: without events, errors and interrupts the boundary leaves the level, and of the instructions
only ireturn and the commands do not. -/
theorem onlyFewEventsChangeTheLevel : Obligations.OnlyFewEventsChangeTheLevel := by
  intro s t ht changed
  by_contra cause
  simp only [not_or, not_not] at cause
  obtain ⟨henv, herr, hcand, noInstr⟩ := cause
  have boundary : ∀ b, s.boundary = .ok b → ∃ w, b = { opened s with waiting := w } := by
    intro b hb
    rw [State.boundary_of_nil henv] at hb
    obtain ⟨e, he, -⟩ | ⟨w, -, rfl⟩ | ⟨i, hi, -⟩ := State.recognize_ok hb
    · exact absurd (herr.symm.trans he) (by simp)
    · exact ⟨w, rfl⟩
    · exact absurd (hcand.symm.trans hi) (by simp)
  obtain ⟨b, hb, ⟨-, rfl⟩ | ⟨-, u, hu, rfl⟩⟩ := step_next ht
  · obtain ⟨w, rfl⟩ := boundary _ hb
    exact changed rfl
  · obtain ⟨w, rfl⟩ := boundary b hb
    rw [finish_level] at changed
    obtain ⟨e, rfl⟩ | ⟨word, i, hword, hi, hx⟩ := State.execute_next hu
    · exact changed (by simp [opened])
    · obtain same | special := (exec_ran hx).level
      · exact changed (by rw [same]; simp [opened])
      · refine noInstr ⟨word, i, ?_, ?_, special⟩
        · simpa [opened] using hword
        · simpa [State.decoded, opened] using hi

/-! ### The lock of pcw (R51) -/

/-- pcw and its lock are as before. -/
def SamePcw (s t : State) : Prop := t.pcw = s.pcw ∧ t.pcwLocked = s.pcwLocked

theorem KeepsControl.samePcw {t : State} (k : KeepsControl s t) : SamePcw s t := ⟨k.pcw, k.pcwLocked⟩

theorem SamePcw.trans {t u : State} (h : SamePcw s t) (k : SamePcw t u) : SamePcw s u :=
  ⟨k.1.trans h.1, k.2.trans h.2⟩

/-- A boundary without RESTN leaves pcw. -/
theorem State.boundary_samePcw {b : State} (hr : ¬ restarts s) (hb : s.boundary = .ok b) : SamePcw s b := by
  have agents : KeepsControl { s with out := [], latch := Latch.empty }
      { s with out := [], latch := Latch.empty }.environment := by
    refine .moment _ fun es hes e he hre => absurd ?_ hr
    cases e with
    | restn k => exact ⟨es, hes, k, he⟩
    | _ => cases hre
  refine SamePcw.trans ⟨agents.pcw, agents.pcwLocked⟩ ?_
  obtain ⟨e, -, he⟩ | ⟨w, -, rfl⟩ | ⟨i, -, -, hi⟩ := State.recognize_ok hb
  · obtain ⟨-, h⟩ | ⟨l, -, h⟩ := State.takeError _ e <;> rw [h] at he <;> cases he
    exact ⟨rfl, rfl⟩
  · exact ⟨rfl, rfl⟩
  · rw [State.takeInterrupt] at hi
    cases hi
    exact ⟨rfl, rfl⟩

/-- A write of an IO register leaves a locked pcw. -/
theorem State.ioWrite_samePcw (h : s.pcwLocked = true) (io : IoReg) (n : Nat) (d : Word) :
    SamePcw s (s.ioWrite io n d) := by
  cases io with
  | pcw => rw [State.ioWrite_locked h]; exact ⟨rfl, rfl⟩
  | _ => exact ⟨rfl, rfl⟩

/-- No instruction writes a locked pcw. -/
theorem Ran.samePcw {i : Instr} {t : State} (r : Ran i s t) (h : s.pcwLocked = true) : SamePcw s t := by
  cases r with
  | plain k | load k | dau k => exact ⟨k.pcw, k.pcwLocked⟩
  | ioStore => exact State.ioWrite_samePcw h _ _ _
  | ireturn _ hr =>
    obtain ⟨-, rfl⟩ := State.returnFromInterrupt_ok hr
    exact ⟨rfl, rfl⟩
  | softReset _ hr =>
    obtain ⟨-, rfl⟩ := State.softReset_ok hr
    exact ⟨rfl, rfl⟩
  | wait hr =>
    obtain ⟨-, ht⟩ := State.waitForInterrupt_ok hr
    rw [ht]
    exact ⟨rfl, rfl⟩

/-- Nor does a delayed load. -/
theorem State.commitLoad_samePcw (h : s.pcwLocked = true) : SamePcw s s.commitLoad := by
  obtain ⟨-, he⟩ | ⟨rD, v, -, he⟩ | ⟨io, n, d, -, he⟩ := s.commitLoad_cases <;> rw [he]
  · exact ⟨rfl, rfl⟩
  · rw [State.commitFlags_eq, State.commitDest_eq]
    exact ⟨rfl, rfl⟩
  · exact State.ioWrite_samePcw h io n d

/-- A step without RESTN leaves a locked pcw. -/
theorem step_samePcw {t : State} (h : s.pcwLocked = true) (hr : ¬ restarts s) (ht : step s = .next t) :
    SamePcw s t := by
  obtain ⟨b, hb, ⟨-, rfl⟩ | ⟨-, u, hu, rfl⟩⟩ := step_next ht
  · exact State.boundary_samePcw hr hb
  · have start : SamePcw s b.interleave.interleave :=
      (State.boundary_samePcw hr hb).trans
        ((KeepsControl.interleave b).trans (.interleave _)).samePcw
    have run : SamePcw b.interleave.interleave u := by
      obtain ⟨e, rfl⟩ | ⟨_, i, -, -, hx⟩ := State.execute_next hu
      · exact ⟨rfl, rfl⟩
      · exact (exec_ran hx).samePcw (start.2.trans h)
    have ran := start.trans run
    refine (ran.trans (State.commitLoad_samePcw (ran.2.trans h))).trans ⟨?_, ?_⟩
    · exact finish_pcw _ _ u
    · exact finish_pcwLocked _ _ u

/-- pcw after RESTN: its straps are BIO7 to BIO4 (R42, R431). -/
theorem resetPcw_toNat (straps : BitVec 4) :
    (resetPcw straps).toNat = 0x038F + (straps.getLsbD 3).toNat * 2 ^ 10 + (straps.getLsbD 2).toNat * 2 ^ 11
      + (straps.getLsbD 1).toNat * 2 ^ 12 + (straps.getLsbD 0).toNat * 2 ^ 13 := by
  revert straps
  decide

theorem resetPcw_brc (straps : BitVec 4) : (resetPcw straps).getLsbD 13 = straps.getLsbD 0 := by
  revert straps
  decide

/-- The low half of what a store of two or four bytes takes. -/
theorem stored_low {w : Width} (h : bytesMoved w ≠ 1) (v : Word) : stored w v % 2 ^ 16 = v.toNat % 2 ^ 16 := by
  cases w with
  | byte | char | hbyte => exact absurd rfl h
  | ushort | short => exact Nat.mod_mod _ _
  | long => rfl

/-- Settles O25: a store writes as `ioWritten` says, and no phase of a step moves a locked pcw. -/
theorem lockedPcwStays : Obligations.LockedPcwStays := by
  refine ⟨?locks, fun s t h hr ht => ?stays, fun s straps => ⟨rfl, resetPcw_brc straps⟩⟩
  case stays =>
    obtain ⟨hp, hl⟩ := step_samePcw h hr ht
    exact ⟨hp, hl.trans h⟩
  case locks =>
    intro s w rH unlocked hn h13
    have low := stored_low hn (sourceOf s rH)
    have bit : (stored w (sourceOf s rH)).testBit 13 = true := by
      have := congrArg (Nat.testBit · 13) low
      simp only [Nat.testBit_mod_two_pow, Nat.reduceLT, decide_true, Bool.true_and] at this
      exact this.trans h13
    refine ⟨_, exec_storeIo IoReg.noConfusion IoReg.noConfusion, ?_⟩
    simp only [ioWritten, unlocked, Bool.false_eq_true, if_false]
    refine ⟨decide_eq_true ⟨hn, bit⟩, BitVec.eq_of_toNat_eq ?_⟩
    rw [merged, if_neg hn, BitVec.toNat_ofNat, BitVec.toNat_setWidth, low]

/-- Settles O8: every field is that of `State.afterReset`, and the fetch sees the reset map. -/
theorem restnLeavesTheResetState : Obligations.RestnLeavesTheResetState := by
  intro s straps
  exact ⟨rfl, rfl, SameMap.fetch ⟨rfl, rfl, rfl⟩ rfl rfl _, rfl, rfl, rfl, rfl, resetPcw_toNat straps, rfl, rfl,
    rfl, rfl, rfl, rfl, rfl, rfl, rfl, rfl⟩

/-! ### The return from an interrupt -/

/-- Entries that have more than one instruction to go do not settle (R446). -/
theorem State.advanceFlags_of_later (h : ∀ e ∈ s.queue, 2 ≤ e.left) :
    s.advanceFlags = { s with queue := s.queue.map fun e => { e with left := e.left - 1 } } := by
  have later : ∀ e ∈ s.queue.map fun e => { e with left := e.left - 1 }, e.left ≠ 0 := by
    intro e he
    obtain ⟨a, ha, rfl⟩ := List.mem_map.1 he
    have := h a ha
    dsimp only
    omega
  unfold State.advanceFlags
  dsimp only
  rw [List.filter_eq_nil_iff.2 fun e he => by simpa using later e he,
    List.filter_eq_self.2 fun e he => by simpa using later e he]
  rfl

/-- ireturn at interrupt level completes (R392). -/
theorem State.returnFromInterrupt_of_level (h : s.level = .interrupt) :
    ∃ t, s.returnFromInterrupt = .ok t := by
  unfold State.returnFromInterrupt
  rw [if_pos h]
  exact ⟨_, rfl⟩

/-- The end of a step outside a loop, with no load and nothing to settle, only goes on and ages the flags in
flight. -/
theorem finish_of_calm {b t : State} (pf : Fetched) (hload : t.pendingLoad = none)
    (hactive : b.loop.active = false) (htail : b.loop.tail = false) (hleft : ∀ e ∈ t.queue, 2 ≤ e.left) :
    finish b pf t =
      { State.moveOn { t with
          queue := t.queue.map fun e => { e with left := e.left - 1 }
          pendingLoad := t.latch.load
          history := (b.irRecord :: t.history).take 3 } pf with
        latch := Latch.empty, inSlot := b.opensSlot } := by
  have noBlock : ¬ EndsBlock b t := fun h => absurd h.1 (ne_true_of_eq_false htail)
  have noLoad : t.commitLoad = t := by rw [State.commitLoad, hload]
  have noPass : ∀ d, countPass b d = d := fun d => by simp [countPass, State.inBody, hactive, htail]
  rw [finish_eq_moveOn, drained_of_not_endsBlock noBlock, advanced, noLoad,
    State.advanceFlags_of_later hleft, noPass]

/-- Settles O22: with no load and no loop in flight the end of ireturn only ages what the shadow set held. -/
theorem ireturnGivesBackWhatTheInterruptTook : Obligations.IreturnGivesBackWhatTheInterruptTook := by
  intro s u h b i pf hu hleft hflight hparams hlevel hshadow hpcsh hload hactive htail hb
  rw [State.takeInterrupt] at hu
  cases hu
  have saved : h.shadow = ⟨s.ir, s.pc, s.ps, s.queue, s.loop⟩ := by
    rw [hshadow]
    simp only [State.shadowOf, hflight, if_true]
  have back : h.pcsh = s.npc := hpcsh
  obtain ⟨t, ht⟩ := State.returnFromInterrupt_of_level hlevel
  have done : exec .ireturn h = .next t := by rw [exec, execIreturn, ht, resolve_ok]
  cases done.symm.trans hb
  obtain ⟨-, rfl⟩ := State.returnFromInterrupt_ok ht
  simp only [saved, back, hparams, hflight, if_true]
  rw [finish_of_calm]
  · exact ⟨rfl, rfl, rfl, rfl, rfl, rfl, rfl, rfl, rfl, rfl, rfl, rfl, rfl⟩
  · exact hload
  · exact hactive
  · exact htail
  · exact hleft

end Sys2Proof.Machine
end

section
/-! SUPPORT. The word placed by `withFetchWord`, and the flags of a DAU result on their way. -/

namespace Sys2Proof.Machine

/-! ### Byte order -/

/-- Shifting in a byte from below, as a number. -/
theorem shiftIn_toNat {x : Word} (h : x.toNat < 2 ^ 24) (b : Byte) :
    (x <<< 8 ||| b.setWidth 32).toNat = x.toNat * 256 + b.toNat := by
  have hb := b.isLt
  have shifted : (x <<< 8).toNat = x.toNat <<< 8 := by
    rw [BitVec.toNat_shiftLeft, Nat.shiftLeft_eq, Nat.mod_eq_of_lt (by omega)]
  have byte : (b.setWidth 32).toNat = b.toNat := by
    rw [BitVec.toNat_setWidth, Nat.mod_eq_of_lt (by omega)]
  rw [BitVec.toNat_or, shifted, byte, ← Nat.shiftLeft_add_eq_or_of_lt hb, Nat.shiftLeft_eq]

/-- A word read back from its bytes, the low one first (R92). -/
theorem valueOf_little (w : Word) : valueOf false (bytesOf false 4 w) = w := by
  have byte : ∀ k, (w.extractLsb' k 8).toNat = w.toNat / 2 ^ k % 256 := fun k => by
    rw [BitVec.extractLsb'_toNat, Nat.shiftRight_eq_div_pow]
  have hw := w.isLt
  show (((0#32 <<< 8 ||| (w.extractLsb' 24 8).setWidth 32) <<< 8 ||| (w.extractLsb' 16 8).setWidth 32) <<< 8
    ||| (w.extractLsb' 8 8).setWidth 32) <<< 8 ||| (w.extractLsb' 0 8).setWidth 32 = w
  have one := shiftIn_toNat (x := 0#32) (by decide) (w.extractLsb' 24 8)
  rw [BitVec.toNat_ofNat, byte] at one
  have two := shiftIn_toNat (by rw [one]; omega) (w.extractLsb' 16 8)
  rw [one, byte] at two
  have three := shiftIn_toNat (by rw [two]; omega) (w.extractLsb' 8 8)
  rw [two, byte] at three
  have four := shiftIn_toNat (by rw [three]; omega) (w.extractLsb' 0 8)
  rw [three, byte] at four
  apply BitVec.eq_of_toNat_eq
  rw [four]
  omega

/-- A word read back from its bytes, in either order (R92). -/
theorem valueOf_bytesOf (big : Bool) (w : Word) : valueOf big (bytesOf big 4 w) = w := by
  cases big with
  | false => exact valueOf_little w
  | true =>
    have mirrored : bytesOf true 4 w = (bytesOf false 4 w).reverse := rfl
    rw [mirrored, valueOf, if_pos rfl, List.reverse_reverse]
    exact valueOf_little w

/-! ### Placing a word -/

/-- A fetch gives the word whose bytes stand at an aligned address (R93). -/
theorem State.fetch_of_bytes {s : State} {a w : Word} (ha : a.toNat % 4 = 0)
    (h : ∀ j (hj : j < (bytesOf s.bigEndian 4 w).length),
      s.readByte (a + BitVec.ofNat 32 j) = .ok (bytesOf s.bigEndian 4 w)[j]) :
    s.fetch a = .word w := by
  have aligned : s.checkAlign a 4 = .ok () := by simp [State.checkAlign, isMisaligned, ha]
  have bytes : s.readBytes a 4 = .ok (bytesOf s.bigEndian 4 w) := by
    have := State.readBytes_of _ h
    rwa [length_bytesOf] at this
  unfold State.fetch
  simp only [aligned, bytes]
  exact congrArg Fetched.word (valueOf_bytesOf _ w)

/-- In read-write memory the word is written and put into `ir`. -/
theorem placeWord_ram {s : State} (w : Word)
    (hram : ∀ j, j < 4 → ∃ k, s.place (s.pc + BitVec.ofNat 32 j) = .ram k) :
    ∃ t, s.writeBytes s.pc (bytesOf s.bigEndian 4 w) = .ok t ∧
      placeWord s w = { t with ir := .word w } := by
  obtain ⟨t, ht⟩ := State.writeBytes_ram (bytesOf s.bigEndian 4 w) (s := s) (a := s.pc) (by
    rwa [length_bytesOf])
  refine ⟨t, ht, ?_⟩
  unfold placeWord
  rw [ht]

/-- Settles O6: the bytes written read back, and a word read back from its bytes is the word. -/
theorem placedWordIsTheOneFetched : Obligations.PlacedWordIsTheOneFetched := by
  intro s w hwf hpc hram
  have word : BitVec.ofNat 32 (w % 2 ^ 32) = BitVec.ofNat 32 w := by
    apply BitVec.eq_of_toNat_eq
    simp only [BitVec.toNat_ofNat, Nat.mod_mod]
  obtain ⟨t, ht, placed⟩ := placeWord_ram (BitVec.ofNat 32 w) hram
  rw [State.withFetchWord, word, placed]
  obtain ⟨frame, -, map⟩ := State.writeBytes_ok _ ht
  have sameBytes : ∀ a, { t with ir := .word (BitVec.ofNat 32 w) }.readByte a = t.readByte a :=
    fun a => SameMap.readByte ⟨rfl, rfl, rfl⟩ rfl a
  have order : { t with ir := .word (BitVec.ofNat 32 w) }.bigEndian = s.bigEndian := map.bigEndian
  have samePc : t.pc = s.pc := by rw [frame]
  refine ⟨State.fetch_of_bytes hpc fun j hj => ?read, rfl, fun b hb => ?others, by rw [frame]⟩
  case read =>
    simp only [order] at hj ⊢
    rw [sameBytes]
    exact State.writeBytes_read_same _ hwf (by rw [length_bytesOf]; decide) ht j hj
  case others =>
    rw [sameBytes]
    refine State.writeBytes_read_other _ ht fun j hj he => ?_
    rw [length_bytesOf] at hj
    rw [he, BitVec.add_comm, BitVec.add_sub_cancel, BitVec.toNat_ofNat] at hb
    have := Nat.mod_le j (2 ^ 32)
    omega

/-! ### Requests, bit by bit -/

theorem getLsbD_request (p : BitVec 16) (i j : Nat) (b : Bool) :
    (request p i b).getLsbD j = (p.getLsbD j || (b && decide (j < 16 ∧ j = i))) := by
  cases b with
  | false => rw [Bool.false_and, Bool.or_false]; rfl
  | true =>
    have bit : (1#16 <<< i).getLsbD j = decide (j < 16 ∧ j = i) := by
      rw [BitVec.getLsbD_shiftLeft, BitVec.getLsbD_one, Bool.eq_iff_iff]
      simp only [Bool.and_eq_true, decide_eq_true_eq, Bool.not_eq_true', decide_eq_false_iff_not]
      omega
    rw [request, if_pos rfl, BitVec.getLsbD_or, bit, Bool.true_and]

/-! ### Flags in flight (R446) -/

/-- Settling does not look at the queue. -/
theorem State.settleAll_queue (q : List FlagEntry) : ∀ (es : List FlagEntry) (s : State),
    { s with queue := q }.settleAll es = { s.settleAll es with queue := q }
  | [], _ => rfl
  | e :: es, s => State.settleAll_queue q es (s.settle e)

@[simp] theorem State.advanceFlags_regs (s : State) : s.advanceFlags.regs = s.regs := by
  rw [State.advanceFlags_eq]
@[simp] theorem State.advanceFlags_accs (s : State) : s.advanceFlags.accs = s.accs := by
  rw [State.advanceFlags_eq]
@[simp] theorem State.advanceFlags_mem (s : State) : s.advanceFlags.mem = s.mem := by
  rw [State.advanceFlags_eq]
@[simp] theorem State.advanceFlags_cau (s : State) : s.advanceFlags.cau = s.cau :=
  State.cau_congr (State.settleAll_cau _ s)

/-- An entry with more than one instruction to go stays behind the others. -/
theorem State.advanceFlags_pushFlags (s : State) {e : FlagEntry} (he : 2 ≤ e.left) :
    (s.pushFlags e).advanceFlags = s.advanceFlags.pushFlags { e with left := e.left - 1 } := by
  have later : e.left - 1 ≠ 0 := by omega
  unfold State.advanceFlags State.pushFlags
  dsimp only
  rw [State.settleAll_queue, List.map_append, List.filter_append, List.filter_append]
  simp [later]

/-- The last entry settles. -/
theorem State.advanceFlags_last {s : State} (h : s.queue = []) (n z v u nan : Bool) :
    (s.pushFlags ⟨n, z, v, u, nan, 1⟩).advanceFlags =
      { s.settle ⟨n, z, v, u, nan, 1⟩ with queue := [] } := by
  unfold State.advanceFlags State.pushFlags
  dsimp only
  rw [h, State.settleAll_queue]
  rfl

/-- A result passes three advances in flight, whatever is before it. -/
theorem advanceFlags_three (s : State) (n z v u nan : Bool) :
    State.advanceFlags^[3] (s.pushFlags (.fresh n z v u nan)) =
      (State.advanceFlags^[3] s).pushFlags ⟨n, z, v, u, nan, 1⟩ := by
  have go : ∀ (t : State) (k : Nat), (t.pushFlags ⟨n, z, v, u, nan, k + 2⟩).advanceFlags =
      t.advanceFlags.pushFlags ⟨n, z, v, u, nan, k + 1⟩ := fun t k =>
    t.advanceFlags_pushFlags (Nat.le_add_left 2 k)
  show ((s.pushFlags ⟨n, z, v, u, nan, 4⟩).advanceFlags).advanceFlags.advanceFlags = _
  rw [go, go, go]
  rfl

/-- An advance brings every entry one instruction closer. -/
theorem State.advanceFlags_left {s : State} {m : Nat} (h : ∀ e ∈ s.queue, 1 ≤ e.left ∧ e.left ≤ m + 1) :
    ∀ e ∈ s.advanceFlags.queue, 1 ≤ e.left ∧ e.left ≤ m := by
  intro e he
  rw [State.advanceFlags_eq] at he
  obtain ⟨hm, h0⟩ := List.mem_filter.1 he
  obtain ⟨a, ha, rfl⟩ := List.mem_map.1 hm
  have := h a ha
  simp only [bne_iff_ne] at h0
  dsimp only at h0 ⊢
  omega

/-- After `k` advances nothing is in flight that had at most `k` instructions to go. -/
theorem advanceFlags_drains : ∀ (k : Nat) {s : State}, (∀ e ∈ s.queue, 1 ≤ e.left ∧ e.left ≤ k) →
    (State.advanceFlags^[k] s).queue = []
  | 0, s, h => List.eq_nil_iff_forall_not_mem.2 fun e he => by have := h e he; omega
  | k + 1, s, h => advanceFlags_drains k (State.advanceFlags_left h)

/-- The fourth advance settles it, the others being settled. -/
theorem advanceFlags_four {s : State} (n z v u nan : Bool) (h : ∀ e ∈ s.queue, 1 ≤ e.left ∧ e.left ≤ 3) :
    State.advanceFlags^[4] (s.pushFlags (.fresh n z v u nan)) =
      { (State.advanceFlags^[3] s).settle ⟨n, z, v, u, nan, 1⟩ with queue := [] } := by
  rw [Function.iterate_succ_apply', advanceFlags_three, State.advanceFlags_last (advanceFlags_drains 3 h)]

/-- The DAU flags after their write. -/
theorem withDau_high (ps : BitVec 8) (nib : BitVec 4) : (withDau ps nib).extractLsb' 4 4 = nib := by
  apply BitVec.eq_of_getLsbD_eq
  intro i hi
  rw [BitVec.getLsbD_extractLsb', withDau_bits ps nib i hi, decide_eq_true hi, Bool.true_and]

/-- Settles O57: the entry stays last for three advances and settles alone at the fourth; the end of a step is
`finish_eq`, with the flags of `drained`. -/
theorem dauFlagsSettleAfterFourInstructions : Obligations.DauFlagsSettleAfterFourInstructions := by
  refine ⟨fun s n z v u nan hq => ?settles, fun b pf t => ?finishes⟩
  case settles =>
    have drained := advanceFlags_drains 3 hq
    dsimp only
    rw [advanceFlags_four n z v u nan hq, advanceFlags_three]
    generalize hx : State.advanceFlags^[3] s = x at drained ⊢
    obtain ⟨hn, hz, hu, hv⟩ := x.dau_settle ⟨n, z, v, u, nan, 1⟩
    have frame : x.cau = s.cau ∧ x.regs = s.regs ∧ x.accs = s.accs ∧ x.mem = s.mem := by
      subst hx
      simp [Function.iterate_succ_apply]
    obtain ⟨hcau, hregs, haccs, hmem⟩ := frame
    refine ⟨?_, rfl, rfl, rfl, hn, hz, hv, hu, (x.cau_settle _).trans hcau, rfl, ?_, ?_, hregs, haccs, hmem⟩
    · rw [State.pushFlags_queue, drained, List.nil_append]
    · exact (getLsbD_request _ 6 5 _).trans (by rw [getLsbD_request]; simp [Bool.or_assoc])
    · exact (getLsbD_request _ 6 6 _).trans (by rw [getLsbD_request]; simp)
  case finishes =>
    refine ⟨finish_ctr b pf t, finish_pending b pf t, ?cau, finish_flags_of_not_endsBlock pf, fun h => ?block⟩
    case cau =>
      by_cases h : EndsBlock b t
      · refine State.cau_congr ?_
        rw [(finish_flags_of_endsBlock pf h).2.1, withDau_low]
      · exact State.cau_congr (by rw [(finish_flags_of_not_endsBlock pf h).2])
    case block =>
      obtain ⟨queue, ps, draws⟩ := finish_flags_of_endsBlock pf h
      refine ⟨queue, t.commitLoad.draws, t.draws_le_commitLoad, by rw [draws]; exact Nat.lt_succ_self _, ?_⟩
      rw [ps, withDau_high]

end Sys2Proof.Machine
end

section
/-! SUPPORT. The memory-mapped registers and the timer. -/

namespace Sys2Proof.Machine

/-! ### Bits -/

/-- The bits of a word made bit by bit. -/
theorem getLsbD_bitsOf (w : Nat) (f : Nat → Bool) (i : Nat) :
    (bitsOf w f).getLsbD i = (decide (i < w) && f i) := by
  have upTo : ∀ n, ((List.range n).foldl (fun acc j => if f j then acc ||| (1#w <<< j) else acc) 0#w).getLsbD i
      = (decide (i < w ∧ i < n) && f i) := by
    intro n
    induction n with
    | zero => simp
    | succ n ih =>
      rw [List.range_succ, List.foldl_append, List.foldl_cons, List.foldl_nil]
      have bit : (1#w <<< n).getLsbD i = decide (i < w ∧ i = n) := by
        rw [BitVec.getLsbD_shiftLeft, BitVec.getLsbD_one, Bool.eq_iff_iff]
        simp only [Bool.and_eq_true, decide_eq_true_eq, Bool.not_eq_true', decide_eq_false_iff_not]
        omega
      by_cases hn : i = n
      · subst hn
        cases hf : f i <;> simp [hf, ih, bit]
      · have : i < n + 1 ↔ i < n := by omega
        cases hf : f n <;> simp [ih, bit, hn, this]
  exact (upTo w).trans (by simp only [and_self])

/-! ### bio (R66, R67) -/

/-- An output bit after a write of bio (R66). -/
theorem getLsbD_bioWrite (q : BitVec 8) (w : Half) {k : Nat} (hk : k < 8) :
    (bioWrite q w).getLsbD k =
      if w.getLsbD (2 * k) then w.getLsbD (2 * k + 1) && !q.getLsbD k
      else w.getLsbD (2 * k + 1) || q.getLsbD k := by
  rw [bioWrite, getLsbD_bitsOf, decide_eq_true hk, Bool.true_and]
  cases w.getLsbD (2 * k + 1) <;> cases w.getLsbD (2 * k) <;> rfl

/-- The output bit as read (R67). -/
theorem State.bioRead_output (s : State) {k : Nat} (hk : k < 8) :
    s.bioRead.getLsbD (2 * k + 1) = s.periph.bioOut.getLsbD k := by
  have odd : (2 * k + 1) % 2 ≠ 0 := by omega
  have half : (2 * k + 1) / 2 = k := by omega
  rw [State.bioRead, getLsbD_bitsOf, decide_eq_true (by omega), Bool.true_and, if_neg odd, half]

/-- The pin as read (R67). -/
theorem State.bioRead_pin (s : State) {k : Nat} (hk : k < 8) : s.bioRead.getLsbD (2 * k) = s.bioPin k := by
  have even : 2 * k % 2 = 0 := by omega
  have half : 2 * k / 2 = k := by omega
  rw [State.bioRead, getLsbD_bitsOf, decide_eq_true (by omega), Bool.true_and, if_pos even, half]

/-- Settles O58, bit by bit with `getLsbD_bitsOf`. -/
theorem portsFollowTheirFields : Obligations.PortsFollowTheirFields := by
  refine ⟨fun p w k hk => ?written, fun s k hk => ⟨s.bioRead_output hk, ?_, ?_, ?_⟩⟩
  case written =>
    have low : ∀ j, j < 16 → (w.setWidth 16).getLsbD j = w.getLsbD j := fun j hj => by
      rw [BitVec.getLsbD_setWidth, decide_eq_true hj, Bool.true_and]
    show (bioWrite p.bioOut (w.setWidth 16)).getLsbD k = _
    rw [getLsbD_bioWrite _ _ hk, low _ (by omega), low _ (by omega)]
    cases w.getLsbD (2 * k + 1) <;> cases w.getLsbD (2 * k) <;> rfl
  all_goals rw [s.bioRead_pin hk, State.bioPin]
  · intro input
    rw [if_neg (by simp [input])]
  · intro output plain
    rw [if_pos output, if_neg]
    intro timer
    obtain ⟨h1, h4⟩ := (Bool.and_eq_true _ _).mp timer
    exact plain.elim (· (of_decide_eq_true h1)) fun h => absurd h4 (ne_true_of_eq_false h)
  · rintro output rfl timer
    rw [if_pos output, if_pos (by rw [timer]; rfl)]

/-! ### The timer (R63, R403) -/

/-- A clock edge does nothing to a timer that is off or stands at zero. -/
theorem State.timerTicks_idle {s : State} (h : s.periph.tcon.getLsbD 0 = false ∨ s.periph.timerCount = 0#32) :
    s.timerTicks = s := by
  unfold State.timerTicks
  dsimp only
  rw [if_neg]
  obtain h | h := h
  · rw [h, Bool.false_and]
    exact Bool.false_ne_true
  · rw [h, bne_self_eq_false, Bool.and_false]
    exact Bool.false_ne_true

/-- It takes one from a larger count. -/
theorem State.timerTicks_counts {s : State} (hon : s.periph.tcon.getLsbD 0 = true)
    (h : 2 ≤ s.periph.timerCount.toNat) :
    s.timerTicks = { s with periph := { s.periph with timerCount := s.periph.timerCount - 1#32 } } := by
  have h0 : s.periph.timerCount ≠ 0#32 := by rintro e; simp [e] at h
  have h1 : s.periph.timerCount ≠ 1#32 := by rintro e; simp [e] at h
  unfold State.timerTicks
  dsimp only
  rw [if_pos (by simp [hon, h0]), if_neg h1]

/-- From 1 it reaches zero. -/
theorem State.timerTicks_expires {s : State} (hon : s.periph.tcon.getLsbD 0 = true)
    (h : s.periph.timerCount.toNat = 1) : s.timerTicks = s.timerExpires := by
  have h1 : s.periph.timerCount = 1#32 := BitVec.eq_of_toNat_eq h
  unfold State.timerTicks
  dsimp only
  rw [if_pos (by simp [hon, h1]), if_pos h1]

/-- It reaches the requests and the peripheral registers only. -/
theorem State.timerTicks_frame (s : State) :
    s.timerTicks = { s with pending := s.timerTicks.pending, periph := s.timerTicks.periph } := by
  unfold State.timerTicks State.timerExpires
  dsimp only
  split
  · split <;> rfl
  · rfl

/-- Settles O59: an edge leaves the timer idle, takes one from the count, or makes it expire. -/
theorem timerCountsDownToItsRequest : Obligations.TimerCountsDownToItsRequest := by
  intro s
  refine ⟨fun off => State.timerTicks_idle (.inl off), fun zero => State.timerTicks_idle (.inr zero),
    fun on more => ?counts, fun on last => ?expires, s.timerTicks_frame⟩
  case counts =>
    show s.timerTicks.periph.timerCount.toNat + 1 = _ ∧ s.timerTicks.pending = _
    rw [State.timerTicks_counts on more]
    refine ⟨?_, rfl⟩
    show (s.periph.timerCount - 1#32).toNat + 1 = s.periph.timerCount.toNat
    bv_omega
  case expires =>
    show s.timerTicks.pending.getLsbD 9 = _ ∧ (∀ j, j ≠ 9 → s.timerTicks.pending.getLsbD j = _) ∧
      s.timerTicks.periph.timerCount = _ ∧ s.timerTicks.periph.timerInit = _
    rw [State.timerTicks_expires on last]
    refine ⟨?_, fun j hj => ?_, rfl, rfl⟩
    · exact (getLsbD_request _ 9 9 true).trans (by simp)
    · exact (getLsbD_request _ 9 j true).trans (by simp [hj])

/-! ### Memory-mapped registers (R54, R114) -/

/-- A bit of dmac after a write (R62). -/
theorem getLsbD_dmacWrite (old w : BitVec 8) {k : Nat} (hk : k < 8) :
    (dmacWrite old w).getLsbD k =
      if (k = 1 ∨ k = 2) ∧ w.getLsbD 0 = false ∨ (k = 5 ∨ k = 6) ∧ w.getLsbD 4 = false
      then old.getLsbD k else w.getLsbD k := by
  rw [dmacWrite, getLsbD_bitsOf, decide_eq_true hk, Bool.true_and]
  generalize w.getLsbD 0 = opens0, w.getLsbD 4 = opens4
  cases opens0 <;> cases opens4 <;> simp [ite_or]

/-- A write moves its own register only. -/
theorem State.mmioRead_write_other (s : State) {q r : MmioReg} (h : q ≠ r) (hb : q ≠ .bio) (v : Word) :
    { s with periph := s.periph.write r v }.mmioRead q = s.mmioRead q := by
  cases r <;> cases q <;> trivial

/-- A data register reads as written. -/
theorem State.mmioRead_write_data (s : State) {r : MmioReg} (h : isDataRegister r = true) (v : Word) :
    { s with periph := s.periph.write r v }.mmioRead r = v := by
  cases r with
  | ioc | dmac | tcon | bioc | bio => cases h
  | _ => rfl

/-- An aligned access passes the alignment rule (R95). -/
theorem State.checkAlign_of_aligned (s : State) {a : Word} {n : Nat} (h : a.toNat % n = 0) :
    s.checkAlign a n = .ok () := by
  simp [State.checkAlign, isMisaligned, h]

theorem State.mmioFits_iff (s : State) (e : MmioEntry) (a : Word) (n : Nat) :
    s.mmioFits e a n = true ↔ n = e.width ∧ (a - s.onchipBase).toNat = e.offset := by
  simp [State.mmioFits, State.offset, and_comm]

/-- A load from a memory-mapped register (R114). -/
theorem State.load_mmio {s : State} {a : Word} {n : Nat} {e : MmioEntry} (ha : a.toNat % n = 0)
    (he : s.mmioAt a = some e) :
    s.load a n = if s.mmioFits e a n then .ok (lowBytes n (s.mmioRead e.reg))
      else .error (.refuse .mmioAccess) := by
  simp only [State.load, s.checkAlign_of_aligned ha, he]
  rfl

/-- A store to a memory-mapped register (R114). -/
theorem State.store_mmio {s : State} {a : Word} {n : Nat} {e : MmioEntry} (ha : a.toNat % n = 0)
    (he : s.mmioAt a = some e) (v : Word) :
    s.store a n v = if s.mmioFits e a n then .ok { s with periph := s.periph.write e.reg (lowBytes n v) }
      else .error (.refuse .mmioAccess) := by
  simp only [State.store, s.checkAlign_of_aligned ha, he]
  rfl

/-- ioc keeps the low 24 bits (R55). -/
theorem getLsbD_low24 (w : Word) (j : Nat) :
    (w &&& 0x00FFFFFF#32).getLsbD j = (decide (j < 24) && w.getLsbD j) := by
  have mask : ∀ k : Fin 32, (0x00FFFFFF#32).getLsbD k = decide (k.val < 24) := by decide
  rw [BitVec.getLsbD_and, Bool.and_comm]
  by_cases hj : j < 32
  · rw [mask ⟨j, hj⟩]
  · rw [BitVec.getLsbD_of_ge w j (by omega), Bool.and_false, Bool.and_false]

/-- Settles O60: the bits of dmac, one register after the other, and the two outcomes of an access. -/
theorem mmioAccessHasTheRegistersSize : Obligations.MmioAccessHasTheRegistersSize := by
  refine ⟨fun p w k hk => ?dmac, fun s r w => ?registers,
    fun s a n e hn ha he => ⟨fun fits => ?own, fun other => ?refused⟩⟩
  case dmac =>
    have low : ∀ j, j < 8 → (w.setWidth 8).getLsbD j = w.getLsbD j := fun j hj => by
      rw [BitVec.getLsbD_setWidth, decide_eq_true hj, Bool.true_and]
    show (dmacWrite p.dmac (w.setWidth 8)).getLsbD k = _
    rw [getLsbD_dmacWrite _ _ hk, low 0 (by decide), low 4 (by decide), low k hk]
  case registers =>
    refine ⟨?ioc, ?_, ?byte, fun h => s.mmioRead_write_data h w, ?_, ?bioOut,
      fun q hq hb => s.mmioRead_write_other hq hb w, ?isr, ?osr, ?toggle⟩
    case ioc =>
      rintro rfl j
      exact getLsbD_low24 w j
    case byte =>
      have low : ((w.setWidth 8).setWidth 32).toNat = w.toNat % 256 := by
        simp only [BitVec.toNat_setWidth]
        omega
      rintro (rfl | rfl) <;> exact low
    · rintro rfl
      rfl
    · rintro rfl
      rfl
    case bioOut =>
      intro h
      cases r with
      | bio => exact absurd rfl h
      | _ => rfl
    all_goals cases r <;> rfl
  case own =>
    have fit := (s.mmioFits_iff e a n).2 fits
    rw [State.load_mmio ha he, if_pos fit]
    refine ⟨⟨_, rfl, ?_⟩, fun v => by rw [State.store_mmio ha he, if_pos fit, lowBytes_eq hn]⟩
    rw [lowBytes_eq hn, BitVec.toNat_ofNat, Nat.mod_eq_of_lt]
    exact (Nat.mod_le _ _).trans_lt (BitVec.isLt _)
  case refused =>
    have misfit : ¬ s.mmioFits e a n = true := mt (s.mmioFits_iff e a n).1 other
    rw [State.load_mmio ha he, if_neg misfit]
    exact ⟨rfl, fun v => by rw [State.store_mmio ha he, if_neg misfit]⟩

end Sys2Proof.Machine
end

section
/-! SUPPORT. Memory in the words of the statements: the bytes of a value, what the map says of an address, and
what a load and a store make of it (20_memory.md). -/

namespace Sys2Proof.Machine

variable {s t : State} {a : Word} {n : Nat}

/-! ### The bytes of a value (R92) -/

/-- A value is read from its low byte on, whatever the order in memory. -/
theorem valueOf_eq (big : Bool) (bs : List Byte) :
    valueOf big bs = valueOf false (if big then bs.reverse else bs) := by cases big <;> rfl

/-- The bits of a value are those of its bytes, the low byte first. -/
theorem getLsbD_valueOf : ∀ (bs : List Byte) {i : Nat}, i < 32 →
    (valueOf false bs).getLsbD i = (bs.getD (i / 8) 0#8).getLsbD (i % 8)
  | [], i, _ => by simp [valueOf]
  | b :: bs, i, hi => by
    show (valueOf false bs <<< 8 ||| b.setWidth 32).getLsbD i = _
    rw [BitVec.getLsbD_or, BitVec.getLsbD_shiftLeft, BitVec.getLsbD_setWidth]
    by_cases low : i < 8
    · have first : i / 8 = 0 := by omega
      have same : i % 8 = i := by omega
      simp [hi, low, first, same]
    · have later : i / 8 = (i - 8) / 8 + 1 := by omega
      have same : i % 8 = (i - 8) % 8 := by omega
      rw [later, same, List.getD_cons_succ, ← getLsbD_valueOf bs (by omega),
        BitVec.getLsbD_of_ge b i (by omega)]
      simp [hi, low]

/-- The j-th byte in address order, taken out of the value. -/
theorem extract_valueOf (big : Bool) {bs : List Byte} (hn : bs.length ≤ 4) {j : Nat} (hj : j < bs.length) :
    (valueOf big bs).extractLsb' (8 * if big then bs.length - 1 - j else j) 8 = bs[j] := by
  have little : ∀ (l : List Byte) (i : Nat) (hi : i < l.length), l.length ≤ 4 →
      (valueOf false l).extractLsb' (8 * i) 8 = l[i] := by
    intro l i hi hl
    apply BitVec.eq_of_getLsbD_eq
    intro k hk
    have byte : (8 * i + k) / 8 = i := by omega
    have bit : (8 * i + k) % 8 = k := by omega
    rw [BitVec.getLsbD_extractLsb', getLsbD_valueOf l (by omega), byte, bit,
      List.getD_eq_getElem l _ hi, decide_eq_true hk, Bool.true_and]
  cases big with
  | false => exact little bs j hj hn
  | true =>
    rw [valueOf_eq]
    have mirrored := little bs.reverse (bs.length - 1 - j) (by rw [List.length_reverse]; omega)
      (by rwa [List.length_reverse])
    have back : bs.length - 1 - (bs.length - 1 - j) = j := by omega
    simpa only [if_true, List.getElem_reverse, back] using mirrored

/-- A value of n bytes has no bit above them. -/
theorem toNat_valueOf_lt (big : Bool) (bs : List Byte) : (valueOf big bs).toNat < 2 ^ (8 * bs.length) := by
  have little : ∀ l : List Byte, (valueOf false l).toNat < 2 ^ (8 * l.length) := by
    intro l
    refine Nat.lt_pow_two_of_testBit _ fun i hi => ?_
    show (valueOf false l).getLsbD i = false
    by_cases h32 : i < 32
    · rw [getLsbD_valueOf l h32, List.getD_eq_default _ _ (by omega), BitVec.getLsbD_zero]
    · exact BitVec.getLsbD_of_ge _ i (by omega)
  cases big with
  | false => exact little bs
  | true =>
    have mirrored := little bs.reverse
    rwa [List.length_reverse] at mirrored

/-- The bytes stored, read as a value, are the low bytes of the word. -/
theorem valueOf_bytesOf_low (big : Bool) (n : Nat) (v : Word) :
    valueOf big (bytesOf big n v) = BitVec.ofNat 32 (v.toNat % 2 ^ (8 * n)) := by
  have order : valueOf big (bytesOf big n v) = valueOf false (bytesOf false n v) := by
    cases big with
    | false => rfl
    | true => simp [valueOf_eq true, bytesOf]
  rw [order]
  apply BitVec.eq_of_getLsbD_eq
  intro i hi
  rw [getLsbD_valueOf _ hi, BitVec.getLsbD_ofNat, Nat.testBit_mod_two_pow]
  by_cases stored : i / 8 < n
  · have bit : 8 * (i / 8) + i % 8 = i := Nat.div_add_mod i 8
    rw [List.getD_eq_getElem _ _ (by rwa [length_bytesOf]), getElem_bytesOf, BitVec.getLsbD_extractLsb']
    have below : i < 8 * n := by omega
    have inByte : i % 8 < 8 := by omega
    simp [hi, below, inByte, bit, BitVec.getLsbD]
  · rw [List.getD_eq_default _ _ (by rw [length_bytesOf]; omega)]
    have above : ¬ i < 8 * n := by omega
    simp [above]

/-! ### What stands at an address (R100 to R104) -/

theorem State.onchip_eq_false (h : s.params.onchipSize ≤ s.offset a) : s.onchip a = false :=
  decide_eq_false (Nat.not_lt.2 h)

theorem State.onchip_eq_true (h : s.offset a < s.params.onchipSize) : s.onchip a = true := decide_eq_true h

/-- Outside the on-chip region, where the environment does not answer with BERRN. -/
theorem State.place_external (ho : s.onchip a = false) (hb : ∀ r ∈ s.pins.berr, r.has a.toNat = false) :
    s.place a = .ram a.toNat := by
  have quiet : s.pins.berr.any (·.has a.toNat) = false := by simpa using hb
  simp [State.place, ho, quiet]

/-- Outside the on-chip region, where it does. -/
theorem State.place_berr (ho : s.onchip a = false) (hb : ∃ r ∈ s.pins.berr, r.has a.toNat = true) :
    s.place a = .berr := by
  have answers : s.pins.berr.any (·.has a.toNat) = true := by simpa using hb
  simp [State.place, ho, answers]

/-- In the Boot ROM. -/
theorem State.place_rom (ho : s.onchip a = true) (hm : s.mmioAt a = none)
    (hr : s.offset a < s.params.romSize) : s.place a = .rom (s.offset a) := by
  simp [State.place, ho, hm, hr]

/-- In on-chip RAM. -/
theorem State.place_onchipRam (ho : s.onchip a = true) (hm : s.mmioAt a = none)
    (hr : s.params.romSize ≤ s.offset a) (h : ∃ r ∈ s.params.ram, r.has (s.offset a) = true) :
    s.place a = .ram (ramKey (s.offset a)) := by
  have found : s.params.ram.any (·.has (s.offset a)) = true := by simpa using h
  simp [State.place, ho, hm, Nat.not_lt.2 hr, found]

/-- At an on-chip offset of neither. -/
theorem State.place_empty (ho : s.onchip a = true) (hm : s.mmioAt a = none)
    (hr : s.params.romSize ≤ s.offset a) (h : ∀ r ∈ s.params.ram, r.has (s.offset a) = false) :
    s.place a = .empty := by
  have missed : s.params.ram.any (·.has (s.offset a)) = false := by simpa using h
  simp [State.place, ho, hm, Nat.not_lt.2 hr, missed]

/-- No register is mapped into read-write memory. -/
theorem State.mmioAt_of_ram {k : Nat} (h : s.place a = .ram k) : s.mmioAt a = none := by
  cases ho : s.onchip a with
  | false => simp [State.mmioAt, ho]
  | true =>
    cases hm : s.mmioAt a with
    | none => rfl
    | some e => simp [State.place, ho, hm] at h

/-- The key of external memory is its address, and no other address has it. -/
theorem State.key_ne_of_ne {b : Word} {k : Nat} (h : s.place b = .ram k) (hb : b ≠ a) : k ≠ a.toNat := by
  have ha := a.isLt
  unfold State.place at h
  split at h
  · dsimp only at h
    split at h
    · cases h
    · split at h
      · cases h
      · split at h
        · cases h
          unfold ramKey
          omega
        · cases h
  · split at h
    · cases h
    · cases h
      exact fun e => hb (BitVec.eq_of_toNat_eq e)

/-! ### One byte -/

/-- Read-write memory takes a byte and gives it back. -/
theorem State.writeByte_then_readByte {k : Nat} (hw : s.mem.wf = true) (h : s.place a = .ram k) (v : Byte) :
    ∃ t, s.writeByte a v = .ok t ∧ t.readByte a = .ok v :=
  ⟨_, State.writeByte_ram h v, State.writeByte_read_same hw (State.writeByte_ram h v)⟩

/-- A write to external memory by another bus master leaves every other byte (R110). -/
theorem State.readByte_busWrite_other {b : Word} (v : Byte) (hb : b ≠ a) :
    (s.event (.busWrite a v)).readByte b = s.readByte b := by
  have map : SameMap s (s.event (.busWrite a v)) := ⟨rfl, rfl, rfl⟩
  cases hp : s.place b with
  | ram k =>
    rw [State.readByte_ram hp, State.readByte_ram ((map.place b).trans hp)]
    exact congrArg Except.ok (Memory.read_write_other v (State.key_ne_of_ne hp hb) _)
  | rom | mmio | empty | berr => simp only [State.readByte, map.place, hp]

/-- The core reads it where no on-chip byte hides it (R102, R405). -/
theorem State.readByte_busWrite_same (hw : s.mem.wf = true) (v : Byte) {p : Half}
    (ho : { s with pcw := p }.onchip a = false) (hb : ∀ r ∈ s.pins.berr, r.has a.toNat = false) :
    { s.event (.busWrite a v) with pcw := p }.readByte a = .ok v := by
  have map : SameMap { s with pcw := p } { s.event (.busWrite a v) with pcw := p } := ⟨rfl, rfl, rfl⟩
  have external : { s with pcw := p }.place a = .ram a.toNat := State.place_external ho hb
  rw [State.readByte_ram ((map.place a).trans external)]
  exact congrArg Except.ok (Memory.read_write_same a.toNat v _ hw)

/-! ### The address of a direct operand (R103) -/

/-- A half-word below a word whose lower half is zero. -/
theorem toNat_upper_or (u : Nat) (hu : u < 2 ^ 16) (l : Half) :
    (BitVec.ofNat 32 (u <<< 16) ||| l.setWidth 32).toNat = u <<< 16 + l.toNat := by
  have hl := l.isLt
  have upper : u <<< 16 < 2 ^ 32 := by rw [Nat.shiftLeft_eq]; omega
  rw [BitVec.toNat_or, BitVec.toNat_ofNat, BitVec.toNat_setWidth, Nat.mod_eq_of_lt upper,
    Nat.mod_eq_of_lt (by omega), ← Nat.shiftLeft_add_eq_or_of_lt hl]

theorem State.directAddress_toNat (s : State) (l : Half) :
    (s.directAddress l).toNat = (if s.pcw.getLsbD 10 then 0 else 0x50030000) + l.toNat := by
  unfold State.directAddress State.onchipBase
  split
  · exact toNat_upper_or 0 (by decide) l
  · exact toNat_upper_or 0x5003 (by decide) l

/-! ### Several bytes -/

/-- A read of bytes succeeds where all of them are read-write memory. -/
theorem State.readBytes_ram : ∀ (n : Nat) {a : Word},
    (∀ j, j < n → ∃ k, s.place (a + BitVec.ofNat 32 j) = .ram k) → ∃ bs, s.readBytes a n = .ok bs
  | 0, _, _ => ⟨[], rfl⟩
  | n + 1, a, h => by
    obtain ⟨k, hk⟩ := h 0 (Nat.succ_pos n)
    rw [BitVec.add_zero] at hk
    obtain ⟨bs, hbs⟩ := State.readBytes_ram n (a := a + 1) fun j hj => by
      rw [← addr_succ]
      exact h (j + 1) (Nat.succ_lt_succ hj)
    refine ⟨s.mem.read k :: bs, ?_⟩
    simp only [State.readBytes, State.readByte_ram hk, hbs]
    rfl

/-- A load of memory assembles its bytes (R92). -/
theorem State.load_of_bytes {bs : List Byte} (hc : s.checkAlign a n = .ok ()) (hm : s.mmioAt a = none)
    (hb : s.readBytes a n = .ok bs) : s.load a n = .ok (valueOf s.bigEndian bs) := by
  simp only [State.load, hc, hm, hb]
  rfl

/-- A store to memory writes its bytes (R92). -/
theorem State.store_of_bytes {v : Word} (hc : s.checkAlign a n = .ok ()) (hm : s.mmioAt a = none)
    (hb : s.writeBytes a (bytesOf s.bigEndian n v) = .ok t) : s.store a n v = .ok t := by
  simp only [State.store, hc, hm]
  exact hb

/-- What a load of memory gives, byte by byte (R92). -/
theorem State.load_bytes {v : Word} (hn : n ≤ 4) (hm : s.mmioAt a = none) (h : s.load a n = .ok v) :
    v.toNat < 2 ^ (8 * n) ∧ ∀ j, j < n → s.readByte (a + BitVec.ofNat 32 j) =
      .ok (v.extractLsb' (8 * if s.pcw.getLsbD 8 then n - 1 - j else j) 8) := by
  obtain ⟨-, ⟨e, he, -⟩ | ⟨-, bs, hbs, rfl⟩⟩ := State.load_ok h
  · exact absurd (hm.symm.trans he) (by simp)
  · obtain ⟨rfl, bytes⟩ := State.readBytes_ok n hbs
    exact ⟨toNat_valueOf_lt _ bs, fun j hj => (bytes j hj).trans
      (congrArg Except.ok (extract_valueOf s.bigEndian hn hj).symm)⟩

/-! ### The alignment rule (R95, R389) -/

/-- What the alignment rule answers stands in the way of every access. -/
theorem State.access_of_checkAlign_error {x : Trouble} (h : s.checkAlign a n = .error x) :
    s.load a n = .error x ∧ (∀ v, s.store a n v = .error x) ∧ (n = 4 → s.fetch a = .trouble x) := by
  refine ⟨?_, fun v => ?_, ?_⟩
  · simp only [State.load, h]
    rfl
  · simp only [State.store, h]
    rfl
  · rintro rfl
    simp only [State.fetch, h]
    rfl

theorem isMisaligned_of (h : a.toNat % n ≠ 0) : isMisaligned a n = true := bne_iff_ne.2 h

theorem State.checkAlign_refuse (h : a.toNat % n ≠ 0) (hp : s.params.misaligned = .refuse) :
    s.checkAlign a n = .error (.refuse .misaligned) := by
  simp only [State.checkAlign, isMisaligned_of h, hp, if_true]

theorem State.checkAlign_addressError (h : a.toNat % n ≠ 0) (hp : s.params.misaligned = .addressError)
    (he : s.emr.getLsbD 4 = true) : s.checkAlign a n = .error (.raise .addressError) := by
  simp only [State.checkAlign, isMisaligned_of h, hp, he, if_true]

theorem State.checkAlign_split (hp : s.params.misaligned = .split) : s.checkAlign a n = .ok () := by
  simp only [State.checkAlign, hp, ite_self]

/-! ### The statements -/

/-- The sizes of an access. -/
theorem size_bounds (h : n = 1 ∨ n = 2 ∨ n = 4) : 0 < n ∧ n ≤ 4 := by omega

/-- Settles O11: the bytes written read back, and read as a value they are the low bytes of the word. -/
theorem storeThenLoadReturnsTheValue : Obligations.StoreThenLoadReturnsTheValue := by
  intro s a n v hwf hn ha hram
  obtain ⟨pos, le⟩ := size_bounds hn
  have plain : s.mmioAt a = none := by
    obtain ⟨k, hk⟩ := hram 0 pos
    rw [BitVec.add_zero] at hk
    exact State.mmioAt_of_ram hk
  have len := length_bytesOf s.bigEndian n v
  obtain ⟨t, ht⟩ := State.writeBytes_ram (bytesOf s.bigEndian n v) (s := s) (a := a) (by rwa [len])
  obtain ⟨-, -, map⟩ := State.writeBytes_ok _ ht
  have stored := State.readBytes_of _ (State.writeBytes_read_same _ hwf (by omega) ht)
  rw [len] at stored
  refine ⟨t, State.store_of_bytes (s.checkAlign_of_aligned ha) plain ht, ?_⟩
  rw [State.load_of_bytes (t.checkAlign_of_aligned ha) ((map.mmioAt a).trans plain) stored, map.bigEndian,
    valueOf_bytesOf_low]

/-- Settles O12, by the two outcomes of a store in `State.store_ok`. -/
theorem storeTouchesOnlyItsBytes : Obligations.StoreTouchesOnlyItsBytes := by
  intro s a n v t h
  refine ⟨State.store_onlyBytes h, State.store_frame h, fun plain => ?memory, fun mapped => ?register⟩
  all_goals obtain ⟨-, ⟨e, he, -, rfl⟩ | ⟨hm, hb⟩⟩ := State.store_ok h
  case memory.inl => exact absurd (plain.symm.trans he) (by simp)
  case memory.inr => rw [(State.writeBytes_ok _ hb).1]
  case register.inl => rfl
  case register.inr => exact absurd hm mapped

/-- Settles O13: the bytes of a store are those of `bytesOf`, and `extract_valueOf` takes them out of what a
load gives. -/
theorem byteOrderFollowsPcw : Obligations.ByteOrderFollowsPcw := by
  refine ⟨fun s a n v t hwf hn plain h j hj => ?stored,
    fun s a n v hn plain h => State.load_bytes (size_bounds hn).2 plain h⟩
  obtain ⟨-, ⟨e, he, -, -⟩ | ⟨-, hb⟩⟩ := State.store_ok h
  · exact absurd (plain.symm.trans he) (by simp)
  · have len := length_bytesOf s.bigEndian n v
    have within := (size_bounds hn).2
    rw [State.writeBytes_read_same _ hwf (by omega) hb j (by omega), getElem_bytesOf]
    rfl

/-- Settles O14: each clause names what stands at the address, and one byte is read and written there. -/
theorem memoryMapDecidesTheAccess : Obligations.MemoryMapDecidesTheAccess := by
  refine ⟨State.directAddress_toNat, fun s a v hwf => ?_⟩
  refine ⟨fun out quiet => ?external, fun out answers => ?berr, fun inside plain rom => ?rom,
    fun inside plain notRom ram => ?ram, fun inside plain notRom noRam => ?empty, rfl,
    fun b hb => State.readByte_busWrite_other v hb,
    fun p out quiet => State.readByte_busWrite_same hwf v (State.onchip_eq_false out) quiet⟩
  case external =>
    exact State.writeByte_then_readByte hwf (State.place_external (State.onchip_eq_false out) quiet) v
  case berr =>
    have place := State.place_berr (State.onchip_eq_false out) answers
    simp only [State.readByte, State.writeByte, place, and_self]
  case rom =>
    have place := State.place_rom (State.onchip_eq_true inside) plain rom
    simp only [State.readByte, State.writeByte, place, and_true]
    rfl
  case ram =>
    exact State.writeByte_then_readByte hwf
      (State.place_onchipRam (State.onchip_eq_true inside) plain notRom ram) v
  case empty =>
    have place := State.place_empty (State.onchip_eq_true inside) plain notRom noRam
    simp only [State.readByte, State.writeByte, place, and_self]

/-- Settles O15: the alignment rule is asked first; with split it lets the load of memory through. -/
theorem misalignedAccessFollowsTheParameter : Obligations.MisalignedAccessFollowsTheParameter := by
  intro s a n hn ha
  refine ⟨fun hp => State.access_of_checkAlign_error (State.checkAlign_refuse ha hp),
    fun hp he => State.access_of_checkAlign_error (State.checkAlign_addressError ha hp he),
    fun hp hram => ?split⟩
  obtain ⟨k, hk⟩ := hram 0 (by omega)
  rw [BitVec.add_zero] at hk
  have plain := State.mmioAt_of_ram hk
  obtain ⟨bs, hbs⟩ := State.readBytes_ram n hram
  have loads := State.load_of_bytes (State.checkAlign_split hp) plain hbs
  exact ⟨_, loads, (State.load_bytes (by omega) plain loads).2⟩

end Sys2Proof.Machine
end

section
/-! SUPPORT. The multiply/accumulates with a Z write (43_da_mac.md): how the pointers move, what a DA
instruction leaves beside its result, and the rows as instances of the common execution. -/

namespace Sys2Proof.Machine

/-! ### Pointers (R327) -/

theorem State.daIncrement_eq (s : State) (i : PostMod) (n : Nat) : s.daIncrement i n = daStep s i n := by
  cases i <;> rfl

/-- A post-modification leaves every register but its pointer, and its pointer where it is `keep`. -/
theorem State.reg_postModify_of_keep (s : State) {m : DaMem} {q : Reg} (h : m.reg = q → m.i = .keep)
    (n : Nat) : (s.postModify m n).reg q = s.reg q := by
  rw [State.reg_postModify]
  split
  · next hq => rw [h hq.symm, hq]; exact BitVec.add_zero _
  · rfl

/-- The increment registers r15 to r19 are no pointers. -/
theorem State.daStep_postModify (s : State) (m : DaMem) (n : Nat) (i : PostMod) (k : Nat) :
    daStep (s.postModify m n) i k = daStep s i k := by
  cases i with
  | inc j =>
    have apart : (⟨15 + j.val, by omega⟩ : Reg) ≠ m.reg := by
      intro h
      have := congrArg Fin.val h
      have := m.p.isLt
      simp only [DaMem.reg] at *
      omega
    exact (s.reg_postModify m n _).trans (if_neg apart)
  | keep | minus | plus => rfl

/-- The post-modifications of a list of memory operands, in order. -/
def State.postAll (s : State) (ops : List (DaMem × Nat)) : State :=
  ops.foldl (fun u o => u.postModify o.1 o.2) s

/-- Those of X, Y and Z are those of the memory operands. -/
theorem State.postAll_memOperands (s : State) (x y : DaOperand) (z : DaDest) (yn zn : Nat) :
    ((s.postOperand x 4).postOperand y yn).postDest z zn = s.postAll (memOperands x y z yn zn) := by
  cases x <;> cases y <;> cases z <;> rfl

theorem State.postAll_cons (s : State) (m : DaMem) (n : Nat) (ops : List (DaMem × Nat)) :
    s.postAll ((m, n) :: ops) = (s.postModify m n).postAll ops := rfl

/-- They touch the registers only. -/
theorem State.postAll_frame : ∀ (ops : List (DaMem × Nat)) (s : State),
    s.postAll ops = { s with
      regs := (s.postAll ops).regs
      latch := { s.latch with wroteRegs := (s.postAll ops).latch.wroteRegs } }
  | [], _ => rfl
  | (m, n) :: ops, s => by
    have first := s.postModify_frame m n
    have rest := State.postAll_frame ops (s.postModify m n)
    rw [State.postAll_cons]
    generalize (s.postModify m n).postAll ops = t at rest ⊢
    rw [rest, first]

/-- A register stays that is no pointer, or only one that stays. -/
theorem State.reg_postAll_of_keep {q : Reg} : ∀ (ops : List (DaMem × Nat)) (s : State),
    (∀ m n, (m, n) ∈ ops → m.reg = q → m.i = .keep) → (s.postAll ops).reg q = s.reg q
  | [], _, _ => rfl
  | (m, n) :: ops, s, h => by
    rw [State.postAll_cons, State.reg_postAll_of_keep ops _ fun k j hk => h k j (List.mem_cons_of_mem _ hk),
      s.reg_postModify_of_keep (h m n List.mem_cons_self)]

theorem DaMem.p_eq_of_reg_eq {m k : DaMem} (h : m.reg = k.reg) : m.p = k.p := by
  have := congrArg Fin.val h
  simp only [DaMem.reg] at this
  omega

/-- Where no two operands clash, each pointer moves by its own increment. -/
theorem State.reg_postAll_moved : ∀ (ops : List (DaMem × Nat)) (s : State), PointersApart ops →
    ∀ m n, (m, n) ∈ ops → (s.postAll ops).reg m.reg = s.reg m.reg + daStep s m.i n
  | [], _, _, _, _, h => absurd h List.not_mem_nil
  | (k, j) :: ops, s, apart, m, n, h => by
    obtain ⟨first, rest⟩ := List.pairwise_cons.1 apart
    rw [State.postAll_cons]
    obtain same | later := List.mem_cons.1 h
    · cases same
      rw [State.reg_postAll_of_keep ops _ fun l i hl hreg =>
          (first (l, i) hl (DaMem.p_eq_of_reg_eq hreg.symm)).2,
        State.reg_postModify, if_pos rfl, State.daIncrement_eq]
    · rw [State.reg_postAll_moved ops _ rest m n later, State.daStep_postModify,
        s.reg_postModify_of_keep fun hreg => (first (m, n) later (DaMem.p_eq_of_reg_eq hreg)).1]

/-! ### What a DA instruction leaves (R338, R352) -/

/-- A Z write reaches memory and the memory-mapped registers. -/
theorem State.daWrite_frame {s u : State} {z : DaDest} {n : Nat} {v : Word} (h : s.daWrite z n v = .ok u) :
    u = { s with mem := u.mem, periph := u.periph } := by
  obtain ⟨-, rfl⟩ | ⟨m, -, hs⟩ := State.daWrite_ok h
  · rfl
  · exact State.store_frame hs

/-- It leaves every byte but those of Z. -/
theorem State.daWrite_bytes {s u : State} {z : DaDest} {n : Nat} {v : Word} (h : s.daWrite z n v = .ok u)
    (b : Word) (hb : ∀ m, z = .mem m → n ≤ (b - s.reg m.reg).toNat) : u.readByte b = s.readByte b := by
  obtain ⟨-, rfl⟩ | ⟨m, hz, hs⟩ := State.daWrite_ok h
  · rfl
  · exact State.store_onlyBytes hs b (hb m hz)

/-- After a Z write `u`, the write of aN and the pointer updates leave the frame of a DA instruction. -/
theorem DaFrame.of_write {s u : State} {z : DaDest} {zn : Nat} {d : Word} (hu : s.daWrite z zn d = .ok u)
    (aN : AccNo) (v : Acc40) (ops : List (DaMem × Nat)) :
    DaFrame s u ((u.setAcc aN v).postAll ops) aN ops z zn := by
  have written := State.daWrite_frame hu
  have moved := (u.setAcc aN v).postAll_frame ops
  have sameReg : ∀ r, (u.setAcc aN v).reg r = s.reg r := fun r => State.reg_congr (by rw [written]; rfl) r
  have sameStep : ∀ i n, daStep (u.setAcc aN v) i n = daStep s i n := fun i n => by
    cases i with
    | inc => exact sameReg _
    | keep | minus | plus => rfl
  refine ⟨by rw [moved]; exact ⟨rfl, rfl⟩, fun b hb => ?bytes, fun a ha => ?accs,
    fun apart m n h => ?moved, fun r hr => ?regs, ?rest⟩
  case bytes =>
    rw [← State.daWrite_bytes hu b hb, moved]
    exact SameMap.readByte ⟨rfl, rfl, rfl⟩ rfl b
  case accs =>
    rw [moved]
    refine (u.acc_setAcc_other v ha).trans ?_
    rw [written]
    rfl
  case moved => rw [State.reg_postAll_moved ops _ apart m n h, sameReg, sameStep]
  case regs => rw [State.reg_postAll_of_keep ops _ fun m n h hreg => absurd hreg (hr m n h), sameReg]
  case rest =>
    rw [moved, written]
    rfl

/-- Queueing flags keeps the frame. -/
theorem DaFrame.pushFlags {s u t : State} {aN : AccNo} {ops : List (DaMem × Nat)} {z : DaDest} {zn : Nat}
    (h : DaFrame s u t aN ops z zn) (e : FlagEntry) : DaFrame s u (t.pushFlags e) aN ops z zn where
  mem := h.mem
  bytes b hb := (SameMap.readByte ⟨rfl, rfl, rfl⟩ rfl b).trans (h.bytes b hb)
  accs := h.accs
  moved := h.moved
  regs := h.regs
  rest := congrArg (State.pushFlags · e) h.rest

/-! ### The common execution -/

/-- The data of the Z write in the words of the statements (R326). -/
theorem zData_eq (tap : Bool) (v : Acc40) (yv : DaValue) :
    zData (if tap then .tap else .result) v yv = if tap then yv.raw else v.extractLsb' 8 32 := by
  cases tap <;> rfl

/-- Formats 1 to 4 accumulate (R338). -/
theorem macCommon_accumulates (tap : Bool) (aN : AccNo) (x y : DaOperand) (z : DaDest)
    (f : DaValue → DaValue → DauResult) (s : State) :
    Accumulates s (macCommon (if tap then .tap else .result) aN x y z f s) tap aN x y z f := by
  intro xv yv u hx hy hu
  have frame := (DaFrame.of_write hu aN (f xv yv).value (memOperands x y z 4 4)).pushFlags (f xv yv).entry
  have moved := (u.setAcc aN (f xv yv).value).postAll_frame (memOperands x y z 4 4)
  have written := State.daWrite_frame hu
  refine ⟨_, macCommon_of hx hy (by rw [zData_eq]; exact hu), ?_⟩
  rw [State.postAll_memOperands]
  refine ⟨?value, ?queue, ?draws, frame⟩
  case value =>
    rw [moved]
    exact State.acc_setAcc_same u aN _
  all_goals
    rw [moved, written]
  case queue => exact congrArg (· ++ _) (s.interleave.interleave_queue.trans s.interleave_queue)
  case draws => exact s.interleave.interleave_draws.trans s.interleave_draws

/-! ### The constants (R320, R323) -/

theorem const32_true (fm : FloatFormat) : fm.const32 true = oneWord fm := by cases fm <;> rfl

theorem const40_false (fm : FloatFormat) : fm.const40 false = 0#40 := by
  show (0#32 ++ 0#8 : Acc40) = 0#40
  decide

theorem const40_eq (fm : FloatFormat) (one : Bool) :
    fm.const40 one = if one then oneWord fm ++ 0#8 else 0#40 := by
  cases one with
  | false => exact const40_false fm
  | true => rw [FloatFormat.const40, const32_true]; rfl

/-! ### The statements -/

/-- Settles O49: each row is the common execution with the result as Z's data. -/
theorem storeFormsWriteTheResult : Obligations.StoreFormsWriteTheResult := by
  intro s aM aN f p one x y z fm
  have row := fun x g => macCommon_accumulates false aN x y z g s
  refine ⟨row x _, row x _, ?mult, ?add, row _ _, row x _, ?const⟩
  case mult =>
    rw [← const40_false fm]
    exact row x _
  case add =>
    rw [← const32_true fm]
    exact row x _
  case const =>
    rw [← const40_eq fm]
    exact row x _

/-- Settles O50: each row is the common execution with Y's bits as Z's data; the data is what was loaded. -/
theorem tapFormsCopyY : Obligations.TapFormsCopyY := by
  intro s aM aN f p one x y z fm
  have row := fun g => macCommon_accumulates true aN x y z g s
  refine ⟨row _, ?mult, ?add, ?const, fun m xv w u hy hx hw hu => ?bits⟩
  case mult =>
    rw [← const40_false fm]
    exact row _
  case add =>
    rw [← const32_true fm]
    exact row _
  case const =>
    rw [← const40_eq fm]
    exact row _
  case bits =>
    subst hy
    have loaded : s.interleave.daRead (.mem m) 4 = .ok (.mem w) := by
      rw [State.daRead, s.interleave_reg, hw]
      rfl
    obtain ⟨t, ht, -, -, -, frame⟩ := row _ xv (.mem w) u hx loaded hu
    exact ⟨t, ht, frame.mem.1⟩

end Sys2Proof.Machine
end

section
/-! SUPPORT. The step around the instruction: a quiet boundary, the prefetch, the execution of what `ir`
holds, and the moments of the other agents (R112, R190, R386, R387). -/

namespace Sys2Proof.Machine

variable {s t b : State} {i : Instr}

/-! ### From the boundary to the end of the step -/

/-- With no error requested and no interrupt enabled only the hold on interrupts ends (R386). -/
theorem State.recognize_idle (he : s.errorRequest = none) (hc : s.candidate = none) :
    s.recognize = .ok { s with inhibit := false } := by
  unfold State.recognize
  rw [he]
  dsimp only
  rw [hc]

/-- With no request enabled there is no candidate (R388). -/
theorem State.candidate_of_no_request (h : s.enabledRequests = 0#16) : s.candidate = none := by
  simp only [State.candidate, h, BitVec.getLsbD_zero]
  rfl

/-- A quiet boundary opens the step and does nothing else. -/
theorem State.boundary_of_quiet (h : Quiet s) : s.boundary = .ok (opened s) :=
  (State.boundary_of_nil h.env).trans
    (State.recognize_idle (s := { s with out := [], latch := Latch.empty }) h.error
      (State.candidate_of_no_request h.noInterrupt))

/-- What `ir` holds runs where no restriction forbids it (R450). -/
theorem State.execute_of_instr (hw : ∃ w, s.ir = .word w ∧ s.decoded w = .instr i)
    (hf : s.fetchTooEarly = false) (hc : s.check i = none) : s.execute = exec i s := by
  obtain ⟨w, ir, decoded⟩ := hw
  simp only [State.execute, hf, ir, decoded, hc, Bool.false_eq_true, if_false]

/-- A step whose instruction completes ends with `finish` (R190). -/
theorem step_of_execute (hb : s.boundary = .ok b) (hw : b.waiting = false)
    (hx : b.interleave.interleave.execute = .next t) :
    step s = .next (finish b.interleave.interleave b.interleave.prefetch t) := by
  simp only [step, cycle, hb, hw, hx, Bool.false_eq_true, if_false]

/-- After any boundary the instruction in `ir` runs in the state that the other agents leave, and the step
ends with what it left. -/
theorem step_of_instr (hb : s.boundary = .ok b) (hw : b.waiting = false)
    (word : ∃ w, b.interleave.interleave.ir = .word w ∧ b.interleave.interleave.decoded w = .instr i)
    (early : b.interleave.interleave.fetchTooEarly = false)
    (allowed : b.interleave.interleave.check i = none)
    (hx : exec i b.interleave.interleave = .next t) :
    step s = .next (finish b.interleave.interleave b.interleave.prefetch t) :=
  step_of_execute hb hw ((State.execute_of_instr word early allowed).trans hx)

/-- After a quiet boundary no other agent acts. -/
theorem step_of_ready (h : Ready s i) (hx : exec i (opened s) = .next t) :
    step s = .next (finish (opened s) (opened s).prefetch t) := by
  have still : (opened s).interleave = opened s := State.interleave_of_nil h.quiet.env
  have run := step_of_instr (t := t) (i := i) (State.boundary_of_quiet h.quiet) h.quiet.awake
  rw [still, still] at run
  exact run h.word h.fetched h.allowed hx

/-! ### The prefetch (R206, R387) -/

theorem State.repeats_iff :
    (s.loop.active && s.loop.start == s.loop.stop && s.npc == s.loop.start && s.pc == s.loop.start) = true ↔
      Repeats s := by
  simp [Repeats, and_assoc]

/-- A loop of one instruction is not fetched again. -/
theorem opened_prefetch_of_repeats (h : Repeats s) : (opened s).prefetch = s.ir :=
  if_pos (State.repeats_iff.2 h)

/-- Every other step fetches at npc. -/
theorem opened_prefetch_of_not_repeats (h : ¬ Repeats s) : (opened s).prefetch = s.fetch s.npc :=
  (if_neg (mt State.repeats_iff.1 h)).trans (SameMap.fetch ⟨rfl, rfl, rfl⟩ rfl rfl _)

/-! ### The moments inside a step (R112) -/

theorem State.holdsBus_iff : s.holdsBus = true ↔ Exclusive s := by
  simp [State.holdsBus, State.inBody, Exclusive]

/-- Outside dolock and doblock bodies a moment runs its list of events, RESTN being apart. -/
theorem State.interleave_runs {es : List EnvEvent} {rest : List (List EnvEvent)} (he : s.env = es :: rest)
    (hr : ∀ k, .restn k ∉ es) (hx : ¬ Exclusive s) :
    s.interleave = es.foldl State.event { s with env := rest } := by
  have free : s.holdsBus = false := Bool.eq_false_iff.2 (mt State.holdsBus_iff.1 hx)
  have goes : ∀ e ∈ es, (isRestn e || s.holdsBus && isMemEvent e) = false := by
    intro e hm
    rw [free, Bool.false_and, Bool.or_false]
    cases e with
    | restn k => exact absurd hm (hr k)
    | _ => rfl
  have now : es.filter (fun e => !(isRestn e || s.holdsBus && isMemEvent e)) = es :=
    List.filter_eq_self.2 fun e hm => by rw [goes e hm]; rfl
  have later : es.filter (fun e => isRestn e || s.holdsBus && isMemEvent e) = [] :=
    List.filter_eq_nil_iff.2 fun e hm => by rw [goes e hm]; exact Bool.false_ne_true
  simp only [State.interleave, State.moment, he]
  rw [now, later]
  rfl

/-! ### The statement -/

/-- Settles O5: the instruction runs as in `step_of_instr`, after a quiet boundary as in `step_of_ready`. -/
theorem stepRunsTheDecodedInstruction : Obligations.StepRunsTheDecodedInstruction :=
  ⟨fun _ _ _ => step_of_ready,
    fun _ => ⟨opened_prefetch_of_repeats, opened_prefetch_of_not_repeats⟩,
    fun _ _ _ _ => step_of_instr,
    fun s => ⟨s.interleave_eq, fun h => State.interleave_mem_of_holdsBus (State.holdsBus_iff.2 h),
      State.interleave_of_nil, fun _ _ => State.interleave_runs⟩⟩

end Sys2Proof.Machine
end

section
/-! SUPPORT. Every word is the row of its fields, the decoder's readers are inverted by the codes, and the first
seven bits of a word tell its format (R130, R132). -/

namespace Sys2Proof

/-! ### A word is the row of its fields -/

/-- The word cut into fields of the given widths, the most significant first. -/
def cut (w : Word) : List Nat → List Field
  | [] => []
  | n :: ns => ⟨n, field w ns.sum n⟩ :: cut w ns

/-- Packing the cut appends the low bits of the word to what is packed already. -/
theorem foldl_cut (w : Word) : ∀ (ns : List Nat) (acc : Nat),
    (cut w ns).foldl (fun acc f => acc * 2 ^ f.1 + f.2.toNat) acc
      = acc * 2 ^ ns.sum + w.toNat % 2 ^ ns.sum
  | [], acc => by simp [cut, Nat.mod_one]
  | n :: ns, acc => by
    have top : (field w ns.sum n).toNat = w.toNat / 2 ^ ns.sum % 2 ^ n := by
      rw [field, BitVec.extractLsb'_toNat, Nat.shiftRight_eq_div_pow]
    have parts : w.toNat % 2 ^ (ns.sum + n)
        = w.toNat % 2 ^ ns.sum + 2 ^ ns.sum * (w.toNat / 2 ^ ns.sum % 2 ^ n) := by
      rw [pow_add, Nat.mod_mul]
    rw [cut, List.foldl_cons, foldl_cut w ns, top, List.sum_cons, Nat.add_comm n, parts, pow_add]
    ring

/-- A word is the row of its fields. -/
theorem wordOf_cut (w : Word) {ns : List Nat} (h : ns.sum = 32) : wordOf (cut w ns) = w := by
  have value : packNat (cut w ns) = w.toNat := by
    rw [packNat, foldl_cut, h, Nat.zero_mul, Nat.zero_add, Nat.mod_eq_of_lt w.isLt]
  rw [wordOf, value, BitVec.ofNat_toNat, BitVec.setWidth_eq]

/-! ### Codes, read and written back -/

/-- A reader is inverted by the code where it is at each of the finitely many codes. -/
theorem code_of_reads {α : Type} {n : Nat} {ofCode : BitVec n → Option α} {code : α → BitVec n}
    (h : ∀ c, (ofCode c).all (code · == c) = true) {c : BitVec n} {a : α} (ha : ofCode c = some a) :
    code a = c := by
  have := h c
  rw [ha] at this
  exact beq_iff_eq.1 this

theorem Reg.code_of_ofCode {c : BitVec 5} {r : Reg} : Reg.ofCode c = some r → r.code = c :=
  code_of_reads (by decide)

theorem Base.code_of_ofCode {c : BitVec 5} {b : Base} : Base.ofCode c = some b → b.code = c :=
  code_of_reads (by decide)

theorem Source.code_of_ofCode {c : BitVec 5} {r : Source} : Source.ofCode c = some r → r.code = c :=
  code_of_reads (by decide)

theorem LoadDest.code_of_ofCode {c : BitVec 5} {r : LoadDest} : LoadDest.ofCode c = some r → r.code = c :=
  code_of_reads (by decide)

theorem Increment.code_of_ofCode {c : BitVec 5} {r : Increment} : Increment.ofCode c = some r → r.code = c :=
  code_of_reads (by decide)

theorem Cond.code_of_ofCode {c : BitVec 6} {d : Cond} : Cond.ofCode c = some d → d.code = c :=
  code_of_reads (by decide)

theorem Width.code_of_ofCode {c : BitVec 3} {w : Width} : Width.ofCode c = some w → w.code = c :=
  code_of_reads (by decide)

theorem IoReg.code_of_ofCode {c : BitVec 5} {io : IoReg} : IoReg.ofCode c = some io → io.code = c :=
  code_of_reads (by decide)

theorem DaOperand.code_of_ofCode {c : BitVec 7} {o : DaOperand} : DaOperand.ofCode c = some o → o.code = c :=
  code_of_reads (by decide)

theorem DaDest.code_of_ofCode {c : BitVec 7} {z : DaDest} : DaDest.ofCode c = some z → z.code = c :=
  code_of_reads (by decide)

/-- The field of one bit, as a vector. -/
theorem bit_eq (b : Bool) : bit b = ⟨1, BitVec.ofBool b⟩ := by cases b <;> rfl

/-- A bit read as a truth value. -/
theorem ofBool_beq_one : ∀ b : BitVec 1, BitVec.ofBool (b == 1) = b := by decide

theorem eq_one_of_ne_zero : ∀ {b : BitVec 1}, b ≠ 0 → b = 1#1 := by decide

/-! ### The first seven bits -/

/-- Two words with the same first seven bits agree in every field there. -/
theorem field_top {w v : Word} (h : field w 25 7 = field v 25 7) (lo len : Nat)
    (hlo : 25 ≤ lo ∧ lo + len ≤ 32) : field w lo len = field v lo len := by
  apply BitVec.eq_of_getLsbD_eq
  intro i hi
  have bit := congrArg (·.getLsbD (lo - 25 + i)) h
  simp only [getLsbD_field, show 25 + (lo - 25 + i) = lo + i by omega,
    show lo - 25 + i < 7 by omega, decide_true, Bool.true_and] at bit
  simp only [getLsbD_field, bit]

/-- The format is told by the first seven bits. -/
theorem formatOf_congr {w v : Word} (h : field w 25 7 = field v 25 7) : formatOf w = formatOf v := by
  simp only [formatOf, field_top h 25 4 (by decide), field_top h 26 3 (by decide),
    field_top h 29 3 (by decide)]

/-- The word of seven first bits and no others. -/
abbrev leading (c : BitVec 7) : Word := c ++ 0#25

theorem field_leading (c : BitVec 7) : field (leading c) 25 7 = c := by revert c; decide

/-- The reserved and unlisted formats, by their first seven bits (R132, R175). -/
def reservedFormats : List Nat := [0, 1, 2, 3, 4, 5, 15, 30, 31, 44, 45, 46, 47, 68, 69]

theorem formatOf_leading_eq_none : ∀ c : BitVec 7,
    formatOf (leading c) = none ↔ c.toNat ∈ reservedFormats := by
  decide

theorem formatOf_eq_leading (w : Word) : formatOf w = formatOf (leading (field w 25 7)) :=
  formatOf_congr (field_leading _).symm

/-- The words without a format. -/
theorem formatOf_eq_none_iff (w : Word) :
    formatOf w = none ↔ (field w 25 7).toNat ∈ reservedFormats := by
  rw [formatOf_eq_leading, formatOf_leading_eq_none]

/-- The opcode bits of a format (R133 to R148, R160). -/
def Format.opcodeIn (w : Word) : Format → Bool
  | .f0b => field w 27 5 == 0b10000#5
  | .f3a => field w 26 6 == 0b000011#6
  | .f3b => field w 25 7 == 0b1000110#7
  | .f3c => field w 25 7 == 0b1000111#7
  | .f4a => field w 26 6 == 0b000100#6
  | .f4b => field w 26 6 == 0b100100#6
  | .f5 sz => field w 26 6 == sz.code ++ 0b00101#5
  | .f6reg sz => field w 31 1 == sz.code && field w 25 6 == 0b001100#6
  | .f6imm sz => field w 31 1 == sz.code && field w 25 6 == 0b001101#6
  | .f7a => field w 25 7 == 0b0001110#7
  | .f7bc => field w 25 7 == 0b1001110#7
  | .f7d => field w 25 7 == 0b1001111#7
  | .f8a => field w 29 3 == 0b101#3
  | .f8b => field w 29 3 == 0b110#3
  | .f8c => field w 29 3 == 0b111#3
  | .da1 => field w 29 3 == 1#3 && decide ((field w 26 3).toNat < 6)
  | .da2 => field w 29 3 == 2#3 && decide ((field w 26 3).toNat < 6)
  | .da3 => field w 29 3 == 3#3 && decide ((field w 26 3).toNat < 6)
  | .da4 => field w 29 3 == 1#3 && field w 26 3 == 6#3
  | .da5 => field w 27 5 == 0b01111#5

theorem Format.opcodeIn_congr {w v : Word} (h : field w 25 7 = field v 25 7) (fmt : Format) :
    fmt.opcodeIn w = fmt.opcodeIn v := by
  have top := field_top h
  cases fmt <;>
    simp only [Format.opcodeIn, h, top 25 6 (by decide), top 26 3 (by decide), top 26 6 (by decide),
      top 27 5 (by decide), top 29 3 (by decide), top 31 1 (by decide)]

theorem opcodeIn_leading : ∀ c : BitVec 7,
    (formatOf (leading c)).all (·.opcodeIn (leading c)) = true := by
  decide

/-- A word has the opcode bits of its format. -/
theorem opcodeIn_of_formatOf {w : Word} {fmt : Format} (h : formatOf w = some fmt) :
    fmt.opcodeIn w = true := by
  have leads := opcodeIn_leading (field w 25 7)
  rw [← formatOf_eq_leading, h] at leads
  exact (Format.opcodeIn_congr (field_leading _).symm fmt).trans leads

end Sys2Proof
end

section
/-! SUPPORT. The formats, written back: fields that hold what the word holds give the word (R133 to R148,
R160). -/

namespace Sys2Proof

variable {w : Word}

/-- Format 0b (R133). -/
theorem wordOf_fields0b {c : Cond} {rB : BitVec 5} {n : Half} (hop : field w 27 5 = 0b10000#5)
    (hc : c.code = field w 21 6) (hb : rB = field w 16 5) (hn : n = field w 0 16) :
    wordOf (fields0b c rB n) = w := by
  rw [fields0b, ← hop, hc, hb, hn]
  exact wordOf_cut w (ns := [5, 6, 5, 16]) rfl

/-- Formats 3a, 4a, 4b, 5a and 5b (R134, R135, R137, R138). -/
theorem wordOf_fieldsReg2Imm {op : BitVec 6} {ra rb : BitVec 5} {n : Half} (hop : field w 26 6 = op)
    (ha : ra = field w 21 5) (hb : rb = field w 16 5) (hn : n = field w 0 16) :
    wordOf (fieldsReg2Imm op ra rb n) = w := by
  rw [fieldsReg2Imm, ← hop, ha, hb, hn]
  exact wordOf_cut w (ns := [6, 5, 5, 16]) rfl

/-- The two bits B and M of the do formats (R136). -/
theorem doBits {b m : Bool} (h : BitVec.ofBool b ++ BitVec.ofBool m = field w 23 2) :
    BitVec.ofBool b = field w 24 1 ∧ BitVec.ofBool m = field w 23 1 := by
  have apart : ∀ b m p q : BitVec 1, b ++ m = p ++ q → b = p ∧ m = q := by decide
  exact apart _ _ _ _ (h.trans (field_append w 23 1 1).symm)

/-- Format 3b (R136). -/
theorem wordOf_fields3b {b m : Bool} {k : BitVec 7} {l : BitVec 11} (hop : field w 25 7 = 0b1000110#7)
    (hbm : BitVec.ofBool b ++ BitVec.ofBool m = field w 23 2) (hk : k = field w 16 7)
    (hz : field w 11 5 = 0#5) (hl : l = field w 0 11) : wordOf (fields3b b m k l) = w := by
  obtain ⟨hb, hm⟩ := doBits hbm
  rw [fields3b, bit_eq, bit_eq, ← hop, hb, hm, hk, ← hz, hl]
  exact wordOf_cut w (ns := [7, 1, 1, 7, 5, 11]) rfl

/-- Format 3c (R136). -/
theorem wordOf_fields3c {b m : Bool} {k : BitVec 7} {rM : Reg} (hop : field w 25 7 = 0b1000111#7)
    (hbm : BitVec.ofBool b ++ BitVec.ofBool m = field w 23 2) (hk : k = field w 16 7)
    (hz : field w 5 11 = 0#11) (hr : rM.code = field w 0 5) : wordOf (fields3c b m k rM) = w := by
  obtain ⟨hb, hm⟩ := doBits hbm
  rw [fields3c, bit_eq, bit_eq, ← hop, hb, hm, hk, ← hz, hr]
  exact wordOf_cut w (ns := [7, 1, 1, 7, 11, 5]) rfl

/-- Formats 6a and 6b (R139). -/
theorem wordOf_fields6reg {sz : Size} {f : BitVec 4} {rD rS1 : Reg} {c : Cond} {rS2 : BitVec 5}
    (hsz : field w 31 1 = sz.code) (hop : field w 25 6 = 0b001100#6) (hf : f = field w 21 4)
    (hd : rD.code = field w 16 5) (h1 : rS1.code = field w 11 5) (hc : c.code = field w 5 6)
    (h2 : rS2 = field w 0 5) : wordOf (fields6reg sz f rD rS1 c rS2) = w := by
  rw [fields6reg, ← hsz, ← hop, hf, hd, h1, hc, h2]
  exact wordOf_cut w (ns := [1, 6, 4, 5, 5, 6, 5]) rfl

/-- Formats 6c and 6d (R140). -/
theorem wordOf_fields6imm {sz : Size} {f : BitVec 4} {rD : Reg} {n : Half}
    (hsz : field w 31 1 = sz.code) (hop : field w 25 6 = 0b001101#6) (hf : f = field w 21 4)
    (hd : rD.code = field w 16 5) (hn : n = field w 0 16) : wordOf (fields6imm sz f rD n) = w := by
  rw [fields6imm, ← hsz, ← hop, hf, hd, hn]
  exact wordOf_cut w (ns := [1, 6, 4, 5, 16]) rfl

/-- Format 7a (R144). -/
theorem wordOf_fields7a {t : Bool} {wd : Width} {rH : BitVec 5} {l : Half}
    (hop : field w 25 7 = 0b0001110#7) (ht : BitVec.ofBool t = field w 24 1)
    (hw : wd.code = field w 21 3) (hr : rH = field w 16 5) (hl : l = field w 0 16) :
    wordOf (fields7a t wd rH l) = w := by
  rw [fields7a, bit_eq, ← hop, ht, hw, hr, hl]
  exact wordOf_cut w (ns := [7, 1, 3, 5, 16]) rfl

/-- Format 7b (R145). -/
theorem wordOf_fields7b {t : Bool} {wd : Width} {rH : BitVec 5} {io : IoReg}
    (hop : field w 25 7 = 0b1001110#7) (ht : BitVec.ofBool t = field w 24 1)
    (hw : wd.code = field w 21 3) (hr : rH = field w 16 5) (hz : field w 11 5 = 0#5 ∧ field w 5 5 = 0#5)
    (h1 : field w 10 1 = 1#1) (hio : io.code = field w 0 5) : wordOf (fields7b t wd rH io) = w := by
  obtain ⟨hz1, hz2⟩ := hz
  have row : fields7b t wd rH io = cut w [7, 1, 3, 5, 5, 1, 5, 5] := by
    simp only [fields7b, bit_eq, cut, ht, hw, hr, hio, List.sum_cons, List.sum_nil, Nat.reduceAdd, hop, hz1,
      hz2, h1]
  rw [row, wordOf_cut w rfl]

/-- Format 7c (R146). -/
theorem wordOf_fields7c {t : Bool} {wd : Width} {rH : BitVec 5} {rP : Reg} {rI : Increment}
    (hop : field w 25 7 = 0b1001110#7) (ht : BitVec.ofBool t = field w 24 1)
    (hw : wd.code = field w 21 3) (hr : rH = field w 16 5) (hp : rP.code = field w 11 5)
    (hz : field w 5 6 = 0#6) (hi : rI.code = field w 0 5) : wordOf (fields7c t wd rH rP rI) = w := by
  rw [fields7c, bit_eq, ← hop, ht, hw, hr, hp, ← hz, hi]
  exact wordOf_cut w (ns := [7, 1, 3, 5, 5, 6, 5]) rfl

/-- Format 7d (R147). -/
theorem wordOf_fields7d {t : Bool} {wd : Width} {io : IoReg} {rP : Reg} {rI : Increment}
    (hop : field w 25 7 = 0b1001111#7) (ht : BitVec.ofBool t = field w 24 1)
    (hw : wd.code = field w 21 3) (hio : io.code = field w 16 5) (hp : rP.code = field w 11 5)
    (hz : field w 5 6 = 0#6) (hi : rI.code = field w 0 5) : wordOf (fields7d t wd io rP rI) = w := by
  rw [fields7d, bit_eq, ← hop, ht, hw, hio, hp, ← hz, hi]
  exact wordOf_cut w (ns := [7, 1, 3, 5, 5, 6, 5]) rfl

/-- The two parts of the immediate M (R148). -/
theorem imm24_parts (w : Word) :
    (imm24 w).extractLsb' 16 8 = field w 21 8 ∧ (imm24 w).extractLsb' 0 16 = field w 0 16 :=
  ⟨BitVec.extractLsb'_append_eq_left, BitVec.extractLsb'_append_eq_right⟩

/-- Formats 8a, 8b and 8c (R148). -/
theorem wordOf_fields8 {op : BitVec 3} {r : BitVec 5} (hop : field w 29 3 = op) (hr : r = field w 16 5) :
    wordOf (fields8 op r (imm24 w)) = w := by
  obtain ⟨high, low⟩ := imm24_parts w
  rw [fields8, ← hop, hr, high, low]
  exact wordOf_cut w (ns := [3, 8, 5, 16]) rfl

/-- DA formats 1 to 4 (R160). -/
theorem wordOf_fieldsDa {fmt m : BitVec 3} {x y : DaOperand} {z : DaDest} (hop : field w 29 3 = fmt)
    (hm : field w 26 3 = m) (h0 : field w 23 1 = 0#1) (hx : x.code = field w 14 7)
    (hy : y.code = field w 7 7) (hz : z.code = field w 0 7) :
    wordOf (fieldsDa fmt m (field w 25 1 == 1) (field w 24 1 == 1) (AccNo.ofCode (field w 21 2)) x y z)
      = w := by
  rw [fieldsDa, bit_eq, bit_eq, ofBool_beq_one, ofBool_beq_one, ← hop, ← hm, ← h0, hx, hy, hz]
  exact wordOf_cut w (ns := [3, 3, 1, 1, 1, 2, 7, 7, 7]) rfl

/-- DA format 5 (R160, R163). -/
theorem wordOf_fieldsDa5 {y : DaOperand} {z : DaDest} (hop : field w 27 5 = 0b01111#5)
    (h0 : field w 14 7 = 0#7) (hy : y.code = field w 7 7) (hz : z.code = field w 0 7) :
    wordOf (fieldsDa5 (field w 23 4) (AccNo.ofCode (field w 21 2)) y z) = w := by
  rw [fieldsDa5, ← hop, ← h0, hy, hz]
  exact wordOf_cut w (ns := [5, 4, 2, 7, 7, 7]) rfl

end Sys2Proof
end

section
/-! SUPPORT. What the decoder answers: a word of a defined format is a well-formed instruction with that word,
or it is rejected by a field, and never illegal (R130 to R132, R175). -/

namespace Sys2Proof

/-- The word is rejected by a field's value, or it is an instruction of which `P` holds; it is not illegal. -/
def Decoded.Yields (P : Instr → Prop) : Decoded → Prop
  | .instr i => P i
  | .illegal => False
  | .reserved _ => True

/-- A well-formed instruction whose format has the fields `fs`. -/
def HasFields (fs : List Field) (i : Instr) : Prop := encodeFields i = fs ∧ WellFormed i = true

/-- A well-formed instruction whose word is `w`. -/
def HasWord (w : Word) (i : Instr) : Prop := encode i = w ∧ WellFormed i = true

theorem HasFields.hasWord {fs : List Field} {w : Word} {i : Instr} (h : HasFields fs i)
    (hw : wordOf fs = w) : HasWord w i :=
  ⟨(congrArg wordOf h.1).trans hw, h.2⟩

namespace Decoded.Yields

variable {P Q : Instr → Prop}

theorem mono (h : ∀ i, P i → Q i) : ∀ {d : Decoded}, d.Yields P → d.Yields Q
  | .instr i, hd => h i hd
  | .reserved _, _ => trivial

theorem ne_illegal : ∀ {d : Decoded}, d.Yields P → d ≠ .illegal
  | .instr _, _ => Decoded.noConfusion
  | .reserved _, _ => Decoded.noConfusion

theorem need {α : Type} {why : FieldError} {k : α → Decoded} :
    ∀ {v : Option α}, (∀ a, v = some a → (k a).Yields P) → (need v why k).Yields P
  | some a, h => h a rfl
  | none, _ => trivial

theorem accept {i : Instr} {why : FieldError} (h : WellFormed i = true → P i) :
    (accept i why).Yields P := by
  unfold Sys2Proof.accept
  split
  · exact h ‹_›
  · trivial

theorem ite {c : Prop} [Decidable c] {d e : Decoded} (hd : c → d.Yields P) (he : ¬ c → e.Yields P) :
    (if c then d else e).Yields P := by
  split
  · exact hd ‹_›
  · exact he ‹_›

/-- A must-be-zero check, or another that rejects the word. -/
theorem guard {c : Prop} [Decidable c] {d : Decoded} {why : FieldError} (hd : c → d.Yields P) :
    (if c then d else .reserved why).Yields P :=
  ite hd fun _ => trivial

end Decoded.Yields

open Decoded

/-! ### The fields chosen by a code -/

/-- A code is the literal of its value. -/
theorem eq_ofNat_of_toNat {n k : Nat} {x : BitVec n} (h : x.toNat = k) : x = BitVec.ofNat n k := by
  rw [← h, BitVec.ofNat_toNat, BitVec.setWidth_eq]

/-- Formats 6a and 6b with a register as rS2: each function code has one row, but for r0 - rS2, which is
the negation (R245, R265). -/
theorem aluReg_yields (f : BitVec 4) (sz : Size) (c : Cond) (rD rS1 rS2 : Reg) :
    (aluReg f sz c rD rS1 rS2).Yields (HasFields (fields6reg sz f rD rS1 c rS2.code)) := by
  unfold aluReg
  split
  case h_4 h4 =>
    rw [eq_ofNat_of_toNat h4]
    refine .ite (fun h => ?_) fun h => ?_
    · subst h
      exact ⟨rfl, rfl⟩
    · exact ⟨rfl, bne_iff_ne.2 fun h0 => h (Fin.ext h0)⟩
  case h_15 => trivial
  all_goals
    rename_i hf
    rw [eq_ofNat_of_toNat hf]
    exact ⟨rfl, rfl⟩

/-- Formats 6a and 6b with the constant ±n as rS2 (R262). -/
theorem aluConst_yields (f : BitVec 4) (sz : Size) (c : Cond) (rD rS1 : Reg) (dec : Bool) :
    (aluConst f sz c rD rS1 dec).Yields (HasFields (fields6reg sz f rD rS1 c (constCode dec))) := by
  have shift : ∀ {i : Instr}, (WellFormed i = true →
      HasFields (fields6reg sz f rD rS1 c (constCode false)) i) →
      (if dec then .reserved .constant else accept i .constant).Yields
        (HasFields (fields6reg sz f rD rS1 c (constCode dec))) := by
    intro i h
    cases dec
    · exact .accept h
    · trivial
  unfold aluConst
  split
  case h_1 h0 =>
    rw [eq_ofNat_of_toNat h0]
    refine .ite (fun hs => .guard fun hd => ?_) fun _ => .accept fun h => ⟨rfl, h⟩
    obtain ⟨rfl, rfl⟩ := hd
    subst hs
    exact ⟨rfl, rfl⟩
  case h_2 hf | h_3 hf | h_4 hf => exact shift fun h => ⟨by rw [eq_ofNat_of_toNat hf]; rfl, h⟩
  all_goals trivial

/-- Formats 6c and 6d (R265). -/
theorem aluImm_yields (f : BitVec 4) (sz : Size) (rD : Reg) (n : Half) :
    (aluImm f sz rD n).Yields (HasFields (fields6imm sz f rD n)) := by
  unfold aluImm
  split
  case h_12 => trivial
  all_goals
    rename_i hf
    rw [eq_ofNat_of_toNat hf]
    exact ⟨rfl, rfl⟩

/-- A store to an IO register, the commands among them (R176, R177). -/
theorem decodeStoreIo_yields (wd : Width) (rH : Source) (io : IoReg) :
    (decodeStoreIo wd rH io).Yields (HasFields (fields7b true wd rH.code io)) := by
  unfold decodeStoreIo
  refine .ite (fun h => ?command) fun h => ⟨rfl, ?general⟩
  case command =>
    obtain ⟨rfl, rfl⟩ := h
    cases wd <;> exact ⟨rfl, rfl⟩
  case general =>
    simp only [WellFormed, Bool.not_eq_true', Bool.and_eq_false_iff, beq_eq_false_iff_ne]
    exact .inl (not_and_or.1 h)

/-- A field M below 100 names an accumulator (R162). -/
theorem accField_of_lt : ∀ m : BitVec 3, m.toNat < 6 → m.toNat ≠ 4 → m.toNat ≠ 5 →
    accField (AccNo.ofCode (m.setWidth 2)) = m := by
  decide

section
variable {m : BitVec 3} (hm : m.toNat < 6) (f s : Bool) (aN : AccNo) (x y : DaOperand) (z : DaDest)
include hm

/-- DA format 1 (R320, R339). -/
theorem mac1_yields : (mac1 m f s aN x y z).Yields (HasFields (fieldsDa 1#3 m f s aN x y z)) := by
  unfold mac1
  split
  case h_1 h4 =>
    rw [eq_ofNat_of_toNat h4]
    refine .ite (fun h => ?_) fun h => ⟨rfl, ?_⟩
    · obtain ⟨rfl, rfl⟩ : s = false ∧ x = .acc 0 := by simpa using h
      exact ⟨rfl, rfl⟩
    · rw [WellFormed, Bool.eq_false_iff.2 h, Bool.not_false]
  case h_2 h5 =>
    rw [eq_ofNat_of_toNat h5]
    exact ⟨rfl, rfl⟩
  case h_3 h4 h5 => exact ⟨by rw [encodeFields, accField_of_lt m hm h4 h5], rfl⟩

/-- DA format 2 (R320, R339). -/
theorem mac2_yields : (mac2 m f s aN x y z).Yields (HasFields (fieldsDa 2#3 m f s aN x y z)) := by
  unfold mac2
  split
  case h_1 h4 =>
    rw [eq_ofNat_of_toNat h4]
    cases f <;> exact ⟨rfl, rfl⟩
  case h_2 h5 =>
    rw [eq_ofNat_of_toNat h5]
    exact ⟨rfl, rfl⟩
  case h_3 h4 h5 => exact ⟨by rw [encodeFields, accField_of_lt m hm h4 h5], rfl⟩

/-- DA format 3 (R320, R339). -/
theorem mac3_yields : (mac3 m f s aN x y z).Yields (HasFields (fieldsDa 3#3 m f s aN x y z)) := by
  unfold mac3
  split
  case h_1 h4 =>
    rw [eq_ofNat_of_toNat h4]
    cases f <;> exact ⟨rfl, rfl⟩
  case h_2 h5 =>
    rw [eq_ofNat_of_toNat h5]
    exact ⟨rfl, rfl⟩
  case h_3 h4 h5 => exact ⟨by rw [encodeFields, accField_of_lt m hm h4 h5], rfl⟩

end

/-- DA format 5: each code G has one row (R163). -/
theorem specialOf_yields (g : BitVec 4) (aN : AccNo) (y : DaOperand) (z : DaDest) :
    (specialOf g aN y z).Yields (HasFields (fieldsDa5 g aN y z)) := by
  unfold specialOf
  split
  case h_14 => trivial
  all_goals
    rename_i hg
    rw [eq_ofNat_of_toNat hg]
    exact ⟨rfl, rfl⟩

end Sys2Proof
end

section
/-! SUPPORT. The decoder, format by format: what it accepts has the word that was decoded (R130, R132). -/

namespace Sys2Proof
open Decoded

variable {w : Word}

/-- Formats 0b and 1b (R133, R194 to R199, R202). -/
theorem decode0b_yields (hop : field w 27 5 = 0b10000#5) : (decode0b w).Yields (HasWord w) := by
  refine .need fun c hc => ?_
  have hc := Cond.code_of_ofCode hc
  refine .ite (fun hb => .guard fun h => ?ireturn) fun _ => .need fun rB hb => ?base
  case ireturn =>
    obtain ⟨rfl, hn⟩ := h
    exact ⟨wordOf_fields0b hop hc hb.symm hn.symm, rfl⟩
  case base =>
    have hb := Base.code_of_ofCode hb
    have word : ∀ n, n = field w 0 16 → wordOf (fields0b c rB.code n) = w :=
      fun n => wordOf_fields0b hop hc hb
    cases c with
    | never => exact ⟨word _ rfl, rfl⟩
    | always =>
      cases rB with
      | pc => exact ⟨word _ rfl, rfl⟩
      | reg r =>
        refine .ite (fun h => ?_) fun h => ⟨word _ rfl, ?_⟩
        · obtain ⟨link, zero⟩ := Bool.and_eq_true_iff.1 h
          exact ⟨word _ (beq_iff_eq.1 zero).symm, link⟩
        · rw [WellFormed, Bool.eq_false_iff.2 h, Bool.not_false]
    | _ => exact ⟨word _ rfl, rfl⟩

/-- The do formats: B and M choose the instruction (R136). -/
theorem decodeDo_yields {P : Instr → Prop} {plain lock : BitVec 7 → Instr} {block : Instr}
    (hplain : BitVec.ofBool false ++ BitVec.ofBool false = field w 23 2 →
      WellFormed (plain (field w 16 7)) = true → P (plain (field w 16 7)))
    (hlock : BitVec.ofBool false ++ BitVec.ofBool true = field w 23 2 →
      WellFormed (lock (field w 16 7)) = true → P (lock (field w 16 7)))
    (hblock : BitVec.ofBool true ++ BitVec.ofBool false = field w 23 2 → 0#7 = field w 16 7 →
      WellFormed block = true → P block) :
    (decodeDo w plain lock block).Yields P := by
  have mode : ∀ {c : BitVec 2}, c.toNat = (field w 23 2).toNat → c = field w 23 2 :=
    BitVec.eq_of_toNat_eq
  unfold decodeDo
  dsimp only
  split
  case h_1 h => exact .accept (hplain (mode h.symm))
  case h_2 h => exact .accept (hlock (mode h.symm))
  case h_3 h => exact .guard fun hk => .accept (hblock (mode h.symm) hk.symm)
  case h_4 => trivial

/-- Formats 6a and 6b (R139). -/
theorem decode6reg_yields {sz : Size} (hsz : field w 31 1 = sz.code) (hop : field w 25 6 = 0b001100#6) :
    (decode6reg sz w).Yields (HasWord w) := by
  refine .need fun rD hd => .need fun rS1 h1 => .need fun c hc => ?_
  have word : ∀ rS2, rS2 = field w 0 5 → wordOf (fields6reg sz (field w 21 4) rD rS1 c rS2) = w :=
    fun _ => wordOf_fields6reg hsz hop rfl (Reg.code_of_ofCode hd) (Reg.code_of_ofCode h1)
      (Cond.code_of_ofCode hc)
  refine .ite (fun h => ?plus) fun _ => .ite (fun h => ?minus) fun _ => .need fun rS2 h2 => ?reg
  case plus => exact (aluConst_yields ..).mono fun _ hi => hi.hasWord (word _ h.symm)
  case minus => exact (aluConst_yields ..).mono fun _ hi => hi.hasWord (word _ h.symm)
  case reg => exact (aluReg_yields ..).mono fun _ hi => hi.hasWord (word _ (Reg.code_of_ofCode h2))

/-- Formats 6c and 6d (R140). -/
theorem decode6imm_yields {sz : Size} (hsz : field w 31 1 = sz.code) (hop : field w 25 6 = 0b001101#6) :
    (decode6imm sz w).Yields (HasWord w) :=
  .need fun _ hd => (aluImm_yields ..).mono fun _ hi =>
    hi.hasWord (wordOf_fields6imm hsz hop rfl (Reg.code_of_ofCode hd) rfl)

/-- Formats 5a and 5b, SET among them (R138). -/
theorem decode5_yields {sz : Size} (hop : field w 26 6 = sz.code ++ 0b00101#5) :
    (decode5 sz w).Yields (HasWord w) := by
  refine .need fun rD hd => .need fun rS3 hs => ?_
  have word := wordOf_fieldsReg2Imm hop (Reg.code_of_ofCode hd) (Source.code_of_ofCode hs) rfl
  refine .ite (fun h => ?_) fun h => ⟨word, ?_⟩
  · obtain ⟨rfl, rfl⟩ := h
    exact ⟨word, rfl⟩
  · simp only [WellFormed, Bool.not_eq_true', Bool.and_eq_false_iff, beq_eq_false_iff_ne]
    exact not_and_or.1 h

/-- The bit T that tells a load from a store. -/
theorem store_bit (h : ¬ field w 24 1 = 0) : BitVec.ofBool true = field w 24 1 :=
  (eq_one_of_ne_zero h).symm

/-- Formats 7b and 7c (R145, R146). -/
theorem decode7bc_yields (hop : field w 25 7 = 0b1001110#7) : (decode7bc w).Yields (HasWord w) := by
  refine .need fun wd hw => ?_
  have hw := Width.code_of_ofCode hw
  refine .ite (fun h1 => .guard fun hz => .need fun io hio => ?io) fun h1 => .guard fun hz =>
    .need fun rP hp => .need fun rI hi => ?mem
  case io =>
    have hio := IoReg.code_of_ofCode hio
    refine .ite (fun ht => .need fun rH hr => ⟨?_, rfl⟩) fun ht => .need fun rH hr => ?_
    · exact wordOf_fields7b hop ht.symm hw (Reg.code_of_ofCode hr) hz h1 hio
    · exact (decodeStoreIo_yields ..).mono fun _ h =>
        h.hasWord (wordOf_fields7b hop (store_bit ht) hw (Source.code_of_ofCode hr) hz h1 hio)
  case mem =>
    have hp := Reg.code_of_ofCode hp
    have hi := Increment.code_of_ofCode hi
    have unnamed : field w 5 6 = 0#6 := by
      have top : field w 10 1 = 0#1 := by
        by_contra h
        exact h1 (eq_one_of_ne_zero h)
      rw [← field_append w 5 1 5, top, hz]
      rfl
    refine .ite (fun ht => .need fun rH hr => ⟨?_, rfl⟩) fun ht => .need fun rH hr => ⟨?_, rfl⟩
    · exact wordOf_fields7c hop ht.symm hw (LoadDest.code_of_ofCode hr) hp unnamed hi
    · exact wordOf_fields7c hop (store_bit ht) hw (Source.code_of_ofCode hr) hp unnamed hi

/-- Format 7d (R147). -/
theorem decode7d_yields (hop : field w 25 7 = 0b1001111#7) : (decode7d w).Yields (HasWord w) := by
  refine .need fun wd hw => .guard fun hz => .need fun io hio => .need fun rP hp => .need fun rI hi => ?_
  have word : ∀ t, BitVec.ofBool t = field w 24 1 → wordOf (fields7d t wd io rP rI) = w :=
    fun t ht => wordOf_fields7d hop ht (Width.code_of_ofCode hw) (IoReg.code_of_ofCode hio)
      (Reg.code_of_ofCode hp) hz (Increment.code_of_ofCode hi)
  exact .ite (fun ht => ⟨word false ht.symm, rfl⟩) fun ht => ⟨word true (store_bit ht), rfl⟩

/-- DA formats 1 to 4: the shared fields, and the rows that M chooses (R160, R162). -/
theorem decodeDa_yields {fmt m : BitVec 3}
    {k : Bool → Bool → AccNo → DaOperand → DaOperand → DaDest → Decoded}
    (hop : field w 29 3 = fmt) (hm : field w 26 3 = m)
    (hk : ∀ f s aN x y z, (k f s aN x y z).Yields (HasFields (fieldsDa fmt m f s aN x y z))) :
    (decodeDa w k).Yields (HasWord w) :=
  .guard fun h0 => .need fun _ hx => .need fun _ hy => .need fun _ hz =>
    (hk ..).mono fun _ h => h.hasWord (wordOf_fieldsDa hop hm h0 (DaOperand.code_of_ofCode hx)
      (DaOperand.code_of_ofCode hy) (DaDest.code_of_ofCode hz))

/-- DA format 5 (R160, R163). -/
theorem decodeDa5_yields (hop : field w 27 5 = 0b01111#5) : (decodeDa5 w).Yields (HasWord w) :=
  .guard fun h0 => .need fun _ hy => .need fun _ hz =>
    (specialOf_yields ..).mono fun _ h => h.hasWord
      (wordOf_fieldsDa5 hop h0 (DaOperand.code_of_ofCode hy) (DaDest.code_of_ofCode hz))

/-- What the decoder accepts in any format has the word that was decoded. -/
theorem decodeFormat_yields {fmt : Format} (h : formatOf w = some fmt) :
    (decodeFormat fmt w).Yields (HasWord w) := by
  have op := opcodeIn_of_formatOf h
  cases fmt <;> simp only [Format.opcodeIn, Bool.and_eq_true, beq_iff_eq, decide_eq_true_eq] at op
  case f0b => exact decode0b_yields op
  case f3a => exact .need fun _ ha => .need fun _ hb => .accept fun hw =>
    ⟨wordOf_fieldsReg2Imm op (Reg.code_of_ofCode ha) (Base.code_of_ofCode hb) rfl, hw⟩
  case f3b =>
    exact .guard fun hz => decodeDo_yields
      (fun hbm hw => ⟨wordOf_fields3b op hbm rfl hz rfl, hw⟩)
      (fun hbm hw => ⟨wordOf_fields3b op hbm rfl hz rfl, hw⟩)
      fun hbm hk hw => ⟨wordOf_fields3b op hbm hk hz rfl, hw⟩
  case f3c =>
    exact .guard fun hz => .need fun _ hr => decodeDo_yields
      (fun hbm hw => ⟨wordOf_fields3c op hbm rfl hz (Reg.code_of_ofCode hr), hw⟩)
      (fun hbm hw => ⟨wordOf_fields3c op hbm rfl hz (Reg.code_of_ofCode hr), hw⟩)
      fun hbm hk hw => ⟨wordOf_fields3c op hbm hk hz (Reg.code_of_ofCode hr), hw⟩
  case f4a => exact .need fun _ ha => .need fun _ hb => .accept fun hw =>
    ⟨wordOf_fieldsReg2Imm op (Reg.code_of_ofCode ha) (Base.code_of_ofCode hb) rfl, hw⟩
  case f4b => exact .need fun _ ha => .need fun _ hb =>
    ⟨wordOf_fieldsReg2Imm op (Reg.code_of_ofCode ha) (Reg.code_of_ofCode hb) rfl, rfl⟩
  case f5 => exact decode5_yields op
  case f6reg => exact decode6reg_yields op.1 op.2
  case f6imm => exact decode6imm_yields op.1 op.2
  case f7a =>
    exact .need fun _ hw => .ite
      (fun ht => .need fun _ hr =>
        ⟨wordOf_fields7a op ht.symm (Width.code_of_ofCode hw) (LoadDest.code_of_ofCode hr) rfl, rfl⟩)
      fun ht => .need fun _ hr =>
        ⟨wordOf_fields7a op (store_bit ht) (Width.code_of_ofCode hw) (Source.code_of_ofCode hr) rfl, rfl⟩
  case f7bc => exact decode7bc_yields op
  case f7d => exact decode7d_yields op
  case f8a => exact .need fun _ hb => ⟨wordOf_fields8 op (Base.code_of_ofCode hb), rfl⟩
  case f8b => exact .need fun _ hd => ⟨wordOf_fields8 op (Reg.code_of_ofCode hd), rfl⟩
  case f8c => exact .need fun _ hr => .accept fun hw => ⟨wordOf_fields8 op (Reg.code_of_ofCode hr), hw⟩
  case da1 => exact decodeDa_yields op.1 rfl (mac1_yields op.2)
  case da2 => exact decodeDa_yields op.1 rfl (mac2_yields op.2)
  case da3 => exact decodeDa_yields op.1 rfl (mac3_yields op.2)
  case da4 =>
    exact decodeDa_yields (k := fun f s aN x y z => .instr (.faddTap f s aN x y z)) op.1 op.2
      fun _ _ _ _ _ _ => ⟨rfl, rfl⟩
  case da5 => exact decodeDa5_yields op

/-- A word with a format is not illegal, and what it decodes to has that word. -/
theorem decode_yields (h : formatOf w ≠ none) : (decode w).Yields (HasWord w) := by
  obtain ⟨fmt, hf⟩ := Option.ne_none_iff_exists'.1 h
  rw [decode, hf]
  exact decodeFormat_yields hf

/-- The illegal words of the default encoding have no format. -/
theorem decode_eq_illegal_iff : decode w = .illegal ↔ formatOf w = none := by
  refine ⟨fun h => ?_, fun h => by rw [decode, h]⟩
  by_contra hf
  exact (decode_yields hf).ne_illegal h

/-- A word that decodes is the word of a well-formed instruction. -/
theorem hasWord_of_decode {i : Instr} (h : decode w = .instr i) : HasWord w i := by
  have hf : formatOf w ≠ none := fun hn => by
    rw [decode_eq_illegal_iff.2 hn] at h
    cases h
  have yields := decode_yields hf
  rwa [h] at yields

/-! ### The statements -/

/-- Settles O2: format by format, what the decoder accepts has the word it read (`decodeFormat_yields`). -/
theorem decodeThenEncode : Obligations.DecodeThenEncode := by
  intro w i h
  rw [decodeWith_default] at h
  exact hasWord_of_decode h

end Sys2Proof
end

section
/-! SUPPORT. The round trip from an instruction (R130), and the illegal words of every encoding (R132, R175). -/

namespace Sys2Proof

/-- Every well-formed instruction's word decodes to it, row by row of the opcode table. -/
theorem decode_encode : ∀ i : Instr, Laws.EncodeRoundTrip.Statement i
  | .ifGoto .. => Laws.EncodeRoundTrip.ifGoto _ _ _
  | .goto .. => Laws.EncodeRoundTrip.goto _ _
  | .nop .. => Laws.EncodeRoundTrip.nop _ _
  | .ret .. => Laws.EncodeRoundTrip.ret _
  | .ireturn => Laws.EncodeRoundTrip.ireturn
  | .goto24 .. => Laws.EncodeRoundTrip.goto24 _ _
  | .loopGoto .. => Laws.EncodeRoundTrip.loopGoto _ _ _
  | .call .. => Laws.EncodeRoundTrip.call _ _ _
  | .call24 .. => Laws.EncodeRoundTrip.call24 _ _
  | .doImm .. => Laws.EncodeRoundTrip.doImm _ _
  | .doReg .. => Laws.EncodeRoundTrip.doReg _ _
  | .dolockImm .. => Laws.EncodeRoundTrip.dolockImm _ _
  | .dolockReg .. => Laws.EncodeRoundTrip.dolockReg _ _
  | .doblockImm .. => Laws.EncodeRoundTrip.doblockImm _
  | .doblockReg .. => Laws.EncodeRoundTrip.doblockReg _
  | .sftrst .. => Laws.EncodeRoundTrip.sftrst _
  | .waiti => Laws.EncodeRoundTrip.waiti
  | .bkpt .. => Laws.EncodeRoundTrip.bkpt _
  | .add3 .. => Laws.EncodeRoundTrip.add3 _ _ _ _
  | .set .. => Laws.EncodeRoundTrip.set _ _
  | .addReg .. => Laws.EncodeRoundTrip.addReg _ _ _ _ _
  | .incDec .. => Laws.EncodeRoundTrip.incDec _ _ _ _ _
  | .spIncDec .. => Laws.EncodeRoundTrip.spIncDec _ _
  | .subReg .. => Laws.EncodeRoundTrip.subReg _ _ _ _ _
  | .subImm .. => Laws.EncodeRoundTrip.subImm _ _ _
  | .rsubImm .. => Laws.EncodeRoundTrip.rsubImm _ _ _
  | .neg .. => Laws.EncodeRoundTrip.neg _ _ _ _
  | .cmpReg .. => Laws.EncodeRoundTrip.cmpReg _ _ _ _ _
  | .cmpImm .. => Laws.EncodeRoundTrip.cmpImm _ _ _
  | .crAddReg .. => Laws.EncodeRoundTrip.crAddReg _ _ _ _ _
  | .crAddImm .. => Laws.EncodeRoundTrip.crAddImm _ _ _
  | .andReg .. => Laws.EncodeRoundTrip.andReg _ _ _ _ _
  | .andImm .. => Laws.EncodeRoundTrip.andImm _ _ _
  | .bitReg .. => Laws.EncodeRoundTrip.bitReg _ _ _ _ _
  | .bitImm .. => Laws.EncodeRoundTrip.bitImm _ _ _
  | .andcReg .. => Laws.EncodeRoundTrip.andcReg _ _ _ _ _
  | .orReg .. => Laws.EncodeRoundTrip.orReg _ _ _ _ _
  | .orImm .. => Laws.EncodeRoundTrip.orImm _ _ _
  | .xorReg .. => Laws.EncodeRoundTrip.xorReg _ _ _ _ _
  | .xorImm .. => Laws.EncodeRoundTrip.xorImm _ _ _
  | .shlReg .. => Laws.EncodeRoundTrip.shlReg _ _ _ _ _
  | .shlImm .. => Laws.EncodeRoundTrip.shlImm _ _ _
  | .shrReg .. => Laws.EncodeRoundTrip.shrReg _ _ _ _ _
  | .shrImm .. => Laws.EncodeRoundTrip.shrImm _ _ _
  | .sarReg .. => Laws.EncodeRoundTrip.sarReg _ _ _ _ _
  | .sarImm .. => Laws.EncodeRoundTrip.sarImm _ _ _
  | .shl1 .. => Laws.EncodeRoundTrip.shl1 _ _ _ _
  | .shr1 .. => Laws.EncodeRoundTrip.shr1 _ _ _ _
  | .half .. => Laws.EncodeRoundTrip.half _ _ _ _
  | .ror1 .. => Laws.EncodeRoundTrip.ror1 _ _ _ _ _
  | .rol1 .. => Laws.EncodeRoundTrip.rol1 _ _ _ _ _
  | .shiftOr .. => Laws.EncodeRoundTrip.shiftOr _ _ _
  | .set24 .. => Laws.EncodeRoundTrip.set24 _ _
  | .loadDirect .. => Laws.EncodeRoundTrip.loadDirect _ _ _
  | .storeDirect .. => Laws.EncodeRoundTrip.storeDirect _ _ _
  | .loadMem .. => Laws.EncodeRoundTrip.loadMem _ _ _ _
  | .storeMem .. => Laws.EncodeRoundTrip.storeMem _ _ _ _
  | .loadIo .. => Laws.EncodeRoundTrip.loadIo _ _ _
  | .storeIo .. => Laws.EncodeRoundTrip.storeIo _ _ _
  | .loadIor .. => Laws.EncodeRoundTrip.loadIor _ _ _ _
  | .storeIor .. => Laws.EncodeRoundTrip.storeIor _ _ _ _
  | .fmultAccStore .. => Laws.EncodeRoundTrip.fmultAccStore _ _ _ _ _ _ _
  | .fmultAccTap .. => Laws.EncodeRoundTrip.fmultAccTap _ _ _ _ _ _ _
  | .fmultAddStore .. => Laws.EncodeRoundTrip.fmultAddStore _ _ _ _ _ _ _
  | .fmultStore .. => Laws.EncodeRoundTrip.fmultStore _ _ _ _ _
  | .fmultTap .. => Laws.EncodeRoundTrip.fmultTap _ _ _ _ _
  | .faddStore .. => Laws.EncodeRoundTrip.faddStore _ _ _ _ _ _
  | .faddTap .. => Laws.EncodeRoundTrip.faddTap _ _ _ _ _ _
  | .floadStore .. => Laws.EncodeRoundTrip.floadStore _ _ _ _
  | .fzeroAddStore .. => Laws.EncodeRoundTrip.fzeroAddStore _ _ _ _ _ _
  | .fconstTap .. => Laws.EncodeRoundTrip.fconstTap _ _ _ _ _ _ _
  | .fconstStore .. => Laws.EncodeRoundTrip.fconstStore _ _ _ _ _ _ _
  | .ic .. => Laws.EncodeRoundTrip.ic _ _ _
  | .oc .. => Laws.EncodeRoundTrip.oc _ _ _
  | .float16 .. => Laws.EncodeRoundTrip.float16 _ _ _
  | .int16 .. => Laws.EncodeRoundTrip.int16 _ _ _
  | .round .. => Laws.EncodeRoundTrip.round _ _ _
  | .ifalt .. => Laws.EncodeRoundTrip.ifalt _ _ _
  | .ifaeq .. => Laws.EncodeRoundTrip.ifaeq _ _ _
  | .ifagt .. => Laws.EncodeRoundTrip.ifagt _ _ _
  | .float32 .. => Laws.EncodeRoundTrip.float32 _ _ _
  | .int32 .. => Laws.EncodeRoundTrip.int32 _ _ _
  | .ieee .. => Laws.EncodeRoundTrip.ieee _ _ _
  | .dsp .. => Laws.EncodeRoundTrip.dsp _ _ _
  | .seed .. => Laws.EncodeRoundTrip.seed _ _ _

/-! ### The word that means the same by default -/

variable (e : Encoding) (w : Word)

/-- The do formats keep their first bits. -/
theorem canonicalDo_top {len : Nat} (lo : Nat) (h : len ≤ 16) :
    field (e.canonicalDo w lo len) 25 7 = field w 25 7 := by
  apply BitVec.eq_of_getLsbD_eq
  intro i hi
  have count : decide (25 + i < len) = false := decide_eq_false (by omega)
  simp only [Encoding.canonicalDo, getLsbD_field, BitVec.getLsbD_or, BitVec.getLsbD_shiftLeft,
    BitVec.getLsbD_setWidth, BitVec.getLsbD_append, count]
  interval_cases i <;> simp

/-- So do the ALU formats. -/
theorem canonicalAlu_top : field (e.canonicalAlu w) 25 7 = field w 25 7 := by
  unfold Encoding.canonicalAlu
  split
  · apply BitVec.eq_of_getLsbD_eq
    intro i hi
    simp only [getLsbD_field, BitVec.getLsbD_append]
    interval_cases i <;> simp
  · rfl

/-- A word of DA formats 1 to 4 takes the first bits of its form. -/
theorem canonicalMac_top (op : BitVec 6) : field (e.canonicalMac op w) 26 6 = op := by
  apply BitVec.eq_of_getLsbD_eq
  intro i hi
  simp only [Encoding.canonicalMac, getLsbD_field, BitVec.getLsbD_append]
  interval_cases i <;> simp

/-- DA format 5 keeps its first bits. -/
theorem canonicalSpecial_top : field (e.canonicalSpecial w) 27 5 = field w 27 5 := by
  apply BitVec.eq_of_getLsbD_eq
  intro i hi
  simp only [Encoding.canonicalSpecial, getLsbD_field, BitVec.getLsbD_append]
  interval_cases i <;> simp

/-! ### Every encoding leaves the formats where they are -/

variable {e w}

/-- No form of the DA formats is a reserved format (R320). -/
theorem formBits_reserved : ∀ c : BitVec 7, formatOf (leading c) = none →
    ∀ (k : Fin 4) (m : BitVec 3), formBits k m ≠ some (c.extractLsb' 1 6) := by
  decide

/-- Nor is DA format 5. -/
theorem da5_reserved : ∀ c : BitVec 7, formatOf (leading c) = none → c.extractLsb' 2 5 ≠ 0b01111#5 := by
  decide

/-- A field of a field. -/
theorem extractLsb'_field (w : Word) (lo len a b : Nat) (h : a + b ≤ len) :
    (field w lo len).extractLsb' a b = field w (lo + a) b := by
  apply BitVec.eq_of_getLsbD_eq
  intro i hi
  simp only [BitVec.getLsbD_extractLsb', getLsbD_field, hi, show a + i < len by omega, Nat.add_assoc,
    decide_true, Bool.true_and]

/-- The form of a word is one of the map's (R320). -/
theorem form_eq_formBits (e : Encoding) (fmt : Format) (w : Word) : ∃ k m, e.form fmt w = formBits k m := by
  unfold Encoding.form
  cases fmt <;> exact ⟨_, _, rfl⟩

/-- A word of DA formats 1 to 4 has a format by default. -/
theorem formatOf_canonicalMac {fmt : Format} {op : BitVec 6} (h : e.form fmt w = some op) :
    formatOf (e.canonicalMac op w) ≠ none := by
  intro hn
  obtain ⟨k, m, hk⟩ := form_eq_formBits e fmt w
  rw [formatOf_eq_leading] at hn
  refine formBits_reserved _ hn k m ?_
  rw [extractLsb'_field _ _ _ _ _ (by decide), canonicalMac_top, ← hk, h]

/-- So has a word of DA format 5. -/
theorem formatOf_canonicalSpecial (h : field w 27 5 = 0b01111#5) :
    formatOf (e.canonicalSpecial w) ≠ none := by
  intro hn
  rw [formatOf_eq_leading] at hn
  refine da5_reserved _ hn ?_
  rw [extractLsb'_field _ _ _ _ _ (by decide), canonicalSpecial_top, h]

/-- The word that means the same by default has a format too. -/
theorem formatOf_canonical {fmt : Format} {v : Word} (hf : formatOf w = some fmt)
    (hv : e.canonical fmt w = some v) : formatOf v ≠ none := by
  have same : field v 25 7 = field w 25 7 → formatOf v ≠ none := fun h => by
    rw [formatOf_congr h, hf]
    exact Option.some_ne_none fmt
  have mac : (e.form fmt w).map (e.canonicalMac · w) = some v → formatOf v ≠ none := fun h => by
    obtain ⟨op, hop, rfl⟩ := Option.map_eq_some_iff.1 h
    exact formatOf_canonicalMac hop
  cases fmt with
  | f3b =>
    cases hv
    exact same (canonicalDo_top e w e.doL (by decide))
  | f3c =>
    cases hv
    exact same (canonicalDo_top e w e.doR (by decide))
  | f6reg | f6imm =>
    cases hv
    exact same (canonicalAlu_top e w)
  | da1 | da2 | da3 | da4 => exact mac hv
  | da5 =>
    cases hv
    exact formatOf_canonicalSpecial (beq_iff_eq.1 (opcodeIn_of_formatOf hf))
  | f0b | f3a | f4a | f4b | f5 | f7a | f7bc | f7d | f8a | f8b | f8c =>
    cases hv
    exact same rfl

/-- In every encoding the illegal words are those without a format. -/
theorem decodeWith_eq_illegal_iff : decodeWith e w = .illegal ↔ formatOf w = none := by
  unfold decodeWith
  cases hf : formatOf w with
  | none => simp only
  | some fmt =>
    refine iff_of_false (Decoded.Yields.ne_illegal (P := fun _ => True) ?_) (Option.some_ne_none fmt)
    exact .guard fun _ => .need fun v hv => (decode_yields (formatOf_canonical hf hv)).mono fun _ _ => trivial

/-! ### The statements -/

/-- Settles O1, row by row (`decode_encode`). -/
theorem encodeThenDecode : Obligations.EncodeThenDecode := by
  intro i h
  rw [decodeWith_default]
  exact decode_encode i h

/-- Settles O3: no encoding moves a format to a reserved one or back (`decodeWith_eq_illegal_iff`). -/
theorem illegalWordsAreTheReservedFormats : Obligations.IllegalWordsAreTheReservedFormats := by
  intro e w
  have top : (field w 25 7).toNat = w.toNat / 2 ^ 25 := by
    rw [field, BitVec.extractLsb'_toNat, Nat.shiftRight_eq_div_pow]
    exact Nat.mod_eq_of_lt (Nat.div_lt_of_lt_mul w.isLt)
  rw [decodeWith_eq_illegal_iff, formatOf_eq_none_iff, top]
  rfl

/-- Settles O4: each word is that of its command. -/
theorem commandWordsDecode : Obligations.CommandWordsDecode := by
  intro p hp
  have words : ∀ p ∈ [(0x9DE0040A#32, Instr.waiti), (0x9D60040A#32, .bkpt true), (0x9D40040A#32, .bkpt false),
      (0x9D00040A#32, .sftrst false), (0x9D20040A#32, .sftrst true)],
      p.1 = encode p.2 ∧ WellFormed p.2 = true := by decide
  obtain ⟨word, wf⟩ := words p hp
  rw [word]
  exact encodeThenDecode p.2 wf

end Sys2Proof
end

section
/-! SUPPORT. The conditions (R150), the flags of a difference as numbers (R231), and the compares (R244). -/

namespace Sys2Proof.Machine

variable {s : State}

/-! ### The conditions (R150) -/

/-- The 38 conditions in the order of their codes. -/
def conditions : List Cond :=
  [.never, .always, .pl, .mi, .ne, .eq, .vc, .vs, .cc, .cs, .ge, .lt, .gt, .le, .hi, .ls,
    .auc, .aus, .age, .alt, .ane, .aeq, .avc, .avs, .agt, .ale,
    .ibe, .ibf, .obf, .obe, .syc, .sys, .fbc, .fbs, .ir0c, .ir0s, .ir1c, .ir1s]

/-- The table of the statement gives each condition its code and its test. -/
theorem conditionTable_eq (s : State) :
    conditionTable s = conditions.map fun c => (c, c.code, s.cond c) := by
  simp only [conditionTable, conditions, List.map_cons, List.map_nil, Cond.code, State.cond, State.cau,
    State.dauN, State.dauZ, State.dauV, State.dauU, Bool.not_or, bne, Bool.not_not]

/-- A condition and the one whose code differs in bit 0 are opposite. -/
theorem State.cond_opposite (s : State) {c d : Cond} (h : d.code = c.code ^^^ 1#6) :
    s.cond d = !s.cond c := by
  have hd : Cond.ofCode (c.code ^^^ 1#6) = some d := h ▸ Cond.ofCode_code d
  cases c <;> cases hd <;> simp only [State.cond, Bool.not_not, Bool.not_true, Bool.not_false]

/-- Settles O31: the table is that of `State.cond`, and the codes are read back by `Cond.ofCode_code`. -/
theorem conditionsTestTheirFlags : Obligations.ConditionsTestTheirFlags := by
  refine ⟨fun s => ⟨rfl, fun p hp => ?tests⟩, ?reserved, fun s c d => s.cond_opposite⟩
  case tests =>
    rw [conditionTable_eq] at hp
    obtain ⟨c, -, rfl⟩ := List.mem_map.1 hp
    exact ⟨rfl, Cond.ofCode_code c, rfl⟩
  case reserved => decide

/-! ### The flags of a difference as numbers (R231) -/

/-- A difference leaves the signed range exactly where wrapping changes it. -/
theorem ssubOverflow_iff {w : Nat} (a b : BitVec w) :
    a.ssubOverflow b = true ↔ (a.toInt - b.toInt).bmod (2 ^ w) ≠ a.toInt - b.toInt := by
  constructor
  · intro outside same
    have low := (a - b).le_toInt
    have high := (a - b).toInt_lt
    rw [BitVec.toInt_sub, same] at low high
    simp only [BitVec.ssubOverflow, Bool.or_eq_true, decide_eq_true_eq] at outside
    omega
  · intro wraps
    by_contra h
    exact wraps (BitVec.toInt_sub.symm.trans (BitVec.toInt_sub_of_not_ssubOverflow h))

/-- The flags of a result that is the number `x` before it is wrapped modulo `m`, with the carry or borrow
`c`. -/
def flagsOfNumber (m : Nat) (x : ℤ) (c : Bool) : CauFlags :=
  ⟨x.bmod m < 0, x.bmod m = 0, x.bmod m ≠ x, c⟩

theorem diffFlags_eq (sz : Size) (a b : Word) :
    diffFlags sz a b =
      flagsOfNumber (2 ^ sz.bits) (sz.signed a - sz.signed b) (decide (sz.unsigned a < sz.unsigned b)) :=
  rfl

/-- The flags of a - b in terms of the numbers that a and b are. -/
theorem flagsSub_flags {w : Nat} (a b : BitVec w) :
    (flagsSub a b).flags = flagsOfNumber (2 ^ w) (a.toInt - b.toInt) (decide (a.toNat < b.toNat)) := by
  have negative : (a - b).msb = decide ((a.toInt - b.toInt).bmod (2 ^ w) < 0) := by
    rw [BitVec.msb_eq_toInt, BitVec.toInt_sub]
  have zero : (a - b == 0#w) = decide ((a.toInt - b.toInt).bmod (2 ^ w) = 0) := by
    rw [← BitVec.toInt_sub, Bool.eq_iff_iff, beq_iff_eq, decide_eq_true_eq, ← BitVec.toInt_inj,
      BitVec.toInt_zero]
  have overflow : (a.msb != b.msb && (a - b).msb != a.msb)
      = decide ((a.toInt - b.toInt).bmod (2 ^ w) ≠ a.toInt - b.toInt) := by
    rw [Bool.eq_iff_iff, decide_eq_true_eq, ← ssubOverflow_iff, BitVec.ssubOverflow_eq]
    cases a.msb <;> cases b.msb <;> cases (a - b).msb <;> decide
  rw [flagsOfNumber, ← negative, ← zero, ← overflow]
  rfl

/-- The low 16 bits of a register as a number. -/
theorem signed_short (v : Word) : Size.short.signed v = (v.setWidth 16).toInt := by
  rw [BitVec.toInt_eq_toNat_bmod, BitVec.toNat_setWidth, Int.natCast_emod, Int.emod_bmod]
  rfl

/-- A register as a number. -/
theorem signed_long (v : Word) : Size.long.signed v = v.toInt := v.toInt_eq_toNat_bmod.symm

/-- A register as an unsigned number. -/
theorem unsigned_long (v : Word) : Size.long.unsigned v = v.toNat := Nat.mod_eq_of_lt v.isLt

/-- The subtraction gives the flags of the difference at either size. -/
theorem aluSub_flags (sz : Size) (a b : Word) : (aluSub sz a b).2 = diffFlags sz a b := by
  cases sz with
  | short =>
    rw [diffFlags_eq, signed_short, signed_short]
    exact flagsSub_flags _ _
  | long =>
    rw [diffFlags_eq, signed_long, signed_long, unsigned_long, unsigned_long]
    exact flagsSub_flags a b

/-! ### What the flags of a difference say -/

theorem unsigned_lt (sz : Size) (v : Word) : sz.unsigned v < 2 ^ sz.bits := Nat.mod_lt _ (Nat.two_pow_pos _)

/-- A number of w bits, signed and unsigned. -/
theorem signed_cases (sz : Size) (v : Word) :
    (2 * sz.unsigned v < 2 ^ sz.bits ∧ sz.signed v = sz.unsigned v) ∨
    (2 ^ sz.bits ≤ 2 * sz.unsigned v ∧ sz.signed v = sz.unsigned v - 2 ^ sz.bits) := by
  cases sz <;> simp only [Size.signed, Size.wrap, Size.unsigned, Size.bits, Int.bmod_def] <;> split <;> omega

/-- A number less than twice out of range is wrapped once. -/
theorem wrap_cases (sz : Size) {x : ℤ} (h : -2 ^ sz.bits < x ∧ x < 2 ^ sz.bits) :
    (-2 ^ (sz.bits - 1) ≤ x ∧ x < 2 ^ (sz.bits - 1) ∧ sz.wrap x = x) ∨
    (x < -2 ^ (sz.bits - 1) ∧ sz.wrap x = x + 2 ^ sz.bits) ∨
    (2 ^ (sz.bits - 1) ≤ x ∧ sz.wrap x = x - 2 ^ sz.bits) := by
  cases sz <;> simp only [Size.wrap, Size.bits, Int.bmod_def] at h ⊢ <;> split <;> omega

/-- Everything a test of the flags of a - b says of the numbers: z where they are equal, n ≠ v where a is less
as a signed number, c where it is as an unsigned one. -/
theorem diffFlags_orders (sz : Size) (a b : Word) :
    ((diffFlags sz a b).z = true ↔ sz.signed a = sz.signed b) ∧
    ((diffFlags sz a b).z = true ↔ sz.unsigned a = sz.unsigned b) ∧
    (((diffFlags sz a b).n ^^ (diffFlags sz a b).v) = true ↔ sz.signed a < sz.signed b) ∧
    ((diffFlags sz a b).c = true ↔ sz.unsigned a < sz.unsigned b) := by
  have ua := unsigned_lt sz a
  have ub := unsigned_lt sz b
  have sa := signed_cases sz a
  have sb := signed_cases sz b
  have range : -2 ^ sz.bits < sz.signed a - sz.signed b ∧ sz.signed a - sz.signed b < 2 ^ sz.bits := by
    cases sz <;> simp only [Size.bits] at * <;> omega
  have wrapped := wrap_cases sz range
  simp only [diffFlags, decide_eq_true_eq, bne_iff_ne, ne_eq, decide_eq_decide]
  refine ⟨?_, ?_, ?_, trivial⟩ <;> cases sz <;> simp only [Size.bits] at * <;> omega

/-! ### The compares (R244) -/

/-- A write of the CAU flags writes nothing else. -/
theorem setsFlags_setCau (s : State) (f : CauFlags) : SetsFlags s (.next (s.setCau f)) f :=
  ⟨s.setCau f, rfl, s.cau_setCau f, fun _ _ => rfl, withCau_high _ _,
    fun a => SameMap.readByte ⟨rfl, rfl, rfl⟩ rfl a, rfl⟩

theorem exec_cmpImm (sz : Size) (rD : Reg) (n : Half) (s : State) :
    exec (.cmpImm sz rD n) s = .next (s.setCau (diffFlags sz (s.reg rD) (BitVec.ofInt 32 n.toInt))) := by
  rw [← aluSub_flags]
  rfl

theorem exec_cmpReg {c : Cond} (hc : s.cond c = true) (sz : Size) (rD rS1 rS2 : Reg) :
    exec (.cmpReg sz c rD rS1 rS2) s = .next (s.setCau (diffFlags sz (s.reg rS1) (s.reg rS2))) := by
  rw [← aluSub_flags]
  exact if_pos hc

/-- What the conditions say where the flags are those of a difference (R150). -/
theorem conds_of_diffFlags {t : State} {sz : Size} {a b : Word} (h : t.cau = diffFlags sz a b) :
    (t.cond .eq = true ↔ sz.signed a = sz.signed b) ∧
    (t.cond .lt = true ↔ sz.signed a < sz.signed b) ∧
    (t.cond .le = true ↔ sz.signed a ≤ sz.signed b) ∧
    (t.cond .gt = true ↔ sz.signed b < sz.signed a) ∧
    (t.cond .ge = true ↔ sz.signed b ≤ sz.signed a) ∧
    (t.cond .cs = true ↔ sz.unsigned a < sz.unsigned b) ∧
    (t.cond .hi = true ↔ sz.unsigned b < sz.unsigned a) ∧
    (t.cond .ls = true ↔ sz.unsigned a ≤ sz.unsigned b) := by
  obtain ⟨equal, same, less, borrow⟩ := diffFlags_orders sz a b
  have le : t.cond .le = true ↔ sz.signed a ≤ sz.signed b := by
    simp only [State.cond, h, Bool.or_eq_true, equal, less]
    omega
  have ls : t.cond .ls = true ↔ sz.unsigned a ≤ sz.unsigned b := by
    simp only [State.cond, h, Bool.or_eq_true, same, borrow]
    omega
  have lt : t.cond .lt = true ↔ sz.signed a < sz.signed b := by simpa only [State.cond, h] using less
  have opposite : ∀ {c d : Cond}, d.code = c.code ^^^ 1#6 → (t.cond d = true ↔ ¬ t.cond c = true) :=
    fun hcode => by rw [t.cond_opposite hcode, Bool.not_eq_true', Bool.not_eq_true]
  refine ⟨?_, lt, le, ?_, ?_, ?_, ?_, ls⟩
  · simpa only [State.cond, h] using equal
  · rw [opposite (c := .le) rfl, le, not_le]
  · rw [opposite (c := .lt) rfl, lt, not_lt]
  · simpa only [State.cond, h] using borrow
  · rw [opposite (c := .ls) rfl, ls, not_le]

/-- Settles O35: both forms write the flags of the difference, which the conditions read. -/
theorem compareOrdersItsOperands : Obligations.CompareOrdersItsOperands := by
  intro s sz rD a b o form
  have ran : o = .next (s.setCau (diffFlags sz a b)) := by
    obtain ⟨n, rfl, rfl, rfl⟩ | ⟨c, rS1, rS2, hc, rfl, rfl, rfl⟩ := form
    · exact exec_cmpImm sz rD n s
    · exact exec_cmpReg hc sz rD rS1 rS2
  subst ran
  refine ⟨setsFlags_setCau s _, fun t ht => ?_⟩
  cases ht
  exact conds_of_diffFlags (s.cau_setCau _)

end Sys2Proof.Machine
end

section
/-! SUPPORT. An illegal word: the step that requests the error and the boundary that takes it (R175, R381,
R390). -/

namespace Sys2Proof.Machine

variable {s t b : State}

/-- An illegal word requests Illegal Opcode and does nothing else (R175). -/
theorem State.execute_illegal {w : Word} (ir : s.ir = .word w) (hw : s.decoded w = .illegal)
    (hf : s.fetchTooEarly = false) : s.execute = .next (requesting s .illegalOpcode) := by
  simp only [State.execute, hf, ir, hw, Bool.false_eq_true, if_false]
  rfl

/-- The end of a step with nothing in flight and nothing latched only goes on. -/
theorem finish_of_idle (pf : Fetched) (hload : t.pendingLoad = none) (hqueue : t.queue = [])
    (hlatch : t.latch = Latch.empty) (hloop : t.loop.active = false) (hactive : b.loop.active = false)
    (htail : b.loop.tail = false) :
    finish b pf t = { t with
      pc := t.npc
      npc := t.npc + 4#32
      ir := pf
      loop := { t.loop with tail := false }
      history := (b.irRecord :: t.history).take 3
      inSlot := b.opensSlot } := by
  have calm : ∀ e ∈ t.queue, 2 ≤ e.left := by
    rw [hqueue]
    exact fun _ he => absurd he List.not_mem_nil
  rw [finish_of_calm pf hload hactive htail calm]
  simp only [State.moveOn, Latch.empty, seqNext, hlatch, hloop, hload, hqueue, Bool.false_and,
    Bool.false_eq_true, if_false, List.map_nil]

/-- The boundary after a requested error enters its vector (R383, R390). -/
theorem State.boundary_of_error {e : ErrorSource} {l : Level} (henv : s.env = [])
    (he : s.errorRequest = some e) (hl : s.level.afterError = some l) :
    ∃ u, s.boundary = .ok u ∧ u.pc = s.vector e.index ∧ u.level = l := by
  have taken : s.boundary = { s with out := [], latch := Latch.empty }.takeException (.error e) := by
    rw [State.boundary_of_nil henv]
    simp only [State.recognize, he]
  obtain ⟨double, -⟩ | ⟨k, after, entry⟩ :=
    State.takeError { s with out := [], latch := Latch.empty } e
  · exact absurd (hl.symm.trans double) (Option.some_ne_none l)
  · cases hl.symm.trans after
    exact ⟨_, taken.trans entry, rfl, rfl⟩

/-- The state that a step on an illegal word leaves: the request, and pc and npc moved on. -/
def illegalPassed (s : State) : State :=
  { requesting (opened s) .illegalOpcode with
    pc := s.npc
    npc := s.npc + 4#32
    ir := (opened s).prefetch
    loop := { s.loop with tail := false }
    history := ((opened s).irRecord :: s.history).take 3
    inSlot := (opened s).opensSlot }

/-- With nothing in flight the step on an illegal word leaves that state. -/
theorem step_of_illegal {w : Word} (quiet : Quiet s) (ir : s.ir = .word w) (hw : s.decoded w = .illegal)
    (early : s.fetchTooEarly = false) (hload : s.pendingLoad = none) (hqueue : s.queue = [])
    (hactive : s.loop.active = false) (htail : s.loop.tail = false) :
    step s = .next (illegalPassed s) := by
  have still : (opened s).interleave = opened s := State.interleave_of_nil quiet.env
  have run : (opened s).interleave.interleave.execute = .next (requesting (opened s) .illegalOpcode) := by
    rw [still, still]
    exact State.execute_illegal (s := opened s) ir hw early
  have idle : finish (opened s) (opened s).prefetch (requesting (opened s) .illegalOpcode) = illegalPassed s :=
    finish_of_idle _ hload hqueue rfl hactive hactive htail
  rw [step_of_execute (State.boundary_of_quiet quiet) quiet.awake run, still, still, idle]

/-- Settles O17: the step is that of `step_of_illegal`, and the next boundary enters vector 2 as in
`State.boundary_of_error`. -/
theorem illegalOpcodeEntersVectorTwo : Obligations.IllegalOpcodeEntersVectorTwo := by
  intro s w quiet ir illegal early noLoad noFlags active tail level
  obtain ⟨u, boundary, pc, entered⟩ :=
    State.boundary_of_error (s := illegalPassed s) (e := .illegalOpcode) (l := .error) quiet.env rfl
      (congrArg Level.afterError level)
  exact ⟨illegalPassed s, u, step_of_illegal quiet ir illegal early noLoad noFlags active tail,
    rfl, rfl, rfl, rfl, rfl, rfl, rfl, boundary, pc, entered⟩

end Sys2Proof.Machine
end

section
/-! SUPPORT. Branches and conditional instructions: a target latched with interrupts held off (R190 to R202),
the link and the counter (R198, R200), and the false condition (R233). -/

namespace Sys2Proof.Machine

variable {s : State}

/-! ### Targets (R192) -/

theorem State.baseValue_eq (s : State) (rB : Base) : s.baseValue rB = baseOf s rB := by cases rB <;> rfl

theorem State.target_eq (s : State) (rB : Base) (n : Half) :
    s.target rB n = baseOf s rB + BitVec.ofInt 32 n.toInt := by
  rw [State.target, State.baseValue_eq]
  rfl

theorem zext24_eq (m : BitVec 24) : zext24 m = BitVec.ofNat 32 m.toNat := (BitVec.ofNat_toNat 32 m).symm

/-! ### The branch (R190, R193) -/

@[simp] theorem branch_true (a : Word) (s : State) : branch true a s = jumped s a := rfl
@[simp] theorem branch_false (a : Word) (s : State) : branch false a s = held s := rfl

theorem branch_eq (taken : Bool) (a : Word) (s : State) :
    branch taken a s = if taken then jumped s a else held s := by cases taken <;> rfl

theorem branch_target (taken : Bool) (a : Word) (s : State) :
    (branch taken a s).latch.target = if taken then some a else s.latch.target := by cases taken <;> rfl

/-- A branch touches the latched target and the hold on interrupts. -/
theorem branch_frame (taken : Bool) (a : Word) (s : State) :
    branch taken a s = { s with
      inhibit := true
      latch := { s.latch with target := (branch taken a s).latch.target } } := by
  cases taken <;> rfl

/-- A branch leaves the registers and the note of who wrote them. -/
theorem branch_set {t : State} {r : Reg} {v : Word} (h : PointerSet s t r v) (taken : Bool) (a : Word) :
    PointerSet s (branch taken a t) r v := by
  rw [branch_frame]
  exact h

/-- A write of a register sets it, but r0 (R21). -/
theorem setReg_set (s : State) (r : Reg) (v : Word) : PointerSet s (s.setReg r v) r v := by
  refine ⟨?_, fun q hq => s.reg_setReg_other v hq, List.mem_cons_self⟩
  rw [State.reg_setReg]
  by_cases h0 : r = 0
  · subst h0
    rfl
  · rw [if_pos ⟨rfl, h0⟩, if_neg h0]

/-- What a branch and the write of one register leave together: the form of the loop-counter goto and of the
calls. -/
theorem branch_setReg (s : State) (taken : Bool) (a : Word) (r : Reg) (v : Word) :
    let t := branch taken a (s.setReg r v)
    PointerSet s t r v ∧ t.inhibit = true ∧
      t.latch.target = (if taken then some a else s.latch.target) ∧ (∀ b, t.readByte b = s.readByte b) ∧
      t = { s with
        regs := t.regs
        inhibit := true
        latch := { s.latch with target := t.latch.target, wroteRegs := t.latch.wroteRegs } } := by
  have frame := branch_frame taken a (s.setReg r v)
  refine ⟨branch_set (setReg_set s r v) taken a, by rw [frame], branch_target taken a _, fun b => ?_, ?_⟩
  · rw [frame]
    exact SameMap.readByte ⟨rfl, rfl, rfl⟩ rfl b
  · cases taken <;> rfl

/-! ### Conditional instructions (R233) -/

/-- An instruction with a condition is the move of sp, the conditional goto, or does something only where the
condition holds. -/
theorem exec_conditional {i : Instr} {c : Cond} (h : condOf i = some c) (s : State) :
    ((∃ d, i = .spIncDec c d) ∨ ∃ b n, i = .ifGoto c b n) ∨ ∃ t, exec i s = conditionally c s t := by
  cases i with
  | spIncDec _ d =>
    cases h
    exact .inl (.inl ⟨d, rfl⟩)
  | ifGoto _ b n =>
    cases h
    exact .inl (.inr ⟨b, n, rfl⟩)
  | addReg | incDec | subReg | neg | cmpReg | crAddReg | andReg | bitReg | andcReg | orReg | xorReg | shlReg
  | shrReg | sarReg | shl1 | shr1 | half | ror1 | rol1 =>
    cases h
    exact .inr ⟨_, rfl⟩
  | _ => cases h

theorem conditionally_of_false {c : Cond} (h : s.cond c = false) (t : State) :
    conditionally c s t = .next s := if_neg (ne_true_of_eq_false h)

/-! ### The statements -/

/-- Settles O26: each is a `branch` to its target. -/
theorem gotosLatchTheirTarget : Obligations.GotosLatchTheirTarget := by
  intro s rB n
  rw [← s.target_eq rB n, ← s.baseValue_eq rB]
  refine ⟨fun c => congrArg Host.Outcome.next (branch_eq _ _ s), rfl, rfl, fun m => ?_, fun rM => rfl⟩
  rw [← zext24_eq]
  rfl

/-- Settles O27: the sign bit of the old rM is the test. -/
theorem loopGotoTestsBeforeTheDecrement : Obligations.LoopGotoTestsBeforeTheDecrement := by
  intro s rM rB n
  obtain ⟨set, hold, target, bytes, frame⟩ :=
    branch_setReg s (!(s.reg rM).msb) (s.target rB n) rM (s.reg rM - 1#32)
  have test : (!(s.reg rM).msb) = true ↔ 0 ≤ (s.reg rM).toInt := by
    rw [BitVec.msb_eq_toInt, Bool.not_eq_true', decide_eq_false_iff_not, not_lt]
  refine ⟨_, rfl, set, hold, target.trans ?_, bytes, frame⟩
  rw [s.target_eq]
  simp only [test]

/-- Settles O28: both forms write the link and branch to a target read before. -/
theorem callsLeaveTheReturnAddress : Obligations.CallsLeaveTheReturnAddress := by
  intro s rM rB n m p hp
  have calls : ∃ a, p = (.next (branch true a (s.setReg rM (s.pc + 8#32))), a) := by
    rw [← s.target_eq, ← zext24_eq] at hp
    simp only [List.mem_cons, List.not_mem_nil, or_false] at hp
    obtain rfl | rfl := hp
    · exact ⟨_, rfl⟩
    · exact ⟨_, rfl⟩
  obtain ⟨a, rfl⟩ := calls
  exact ⟨_, rfl, branch_setReg s true a rM (s.pc + 8#32)⟩

/-- Settles O32: with a false condition the two that hold off interrupts do only that, and the others, by
`exec_conditional`, nothing. -/
theorem falseConditionChangesNothing : Obligations.FalseConditionChangesNothing := by
  intro i c s hi hc
  constructor
  · rintro (⟨d, rfl⟩ | ⟨b, n, rfl⟩)
    · exact conditionally_of_false (s := s.holdInterrupts) hc _
    · show Host.Outcome.next (branch (s.cond c) _ s) = _
      rw [hc, branch_false]
  · intro other
    obtain holds | ⟨t, ht⟩ := exec_conditional hi s
    · exact absurd holds other
    · rw [ht, conditionally_of_false hc]

end Sys2Proof.Machine
end

section
/-! SUPPORT. Do loops (R203, R205): the next address in program order, and the passes of a loop body one
after the other. -/

namespace Sys2Proof.Machine

/-! ### The next address (R205) -/

variable {d : DoState} {a : Word}

/-- Outside a loop, and before its last address, the next address follows. -/
theorem seqNext_of_inside (h : d.active = false ∨ a ≠ d.stop) :
    seqNext d a = ({ d with tail := false }, a + 4#32) := by
  refine if_neg fun last => ?_
  obtain ⟨active, stop⟩ := Bool.and_eq_true_iff.1 last
  obtain inactive | other := h
  · exact Bool.noConfusion (active.symm.trans inactive)
  · exact other (beq_iff_eq.1 stop)

/-- At the last address of a body it is the first one again, while the count is not 0. -/
theorem seqNext_of_again (active : d.active = true) (stop : a = d.stop) (iter : d.iter ≠ 0#11) :
    seqNext d a = ({ d with iter := d.iter - 1#11, tail := false }, d.start) := by
  simp only [seqNext, active, stop, iter, beq_self_eq_true, Bool.and_self, if_true, if_false]

/-- Where the count is 0 the loop is over. -/
theorem seqNext_of_over (active : d.active = true) (stop : a = d.stop) (iter : d.iter = 0#11) :
    seqNext d a = ({ d with active := false, tail := true }, a + 4#32) := by
  simp only [seqNext, active, stop, iter, beq_self_eq_true, Bool.and_self, if_true]

/-! ### The passes of a body -/

/-- A loop that begins: `k + 1` instructions from `start` on, none of them run yet. -/
structure Begun (d : DoState) (k : Nat) : Prop where
  active : d.active = true
  tail : d.tail = false
  stop : d.stop = d.start + BitVec.ofNat 32 (4 * k)
  short : k < 128

/-- The loop and the address at instruction `r` of pass `q`. -/
def atPass (d : DoState) (q r : Nat) : DoState × Word :=
  ({ d with iter := d.iter - BitVec.ofNat 11 q }, d.start + BitVec.ofNat 32 (4 * r))

theorem sequence_succ (d : DoState) (a : Word) (j : Nat) :
    sequence d a (j + 1) = seqNext (sequence d a j).1 (sequence d a j).2 :=
  Function.iterate_succ_apply' _ _ _

/-- The next address within the body. -/
theorem address_succ (a : Word) (r : Nat) :
    a + BitVec.ofNat 32 (4 * r) + 4#32 = a + BitVec.ofNat 32 (4 * (r + 1)) := by
  rw [BitVec.add_assoc, ← BitVec.ofNat_add, Nat.mul_succ]

variable {k q r : Nat}

/-- Different instructions of the body have different addresses. -/
theorem Begun.ne_stop (h : Begun d k) (hr : r < k) : d.start + BitVec.ofNat 32 (4 * r) ≠ d.stop := by
  rw [h.stop]
  intro same
  have same := congrArg BitVec.toNat ((BitVec.add_right_inj _).1 same)
  have := h.short
  simp only [BitVec.toNat_ofNat] at same
  omega

/-- Within a pass the next instruction follows. -/
theorem Begun.next (h : Begun d k) (hr : r < k) :
    seqNext (atPass d q r).1 (atPass d q r).2 = atPass d q (r + 1) := by
  refine (seqNext_of_inside (d := (atPass d q r).1) (.inr (h.ne_stop hr))).trans ?_
  simp only [atPass, address_succ, ← h.tail]

/-- After a pass that is not the last the next one begins. -/
theorem Begun.again (h : Begun d k) (hq : q < d.iter.toNat) :
    seqNext (atPass d q k).1 (atPass d q k).2 = atPass d (q + 1) 0 := by
  have more : d.iter - BitVec.ofNat 11 q ≠ 0#11 := by
    intro none
    have := d.iter.isLt
    have := congrArg BitVec.toNat (BitVec.sub_eq_iff_eq_add.1 none)
    simp only [BitVec.zero_add, BitVec.toNat_ofNat] at this
    omega
  refine (seqNext_of_again (d := (atPass d q k).1) h.active h.stop.symm more).trans ?_
  have count : d.iter - BitVec.ofNat 11 q - 1#11 = d.iter - BitVec.ofNat 11 (q + 1) := by
    rw [BitVec.sub_sub, ← BitVec.ofNat_add]
  simp only [atPass, count, ← h.tail, Nat.mul_zero, BitVec.add_zero]

/-- After the last pass execution goes on behind the body with the loop over. -/
theorem Begun.ends (h : Begun d k) :
    seqNext (atPass d d.iter.toNat k).1 (atPass d d.iter.toNat k).2 =
      ({ (atPass d d.iter.toNat k).1 with active := false, tail := true },
        d.start + BitVec.ofNat 32 (4 * (k + 1))) := by
  have last : d.iter - BitVec.ofNat 11 d.iter.toNat = 0#11 := by
    rw [BitVec.ofNat_toNat, BitVec.setWidth_eq, BitVec.sub_self]
  refine (seqNext_of_over (d := (atPass d d.iter.toNat k).1) h.active h.stop.symm last).trans ?_
  simp only [atPass, address_succ]

/-- Within L + 1 passes the `j`-th instruction after the first is instruction `j % (K + 1)` of pass
`j / (K + 1)`. -/
theorem Begun.sequence (h : Begun d k) : ∀ j, j < (k + 1) * (d.iter.toNat + 1) →
    sequence d d.start j = atPass d (j / (k + 1)) (j % (k + 1))
  | 0, _ => by
    rw [Nat.zero_div, Nat.zero_mod, atPass, BitVec.sub_zero, Nat.mul_zero, BitVec.add_zero]
    rfl
  | j + 1, hj => by
    rw [sequence_succ, Begun.sequence h j (by omega)]
    have position := Nat.div_add_mod j (k + 1)
    have within := Nat.mod_lt j k.succ_pos
    generalize j / (k + 1) = q at position ⊢
    generalize j % (k + 1) = r at position within ⊢
    by_cases hr : r = k
    · have ends : j + 1 = (k + 1) * (q + 1) := by rw [Nat.mul_succ]; omega
      have more : q < d.iter.toNat := by
        rw [ends] at hj
        exact Nat.lt_of_succ_lt_succ (Nat.lt_of_mul_lt_mul_left hj)
      rw [ends, Nat.mul_div_cancel_left _ k.succ_pos, Nat.mul_mod_right, hr, h.again more]
    · have inside : r + 1 < k + 1 := by omega
      have goes : j + 1 = (k + 1) * q + (r + 1) := by omega
      rw [goes, Nat.mul_add_div k.succ_pos, Nat.mul_add_mod, Nat.div_eq_of_lt inside, Nat.mod_eq_of_lt inside,
        Nat.add_zero, h.next (by omega)]

/-- After them the loop is over. -/
theorem Begun.sequence_end (h : Begun d k) :
    Machine.sequence d d.start ((k + 1) * (d.iter.toNat + 1)) =
      ({ (atPass d d.iter.toNat k).1 with active := false, tail := true },
        d.start + BitVec.ofNat 32 (4 * (k + 1))) := by
  have total : (k + 1) * (d.iter.toNat + 1) = (k + 1) * d.iter.toNat + k + 1 := by
    rw [Nat.mul_succ, Nat.add_assoc]
  have position : ((k + 1) * d.iter.toNat + k) / (k + 1) = d.iter.toNat ∧
      ((k + 1) * d.iter.toNat + k) % (k + 1) = k := by
    rw [Nat.mul_add_div k.succ_pos, Nat.mul_add_mod, Nat.div_eq_of_lt k.lt_succ_self,
      Nat.mod_eq_of_lt k.lt_succ_self]
    exact ⟨rfl, rfl⟩
  rw [total, sequence_succ, h.sequence _ (by omega), position.1, position.2, h.ends]

/-! ### The do instructions (R203, R209, R210) -/

theorem begun_startLoop (s : State) (kind : DoKind) (k : BitVec 7) (count : BitVec 11) :
    Begun (s.startLoop kind k count).loop k.toNat where
  active := rfl
  tail := rfl
  short := k.isLt
  stop := by
    have body : 4#32 * k.setWidth 32 = BitVec.ofNat 32 (4 * k.toNat) := by
      rw [BitVec.ofNat_mul, BitVec.ofNat_toNat]
    rw [← body]
    rfl

/-- Every do instruction begins a loop that runs its body. -/
theorem runsBody_startLoop (s : State) (kind : DoKind) (k : BitVec 7) (count : BitVec 11) :
    RunsBody s (.next (s.startLoop kind k count)) kind k.toNat count.toNat := by
  have begun := begun_startLoop s kind k count
  have ended := begun.sequence_end
  refine ⟨_, rfl, rfl, rfl, fun j hj => ?_, congrArg (·.1.active) ended, congrArg (·.2) ended⟩
  have here := begun.sequence j hj
  exact ⟨congrArg (·.1.active) here, congrArg (·.2) here⟩

/-- The count in a register is its low 11 bits (R203). -/
theorem State.loopCount_toNat (s : State) (rM : Reg) : (s.loopCount rM).toNat = (s.reg rM).toNat % 2048 :=
  BitVec.toNat_setWidth 11 _

/-- Settles O29: each form begins a loop, as in `runsBody_startLoop`. -/
theorem doRunsItsBody : Obligations.DoRunsItsBody := by
  intro s k l rM
  rw [← s.loopCount_toNat]
  exact ⟨runsBody_startLoop s .plain k l, runsBody_startLoop s .plain k (s.loopCount rM),
    runsBody_startLoop s .lock k l, runsBody_startLoop s .lock k (s.loopCount rM),
    runsBody_startLoop s .block 0#7 l, runsBody_startLoop s .block 0#7 (s.loopCount rM)⟩

end Sys2Proof.Machine
end

section
/-! SUPPORT. Where execution goes on at the end of a step (R190, R205), and what the end of a step leaves. -/

namespace Sys2Proof.Machine

variable (b : State) (pf : Fetched) (t : State)

/-! ### The sequencing -/

/-- The end of a step before its sequencing leaves what the sequencing reads. -/
theorem drained_sequencing :
    (drained b t).npc = t.npc ∧ (drained b t).loop = t.loop ∧
      (drained b t).latch.resume = t.latch.resume ∧ (drained b t).latch.target = t.latch.target := by
  rw [drained_eq, advanced, State.advanceFlags_eq, State.commitLoad_eq]
  exact ⟨rfl, rfl, rfl, rfl⟩

theorem drained_history : (drained b t).history = b.irRecord :: t.history.take 2 := by
  rw [drained_eq, advanced, State.commitLoad_eq]
  rfl

/-- Where execution goes on after an instruction that is no ireturn: at a latched target, or in program
order. -/
def goesOn (target : Option Word) (d : DoState) (npc : Word) : DoState × Word :=
  match target with
  | some a => ({ d with tail := false }, a)
  | none => seqNext d npc

variable {t} in
/-- The sequencing of R190, steps 6 and 7. -/
theorem finish_sequencing (h : t.latch.resume = none) :
    (finish b pf t).pc = t.npc ∧ (finish b pf t).ir = pf ∧
      (finish b pf t).history = b.irRecord :: t.history.take 2 ∧
      ((finish b pf t).loop, (finish b pf t).npc) =
        goesOn t.latch.target (countPass b t.loop) t.npc := by
  obtain ⟨npc, loop, resume, target⟩ := drained_sequencing b t
  rw [finish_eq_moveOn, ← drained_history b t, ← npc, ← loop, ← target]
  simp only [State.moveOn, resume, h, goesOn]
  cases (drained b t).latch.target with
  | none => exact ⟨rfl, rfl, rfl, rfl⟩
  | some a => exact ⟨rfl, rfl, rfl, rfl⟩

/-- The sequencing keeps the kind, the ends and the passes of the loop. -/
theorem goesOn_keeps (target : Option Word) (d : DoState) (a : Word) :
    (goesOn target d a).1.kind = d.kind ∧ (goesOn target d a).1.start = d.start ∧
      (goesOn target d a).1.stop = d.stop ∧ (goesOn target d a).1.passes = d.passes := by
  cases target with
  | some a => exact ⟨rfl, rfl, rfl, rfl⟩
  | none =>
    simp only [goesOn, seqNext]
    split
    · split <;> exact ⟨rfl, rfl, rfl, rfl⟩
    · exact ⟨rfl, rfl, rfl, rfl⟩

/-- Being in the body of a doblock (R210). -/
theorem State.inBlock_iff {s : State} : (s.inBody && s.loop.kind == .block) = true ↔
    (s.loop.active = true ∨ s.loop.tail = true) ∧ s.loop.kind = .block := by
  simp [State.inBody]

/-- Counting a pass changes the count of passes, in the body of a doblock (R210). -/
theorem countPass_eq (d : DoState) :
    countPass b d = { d with
      passes := if (b.loop.active = true ∨ b.loop.tail = true) ∧ b.loop.kind = .block
        then d.passes + 1#12 else d.passes } := by
  unfold countPass
  simp only [State.inBlock_iff]
  split <;> rfl

/-- Where `seqNext` goes on, case by case (R205). -/
theorem seqNext_cases (d : DoState) (a : Word) :
    (d.active = false ∨ a ≠ d.stop → (seqNext d a).2 = a + 4#32 ∧ (seqNext d a).1.active = d.active ∧
      (seqNext d a).1.iter = d.iter ∧ (seqNext d a).1.tail = false) ∧
    (d.active = true → a = d.stop → d.iter ≠ 0#11 → (seqNext d a).2 = d.start ∧
      (seqNext d a).1.active = true ∧ (seqNext d a).1.iter.toNat + 1 = d.iter.toNat ∧
      (seqNext d a).1.tail = false) ∧
    (d.active = true → a = d.stop → d.iter = 0#11 → (seqNext d a).2 = a + 4#32 ∧
      (seqNext d a).1.active = false ∧ (seqNext d a).1.iter = d.iter ∧ (seqNext d a).1.tail = true) := by
  refine ⟨fun inside => ?inside, fun active stop more => ?again, fun active stop zero => ?ends⟩
  case inside =>
    rw [seqNext_of_inside inside]
    exact ⟨rfl, rfl, rfl, rfl⟩
  case again =>
    rw [seqNext_of_again active stop more]
    have one : 1 ≤ d.iter.toNat := Nat.pos_of_ne_zero fun h => more (BitVec.eq_of_toNat_eq h)
    refine ⟨rfl, active, ?_, rfl⟩
    have low : 1#11 ≤ d.iter := one
    rw [BitVec.toNat_sub_of_le low]
    exact Nat.sub_add_cancel one
  case ends =>
    rw [seqNext_of_over active stop zero]
    exact ⟨rfl, rfl, rfl, rfl⟩

/-! ### What stays -/

/-- The next instruction is in a delay slot exactly after an instruction that has one (R191). -/
theorem finish_inSlot_iff : (finish b pf t).inSlot = true ↔
    ∃ w i, b.ir = .word w ∧ b.decoded w = .instr i ∧ hasSlot i = true := by
  have slot : (finish b pf t).inSlot = b.opensSlot := by rw [finish_eq]
  rw [slot, State.opensSlot]
  cases h : b.irInstr with
  | none =>
    refine ⟨Bool.noConfusion, ?_⟩
    rintro ⟨w, i, ir, decoded, -⟩
    cases h.symm.trans (State.irInstr_eq_some.2 ⟨w, ir, decoded⟩)
  | some i =>
    constructor
    · intro has
      obtain ⟨w, ir, decoded⟩ := State.irInstr_eq_some.1 h
      exact ⟨w, i, ir, decoded, has⟩
    · rintro ⟨w, j, ir, decoded, has⟩
      cases h.symm.trans (State.irInstr_eq_some.2 ⟨w, ir, decoded⟩)
      exact has

/-- What the end of a step leaves of what the instruction left. -/
theorem finish_frame : FinishFrame t (finish b pf t) where
  rest := by
    have frame := finish_eq b pf t
    rw [State.advanceFlags_eq] at frame
    generalize finish b pf t = f at frame ⊢
    rw [frame, State.commitLoad_eq]
  noLoad h := by
    have pcsh : (finish b pf t).pcsh = t.commitLoad.pcsh := by rw [finish_eq, State.advanceFlags_eq]
    have idle : t.commitLoad = t := by simp only [State.commitLoad, h]
    rw [finish_regs, pcsh, idle]
    exact ⟨rfl, rfl⟩
  noIoLoad h := by
    rw [finish_emr, finish_pcw, finish_pcwLocked, finish_dauc]
    obtain ⟨-, idle⟩ | ⟨rD, v, -, load⟩ | ⟨io, n, d, ior, -⟩ := t.commitLoad_cases
    · rw [idle]
      exact ⟨rfl, rfl, rfl, rfl⟩
    · rw [load, State.commitFlags_eq, State.commitDest_eq]
      exact ⟨rfl, rfl, rfl, rfl⟩
    · exact absurd ior (h io n d)

/-- Settles O7: the sequencing is `finish_sequencing` with the cases of `seqNext`; the rest is the frame. -/
theorem branchTakesEffectAfterTheNextInstruction :
    Obligations.BranchTakesEffectAfterTheNextInstruction := by
  intro b pf t
  refine ⟨finish_inSlot_iff b pf t, finish_frame b pf t, fun resume => ?_⟩
  obtain ⟨pc, ir, -, goes⟩ := finish_sequencing b pf resume
  obtain ⟨loop, npc⟩ := Prod.mk.inj goes
  obtain ⟨kind, start, stop, passes⟩ := goesOn_keeps t.latch.target (countPass b t.loop) t.npc
  rw [loop, npc]
  refine ⟨pc, ir, kind.trans ?_, start.trans ?_, stop.trans ?_, passes.trans ?_, fun a target => ?taken,
    fun target => ?sequence⟩
  case taken =>
    rw [target, countPass_eq]
    exact ⟨rfl, rfl, rfl, rfl⟩
  case sequence =>
    have next := seqNext_cases (countPass b t.loop) t.npc
    rw [countPass_eq] at next
    rw [target, countPass_eq]
    exact next
  all_goals rw [countPass_eq]

end Sys2Proof.Machine
end

section
/-! SUPPORT. The checks before an instruction (R191, R207, R210, R327, R440 to R450), each in the words of its
restriction, the step they refuse, and the record that a finished instruction leaves. -/

namespace Sys2Proof.Machine

variable {s : State} {i : Instr}

/-! ### The words of an access (R444) -/

/-- The address of the aligned word, as a number. -/
theorem aligned_toNat (a : Word) : (a &&& 0xFFFFFFFC#32).toNat = a.toNat / 4 * 4 := by
  have mask : ∀ k < 32, (0xFFFFFFFC#32 : Word).getLsbD k = decide (2 ≤ k) := by decide
  have shifted : a &&& 0xFFFFFFFC#32 = (a >>> 2) <<< 2 := by
    apply BitVec.eq_of_getLsbD_eq
    intro k hk
    rw [BitVec.getLsbD_and, mask k hk, BitVec.getLsbD_shiftLeft, BitVec.getLsbD_ushiftRight]
    by_cases low : k < 2
    · simp [low, Nat.not_le.2 low]
    · have back : 2 + (k - 2) = k := by omega
      simp [low, Nat.not_lt.1 low, hk, back]
  have := a.isLt
  rw [shifted, BitVec.toNat_shiftLeft, BitVec.toNat_ushiftRight, Nat.shiftLeft_eq, Nat.shiftRight_eq_div_pow]
  omega

/-- Each of up to four bytes lies in one of the words of the access. -/
theorem mem_wordsOf (a : Word) {n j : Nat} (hj : j < n) (hn : n ≤ 4) :
    (a + BitVec.ofNat 32 j) &&& 0xFFFFFFFC#32 ∈ wordsOf a n := by
  have lies : (a + BitVec.ofNat 32 j) &&& 0xFFFFFFFC#32 = a &&& 0xFFFFFFFC#32 ∨
      (a + BitVec.ofNat 32 j) &&& 0xFFFFFFFC#32 = (a + BitVec.ofNat 32 (n - 1)) &&& 0xFFFFFFFC#32 := by
    have := a.isLt
    simp only [← BitVec.toNat_inj, aligned_toNat, BitVec.toNat_add, BitVec.toNat_ofNat]
    omega
  unfold wordsOf
  dsimp only
  split
  · next same => rw [← same, or_self] at lies; exact List.mem_singleton.2 lies
  · simpa using lies

/-- The sizes of the accesses of a DA instruction. -/
theorem daView_bytes {d : DaView} (h : daView i = some d) : d.yBytes ≤ 4 ∧ d.zBytes ≤ 4 := by
  cases i with
  | fmultAccStore | fmultAccTap | fmultAddStore | fmultStore | fmultTap | faddStore | faddTap | floadStore
  | fzeroAddStore | fconstTap | fconstStore | round | ifalt | ifaeq | ifagt | float32 | int32 | ieee | dsp
  | seed =>
    cases h
    exact ⟨Nat.le_refl 4, Nat.le_refl 4⟩
  | ic | float16 =>
    cases h
    exact ⟨Nat.le_of_ble_eq_true rfl, Nat.le_refl 4⟩
  | oc | int16 =>
    cases h
    exact ⟨Nat.le_refl 4, Nat.le_of_ble_eq_true rfl⟩
  | _ => cases h

theorem State.mem_zBytes {d : DaView} {p : Word × Nat} (h : p ∈ s.zBytes d) : p.2 = d.zBytes := by
  unfold State.zBytes at h
  split at h
  · cases h
  · split at h
    · split at h
      · cases h
      · rw [List.mem_singleton.1 h]
    · rw [List.mem_singleton.1 h]

theorem State.mem_operandBytes {o : DaOperand} {n : Nat} {p : Word × Nat} (h : p ∈ s.operandBytes o n) :
    p.2 = n := by
  cases o with
  | acc => cases h
  | mem m => rw [List.mem_singleton.1 h]

theorem widthBytes_le (w : Width) : widthBytes w ≤ 4 := by cases w <;> decide

/-- An access has at most four bytes. -/
theorem State.dataBytes_le {p : Word × Nat} (h : p ∈ s.dataBytes i) : p.2 ≤ 4 := by
  unfold State.dataBytes at h
  split at h
  · next d hd =>
    obtain ⟨y, z⟩ := daView_bytes hd
    rw [List.mem_append, List.mem_append] at h
    obtain (hx | hy) | hz := h
    · cases hx' : d.x with
      | none => rw [hx'] at hx; cases hx
      | some o =>
        rw [hx'] at hx
        exact (State.mem_operandBytes hx).le
    · exact (State.mem_operandBytes hy).trans_le y
    · exact (State.mem_zBytes hz).trans_le z
  · cases i with
    | loadDirect w | storeDirect w | loadMem w | storeMem w | loadIor w | storeIor w =>
      rw [List.mem_singleton.1 h]
      exact widthBytes_le w
    | _ => cases h

/-! ### The checks, each in the words of its restriction -/

/-- What a passed check says, restriction by restriction. -/
structure Allowed (s : State) (i : Instr) : Prop where
  zPointer : s.breaksRestriction1 i = false
  storeAfterY : s.breaksRestriction2 i = false
  words : s.breaksLatency1 i = false
  accumulators : s.breaksLatency2 i = false
  ioLoad : s.breaksIoLoad i = false
  pointers : breaksPointer i = false
  slot : (s.inSlot && isTransfer i) = false
  body : (s.inBody && isTransfer i) = false
  block : (s.inBody && s.loop.kind == .block && !isBlockMove i) = false

/-- A rule that is not reported is not broken. -/
theorem unbroken {b : Bool} {r : Refusal} {rest : Option Refusal} (h : (if b then some r else rest) = none) :
    b = false ∧ rest = none := by
  cases b with
  | false => exact ⟨rfl, h⟩
  | true => cases h

theorem State.allowed_of_check (h : s.check i = none) : Allowed s i := by
  unfold State.check at h
  obtain ⟨zPointer, h⟩ := unbroken h
  obtain ⟨storeAfterY, h⟩ := unbroken h
  obtain ⟨words, h⟩ := unbroken h
  obtain ⟨accumulators, h⟩ := unbroken h
  obtain ⟨ioLoad, h⟩ := unbroken h
  obtain ⟨pointers, h⟩ := unbroken h
  obtain ⟨slot, h⟩ := unbroken h
  obtain ⟨body, h⟩ := unbroken h
  obtain ⟨block, -⟩ := unbroken h
  exact ⟨zPointer, storeAfterY, words, accumulators, ioLoad, pointers, slot, body, block⟩

/-- Restriction 1 (R441). -/
theorem State.breaksRestriction1_of {h : Record} {r : Reg} (last : h ∈ s.history[0]?) (z : r ∈ h.zptr)
    (named : r ∈ namedRegs i) : s.breaksRestriction1 i = true := by
  have pointer : (s.hist 0).bind (·.zptr) = some r := by rw [State.hist, last]; exact z
  simp only [State.breaksRestriction1, pointer]
  exact List.contains_iff_mem.2 named

/-- Restriction 2 (R442). -/
theorem State.breaksRestriction2_of {h : Record} (last : h ∈ s.history[0]?) (da : h.isDA = true)
    (y : h.yIsMemory = true) (store : isStore i = true) : s.breaksRestriction2 i = true := by
  have record : s.hist 0 = some h := last
  simp only [State.breaksRestriction2, record, da, y, store, Bool.and_self]

/-- Latency 1 (R444). -/
theorem State.breaksLatency1_of {h : Record} {w : Word} (recent : h ∈ s.history) (written : w ∈ h.zwords)
    (touches : Touches s i w) : s.breaksLatency1 i = true := by
  obtain ⟨p, access, j, hj, rfl⟩ := touches
  have size : p.2 ≤ 4 := by
    obtain rfl | data := List.mem_cons.1 access
    · exact Nat.le_refl 4
    · exact State.dataBytes_le data
  exact List.any_eq_true.2 ⟨p, access, List.any_eq_true.2 ⟨_, mem_wordsOf p.1 hj size,
    List.contains_iff_mem.2 (List.mem_flatMap.2 ⟨h, recent, written⟩)⟩⟩

/-- Latency 2 (R445). -/
theorem State.breaksLatency2_of {k : Nat} {h : Record} {a : AccNo} (hk : k < 2) (recent : h ∈ s.history[k]?)
    (written : a ∈ h.acc) (input : a ∈ mulInputs i)
    (outside : ¬ ((s.loop.active = true ∨ s.loop.tail = true) ∧ s.loop.kind = .block)) :
    s.breaksLatency2 i = true := by
  have acc : (s.hist k).bind (·.acc) = some a := by rw [State.hist, recent]; exact written
  have free : (s.inBody && s.loop.kind == .block) = false :=
    Bool.eq_false_iff.2 (mt State.inBlock_iff.1 outside)
  simp only [State.breaksLatency2, free, Bool.not_false, Bool.true_and]
  refine List.any_eq_true.2 ⟨a, input, ?_⟩
  obtain rfl | rfl : k = 0 ∨ k = 1 := by omega
  · rw [acc, beq_self_eq_true, Bool.true_or]
  · rw [acc, beq_self_eq_true, Bool.or_true]

/-- What refers to an IO register (R449). -/
theorem State.references_of {io : IoReg} (refers : Refers s i io) : s.references i io = true := by
  unfold State.references
  obtain named | ⟨rfl, cond | sets | uses⟩ | ⟨rfl, da⟩ | ⟨rfl, data⟩ := refers
  · rw [named, beq_self_eq_true, Bool.true_or]
  · obtain ⟨c, hc, never, always⟩ := cond
    simp [testsFlags, hc, never, always]
  · simp [sets]
  · simp [uses]
  · simp [da]
  · simp [data]

/-- The IO register loaded by the instruction before (R449). -/
theorem State.breaksIoLoad_of {h : Record} {io : IoReg} (last : h ∈ s.history[0]?) (loaded : io ∈ h.ior)
    (refers : Refers s i io) : s.breaksIoLoad i = true := by
  have register : (s.hist 0).bind (·.ior) = some io := by rw [State.hist, last]; exact loaded
  simp only [State.breaksIoLoad, register]
  exact State.references_of refers

theorem daMems_eq (d : DaView) :
    daMems d = (memOperands (d.x.getD (.acc 0)) d.y d.z d.yBytes d.zBytes).map Prod.fst := by
  obtain ⟨x, y, z, yn, zn⟩ := d
  unfold daMems memOperands
  rw [List.map_append, List.map_append]
  refine congrArg₂ _ (congrArg₂ _ ?_ ?_) ?_
  · cases x with
    | none => rfl
    | some o => cases o <;> rfl
  · cases y <;> rfl
  · cases z <;> rfl

/-- Two operands with one pointer, one of which post-modifies (R327). -/
theorem samePointer_of {d : DaView}
    (shared : ¬ PointersApart (memOperands (d.x.getD (.acc 0)) d.y d.z d.yBytes d.zBytes)) :
    samePointer d = true := by
  have clash : ¬ (daMems d).Pairwise fun a b => a.p = b.p → a.i = .keep ∧ b.i = .keep := by
    rwa [daMems_eq, List.pairwise_map]
  rw [List.pairwise_iff_forall_sublist] at clash
  push Not at clash
  obtain ⟨a, b, sub, same, moves⟩ := clash
  have two : 1 < ((daMems d).filter (·.p == b.p)).length := by
    have kept : [a, b].filter (·.p == b.p) = [a, b] := by simp [same]
    have := (sub.filter (·.p == b.p)).length_le
    rwa [kept] at this
  have mem : a ∈ daMems d ∧ b ∈ daMems d :=
    ⟨sub.subset List.mem_cons_self, sub.subset (List.mem_cons_of_mem a List.mem_cons_self)⟩
  by_cases ha : a.i = .keep
  · exact List.any_eq_true.2 ⟨b, mem.2, by simp [moves ha, two]⟩
  · exact List.any_eq_true.2 ⟨a, mem.1, by simp [ha, same, two]⟩

theorem breaksPointer_of (shared : SharesPointer i) : breaksPointer i = true := by
  obtain ⟨d, hd, clash⟩ := shared
  simp only [breaksPointer, hd]
  exact samePointer_of clash

/-- A control transfer in a delay slot or in a loop body (R191, R207). -/
theorem Allowed.no_transfer (h : Allowed s i) (transfer : isTransfer i = true) :
    ¬ (s.inSlot = true ∨ s.loop.active = true ∨ s.loop.tail = true) := by
  have slot := h.slot
  have body := h.body
  simp only [transfer, Bool.and_true, State.inBody, Bool.or_eq_false_iff] at slot body
  simp [slot, body]

/-- In a doblock the body is a block move (R210). -/
theorem Allowed.blockMove (h : Allowed s i)
    (inBlock : (s.loop.active = true ∨ s.loop.tail = true) ∧ s.loop.kind = .block) :
    isBlockMove i = true := by
  have block := h.block
  rw [State.inBlock_iff.2 inBlock] at block
  simpa using block

/-! ### The refused step -/

/-- What does not pass the checks is refused (R450). -/
theorem State.execute_of_check {w : Word} (ir : s.ir = .word w) (hw : s.decoded w = .instr i)
    (h : ¬ Allowed s i) : ∃ r, s.execute = .refused r := by
  unfold State.execute
  split
  · exact ⟨_, rfl⟩
  · cases hc : s.check i with
    | none => exact absurd (State.allowed_of_check hc) h
    | some r => exact ⟨r, by simp only [ir, hw, hc]⟩

/-- After a quiet boundary a refused instruction refuses the step. -/
theorem step_of_refused {r : Refusal} (quiet : Quiet s) (h : (opened s).execute = .refused r) :
    step s = .refused r := by
  have still : (opened s).interleave = opened s := State.interleave_of_nil quiet.env
  have awake : (opened s).waiting = false := quiet.awake
  simp only [step, cycle, State.boundary_of_quiet quiet, awake, still, h, Bool.false_eq_true, if_false]

/-! ### The record (R450) -/

/-- The words that a DA instruction writes are those of its Z operand, where it is not skipped (R368,
R444). -/
theorem State.zBytes_of_mem {d : DaView} {m : DaMem} (hz : d.z = .mem m)
    (test : ∀ k, d.test = some k → s.ifSkipsZ k = false) : s.zBytes d = [(s.reg m.reg, d.zBytes)] := by
  simp only [State.zBytes, hz]
  cases ht : d.test with
  | none => rfl
  | some k => simp only [test k ht, Bool.false_eq_true, if_false]

/-- What is remembered of an instruction. -/
theorem State.recorded (s : State) (i : Instr) : Recorded s i (s.record i) where
  ca h := by
    unfold State.record
    rw [h]
    exact ⟨rfl, rfl, rfl, rfl⟩
  da d h := by
    unfold State.record
    rw [h]
    refine ⟨rfl, rfl, ?_, fun m hz => ⟨?_, fun test j hj => ?_⟩⟩
    · dsimp only
      cases d.y <;> simp
    · dsimp only
      rw [hz]
    · dsimp only
      rw [State.zBytes_of_mem hz test, List.flatMap_singleton]
      exact mem_wordsOf _ hj (daView_bytes h).2
  ior := by cases i <;> rfl

theorem State.irRecord_of {w : Word} (ir : s.ir = .word w) (hw : s.decoded w = .instr i) :
    s.irRecord = s.record i := by
  simp only [State.irRecord, State.irInstr_eq_some.2 ⟨w, ir, hw⟩]

/-! ### The statement -/

/-- Settles O30: a passed check excludes each broken restriction in turn; the record is that of
`State.recorded`, before the two that stay. -/
theorem brokenRestrictionsStopTheStep : Obligations.BrokenRestrictionsStopTheStep := by
  refine ⟨fun s i w quiet ir hw broken => ?stops, fun b pf t w i ir hw resume => ?records⟩
  case stops =>
    have refused : ¬ Allowed (opened s) i := by
      intro passed
      obtain ⟨h, last, r, z, named⟩ | ⟨h, last, da, y, store⟩ | ⟨h, recent, a, written, touches⟩ |
        ⟨k, hk, h, recent, a, written, input, outside⟩ | ⟨h, last, io, loaded, refers⟩ | shared |
        ⟨transfer, inside⟩ | ⟨active, kind, other⟩ := broken
      · exact ne_true_of_eq_false passed.zPointer (State.breaksRestriction1_of last z named)
      · exact ne_true_of_eq_false passed.storeAfterY (State.breaksRestriction2_of last da y store)
      · exact ne_true_of_eq_false passed.words (State.breaksLatency1_of recent written touches)
      · exact ne_true_of_eq_false passed.accumulators
          (State.breaksLatency2_of hk recent written input outside)
      · exact ne_true_of_eq_false passed.ioLoad (State.breaksIoLoad_of last loaded refers)
      · exact ne_true_of_eq_false passed.pointers (breaksPointer_of shared)
      · exact passed.no_transfer transfer inside
      · exact ne_true_of_eq_false other (passed.blockMove ⟨active, kind⟩)
    obtain ⟨r, hr⟩ := State.execute_of_check (s := opened s) ir hw refused
    exact ⟨r, step_of_refused quiet hr⟩
  case records =>
    obtain ⟨-, -, history, -⟩ := finish_sequencing b pf resume
    exact ⟨_, b.recorded i, by rw [history, State.irRecord_of ir hw]⟩

end Sys2Proof.Machine
end

section
/-! SUPPORT. Arithmetic and logic at the size of the instruction: the write of a result (R230), an operation
on the low w bits (R231, R232), and the sums and differences as numbers (R240 to R245, R260, R261, R281). -/

namespace Sys2Proof

/-! ### The low w bits (R231) -/

/-- The low w bits of a register, the operand of an operation at that size. -/
def Size.low (sz : Size) (v : Word) : BitVec sz.bits := v.setWidth sz.bits

theorem Size.low_toNat (sz : Size) (v : Word) : (sz.low v).toNat = sz.unsigned v := BitVec.toNat_setWidth _ _

theorem Size.low_toInt (sz : Size) (v : Word) : (sz.low v).toInt = sz.signed v := by
  rw [BitVec.toInt_eq_toNat_bmod, sz.low_toNat, Size.unsigned, Int.natCast_emod, Int.emod_bmod]
  rfl

/-- Below w the bits are those of the register. -/
theorem Size.low_getLsbD (sz : Size) (v : Word) {i : Nat} (h : i < sz.bits) :
    (sz.low v).getLsbD i = v.getLsbD i := by
  rw [Size.low, BitVec.getLsbD_setWidth, decide_eq_true h, Bool.true_and]

theorem Size.bits_le (sz : Size) : sz.bits ≤ 32 := by cases sz <;> decide

theorem Size.bits_pos (sz : Size) : 0 < sz.bits := by cases sz <;> decide

namespace Machine

variable {s : State}

/-! ### The write of a result (R230, R233) -/

theorem conditionally_of_true {c : Cond} (h : s.cond c = true) (t : State) : conditionally c s t = .next t :=
  if_pos h

/-- A result goes to rD and the CAU flags, and nowhere else. -/
theorem writes_putResult (s : State) (rD : Reg) (r : Word × CauFlags) :
    Writes s (.next (s.putResult rD r)) rD r.1 r.2 := by
  obtain ⟨value, others, -⟩ := setReg_set s rD r.1
  exact ⟨s.putResult rD r, rfl, value, State.cau_setCau _ _, fun q hq => others q (List.mem_singleton.not.1 hq),
    withCau_high _ _, fun a => SameMap.readByte ⟨rfl, rfl, rfl⟩ rfl a, rfl⟩

theorem writes_of_eq {rD : Reg} {r : Word × CauFlags} {v : Word} {f : CauFlags} (h : r = (v, f)) :
    Writes s (.next (s.putResult rD r)) rD v f := by
  subst h
  exact writes_putResult s rD (v, f)

/-- A conditional instruction whose condition holds writes its result. -/
theorem writes_conditionally {c : Cond} (hc : s.cond c = true) {rD : Reg} {r : Word × CauFlags} {v : Word}
    {f : CauFlags} (h : r = (v, f)) : Writes s (conditionally c s (s.putResult rD r)) rD v f := by
  rw [conditionally_of_true hc]
  exact writes_of_eq h

/-! ### A result of w bits in a register (R232) -/

/-- The register that holds a w-bit result: sign-extended or zero-filled (R232). -/
def fill (x : Extend) {w : Nat} (r : BitVec w) : Word :=
  match x with
  | .sign => r.signExtend 32
  | .zero => r.setWidth 32

@[simp] theorem fill_sign {w : Nat} (r : BitVec w) : fill .sign r = BitVec.ofInt 32 r.toInt := rfl

@[simp] theorem fill_zero {w : Nat} (r : BitVec w) : fill .zero r = BitVec.ofNat 32 r.toNat :=
  (BitVec.ofNat_toNat 32 r).symm

/-- An operation that is one function `f` of every width, applied to the low w bits. -/
theorem sized_eq (sz : Size) (x : Extend) (f : ∀ w, BitVec w → BitVec w → AluResult w) (a b : Word) :
    sized sz x (f 32) (f 16) a b =
      (fill x (f sz.bits (sz.low a) (sz.low b)).value, (f sz.bits (sz.low a) (sz.low b)).flags) := by
  cases sz with
  | short => cases x <;> rfl
  | long =>
    have low : ∀ v : Word, Size.long.low v = v := fun v => v.setWidth_eq
    have full : ∀ v : Word, fill x v = v := fun v => by
      cases x with
      | sign => exact v.signExtend_eq
      | zero => exact v.setWidth_eq
    rw [low, low]
    exact Prod.ext (full _).symm rfl

/-! ### Sums and differences as numbers (R231) -/

/-- A sum leaves the signed range exactly where wrapping changes it. -/
theorem saddOverflow_iff {w : Nat} (a b : BitVec w) :
    a.saddOverflow b = true ↔ (a.toInt + b.toInt).bmod (2 ^ w) ≠ a.toInt + b.toInt := by
  constructor
  · intro outside same
    have low := (a + b).le_toInt
    have high := (a + b).toInt_lt
    rw [BitVec.toInt_add, same] at low high
    simp only [BitVec.saddOverflow, Bool.or_eq_true, decide_eq_true_eq] at outside
    omega
  · intro wraps
    by_contra h
    exact wraps ((BitVec.toInt_add a b).symm.trans (BitVec.toInt_add_of_not_saddOverflow h))

theorem flagsAdd_value {w : Nat} (a b : BitVec w) : (flagsAdd a b false).value = a + b := BitVec.add_zero _

/-- A word is zero where it is as a signed number. -/
theorem beq_zero_toInt {w : Nat} (r : BitVec w) : (r == 0#w) = decide (r.toInt = 0) := by
  rw [Bool.eq_iff_iff, beq_iff_eq, decide_eq_true_eq, ← BitVec.toInt_inj, BitVec.toInt_zero]

/-- A word is zero where it is as an unsigned number. -/
theorem beq_zero_toNat {w : Nat} (r : BitVec w) : (r == 0#w) = decide (r.toNat = 0) := by
  rw [Bool.eq_iff_iff, beq_iff_eq, decide_eq_true_eq, BitVec.toNat_eq, BitVec.toNat_zero]

/-- The flags of a + b in terms of the numbers that a and b are. -/
theorem flagsAdd_flags {w : Nat} (a b : BitVec w) :
    (flagsAdd a b false).flags
      = flagsOfNumber (2 ^ w) (a.toInt + b.toInt) (decide (2 ^ w ≤ a.toNat + b.toNat)) := by
  have negative : (a + b).msb = decide ((a.toInt + b.toInt).bmod (2 ^ w) < 0) := by
    rw [BitVec.msb_eq_toInt, BitVec.toInt_add]
  have zero : (a + b == 0#w) = decide ((a.toInt + b.toInt).bmod (2 ^ w) = 0) := by
    rw [beq_zero_toInt, BitVec.toInt_add]
  have overflow : (a.msb == b.msb && (a + b).msb != a.msb)
      = decide ((a.toInt + b.toInt).bmod (2 ^ w) ≠ a.toInt + b.toInt) := by
    rw [Bool.eq_iff_iff, decide_eq_true_eq, ← saddOverflow_iff, BitVec.saddOverflow_eq]
    rfl
  rw [flagsOfNumber, ← negative, ← zero, ← overflow, ← flagsAdd_value]
  rfl

/-- The addition at either size (R240). -/
theorem aluAdd_eq (sz : Size) (a b : Word) :
    aluAdd sz a b = (sz.word (sz.signed a + sz.signed b), sumFlags sz a b) := by
  refine (sized_eq sz .sign (fun _ a b => flagsAdd a b false) a b).trans (Prod.ext ?value ?flags)
  case value =>
    rw [fill_sign, flagsAdd_value, BitVec.toInt_add, sz.low_toInt, sz.low_toInt]
    rfl
  case flags =>
    rw [flagsAdd_flags, sz.low_toInt, sz.low_toInt, sz.low_toNat, sz.low_toNat]
    rfl

/-- The subtraction at either size (R242). -/
theorem aluSub_eq (sz : Size) (a b : Word) :
    aluSub sz a b = (sz.word (sz.signed a - sz.signed b), diffFlags sz a b) := by
  refine Prod.ext ?value (aluSub_flags sz a b)
  case value =>
    refine (congrArg Prod.fst (sized_eq sz .sign (fun _ => flagsSub) a b)).trans ?_
    rw [fill_sign, flagsSub, BitVec.toInt_sub, sz.low_toInt, sz.low_toInt]
    rfl

/-! ### The statements -/

/-- The constant of an increment beside a register other than sp (R142). -/
theorem constOperand_of_ne_sp {rS : Reg} (h : rS ≠ 21) (dec : Bool) :
    constOperand rS dec = BitVec.ofInt 32 (if dec then -1 else 1) := by
  rw [constOperand, if_neg (show rS ≠ Reg.sp from h)]
  cases dec <;> decide

/-- The constant of an increment of sp (R262). -/
theorem constOperand_sp (dec : Bool) : constOperand Reg.sp dec = BitVec.ofInt 32 (if dec then -4 else 4) := by
  cases dec <;> decide

/-- Settles O33: every form puts `aluAdd` of its operands in rD. -/
theorem additionsGiveTheSum : Obligations.AdditionsGiveTheSum := by
  intro s sz rD
  refine ⟨fun rS3 n => ?_, fun n => writes_of_eq (aluAdd_eq .short _ _), fun c hc =>
    ⟨fun rS1 rS2 => writes_conditionally hc (aluAdd_eq sz _ _), fun rS dec hS => ?_, fun dec => ?_⟩⟩
  · rw [← s.sourceValue_eq]
    exact writes_of_eq (aluAdd_eq sz _ _)
  · rw [← constOperand_of_ne_sp hS]
    exact writes_conditionally hc (aluAdd_eq sz _ _)
  · rw [← constOperand_sp]
    exact writes_conditionally (s := s.holdInterrupts) hc (aluAdd_eq .long _ _)

/-- Settles O34: every form puts `aluSub` of its operands in rD. -/
theorem subtractionsGiveTheDifference : Obligations.SubtractionsGiveTheDifference := fun _ sz _ =>
  ⟨fun _ => writes_of_eq (aluSub_eq sz _ _), fun _ => writes_of_eq (aluSub_eq sz _ _), fun _ hc =>
    ⟨fun _ _ => writes_conditionally hc (aluSub_eq sz _ _),
      fun _ => writes_conditionally hc (aluSub_eq sz 0#32 _)⟩⟩

end Machine
end Sys2Proof
end

section
/-! SUPPORT. Logic and shifts: the bits of a w-bit result (R247 to R251), the shifts as multiplication and
division (R252 to R255, R262), and the wide constants (R258, R282). -/

namespace Sys2Proof.Machine

variable {s : State} {sz : Size} {f : Bool → Bool → Bool} {a b : Word}

/-! ### The flags nz00 (R231) -/

/-- The flags nz00 are those of the register that the sign-extended result leaves. -/
theorem flagsLogic_flags (sz : Size) (r : BitVec sz.bits) :
    (flagsLogic r).flags = cauOfValue (r.signExtend 32) := by
  have value := BitVec.toInt_signExtend_of_le (x := r) sz.bits_le
  have negative : r.msb = (r.signExtend 32).msb := by rw [BitVec.msb_eq_toInt, BitVec.msb_eq_toInt, value]
  have zero : (r == 0#sz.bits) = (r.signExtend 32 == 0#32) := by
    rw [beq_zero_toInt, beq_zero_toInt, value]
  rw [cauOfValue, ← negative, ← zero]
  rfl

/-- The flags nz00 of a w-bit result as an unsigned number. -/
theorem flagsLogic_flags_toNat {w : Nat} (r : BitVec w) :
    (flagsLogic r).flags = ⟨decide (2 ^ (w - 1) ≤ r.toNat), decide (r.toNat = 0), false, false⟩ := by
  rw [← BitVec.msb_eq_decide, ← beq_zero_toNat]
  rfl

/-- The flags nz00 of a w-bit result as a signed number. -/
theorem flagsLogic_flags_toInt {w : Nat} (r : BitVec w) :
    (flagsLogic r).flags = ⟨decide (r.toInt < 0), decide (r.toInt = 0), false, false⟩ := by
  rw [← BitVec.msb_eq_toInt, ← beq_zero_toInt]
  rfl

/-! ### Bit by bit (R247 to R251) -/

/-- The result is the bit-by-bit `f` of the operands, with the flags nz00. -/
def BitwiseResult (sz : Size) (f : Bool → Bool → Bool) (a b : Word) (r : Word × CauFlags) : Prop :=
  Bitwise sz f a b r.1 ∧ r.2 = cauOfValue r.1

/-- Sign extension of a w-bit result that is `f` in each of its bits. -/
theorem bitwise_signExtend {r : BitVec sz.bits}
    (h : ∀ i, i < sz.bits → r.getLsbD i = f (a.getLsbD i) (b.getLsbD i)) :
    Bitwise sz f a b (r.signExtend 32) := by
  intro i hi
  have pos := sz.bits_pos
  rw [BitVec.getLsbD_signExtend, decide_eq_true hi, Bool.true_and]
  split
  · next inside => rw [Nat.min_eq_left (by omega), h i inside]
  · next outside =>
    rw [Nat.min_eq_right (by omega), BitVec.msb_eq_getLsbD_last]
    exact h _ (by omega)

/-- An operation that is `f` in each bit, at every width. -/
theorem sized_bitwise (op : ∀ w, BitVec w → BitVec w → BitVec w)
    (hop : ∀ w (x y : BitVec w) i, i < w → (op w x y).getLsbD i = f (x.getLsbD i) (y.getLsbD i))
    (sz : Size) (a b : Word) :
    BitwiseResult sz f a b
      (sized sz .sign (fun x y => flagsLogic (op 32 x y)) (fun x y => flagsLogic (op 16 x y)) a b) := by
  rw [sized_eq sz .sign (fun w x y => flagsLogic (op w x y))]
  refine ⟨bitwise_signExtend fun i hi => ?_, flagsLogic_flags sz _⟩
  rw [flagsLogic, hop _ _ _ i hi, sz.low_getLsbD a hi, sz.low_getLsbD b hi]

theorem aluAnd_bitwise (sz : Size) (a b : Word) : BitwiseResult sz (· && ·) a b (aluAnd sz a b) :=
  sized_bitwise (fun _ x y => x &&& y) (fun _ _ _ _ _ => BitVec.getLsbD_and) sz a b

theorem aluAndc_bitwise (sz : Size) (a b : Word) :
    BitwiseResult sz (fun x y => x && !y) a b (aluAndc sz a b) :=
  sized_bitwise (fun _ x y => x &&& ~~~y)
    (fun _ _ _ _ hi => by rw [BitVec.getLsbD_and, BitVec.getLsbD_not, decide_eq_true hi, Bool.true_and]) sz a b

theorem aluOr_bitwise (sz : Size) (a b : Word) : BitwiseResult sz (· || ·) a b (aluOr sz a b) :=
  sized_bitwise (fun _ x y => x ||| y) (fun _ _ _ _ _ => BitVec.getLsbD_or) sz a b

theorem aluXor_bitwise (sz : Size) (a b : Word) : BitwiseResult sz Bool.xor a b (aluXor sz a b) :=
  sized_bitwise (fun _ x y => x ^^^ y) (fun _ _ _ _ _ => BitVec.getLsbD_xor) sz a b

namespace BitwiseResult

variable {r : Word × CauFlags}

theorem logics (h : BitwiseResult sz f a b r) (s : State) (rD : Reg) :
    Logics s (.next (s.putResult rD r)) sz f rD a b :=
  ⟨r.1, h.1, writes_of_eq (Prod.ext rfl h.2)⟩

theorem logics_conditionally (h : BitwiseResult sz f a b r) {c : Cond} (hc : s.cond c = true) (rD : Reg) :
    Logics s (conditionally c s (s.putResult rD r)) sz f rD a b := by
  rw [conditionally_of_true hc]
  exact h.logics s rD

/-- A bit test writes the flags only (R248). -/
theorem tests (h : BitwiseResult sz f a b r) (s : State) :
    ∃ v, Bitwise sz f a b v ∧
      SetsFlags s (.next (s.setCau r.2)) ⟨v.getLsbD 31, v = 0#32, false, false⟩ := by
  refine ⟨r.1, h.1, ?_⟩
  rw [h.2]
  exact setsFlags_setCau s _

theorem tests_conditionally (h : BitwiseResult sz f a b r) {c : Cond} (hc : s.cond c = true) :
    ∃ v, Bitwise sz f a b v ∧
      SetsFlags s (conditionally c s (s.setCau r.2)) ⟨v.getLsbD 31, v = 0#32, false, false⟩ := by
  rw [conditionally_of_true hc]
  exact h.tests s

end BitwiseResult

/-- Settles O36: each operation is its function in each bit, at either size. -/
theorem logicWorksBitByBit : Obligations.LogicWorksBitByBit := fun s sz rD =>
  ⟨fun n => ⟨(aluAnd_bitwise sz _ _).logics s rD, (aluOr_bitwise sz _ _).logics s rD,
      (aluXor_bitwise sz _ _).logics s rD, (aluAnd_bitwise sz (s.reg rD) (sext16 n)).tests s⟩,
    fun _ hc rS1 rS2 => ⟨(aluAnd_bitwise sz _ _).logics_conditionally hc rD,
      (aluAndc_bitwise sz _ _).logics_conditionally hc rD, (aluOr_bitwise sz _ _).logics_conditionally hc rD,
      (aluXor_bitwise sz _ _).logics_conditionally hc rD,
      (aluAnd_bitwise sz (s.reg rS1) (s.reg rS2)).tests_conditionally hc⟩⟩

/-! ### The shift count (R252, R255) -/

/-- The count is the low five bits. -/
theorem shiftCount_eq (b : Word) : shiftCount b = b.toNat % 32 := by
  rw [shiftCount, BitVec.extractLsb'_toNat, Nat.shiftRight_zero]

theorem shiftCount_sext16 (n : Half) : shiftCount (sext16 n) = n.toNat % 32 := by
  have low : (sext16 n).setWidth 5 = n.setWidth 5 := by
    apply BitVec.eq_of_getLsbD_eq
    intro i hi
    rw [BitVec.getLsbD_setWidth, BitVec.getLsbD_setWidth, sext16, BitVec.getLsbD_signExtend,
      decide_eq_true (show i < 32 by omega), Bool.true_and, if_pos (show i < 16 by omega)]
  have count := congrArg BitVec.toNat low
  rw [BitVec.toNat_setWidth, BitVec.toNat_setWidth] at count
  exact (shiftCount_eq _).trans count

/-- A shift by one shifts by 4 beside sp (R262). -/
theorem shiftCount_constOperand (rS : Reg) : shiftCount (constOperand rS false) = if rS = 21 then 4 else 1 := by
  rw [constOperand, if_neg Bool.false_ne_true, apply_ite shiftCount]
  rfl

/-! ### The shifts (R252 to R254) -/

section
variable {k : Nat} (hk : shiftCount b = k)
include hk

/-- The left shift at either size. -/
theorem aluShl_eq (sz : Size) (a : Word) :
    let r := sz.unsigned a * 2 ^ k % 2 ^ sz.bits
    aluShl sz a b = (BitVec.ofNat 32 r, ⟨2 ^ (sz.bits - 1) ≤ r, r = 0, false, false⟩) := by
  have product : (sz.low a <<< k).toNat = sz.unsigned a * 2 ^ k % 2 ^ sz.bits := by
    rw [BitVec.toNat_shiftLeft, Nat.shiftLeft_eq, sz.low_toNat]
  subst hk
  refine (sized_eq sz .zero (fun _ x _ => flagsShl x (shiftCount b)) a b).trans ?_
  rw [fill_zero, flagsShl, flagsLogic_flags_toNat, flagsLogic, product]

/-- The logical right shift at either size. -/
theorem aluShr_eq (sz : Size) (a : Word) :
    let r := sz.unsigned a / 2 ^ k
    aluShr sz a b = (BitVec.ofNat 32 r, ⟨2 ^ (sz.bits - 1) ≤ r, r = 0, false, false⟩) := by
  have quotient : (sz.low a >>> k).toNat = sz.unsigned a / 2 ^ k := by
    rw [BitVec.toNat_ushiftRight, Nat.shiftRight_eq_div_pow, sz.low_toNat]
  subst hk
  refine (sized_eq sz .zero (fun _ x _ => flagsShr x (shiftCount b)) a b).trans ?_
  rw [fill_zero, flagsShr, flagsLogic_flags_toNat, flagsLogic, quotient]

/-- The arithmetic right shift at either size. -/
theorem aluSar_eq (sz : Size) (a : Word) :
    let r := sz.signed a / 2 ^ k
    aluSar sz a b = (BitVec.ofInt 32 r, ⟨r < 0, r = 0, false, false⟩) := by
  have quotient : ((sz.low a).sshiftRight k).toInt = sz.signed a / 2 ^ k := by
    rw [BitVec.toInt_sshiftRight, Int.shiftRight_eq_div_pow, sz.low_toInt]
    norm_cast
  subst hk
  refine (sized_eq sz .sign (fun _ x _ => flagsSar x (shiftCount b)) a b).trans ?_
  rw [fill_sign, flagsSar, flagsLogic_flags_toInt, flagsLogic, quotient]

end

/-- Settles O37: the three shifts by the three forms of the count. -/
theorem shiftsMultiplyAndDivide : Obligations.ShiftsMultiplyAndDivide := by
  intro s sz rD
  refine ⟨fun n => ?immediate, fun c hc => ⟨fun rS1 rS2 => ?register, fun rS => ?one⟩⟩
  case immediate =>
    have count := shiftCount_sext16 n
    exact ⟨writes_of_eq (aluShl_eq count sz _), writes_of_eq (aluShr_eq count sz _),
      writes_of_eq (aluSar_eq count sz _)⟩
  case register =>
    have count := shiftCount_eq (s.reg rS2)
    exact ⟨writes_conditionally hc (aluShl_eq count sz _), writes_conditionally hc (aluShr_eq count sz _),
      writes_conditionally hc (aluSar_eq count sz _)⟩
  case one =>
    have count := shiftCount_constOperand rS
    exact ⟨writes_conditionally hc (aluShl_eq count sz _), writes_conditionally hc (aluShr_eq count sz _),
      writes_conditionally hc (aluSar_eq count sz _)⟩

/-! ### Wide constants (R258, R282) -/

/-- The two halves of rS OR (N << 16). -/
theorem getLsbD_shiftOr (v : Word) (n : Half) {j : Nat} (hj : j < 16) :
    (v ||| n.setWidth 32 <<< 16).getLsbD j = v.getLsbD j ∧
    (v ||| n.setWidth 32 <<< 16).getLsbD (16 + j) = (v.getLsbD (16 + j) || n.getLsbD j) := by
  have low : (n.setWidth 32 <<< 16).getLsbD j = false := by
    rw [BitVec.getLsbD_shiftLeft, decide_eq_true hj, Bool.not_true, Bool.and_false, Bool.false_and]
  have high : (n.setWidth 32 <<< 16).getLsbD (16 + j) = n.getLsbD j := by
    rw [BitVec.getLsbD_shiftLeft, BitVec.getLsbD_setWidth, decide_eq_true (show 16 + j < 32 by omega),
      decide_eq_false (show ¬ 16 + j < 16 by omega), Nat.add_sub_cancel_left,
      decide_eq_true (show j < 32 by omega)]
    rfl
  rw [BitVec.getLsbD_or, BitVec.getLsbD_or, low, high, Bool.or_false]
  exact ⟨rfl, rfl⟩

/-- Settles O40: SET24 is the write of one register, SHIFT-OR that of a result. -/
theorem wideConstantsFillTheRegister : Obligations.WideConstantsFillTheRegister := by
  intro s rD
  refine ⟨fun m => ?set24, fun rS n =>
    ⟨_, fun j hj => getLsbD_shiftOr (s.reg rS) n hj, writes_putResult s rD _⟩⟩
  case set24 =>
    obtain ⟨value, others, -⟩ := setReg_set s rD (zext24 m)
    rw [← zext24_eq]
    exact ⟨_, rfl, value, fun q hq => others q (List.mem_singleton.not.1 hq),
      fun a => SameMap.readByte ⟨rfl, rfl, rfl⟩ rfl a, rfl⟩

end Sys2Proof.Machine
end

section
/-! SUPPORT. The rotates through the carry (R256, R257) and the carry-reverse addition (R246) as numbers. -/

namespace Sys2Proof.Machine

/-- The register, n and z of a w-bit result whose bits are those of the unsigned number `x`. -/
theorem result_of_toNat {sz : Size} {r : BitVec sz.bits} {x : ℤ} (h : (r.toNat : ℤ) = x) :
    fill .sign r = sz.word x ∧ r.msb = decide (sz.wrap x < 0) ∧ (r == 0#sz.bits) = decide (x = 0) := by
  have wrapped : r.toInt = sz.wrap x := by
    rw [BitVec.toInt_eq_toNat_bmod, h]
    rfl
  refine ⟨by rw [fill_sign, wrapped]; rfl, by rw [BitVec.msb_eq_toInt, wrapped], ?_⟩
  rw [beq_zero_toNat, ← h, decide_eq_decide, Int.natCast_eq_zero]

/-! ### Rotates (R256, R257) -/

/-- Rotating right halves the number and puts the carry at the top. -/
theorem flagsRor_toNat {w : Nat} (hw : 0 < w) (a : BitVec w) (c : Bool) :
    (flagsRor a c).value.toNat = a.toNat / 2 + c.toNat * 2 ^ (w - 1) := by
  obtain ⟨n, rfl⟩ : ∃ n, w = n + 1 := ⟨w - 1, by omega⟩
  have inside : a.toNat >>> 1 < 2 ^ n := by
    have := a.isLt
    rw [Nat.shiftRight_one]
    omega
  have carry : (BitVec.ofNat (n + 1) c.toNat <<< n).toNat = c.toNat <<< n := by
    have bit := c.toNat_lt
    have small : c.toNat < 2 ^ (n + 1) := bit.trans_le (Nat.pow_le_pow_right two_pos (Nat.le_add_left 1 n))
    have top : c.toNat * 2 ^ n < 2 ^ (n + 1) := by
      rw [Nat.pow_succ']
      exact Nat.mul_lt_mul_of_pos_right bit (Nat.two_pow_pos n)
    rw [BitVec.toNat_shiftLeft, BitVec.toNat_ofNat, Nat.mod_eq_of_lt small, Nat.shiftLeft_eq,
      Nat.mod_eq_of_lt top]
  rw [flagsRor, BitVec.toNat_or, BitVec.toNat_ushiftRight, Nat.add_sub_cancel, carry, Nat.or_comm,
    ← Nat.shiftLeft_add_eq_or_of_lt inside, Nat.shiftLeft_eq, Nat.shiftRight_one, Nat.add_comm]

/-- Rotating left doubles the number modulo 2^w and puts the carry at bit 0. -/
theorem flagsRol_toNat {w : Nat} (a : BitVec w) (c : Bool) :
    (flagsRol a c).value.toNat = (2 * a.toNat + c.toNat) % 2 ^ w := by
  rw [flagsRol, BitVec.toNat_or, BitVec.toNat_shiftLeft, BitVec.toNat_ofNat, ← Nat.or_mod_two_pow,
    ← Nat.shiftLeft_add_eq_or_of_lt (show c.toNat < 2 ^ 1 from c.toNat_lt), Nat.shiftLeft_eq, pow_one,
    Nat.mul_comm]

/-- Doubling with a carry in changes the sign exactly where it leaves the signed range. -/
theorem double_overflows (sz : Size) (v : Word) (c : Bool) :
    (2 ^ sz.bits ≤ 2 * ((2 * sz.unsigned v + c.toNat) % 2 ^ sz.bits) ↔ 2 ^ sz.bits ≤ 2 * sz.unsigned v) ↔
      sz.wrap (2 * sz.signed v + c.toNat) = 2 * sz.signed v + c.toNat := by
  have range := unsigned_lt sz v
  have carry := c.toNat_lt
  have sign := signed_cases sz v
  cases sz <;> simp only [Size.wrap, Size.bits, Int.bmod_def] at * <;> split <;> omega

/-- The rotate right at either size. -/
theorem aluRor_eq (sz : Size) (c : Bool) (a : Word) :
    let r : ℤ := sz.unsigned a / 2 + c.toNat * 2 ^ (sz.bits - 1)
    aluRor sz c a = (sz.word r, ⟨sz.wrap r < 0, r = 0, false, sz.unsigned a % 2 = 1⟩) := by
  intro r
  have number : ((flagsRor (sz.low a) c).value.toNat : ℤ) = r := by
    rw [flagsRor_toNat sz.bits_pos, sz.low_toNat]
    push_cast
    rfl
  have out : (sz.low a).getLsbD 0 = decide (sz.unsigned a % 2 = 1) := by
    rw [← sz.low_toNat, BitVec.getLsbD, Nat.testBit_zero]
  obtain ⟨value, negative, zero⟩ := result_of_toNat number
  refine (sized_eq sz .sign (fun _ x _ => flagsRor x c) a a).trans (Prod.ext value ?_)
  rw [← negative, ← zero, ← out]
  rfl

/-- The rotate left at either size. -/
theorem aluRol_eq (sz : Size) (c : Bool) (a : Word) :
    let r : ℤ := (2 * sz.unsigned a + c.toNat) % 2 ^ sz.bits
    let x : ℤ := 2 * sz.signed a + c.toNat
    aluRol sz c a =
      (sz.word r, ⟨sz.wrap r < 0, r = 0, sz.wrap x ≠ x, 2 ^ sz.bits ≤ 2 * sz.unsigned a⟩) := by
  intro r x
  have number := flagsRol_toNat (sz.low a) c
  rw [sz.low_toNat] at number
  have out : (sz.low a).msb = decide (2 ^ sz.bits ≤ 2 * sz.unsigned a) := by
    rw [Bool.eq_iff_iff, BitVec.msb_eq_true_iff_two_mul_ge, sz.low_toNat, decide_eq_true_eq]
  have overflow : ((flagsRol (sz.low a) c).value.msb != (sz.low a).msb) = decide (sz.wrap x ≠ x) := by
    rw [Bool.eq_iff_iff, bne_iff_ne, decide_eq_true_eq, not_iff_not, Bool.eq_iff_iff,
      BitVec.msb_eq_true_iff_two_mul_ge, BitVec.msb_eq_true_iff_two_mul_ge, number, sz.low_toNat]
    exact double_overflows sz a c
  obtain ⟨value, negative, zero⟩ :=
    result_of_toNat (x := r) ((congrArg Nat.cast number).trans (by push_cast; rfl))
  refine (sized_eq sz .sign (fun _ x _ => flagsRol x c) a a).trans (Prod.ext value ?_)
  rw [← negative, ← zero, ← overflow, ← out]
  rfl

/-- Settles O38: the carry in is c of the state before, and rS2 is not read. -/
theorem rotatesPassThroughTheCarry : Obligations.RotatesPassThroughTheCarry := fun s sz _ _ rS _ hc =>
  ⟨writes_conditionally hc (aluRor_eq sz s.cau.c (s.reg rS)),
    writes_conditionally hc (aluRol_eq sz s.cau.c (s.reg rS))⟩

/-! ### The carry-reverse addition (R246) -/

theorem getLsbD_revBits {w : Nat} (x : BitVec w) (i : Nat) :
    (revBits x).getLsbD i = (decide (i < w) && x.getLsbD (w - 1 - i)) := getLsbD_bitsOf w _ i

theorem revBits_revBits {w : Nat} (x : BitVec w) : revBits (revBits x) = x := by
  apply BitVec.eq_of_getLsbD_eq
  intro i hi
  rw [getLsbD_revBits, getLsbD_revBits, decide_eq_true hi, decide_eq_true (show w - 1 - i < w by omega),
    Bool.true_and, Bool.true_and, show w - 1 - (w - 1 - i) = i by omega]

/-- The low w bits of a number are the sum of their powers of two. -/
theorem sum_testBit_eq_mod (w x : Nat) :
    ((List.range w).map fun i => if x.testBit i then 2 ^ i else 0).sum = x % 2 ^ w := by
  induction w with
  | zero => rw [pow_zero, Nat.mod_one]; rfl
  | succ n ih =>
    rw [List.range_succ, List.map_append, List.sum_append, ih, Nat.mod_pow_succ, ← Nat.toNat_testBit]
    cases h : x.testBit n <;> simp [h]

/-- The bits in the opposite order, as numbers. -/
theorem revBits_toNat {w : Nat} (x : BitVec w) : (revBits x).toNat = mirror w x.toNat := by
  have bits : ∀ i ∈ List.range w, (if x.toNat.testBit (w - 1 - i) then 2 ^ i else 0)
      = if (revBits x).toNat.testBit i then 2 ^ i else 0 := by
    intro i hi
    have bit : (revBits x).toNat.testBit i = x.toNat.testBit (w - 1 - i) := by
      have := getLsbD_revBits x i
      rwa [decide_eq_true (List.mem_range.1 hi), Bool.true_and] at this
    rw [bit]
  rw [mirror, List.map_congr_left bits, sum_testBit_eq_mod, Nat.mod_eq_of_lt (revBits x).isLt]

/-- The low w bits of a sign-extended w-bit result. -/
theorem low_signExtend (sz : Size) (r : BitVec sz.bits) : sz.low (r.signExtend 32) = r := by
  apply BitVec.eq_of_getLsbD_eq
  intro i hi
  rw [sz.low_getLsbD _ hi, BitVec.getLsbD_signExtend, if_pos hi,
    decide_eq_true (hi.trans_le sz.bits_le), Bool.true_and]

/-- The carry-reverse addition at either size: mirrored, it is the sum of the mirrored operands. -/
theorem aluCarryReverse_eq (sz : Size) (a b : Word) :
    ∃ v, mirror sz.bits (sz.unsigned v)
        = (mirror sz.bits (sz.unsigned a) + mirror sz.bits (sz.unsigned b)) % 2 ^ sz.bits ∧
      aluCarryReverse sz a b = (sz.word v.toNat,
        ⟨sz.signed v < 0, sz.unsigned v = 0, false,
          2 ^ sz.bits ≤ mirror sz.bits (sz.unsigned a) + mirror sz.bits (sz.unsigned b)⟩) := by
  let r := (flagsCarryReverse (sz.low a) (sz.low b)).value
  have unsigned : r.toNat = sz.unsigned (r.signExtend 32) := by rw [← sz.low_toNat, low_signExtend]
  have signed : r.toInt = sz.signed (r.signExtend 32) := by rw [← sz.low_toInt, low_signExtend]
  refine ⟨r.signExtend 32, ?sum, (sized_eq sz .sign (fun _ => flagsCarryReverse) a b).trans ?result⟩
  case sum =>
    rw [← unsigned, ← revBits_toNat, ← sz.low_toNat, ← sz.low_toNat, ← revBits_toNat, ← revBits_toNat,
      ← BitVec.toNat_add]
    exact congrArg BitVec.toNat (revBits_revBits _)
  case result =>
    refine Prod.ext (congrArg (BitVec.ofInt 32) signed) ?_
    rw [← unsigned, ← signed, ← BitVec.msb_eq_toInt, ← beq_zero_toNat, ← sz.low_toNat, ← sz.low_toNat,
      ← revBits_toNat, ← revBits_toNat]
    rfl

/-- Settles O39: both forms are `aluCarryReverse` of their operands. -/
theorem carryReverseAddsMirrored : Obligations.CarryReverseAddsMirrored := by
  intro s sz rD
  refine ⟨fun n => ?immediate, fun c rS1 rS2 hc => ?register⟩
  case immediate =>
    obtain ⟨v, sum, result⟩ := aluCarryReverse_eq sz (s.reg rD) (sext16 n)
    exact ⟨v, sum, writes_of_eq result⟩
  case register =>
    obtain ⟨v, sum, result⟩ := aluCarryReverse_eq sz (s.reg rS1) (s.reg rS2)
    exact ⟨v, sum, writes_conditionally hc result⟩

end Sys2Proof.Machine
end

section
/-! SUPPORT. Loads and stores in the words of the statements: the address of `*L` (R103), the value a load leaves
(R286), and what a transfer through a pointer leaves (R283 to R295). -/

namespace Sys2Proof.Machine

variable {s : State}

/-! ### Addresses and values -/

/-- The address of a direct operand (R103). -/
theorem State.directAddress_eq (s : State) (l : Half) : s.directAddress l = directOf s l := by
  apply BitVec.eq_of_toNat_eq
  rw [State.directAddress_toNat, directOf, BitVec.toNat_append, ← Nat.shiftLeft_add_eq_or_of_lt l.isLt]
  split <;> rfl

/-- The low bits of a word as an unsigned number. -/
theorem zeroExtended_eq {k : Nat} (hk : k ≤ 32) (d : Word) :
    (d.setWidth k).setWidth 32 = BitVec.ofInt 32 ((d.toNat : ℤ) % 2 ^ k) := by
  apply BitVec.eq_of_toNat_eq
  have fits : d.toNat % 2 ^ k < 2 ^ 32 :=
    (Nat.mod_lt _ (Nat.two_pow_pos k)).trans_le (Nat.pow_le_pow_right (by decide) hk)
  have cast : ((d.toNat : ℤ) % 2 ^ k) = ((d.toNat % 2 ^ k : ℕ) : ℤ) := by push_cast; rfl
  rw [cast, BitVec.ofInt_natCast, BitVec.toNat_setWidth, BitVec.toNat_setWidth, BitVec.toNat_ofNat]

/-- The low bits of a word as a two's complement number. -/
theorem signExtended_eq (k : Nat) (d : Word) :
    (d.setWidth k).signExtend 32 = BitVec.ofInt 32 (Int.bmod d.toNat (2 ^ k)) := by
  rw [BitVec.signExtend, BitVec.toInt_setWidth]

/-- The value a load leaves in its register (R286). -/
theorem placeLoad_eq (w : Width) (d : Word) : placeLoad w d = loadedWord w d := by
  cases w with
  | byte | ushort => exact zeroExtended_eq (by decide) d
  | char | short => exact signExtended_eq _ d
  | hbyte =>
    show (d.setWidth 8).setWidth 32 <<< 8 = BitVec.ofInt 32 ((d.toNat : ℤ) % 2 ^ 8 * 2 ^ 8)
    rw [BitVec.shiftLeft_eq_mul_twoPow, zeroExtended_eq (by decide), BitVec.ofInt_mul]
    rfl
  | long =>
    show d = BitVec.ofInt 32 (d.toNat : ℤ)
    rw [BitVec.ofInt_natCast, BitVec.ofNat_toNat, BitVec.setWidth_eq]

/-! ### What a transfer through a pointer leaves -/

/-- A load through a pointer moves the pointer, issues the load and holds off interrupts. -/
theorem bumpPointer_issue (s : State) (rP : Reg) (rI : Increment) (n : Nat) (p : PendingLoad) :
    let t := (s.bumpPointer rP rI n).issue p
    PointerSet s t rP (pointerAfter s rP rI n) ∧ t.latch.load = some p ∧ t.inhibit = true ∧
      (∀ a, t.readByte a = s.readByte a) ∧
      t = { s with
        regs := t.regs
        inhibit := true
        latch := { s.latch with load := t.latch.load, wroteRegs := t.latch.wroteRegs } } :=
  ⟨State.bumpPointer_set rfl rP rI n, rfl, rfl, fun a => SameMap.readByte ⟨rfl, rfl, rfl⟩ rfl a, rfl⟩

/-- A store through a pointer leaves the memory of the store and the pointer moved. -/
theorem store_bumpPointer {u : State} {a : Word} {n : Nat} {v : Word} (hu : s.store a n v = .ok u) (rP : Reg)
    (rI : Increment) :
    let t := u.bumpPointer rP rI n
    t.mem = u.mem ∧ t.periph = u.periph ∧ OnlyBytes s t a n ∧
      PointerSet s t rP (pointerAfter s rP rI n) ∧
      t = { s with
        regs := t.regs
        mem := t.mem
        periph := t.periph
        latch := { s.latch with wroteRegs := t.latch.wroteRegs } } := by
  have frame := State.store_frame hu
  refine ⟨rfl, rfl, fun b hb => ?_, State.bumpPointer_set (by rw [frame]) rP rI n, ?_⟩
  · exact (State.readByte_bumpPointer u rP rI n b).trans (State.store_onlyBytes hu b hb)
  · rw [State.bumpPointer_frame, frame]

/-! ### Loads and stores that can reach their bytes complete -/

theorem exec_loadDirect {w : Width} {l : Half} {d : Word} (hd : s.load (directOf s l) (bytesMoved w) = .ok d)
    (rH : LoadDest) : exec (.loadDirect w rH l) s = .next (issued s (.reg rH (loadedWord w d))) := by
  simp only [exec, execLoadDirect, State.directAddress_eq, widthBytes_eq, hd, ← placeLoad_eq]
  rfl

theorem exec_storeDirect {w : Width} {rH : Source} {l : Half} {u : State}
    (hu : s.store (directOf s l) (bytesMoved w) (storedWord w (sourceOf s rH)) = .ok u) :
    exec (.storeDirect w rH l) s = .next u := by
  simp only [exec, execStoreDirect, State.directAddress_eq, widthBytes_eq, placeStore_eq, State.sourceValue_eq,
    hu, resolve_ok]

theorem exec_loadMem {w : Width} {rP : Reg} {d : Word} (hsp : spFits rP w)
    (hd : s.load (s.reg rP) (bytesMoved w) = .ok d) (rH : LoadDest) (rI : Increment) :
    exec (.loadMem w rH rP rI) s =
      .next ((s.bumpPointer rP rI (bytesMoved w)).issue (.reg rH (loadedWord w d))) := by
  simp only [exec, execLoadMem, checkSp_of_spFits hsp, widthBytes_eq, hd, ← placeLoad_eq]
  rfl

theorem exec_storeMem {w : Width} {rH : Source} {rP : Reg} {u : State} (hsp : spFits rP w)
    (hu : s.store (s.reg rP) (bytesMoved w) (storedWord w (sourceOf s rH)) = .ok u) (rI : Increment) :
    exec (.storeMem w rH rP rI) s = .next (u.bumpPointer rP rI (bytesMoved w)) := by
  simp only [exec, execStoreMem, checkSp_of_spFits hsp, widthBytes_eq, placeStore_eq, State.sourceValue_eq]
  show resolve s (s.store _ _ _ >>= _) = _
  rw [hu]
  rfl

theorem exec_loadIo {io : IoReg} (hio : io ≠ .spc) (s : State) (w : Width) (rH : Reg) :
    exec (.loadIo w rH io) s =
      .next (issued s (.reg (.reg rH) (loadedWord w (ioData s io (bytesMoved w))))) := by
  simp only [exec, execLoadIo, hio, if_false, widthBytes_eq, State.ioRead_eq, placeLoad_eq]
  rfl

theorem exec_loadIor {w : Width} {io : IoReg} {rP : Reg} {d : Word} (hio : io ≠ .spc) (hw : w ≠ .hbyte)
    (hsp : spFits rP w) (hd : s.load (s.reg rP) (bytesMoved w) = .ok d)
    (hdauc : io = .dauc → d.getLsbD 7 = false) (rI : Increment) :
    exec (.loadIor w io rP rI) s =
      .next ((s.bumpPointer rP rI (bytesMoved w)).issue (.ior io (bytesMoved w) d)) := by
  simp only [exec, execLoadIor, checkIor, hio, hw, if_false, checkSp_of_spFits hsp, widthBytes_eq]
  show resolve s (s.load _ _ >>= _) = _
  rw [hd]
  show resolve s (checkIoData io d >>= _) = _
  rw [checkIoData_ok hdauc]
  rfl

/-! ### sp (R285) -/

theorem checkSp_refuses {w : Width} (hw : w ≠ .long) : checkSp 21 w = .error (.refuse .spTransferSize) :=
  if_pos ⟨rfl, hw⟩

/-- A transfer of an IO register that fails its own check, or then that of sp, is refused. -/
theorem resolve_checkIor_checkSp {w : Width} (hw : w ≠ .long) (s : State) (io : IoReg) (k : Unit → Res State) :
    ∃ r, resolve s (checkIor w io >>= fun _ => checkSp 21 w >>= k) = .refused r := by
  rw [checkSp_refuses hw]
  unfold checkIor
  split
  · exact ⟨_, rfl⟩
  · split <;> exact ⟨_, rfl⟩

/-! ### The statements -/

/-- Settles O41: the direct form issues the placed value, the pointer form leaves `bumpPointer_issue`. -/
theorem loadsIssueTheirValue : Obligations.LoadsIssueTheirValue := fun s _ rH _ =>
  ⟨fun _ hd => exec_loadDirect hd rH,
    fun rP rI hsp hd => ⟨_, exec_loadMem hsp hd rH rI, bumpPointer_issue s rP rI _ _⟩⟩

/-- Settles O42: the direct form is the store, the pointer form leaves `store_bumpPointer`. -/
theorem storesWriteTheirBytes : Obligations.StoresWriteTheirBytes := fun _ _ _ _ =>
  ⟨fun _ hu => ⟨exec_storeDirect hu, State.store_onlyBytes hu, State.store_frame hu⟩,
    fun rP rI hsp hu => ⟨_, exec_storeMem hsp hu rI, store_bumpPointer hu rP rI⟩⟩

/-- Settles O44: the register's low bytes are placed as a load's are, and what memory holds for an IO register
is issued as it is. -/
theorem ioLoadsIssueTheirValue : Obligations.IoLoadsIssueTheirValue := fun s w _ hio =>
  ⟨exec_loadIo hio s w, fun rP rI _ hw hsp hd hdauc =>
    ⟨_, exec_loadIor hio hw hsp hd hdauc rI, bumpPointer_issue s rP rI _ _⟩⟩

/-- Settles O46: loads and stores of CAU registers ask for sp first, those of IO registers after their own
check. -/
theorem spTransfersAreLong : Obligations.SpTransfersAreLong := by
  intro s w rI hw
  refine ⟨fun rH => ?load, fun rH => ?store, fun io => ?ioLoad, fun io => ?ioStore⟩
  case load =>
    simp only [exec, execLoadMem, checkSp_refuses hw]
    rfl
  case store =>
    simp only [exec, execStoreMem, checkSp_refuses hw]
    rfl
  case ioLoad => exact resolve_checkIor_checkSp hw s io _
  case ioStore => exact resolve_checkIor_checkSp hw s io _

end Sys2Proof.Machine
end

section
/-! SUPPORT. Delayed loads in the words of the statements: what the commit at the end of a step writes (R287,
R293, R443), and what of it the rest of the step keeps. -/

namespace Sys2Proof.Machine

variable {s t : State}

/-! ### The commit, by what is pending -/

theorem State.commitLoad_of_none (h : s.pendingLoad = none) : s.commitLoad = s := by
  simp only [State.commitLoad, h]

theorem State.commitLoad_of_reg {rD : LoadDest} {v : Word} (h : s.pendingLoad = some (.reg rD v)) :
    s.commitLoad = (s.commitDest rD v).commitFlags v := by
  simp only [State.commitLoad, h]

theorem State.commitLoad_of_ior {io : IoReg} {n : Nat} {d : Word} (h : s.pendingLoad = some (.ior io n d)) :
    s.commitLoad = ioWritten s io n d.toNat := by
  rw [← State.ioWrite_eq_ioWritten]
  simp only [State.commitLoad, h]

/-! ### The register written (R287, R443) -/

/-- The value that is written: a free one where the instruction in between wrote the register. -/
theorem State.commitDest_regs (s : State) (r : Reg) (v : Word) :
    (s.commitDest (.reg r) v).regs =
      writeRegs s.regs r (if r ∈ s.latch.wroteRegs then s.drawn 32 else v) := by
  simp only [State.commitDest, List.contains_iff_mem]
  split <;> rfl

theorem State.commitDest_pcsh (s : State) (v : Word) : (s.commitDest .pcsh v).pcsh = v := rfl

/-- A load of a register leaves pcsh. -/
theorem State.commitDest_pcsh_of_ne {rD : LoadDest} (h : rD ≠ .pcsh) (s : State) (v : Word) :
    (s.commitDest rD v).pcsh = s.pcsh := by
  cases rD with
  | pcsh => exact absurd rfl h
  | reg r =>
    simp only [State.commitDest]
    split <;> rfl

/-- The register loaded. -/
theorem State.reg_commitDest_same (s : State) (r : Reg) (v : Word) :
    (s.commitDest (.reg r) v).reg r =
      if r = 0 then 0#32 else if r ∈ s.latch.wroteRegs then s.drawn 32 else v :=
  (State.reg_congr (s := s.setReg r _) (s.commitDest_regs r v) r).trans (setReg_set s r _).1

/-- A load leaves every register but its own. -/
theorem State.reg_commitDest_other {rD : LoadDest} {q : Reg} (h : rD ≠ .reg q) (s : State) (v : Word) :
    (s.commitDest rD v).reg q = s.reg q := by
  cases rD with
  | pcsh => rfl
  | reg r =>
    have other : q ≠ r := fun e => h (e ▸ rfl)
    exact (State.reg_congr (s := s.setReg r _) (s.commitDest_regs r v) q).trans (s.reg_setReg_other _ other)

theorem State.draws_le_commitDest (s : State) (rD : LoadDest) (v : Word) :
    s.draws ≤ (s.commitDest rD v).draws := by
  unfold State.commitDest
  split
  · exact Nat.le_refl _
  · split
    · exact Nat.le_succ _
    · exact Nat.le_refl _

/-! ### The flags written (R287, R443) -/

/-- The CAU flags after their write. -/
theorem withCau_low (ps : BitVec 8) (nib : BitVec 4) : (withCau ps nib).extractLsb' 0 4 = nib := by
  apply BitVec.eq_of_getLsbD_eq
  intro i hi
  rw [BitVec.getLsbD_extractLsb', decide_eq_true hi, Bool.true_and, Nat.zero_add, withCau, getLsbD_nibbles,
    if_pos hi]

/-- The flags nz00 of the value loaded. -/
theorem State.cau_commitFlags (h : s.latch.wroteFlags = false) (v : Word) :
    (s.commitFlags v).cau = ⟨v.msb, v = 0#32, false, false⟩ := by
  have nz00 : cauOfValue v = ⟨v.msb, v = 0#32, false, false⟩ := by rw [cauOfValue, beq_eq_decide]
  rw [← nz00]
  refine State.cau_of_withCau _ _ s.ps ?_
  simp only [State.commitFlags, h, Bool.false_eq_true, if_false]

/-- Where the instruction in between wrote the flags, they are the next free value. -/
theorem State.commitFlags_of_wroteFlags (h : s.latch.wroteFlags = true) (v : Word) :
    (s.commitFlags v).ps.extractLsb' 0 4 = Config.free 4 s.draws ∧
      (s.commitFlags v).draws = s.draws + 1 := by
  simp only [State.commitFlags, h, if_true, State.countDraw_ps, State.countDraw_draws, withCau_low, State.drawn,
    and_self]

/-! ### What the rest of the step keeps of the commit -/

section

variable (b : State) (pf : Fetched) (t : State)

@[simp] theorem finish_pcsh : (finish b pf t).pcsh = t.commitLoad.pcsh := by
  rw [finish_eq, State.advanceFlags_eq]

/-- The DAU flags that settle, or that a doblock leaves free, are next to the CAU flags (R210, R446). -/
theorem finish_ps_low : (finish b pf t).ps.extractLsb' 0 4 = t.commitLoad.ps.extractLsb' 0 4 := by
  have settled : t.commitLoad.advanceFlags.ps.extractLsb' 0 4 = t.commitLoad.ps.extractLsb' 0 4 :=
    State.settleAll_cau _ _
  by_cases h : EndsBlock b t
  · rw [(finish_flags_of_endsBlock pf h).2.1, withDau_low, settled]
  · rw [(finish_flags_of_not_endsBlock pf h).2, settled]

@[simp] theorem finish_cau : (finish b pf t).cau = t.commitLoad.cau := State.cau_congr (finish_ps_low b pf t)

variable {b t} in
/-- Only the end of a doblock takes a free value after the commit (R210). -/
theorem finish_draws_of_not_endsBlock (h : ¬ EndsBlock b t) : (finish b pf t).draws = t.commitLoad.draws := by
  obtain ⟨-, -, draws⟩ := finish_flags b pf t
  rw [draws, drained_of_not_endsBlock h, advanced_draws]

theorem commitLoad_draws_le_finish : t.commitLoad.draws ≤ (finish b pf t).draws := by
  by_cases h : EndsBlock b t
  · rw [(finish_flags_of_endsBlock pf h).2.2]
    exact Nat.le_succ _
  · exact (finish_draws_of_not_endsBlock pf h).ge

end

/-! ### The end of a step with a load of a CAU register or pcsh pending -/

section

variable (b : State) (pf : Fetched) {rD : LoadDest} {v : Word} (h : t.pendingLoad = some (.reg rD v))
include h

/-- The registers after the end of the step are those of the write. -/
theorem reg_finish_of_reg (q : Reg) : (finish b pf t).reg q = (t.commitDest rD v).reg q :=
  State.reg_congr (by rw [finish_regs, State.commitLoad_of_reg h, State.commitFlags_eq]) q

theorem finish_pcsh_of_reg : (finish b pf t).pcsh = (t.commitDest rD v).pcsh := by
  rw [finish_pcsh, State.commitLoad_of_reg h, State.commitFlags_eq]

/-- The write of the register leaves the note of who wrote the flags, so they are nz00 of the value. -/
theorem finish_cau_of_reg (hf : t.latch.wroteFlags = false) :
    (finish b pf t).cau = ⟨v.msb, v = 0#32, false, false⟩ := by
  rw [finish_cau, State.commitLoad_of_reg h]
  exact State.cau_commitFlags (by rw [State.commitDest_eq, hf]) v

/-- Both wrote the flags: they are a free value, taken after that of the register. -/
theorem finish_flags_free_of_reg (hf : t.latch.wroteFlags = true) :
    ∃ n, t.draws ≤ n ∧ n < (finish b pf t).draws ∧
      (finish b pf t).ps.extractLsb' 0 4 = Config.free 4 n := by
  have wrote : (t.commitDest rD v).latch.wroteFlags = true := by rw [State.commitDest_eq, hf]
  obtain ⟨flags, draws⟩ := State.commitFlags_of_wroteFlags wrote v
  rw [← State.commitLoad_of_reg h] at flags draws
  have taken : (t.commitDest rD v).draws < t.commitLoad.draws := by
    rw [draws]
    exact Nat.lt_succ_self _
  exact ⟨_, t.draws_le_commitDest rD v, taken.trans_le (commitLoad_draws_le_finish b pf t),
    (finish_ps_low b pf t).trans flags⟩

end

/-! ### The statement -/

/-- Settles O43, by what is pending: nothing, a load of a CAU register or pcsh, or one of an IO register. -/
theorem loadsCommitOneInstructionLater : Obligations.LoadsCommitOneInstructionLater := by
  intro b pf t
  have frame := finish_frame b pf t
  refine ⟨finish_pendingLoad b pf t, finish_accs b pf t, finish_mem b pf t, finish_periph b pf t,
    fun h => ?none, fun rD v h => ?reg, fun io n d h => ?ior⟩
  case none =>
    obtain ⟨regs, pcsh⟩ := frame.noLoad h
    obtain ⟨emr, pcw, locked, dauc⟩ := frame.noIoLoad fun _ _ _ e => nomatch h.symm.trans e
    have same := State.commitLoad_of_none h
    exact ⟨regs, pcsh, emr, pcw, locked, dauc, by rw [finish_cau, same],
      fun inside => by rw [finish_draws_of_not_endsBlock pf inside, same]⟩
  case reg =>
    obtain ⟨emr, pcw, locked, dauc⟩ := frame.noIoLoad fun _ _ _ e => nomatch h.symm.trans e
    refine ⟨fun r hr => ?others, fun hp => ?pcshStays, emr, pcw, locked, dauc, fun r hr hw => ?value,
      fun r hr hw => ?free, fun hp => ?pcsh, finish_cau_of_reg b pf h, finish_flags_free_of_reg b pf h⟩
    case others => rw [reg_finish_of_reg b pf h, t.reg_commitDest_other hr]
    case pcshStays => rw [finish_pcsh_of_reg b pf h, t.commitDest_pcsh_of_ne hp]
    case value =>
      subst hr
      rw [reg_finish_of_reg b pf h, State.reg_commitDest_same, if_neg hw]
    case free =>
      subst hr
      rw [reg_finish_of_reg b pf h, State.reg_commitDest_same, if_pos hw]
      rfl
    case pcsh =>
      subst hp
      rw [finish_pcsh_of_reg b pf h, State.commitDest_pcsh]
  case ior =>
    have written := State.commitLoad_of_ior h
    have stays : t.commitLoad.regs = t.regs ∧ t.commitLoad.pcsh = t.pcsh := by
      rw [written, ← State.ioWrite_eq_ioWritten, State.ioWrite_eq]
      exact ⟨rfl, rfl⟩
    obtain ⟨regs, pcsh⟩ := stays
    dsimp only
    rw [← written]
    exact ⟨finish_emr b pf t, finish_pcw b pf t, finish_pcwLocked b pf t, finish_dauc b pf t,
      finish_cau b pf t, (finish_regs b pf t).trans regs, (finish_pcsh b pf t).trans pcsh,
      finish_ctr b pf t, fun inside => (finish_flags_of_not_endsBlock pf inside).2⟩

end Sys2Proof.Machine
end

section
/-! SUPPORT. The leading bit of an integer and the fields of an accumulator: what `normalize` and `assemble`
do (R323, R324). -/

namespace Sys2Proof.Machine

/-! ### The position of the leading bit (R323) -/

/-- The exponent that `normalize` and `floatOfInt` give a number: 2^k ≤ v < 2^(k+1), or
-2^(k+1) ≤ v < -2^k. -/
def topBit (v : ℤ) : ℕ := if 0 < v then v.toNat.log2 else ((-v).toNat - 1).log2

theorem le_topBit_of_pos {v : ℤ} (hv : 0 < v) (k : ℕ) : k ≤ topBit v ↔ 2 ^ k ≤ v := by
  rw [topBit, if_pos hv, Nat.le_log2 (by omega), ← Int.ofNat_le, Int.toNat_of_nonneg hv.le]
  push_cast
  rfl

/-- -1 is no number of the form -2^(k+1) ≤ v < -2^k: it is left out by 0 < k. -/
theorem le_topBit_of_neg {v : ℤ} (hv : v < 0) {k : ℕ} (hk : 0 < k) : k ≤ topBit v ↔ v < -2 ^ k := by
  rw [topBit, if_neg hv.not_gt]
  have pow : (2 : ℤ) ≤ 2 ^ k := by exact_mod_cast Nat.pow_le_pow_right two_pos hk
  obtain rfl | h := eq_or_ne v (-1)
  · simp only [neg_neg, Int.toNat_one, Nat.sub_self, Nat.log2_zero]
    omega
  · rw [Nat.le_log2 (by omega), ← Int.ofNat_le, Int.ofNat_sub (by omega), Int.toNat_of_nonneg (by omega)]
    push_cast
    omega

/-- The leading bit of an integer; -1 is no number of the form -2^(k+1) ≤ n < -2^k. -/
theorem topBit_bounds {n : ℤ} (h0 : n ≠ 0) (h1 : n ≠ -1) :
    2 ^ topBit n ≤ n ∧ n < 2 ^ (topBit n + 1) ∨ -2 ^ (topBit n + 1) ≤ n ∧ n < -2 ^ topBit n := by
  obtain hn | hn := lt_or_gt_of_ne h0
  · refine .inr ⟨not_lt.1 fun h => ?_, ?_⟩
    · exact absurd ((le_topBit_of_neg hn (Nat.succ_pos _)).2 h) (Nat.not_succ_le_self _)
    · obtain zero | positive := Nat.eq_zero_or_pos (topBit n)
      · rw [zero]
        omega
      · exact (le_topBit_of_neg hn positive).1 le_rfl
  · refine .inl ⟨(le_topBit_of_pos hn _).1 le_rfl, not_le.1 fun h => ?_⟩
    exact absurd ((le_topBit_of_pos hn _).2 h) (Nat.not_succ_le_self _)

/-- The leading bit of an integer of k bits and a sign. -/
theorem topBit_lt {n : ℤ} {k : ℕ} (hk : 0 < k) (lo : -2 ^ k ≤ n) (hi : n < 2 ^ k) (h0 : n ≠ 0) :
    topBit n < k := by
  rw [← not_le]
  obtain hn | hn := lt_or_gt_of_ne h0
  · rw [le_topBit_of_neg hn hk, not_lt]
    exact lo
  · rw [le_topBit_of_pos hn, not_le]
    exact hi

/-- The mantissas of the numbers that are not zero, times 2^31: in [1, 2) or in [-2, -1) (R323). -/
def IsMantissa (m : ℤ) : Prop := 2 ^ 31 ≤ m ∧ m < 2 ^ 32 ∨ -2 ^ 32 ≤ m ∧ m < -2 ^ 31

/-- The leading bit of a shifted mantissa. -/
theorem topBit_mul_pow {m : ℤ} (h : IsMantissa m) (j : ℕ) : topBit (m * 2 ^ j) = j + 31 := by
  have pow : (0 : ℤ) < 2 ^ j := by positivity
  have split : ∀ i : ℕ, (2 : ℤ) ^ (j + i) = 2 ^ i * 2 ^ j := fun i => by rw [pow_add, mul_comm]
  apply le_antisymm
  · rw [← not_lt, Nat.lt_iff_add_one_le, Nat.add_assoc]
    obtain ⟨lo, hi⟩ | ⟨lo, hi⟩ := h
    · rw [le_topBit_of_pos (by nlinarith), split, not_le]
      exact mul_lt_mul_of_pos_right hi pow
    · rw [le_topBit_of_neg (by nlinarith) (by omega), split, not_lt, ← neg_mul]
      exact mul_le_mul_of_nonneg_right lo pow.le
  · obtain ⟨lo, hi⟩ | ⟨lo, hi⟩ := h
    · rw [le_topBit_of_pos (by nlinarith), split]
      exact mul_le_mul_of_nonneg_right lo pow.le
    · rw [le_topBit_of_neg (by nlinarith) (by omega), split, ← neg_mul]
      exact mul_lt_mul_of_pos_right hi pow

/-- What `normalize` computes, in terms of the leading bit. -/
theorem normalize_eq (v : ℤ) : normalize v =
    if topBit v ≤ 31 then ((topBit v : ℤ) - 174, v * 2 ^ (31 - topBit v), true)
    else ((topBit v : ℤ) - 174, v / 2 ^ (topBit v - 31),
      decide (v / 2 ^ (topBit v - 31) * 2 ^ (topBit v - 31) = v)) := by
  have shifts : normalize v =
      if topBit v ≤ 31 then ((topBit v : ℤ) - 174, v <<< (31 - topBit v), true)
      else ((topBit v : ℤ) - 174, v >>> (topBit v - 31),
        decide (v >>> (topBit v - 31) <<< (topBit v - 31) = v)) := rfl
  simp only [shifts, Int.shiftLeft_eq, Int.shiftRight_eq_div_pow, Nat.cast_pow, Nat.cast_ofNat]

/-! ### The fields of an accumulator (R324) -/

theorem isMantissa_mantissa40 (a : Acc40) : IsMantissa (mantissa40 a) := by
  have := (a.extractLsb' 16 23 ++ a.extractLsb' 0 8).isLt
  simp only [mantissa40, IsMantissa]
  split <;> omega

theorem mantissa40_neg_iff (a : Acc40) : mantissa40 a < 0 ↔ a.getLsbD 39 = true := by
  have := (a.extractLsb' 16 23 ++ a.extractLsb' 0 8).isLt
  rw [mantissa40]
  cases a.getLsbD 39
  · exact iff_of_false (by rw [if_neg Bool.false_ne_true]; omega) Bool.false_ne_true
  · exact iff_of_true (by rw [if_pos rfl]; omega) rfl

theorem exponent40_lt (a : Acc40) : exponent40 a < 256 := (a.extractLsb' 8 8).isLt

theorem exponent40_eq_zero_iff (a : Acc40) : exponent40 a = 0 ↔ a.extractLsb' 8 8 = 0#8 :=
  BitVec.toNat_inj (y := 0#8)

theorem exact40_of_zero {a : Acc40} (h : exponent40 a = 0) : exact40 a = 0 := if_pos h

theorem exact40_of_ne {a : Acc40} (h : exponent40 a ≠ 0) :
    exact40 a = mantissa40 a * 2 ^ (exponent40 a + 143) := (if_neg h).trans (Int.shiftLeft_eq _ _)

/-- Only exponent 0 stands for zero. -/
theorem exact40_eq_zero_iff (a : Acc40) : exact40 a = 0 ↔ exponent40 a = 0 := by
  refine ⟨fun h => ?_, exact40_of_zero⟩
  by_contra he
  rw [exact40_of_ne he] at h
  have := isMantissa_mantissa40 a
  unfold IsMantissa at this
  have : mantissa40 a = 0 := by simpa using h
  omega

theorem exact40_neg_iff (a : Acc40) : exact40 a < 0 ↔ exponent40 a ≠ 0 ∧ a.getLsbD 39 = true := by
  by_cases h : exponent40 a = 0
  · simp [exact40_of_zero h, h]
  · rw [exact40_of_ne h, ← mantissa40_neg_iff, and_iff_right h]
    have pow : (0 : ℤ) < 2 ^ (exponent40 a + 143) := by positivity
    exact ⟨fun hn => neg_of_mul_neg_left hn pow.le, fun hn => mul_neg_of_neg_of_pos hn pow⟩

/-- The fields of an accumulator that is put together from them. -/
theorem fields_append (b : BitVec 1) (x : BitVec 23) (e y : BitVec 8) {a : Acc40} (h : a = b ++ x ++ e ++ y) :
    a.extractLsb' 8 8 = e ∧ a.extractLsb' 16 23 = x ∧ a.extractLsb' 0 8 = y ∧
      a.getLsbD 39 = b.getLsbD 0 := by
  subst h
  refine ⟨?_, ?_, BitVec.extractLsb'_append_eq_right, ?_⟩
  · exact (BitVec.extractLsb'_append_eq_of_le (by decide)).trans BitVec.extractLsb'_append_eq_right
  · exact (BitVec.extractLsb'_append_eq_of_le (by decide)).trans
      ((BitVec.extractLsb'_append_eq_of_le (by decide)).trans BitVec.extractLsb'_append_eq_right)
  · exact BitVec.getLsbD_append.trans (BitVec.getLsbD_append.trans BitVec.getLsbD_append)

theorem halves_append (f : BitVec 31) : f.extractLsb' 8 23 ++ f.extractLsb' 0 8 = f := by
  rw [BitVec.extractLsb'_append_extractLsb'_eq_extractLsb' (by rfl)]
  simp

/-- The fields of an assembled accumulator. -/
theorem fields_assemble (e : ℕ) (m : ℤ) :
    let f := (BitVec.ofInt 32 (if 0 ≤ m then m - 2147483648 else m)).setWidth 31
    (assemble e m).extractLsb' 8 8 = BitVec.ofNat 8 e ∧
    (assemble e m).extractLsb' 16 23 = f.extractLsb' 8 23 ∧
    (assemble e m).extractLsb' 0 8 = f.extractLsb' 0 8 ∧
    (assemble e m).getLsbD 39 = (BitVec.ofBool (decide (m < 0))).getLsbD 0 :=
  fields_append _ _ _ _ rfl

theorem exponent40_assemble {e : ℕ} (he : e < 256) (m : ℤ) : exponent40 (assemble e m) = e := by
  rw [exponent40, (fields_assemble e m).1, BitVec.toNat_ofNat, Nat.mod_eq_of_lt he]

theorem mantissa40_assemble (e : ℕ) {m : ℤ} (hm : IsMantissa m) : mantissa40 (assemble e m) = m := by
  obtain ⟨-, high, low, sign⟩ := fields_assemble e m
  rw [mantissa40, high, low, sign, halves_append, BitVec.toNat_setWidth, BitVec.toNat_ofInt]
  unfold IsMantissa at hm
  by_cases h : m < 0
  · simp [h, h.not_ge]
    omega
  · simp [h, not_lt.1 h]
    omega

end Sys2Proof.Machine
end

section
/-! SUPPORT. The values of words and accumulators as integers at the machine's scale, and the range of 40
bits (R322 to R324). -/

namespace Sys2Proof.Machine

/-! ### Values as integers at the machine's scale (R322 to R324) -/

/-- The machine's integers stand for values times this. -/
def scale : ℚ := 2 ^ 302

theorem scale_pos : 0 < scale := pow_pos two_pos _

theorem scale_eq : scale = 2 ^ 151 * 2 ^ 151 := pow_add 2 151 151

/-- The value of an accumulator is the machine's integer at this scale. -/
theorem exact40_cast (a : Acc40) : (exact40 a : ℚ) = val40 a * scale :=
  (div_eq_iff scale_pos.ne').1 (FloatFormat.number_eq .excess128 a)

/-- A word is the accumulator with guard bits 0 (R324). -/
theorem fields_to40 (w : Word) :
    (w ++ 0#8 : Acc40).extractLsb' 8 8 = w.extractLsb' 0 8 ∧
    (w ++ 0#8 : Acc40).extractLsb' 16 23 = w.extractLsb' 8 23 ∧
    (w ++ 0#8 : Acc40).extractLsb' 0 8 = 0#8 ∧ (w ++ 0#8 : Acc40).getLsbD 39 = w.getLsbD 31 :=
  ⟨BitVec.extractLsb'_append_eq_of_le (by decide), BitVec.extractLsb'_append_eq_of_le (by decide),
    BitVec.extractLsb'_append_eq_right, BitVec.getLsbD_append⟩

theorem to32_to40 (w : Word) : (w ++ 0#8 : Acc40).extractLsb' 8 32 = w := BitVec.extractLsb'_append_eq_left

theorem val32_eq_val40 (w : Word) : val32 w = val40 (w ++ 0#8) := by
  obtain ⟨e, f, g, s⟩ := fields_to40 w
  rw [val32, val40, e, f, g, s]
  push_cast
  congr 2
  norm_num
  ring

theorem exponent40_to40 (w : Word) : exponent40 (w ++ 0#8) = exponent32 w :=
  congrArg BitVec.toNat (fields_to40 w).1

theorem mantissa40_to40 (w : Word) : mantissa40 (w ++ 0#8) = mantissa32 w * 2 ^ 8 := by
  obtain ⟨-, f, g, s⟩ := fields_to40 w
  have fraction : (w.extractLsb' 8 23 ++ 0#8).toNat = (w.extractLsb' 8 23).toNat * 2 ^ 8 := by
    rw [BitVec.toNat_append, Nat.shiftLeft_eq]
    simp
  rw [mantissa40, mantissa32, f, g, s, fraction]
  push_cast
  split <;> ring

/-- The value of a word (R323). -/
theorem val32_eq (w : Word) :
    val32 w = if exponent32 w = 0 then 0 else (mantissa32 w : ℚ) * 2 ^ exponent32 w / 2 ^ 151 := by
  have exact := exact40_cast (w ++ 0#8)
  rw [val32_eq_val40, eq_div_of_mul_eq scale_pos.ne' exact.symm]
  by_cases h : exponent32 w = 0
  · rw [if_pos h, exact40_of_zero (by rwa [exponent40_to40])]
    simp
  · have split : (mantissa32 w * 2 ^ 8 * 2 ^ (exponent32 w + 143) : ℤ) =
        mantissa32 w * 2 ^ exponent32 w * 2 ^ 151 := by
      rw [pow_add]
      ring
    rw [if_neg h, exact40_of_ne (by rwa [exponent40_to40]), exponent40_to40, mantissa40_to40, split, scale_eq]
    push_cast
    exact mul_div_mul_right _ _ (by positivity)

theorem exactProduct_cast (y x : Word) : (exactProduct y x : ℚ) = val32 y * val32 x * scale := by
  rw [val32_eq, val32_eq, exactProduct, scale_eq]
  by_cases hy : exponent32 y = 0
  · simp [hy]
  by_cases hx : exponent32 x = 0
  · simp [hx]
  rw [if_neg (not_or.2 ⟨hy, hx⟩), if_neg hy, if_neg hx, Int.shiftLeft_eq, pow_add]
  push_cast
  ring

/-- The exact sum at the machine's scale. -/
theorem exactMac_cast (t : Acc40) (negT negP : Bool) (y x : Word) :
    (exactMac t negT negP y x : ℚ) = macValue t negT negP y x * scale := by
  have signs : ∀ (b : Bool) (v : ℤ), (signed b v : ℚ) = withSign b v := fun b v => by
    cases b <;> simp [signed, withSign]
  have factor : ∀ (b : Bool) (v : ℚ), withSign b (v * scale) = withSign b v * scale := fun b v => by
    cases b <;> simp [withSign]
  rw [exactMac, Int.cast_add, signs, signs, exact40_cast, exactProduct_cast, factor, factor, ← add_mul,
    macValue]

/-! ### The range of 40 bits -/

/-- The largest value that 40 bits hold. -/
def largest40 : ℤ := topMantissa * 2 ^ 398

/-- The smallest positive one. -/
def smallestPositive40 : ℤ := 2 ^ 175

/-- The greatest negative one. -/
def greatestNegative40 : ℤ := negTopMantissa * 2 ^ 144

/-- The most negative one. -/
def mostNegative40 : ℤ := -2 ^ 430

theorem range40_signs :
    0 < largest40 ∧ 0 < smallestPositive40 ∧ greatestNegative40 < 0 ∧ mostNegative40 < 0 :=
  ⟨mul_pos (by decide) (pow_pos two_pos _), pow_pos two_pos _,
    mul_neg_of_neg_of_pos (by decide) (pow_pos two_pos _), neg_neg_of_pos (pow_pos two_pos _)⟩

/-- Everything the value of 40 bits can be (R324). -/
theorem exact40_cases (a : Acc40) :
    exact40 a = 0 ∨ smallestPositive40 ≤ exact40 a ∧ exact40 a ≤ largest40 ∨
      mostNegative40 ≤ exact40 a ∧ exact40 a ≤ greatestNegative40 := by
  by_cases h : exponent40 a = 0
  · exact .inl (exact40_of_zero h)
  have least : (2 : ℤ) ^ 144 ≤ 2 ^ (exponent40 a + 143) := pow_le_pow_right₀ (by decide) (by omega)
  have most : (2 : ℤ) ^ (exponent40 a + 143) ≤ 2 ^ 398 :=
    pow_le_pow_right₀ (by decide) (by have := exponent40_lt a; omega)
  have low : smallestPositive40 = 2 ^ 31 * 2 ^ 144 := pow_add 2 31 144
  have high : mostNegative40 = -(2 ^ 32 * 2 ^ 398) := congrArg Neg.neg (pow_add 2 32 398)
  have positive : (0 : ℤ) < 2 ^ 144 := pow_pos two_pos _
  rw [exact40_of_ne h, low, high, largest40, greatestNegative40, topMantissa, negTopMantissa]
  generalize (2 : ℤ) ^ (exponent40 a + 143) = p at *
  generalize (2 : ℤ) ^ 144 = least40 at *
  generalize (2 : ℤ) ^ 398 = most40 at *
  obtain ⟨lo, hi⟩ | ⟨lo, hi⟩ := isMantissa_mantissa40 a
  · exact .inr (.inl ⟨by nlinarith, by nlinarith⟩)
  · exact .inr (.inr ⟨by nlinarith, by nlinarith⟩)

end Sys2Proof.Machine
end

section
/-! SUPPORT. `mac` in the default format, by the leading bit of its exact sum (R322). -/

namespace Sys2Proof.Machine

/-! ### `mac` (R322) -/

/-- The sum lies beyond every value that 40 bits hold. -/
def Overflows (v : ℤ) : Prop := largest40 < v ∨ v < mostNegative40

/-- The sum lies between zero and every other value of its sign that 40 bits hold. -/
def Underflows (v : ℤ) : Prop := 0 < v ∧ v < smallestPositive40 ∨ greatestNegative40 < v ∧ v < 0

section
variable {t : Acc40} {negT negP : Bool} {y x : Word}

theorem mac_of_zero (h : exactMac t negT negP y x = 0) : mac t negT negP y x = .zero false := by
  rw [mac, h]
  rfl

/-- `mac` of a sum `v` with its leading bit `k`: exponent field k - 174, mantissa v / 2^(k - 31). -/
theorem mac_eq {v : ℤ} (hv : exactMac t negT negP y x = v) (h0 : v ≠ 0) {k : ℕ} (hk : topBit v = k) :
    mac t negT negP y x =
      if 430 ≤ k then .saturated (decide (v < 0))
      else if k < 175 then .zero true
      else if v / 2 ^ (k - 31) * 2 ^ (k - 31) = v then .ofBits (assemble (k - 174) (v / 2 ^ (k - 31)))
      else if k = 429 ∧ v / 2 ^ (k - 31) = topMantissa ∧ Config.macEdge t negT negP y x = true then
        .saturated false
      else if k = 175 ∧ v / 2 ^ (k - 31) = negTopMantissa ∧ Config.macEdge t negT negP y x = true then
        .zero true
      else .ofBits (Config.macApprox t negT negP y x) := by
  have field : ((k : ℤ) - 174).toNat = k - 174 := by omega
  have tooLarge : (255 < (k : ℤ) - 174) ↔ 430 ≤ k := by omega
  have tooSmall : ((k : ℤ) - 174 < 1) ↔ k < 175 := by omega
  have top : ((k : ℤ) - 174 = 255) ↔ k = 429 := by omega
  have bottom : ((k : ℤ) - 174 = 1) ↔ k = 175 := by omega
  rw [mac, hv, if_neg h0, normalize_eq, hk]
  by_cases small : k ≤ 31
  · rw [if_pos small, if_neg (by omega), if_pos (by omega)]
    exact (if_neg (by omega)).trans (if_pos (by omega))
  · simp only [if_neg small, field, tooLarge, tooSmall, top, bottom, decide_eq_true_eq]

theorem neg_mostNegative40 : -mostNegative40 = 2 ^ 430 := neg_neg _

/-- The ends of the range, in terms of the leading bit. -/
theorem le_topBit_iff {v : ℤ} (h0 : v ≠ 0) :
    430 ≤ topBit v ↔ -mostNegative40 ≤ v ∨ v < mostNegative40 := by
  obtain ⟨-, -, -, bottom⟩ := range40_signs
  obtain hv | hv := lt_or_gt_of_ne h0
  · rw [le_topBit_of_neg hv (by decide), or_iff_right (by omega)]
    rfl
  · rw [le_topBit_of_pos hv 430, or_iff_left (by omega), neg_mostNegative40]

theorem overflows_of_beyond {v : ℤ} (h : -mostNegative40 ≤ v ∨ v < mostNegative40) : Overflows v := by
  have top : largest40 < 2 ^ 32 * 2 ^ 398 := mul_lt_mul_of_pos_right (by decide) (pow_pos two_pos _)
  rw [← pow_add, ← neg_mostNegative40] at top
  exact h.imp_left top.trans_le

/-- The smallest magnitudes, in terms of the leading bit. -/
theorem topBit_lt_iff {v : ℤ} (h0 : v ≠ 0) :
    topBit v < 175 ↔ 0 < v ∧ v < smallestPositive40 ∨ -smallestPositive40 ≤ v ∧ v < 0 := by
  rw [← not_le, smallestPositive40]
  obtain hv | hv := lt_or_gt_of_ne h0
  · rw [le_topBit_of_neg hv (by decide), not_lt]
    simp only [hv.not_gt, hv, and_true, false_and, false_or]
  · rw [le_topBit_of_pos hv 175, not_le]
    simp only [hv, hv.not_gt, and_false, true_and, or_false]

theorem underflows_of_below {v : ℤ}
    (h : 0 < v ∧ v < smallestPositive40 ∨ -smallestPositive40 ≤ v ∧ v < 0) :
    Underflows v := by
  have bottom : greatestNegative40 < -2 ^ 31 * 2 ^ 144 :=
    mul_lt_mul_of_pos_right (by decide) (pow_pos two_pos _)
  rw [neg_mul, ← pow_add] at bottom
  exact h.imp_right fun ⟨lo, hi⟩ => ⟨bottom.trans_le lo, hi⟩

/-- A sum at or beyond the ends of the range saturates (R322). -/
theorem mac_of_beyond
    (h : -mostNegative40 ≤ exactMac t negT negP y x ∨ exactMac t negT negP y x < mostNegative40) :
    mac t negT negP y x = .saturated (decide (exactMac t negT negP y x < 0)) := by
  have h0 : exactMac t negT negP y x ≠ 0 := by
    have := range40_signs
    omega
  rw [mac_eq rfl h0 rfl, if_pos ((le_topBit_iff h0).2 h)]

/-- A sum below the smallest magnitude is zero (R322). -/
theorem mac_of_below (h : 0 < exactMac t negT negP y x ∧ exactMac t negT negP y x < smallestPositive40 ∨
    -smallestPositive40 ≤ exactMac t negT negP y x ∧ exactMac t negT negP y x < 0) :
    mac t negT negP y x = .zero true := by
  have h0 : exactMac t negT negP y x ≠ 0 := by omega
  have hk := (topBit_lt_iff h0).2 h
  rw [mac_eq rfl h0 rfl, if_neg (by omega), if_pos hk]

/-- A sum that 40 bits hold is the result. -/
theorem mac_of_exact {m : ℤ} {e : ℕ} (hm : IsMantissa m) (he : e ≠ 0) (lt : e < 256)
    (h : exactMac t negT negP y x = m * 2 ^ (e + 143)) :
    mac t negT negP y x = .ofBits (assemble e m) := by
  have h0 : m * 2 ^ (e + 143) ≠ 0 :=
    mul_ne_zero (by unfold IsMantissa at hm; omega) (pow_ne_zero _ two_ne_zero)
  have quotient : m * 2 ^ (e + 143) / 2 ^ (e + 143) = m := Int.mul_ediv_cancel _ (pow_ne_zero _ two_ne_zero)
  rw [mac_eq h h0 (topBit_mul_pow hm _), if_neg (by omega), if_neg (by omega), Nat.add_sub_cancel, quotient,
    if_pos rfl, show e + 143 + 31 - 174 = e by omega]

/-- A mantissa that is not exact is that of the next lower value. -/
theorem inexact_bounds {v m : ℤ} {n : ℕ} (hm : v / 2 ^ n = m) (inexact : m * 2 ^ n ≠ v) :
    m * 2 ^ n < v ∧ v < (m + 1) * 2 ^ n := by
  subst hm
  exact ⟨lt_of_le_of_ne (Int.ediv_mul_le v (pow_ne_zero _ two_ne_zero)) inexact,
    Int.lt_ediv_add_one_mul_self v (pow_pos two_pos _)⟩

/-- Beyond the largest value. -/
theorem overflows_of_top {v : ℤ} (hm : v / 2 ^ 398 = topMantissa) (inexact : topMantissa * 2 ^ 398 ≠ v) :
    Overflows v ∧ ¬ v < 0 := by
  obtain ⟨lo, -⟩ := inexact_bounds hm inexact
  have positive : 0 < topMantissa * 2 ^ 398 := mul_pos (by decide) (pow_pos two_pos _)
  exact ⟨.inl lo, not_lt.2 (positive.trans lo).le⟩

/-- Between the greatest negative value and zero. -/
theorem underflows_of_bottom {v : ℤ} (hm : v / 2 ^ 144 = negTopMantissa)
    (inexact : negTopMantissa * 2 ^ 144 ≠ v) : Underflows v := by
  obtain ⟨lo, hi⟩ := inexact_bounds hm inexact
  have negative : (negTopMantissa + 1) * 2 ^ 144 < 0 := mul_neg_of_neg_of_pos (by decide) (pow_pos two_pos _)
  exact .inr ⟨lo, hi.trans negative⟩

/-- Everything `mac` can do. -/
theorem mac_cases (t : Acc40) (negT negP : Bool) (y x : Word) :
    (exactMac t negT negP y x = 0 ∧ mac t negT negP y x = .zero false) ∨
    (Overflows (exactMac t negT negP y x) ∧
      mac t negT negP y x = .saturated (decide (exactMac t negT negP y x < 0))) ∨
    (Underflows (exactMac t negT negP y x) ∧ mac t negT negP y x = .zero true) ∨
    ∃ a, mac t negT negP y x = .ofBits a := by
  by_cases h0 : exactMac t negT negP y x = 0
  · exact .inl ⟨h0, mac_of_zero h0⟩
  have result := mac_eq (t := t) (negT := negT) (negP := negP) (y := y) (x := x) rfl h0 rfl
  generalize exactMac t negT negP y x = v at h0 result ⊢
  rw [result]
  split_ifs with tooLarge tooSmall held top bottom
  · exact .inr (.inl ⟨overflows_of_beyond ((le_topBit_iff h0).1 tooLarge), rfl⟩)
  · exact .inr (.inr (.inl ⟨underflows_of_below ((topBit_lt_iff h0).1 tooSmall), rfl⟩))
  · exact .inr (.inr (.inr ⟨_, rfl⟩))
  · obtain ⟨hk, hm, -⟩ := top
    rw [hm, hk] at held
    rw [hk] at hm
    obtain ⟨beyond, sign⟩ := overflows_of_top hm held
    exact .inr (.inl ⟨beyond, by rw [decide_eq_false sign]⟩)
  · obtain ⟨hk, hm, -⟩ := bottom
    rw [hm, hk] at held
    rw [hk] at hm
    exact .inr (.inr (.inl ⟨underflows_of_bottom hm held, rfl⟩))
  · exact .inr (.inr (.inr ⟨_, rfl⟩))
end
end Sys2Proof.Machine
end

section
/-! SUPPORT. Values against the machine's integers, and what R322 asks of zeros, signs and results in every
format. -/

namespace Sys2Proof
open Machine

/-! ### Rationals and the machine's integers -/

/-- The integer `v` is the value `q` at the machine's scale. -/
def Machine.Stands (v : ℤ) (q : ℚ) : Prop := (v : ℚ) = q * scale

namespace Machine.Stands
variable {v w : ℤ} {p q : ℚ}

theorem zero : Stands 0 0 := by simp [Stands]

theorem neg (h : Stands v q) : Stands (-v) (-q) := by
  rw [Stands, Int.cast_neg, h, neg_mul]

theorem lt_iff (h : Stands v q) (k : Stands w p) : q < p ↔ v < w := by
  rw [← Int.cast_lt (R := ℚ), h, k, mul_lt_mul_iff_left₀ scale_pos]

theorem le_iff (h : Stands v q) (k : Stands w p) : q ≤ p ↔ v ≤ w := by
  rw [← not_lt, k.lt_iff h, not_lt]

theorem eq_iff (h : Stands v q) (k : Stands w p) : q = p ↔ v = w := by
  rw [le_antisymm_iff, h.le_iff k, k.le_iff h, le_antisymm_iff]

end Machine.Stands

theorem Machine.stands_exact40 (a : Acc40) : Stands (exact40 a) (val40 a) := exact40_cast a

theorem Machine.stands_exactMac (t : Acc40) (negT negP : Bool) (y x : Word) :
    Stands (exactMac t negT negP y x) (macValue t negT negP y x) := exactMac_cast t negT negP y x

/-- The end of the range. -/
theorem Machine.stands_mostNegative40 : Stands mostNegative40 (-2 ^ 128) := by
  rw [Stands, scale, neg_mul, ← pow_add, mostNegative40, Int.cast_neg, Int.cast_pow, Int.cast_ofNat]

/-- The smallest magnitude. -/
theorem Machine.stands_smallestPositive40 : Stands smallestPositive40 (1 / 2 ^ 127) := by
  rw [Stands, scale, smallestPositive40, show (302 : ℕ) = 127 + 175 from rfl, pow_add, Int.cast_pow,
    Int.cast_ofNat, ← mul_assoc, one_div_mul_cancel (pow_ne_zero _ two_ne_zero), one_mul]

/-! ### Zeros and signs in every format (R322) -/

namespace FloatFormat
variable (fm : FloatFormat)

theorem val32_eq_val40 (w : Word) : fm.val32 w = fm.val40 (w ++ 0#8) := by
  cases fm with
  | excess128 => exact Machine.val32_eq_val40 w
  | other k => rfl

/-- The sign is that of the value. -/
theorem sign_eq (a : Acc40) : fm.sign a = compare (fm.val40 a) 0 := by
  cases fm with
  | other k => rfl
  | excess128 =>
    have stands := stands_exact40 a
    simp only [sign, FloatFormat.val40]
    split_ifs with hz hs
    · exact (compare_eq_iff_eq.2 ((stands.eq_iff .zero).2 (exact40_of_zero hz))).symm
    · exact (compare_lt_iff_lt.2 ((stands.lt_iff .zero).2 ((exact40_neg_iff a).2 ⟨hz, hs⟩))).symm
    · refine (compare_gt_iff_gt.2 ((Stands.zero.lt_iff stands).2 (lt_of_le_of_ne (not_lt.1 ?_) ?_))).symm
      · rw [exact40_neg_iff]
        exact fun h => hs h.2
      · exact fun h => hz ((exact40_eq_zero_iff a).1 h.symm)

theorem sign_beq_lt (a : Acc40) : (fm.sign a == .lt) = decide (fm.val40 a < 0) := by
  rw [sign_eq, Bool.beq_eq_decide_eq, decide_eq_decide, compare_lt_iff_lt]

theorem sign_beq_eq (a : Acc40) : (fm.sign a == .eq) = decide (fm.val40 a = 0) := by
  rw [sign_eq, Bool.beq_eq_decide_eq, decide_eq_decide, compare_eq_iff_eq]

theorem isZero40_iff (a : Acc40) : fm.isZero40 a = true ↔ fm.val40 a = 0 := by
  cases fm with
  | other k => exact beq_iff_eq
  | excess128 =>
    rw [isZero40, beq_iff_eq, ← exponent40_eq_zero_iff, ← exact40_eq_zero_iff]
    exact ((stands_exact40 a).eq_iff .zero).symm

theorem isZero_eq (w : Word) : fm.isZero w = fm.isZero40 (w ++ 0#8) := by
  cases fm with
  | other k => rfl
  | excess128 => rw [isZero, isZero40, (fields_to40 w).1]

theorem isZero_iff (w : Word) : fm.isZero w = true ↔ fm.val32 w = 0 := by
  rw [isZero_eq, isZero40_iff, val32_eq_val40]

theorem val40_zero : fm.val40 0#40 = 0 := by
  rw [← isZero40_iff]
  cases fm with
  | other k => exact beq_iff_eq.2 (otherVal40_zero k)
  | excess128 => rfl

theorem val32_zero : fm.val32 0#32 = 0 := by
  rw [val32_eq_val40]
  exact fm.val40_zero

theorem val40_clean40 (a : Acc40) : fm.val40 (fm.clean40 a) = fm.val40 a := by
  rw [clean40]
  split
  · next h => rw [val40_zero, (fm.isZero40_iff a).1 h]
  · rfl

theorem val32_clean32 (w : Word) : fm.val32 (fm.clean32 w) = fm.val32 w := by
  rw [clean32]
  split
  · next h => rw [val32_zero, (fm.isZero_iff w).1 h]
  · rfl

/-- The only zero result is 0. -/
theorem clean40_eq_zero {a : Acc40} (h : fm.val40 (fm.clean40 a) = 0) : fm.clean40 a = 0#40 := by
  rw [val40_clean40, ← isZero40_iff] at h
  exact if_pos h

end FloatFormat

/-! ### Results and their flags (R322 (a), (b)) -/

/-- N and Z are those of the result, and the only zero is 0. -/
structure Machine.Coherent (fm : FloatFormat) (r : DauResult) : Prop where
  n : r.n = decide (fm.val40 r.value < 0)
  z : r.z = decide (fm.val40 r.value = 0)
  zero : r.z = true → r.value = 0#40

namespace Machine.Coherent

theorem result (fm : FloatFormat) (a : Acc40) (v u : Bool) : Coherent fm (fm.result a v u) where
  n := fm.sign_beq_lt _
  z := fm.sign_beq_eq _
  zero h := fm.clean40_eq_zero (of_decide_eq_true ((fm.sign_beq_eq _).symm.trans h))

theorem zero_result (fm : FloatFormat) (u : Bool) : Coherent fm (.zero u) := by
  have value := fm.val40_zero
  exact ⟨by simp [DauResult.zero, value], by simp [DauResult.zero, value], fun _ => rfl⟩

end Machine.Coherent

/-- A result within the default format, as in every format. -/
theorem Machine.ofBits_eq (a : Acc40) : DauResult.ofBits a = FloatFormat.excess128.result a false false := by
  have zero : a.extractLsb' 8 8 = 0#8 ↔ FloatFormat.excess128.isZero40 a = true := by
    rw [FloatFormat.isZero40, beq_iff_eq]
  rw [DauResult.ofBits, FloatFormat.result, FloatFormat.clean40]
  by_cases h : a.extractLsb' 8 8 = 0#8
  · rw [if_pos h, if_pos (zero.1 h)]
    rfl
  · rw [if_neg h, if_neg (mt zero.2 h), FloatFormat.sign, if_neg (mt (exponent40_eq_zero_iff a).1 h)]
    cases a.getLsbD 39 <;> rfl

theorem Machine.saturated_eq (neg : Bool) : DauResult.saturated neg =
    FloatFormat.excess128.result (if neg then 0x800000FF00#40 else 0x7FFFFFFFFF#40) true false := by
  cases neg <;> rfl

end Sys2Proof
end

section
/-! SUPPORT. `mac` in every format: clean operands, coherent flags, exact results (R322). -/

namespace Sys2Proof
open Machine

/-! ### `mac` in every format (R322) -/

/-- `mac` of clean operands. -/
def FloatFormat.macClean (fm : FloatFormat) : Acc40 → Bool → Bool → Word → Word → DauResult :=
  match fm with
  | .excess128 => Machine.mac
  | .other k => otherMac k

theorem withSign_zero (b : Bool) : withSign b 0 = 0 := by cases b <;> simp [withSign]

namespace FloatFormat
variable (fm : FloatFormat) (t : Acc40) (negT negP : Bool) (y x : Word)

/-- A zero factor makes the product 0, without a sign. -/
def noProduct : Bool := fm.isZero y || fm.isZero x

theorem noProduct_iff : fm.noProduct y x = true ↔ fm.val32 y = 0 ∨ fm.val32 x = 0 := by
  rw [noProduct, Bool.or_eq_true, isZero_iff, isZero_iff]

theorem mac_eq : fm.mac t negT negP y x =
    fm.macClean (fm.clean40 t) (!fm.isZero40 t && negT) (!fm.noProduct y x && negP)
      (if fm.noProduct y x then 0#32 else y) (if fm.noProduct y x then 0#32 else x) := rfl

/-- Clean operands give the same exact sum. -/
theorem macValue_clean :
    fm.macValue (fm.clean40 t) (!fm.isZero40 t && negT) (!fm.noProduct y x && negP)
      (if fm.noProduct y x then 0#32 else y) (if fm.noProduct y x then 0#32 else x)
    = fm.macValue t negT negP y x := by
  have first : withSign (!fm.isZero40 t && negT) (fm.val40 t) = withSign negT (fm.val40 t) := by
    by_cases h : fm.isZero40 t = true
    · rw [(fm.isZero40_iff t).1 h, withSign_zero, withSign_zero]
    · rw [Bool.not_eq_true] at h
      rw [h]
      rfl
  rw [macValue, macValue, val40_clean40, first]
  congr 1
  by_cases h : fm.noProduct y x = true
  · have product : fm.val32 y * fm.val32 x = 0 := mul_eq_zero.2 ((fm.noProduct_iff y x).1 h)
    rw [if_pos h, if_pos h, product, val32_zero, mul_zero, withSign_zero, withSign_zero]
  · rw [Bool.not_eq_true] at h
    rw [h]
    rfl

/-- What holds of `mac` of clean operands, in terms of the result and the exact sum, holds of `mac`. -/
theorem mac_of_clean {p : ℚ → DauResult → Prop}
    (h : ∀ t negT negP y x, p (fm.macValue t negT negP y x) (fm.macClean t negT negP y x)) :
    p (fm.macValue t negT negP y x) (fm.mac t negT negP y x) := by
  rw [mac_eq, ← macValue_clean]
  exact h ..

/-- A first term that stands for zero acts as 0, without a sign (R322 (d)). -/
theorem mac_zero_term {t : Acc40} (h : fm.val40 t = 0) :
    fm.mac t negT negP y x = fm.mac 0#40 false negP y x := by
  have dirty := (fm.isZero40_iff t).2 h
  have zero := (fm.isZero40_iff 0#40).2 fm.val40_zero
  rw [mac_eq, mac_eq, clean40, clean40, if_pos dirty, if_pos zero, dirty, zero]
  rfl

/-- A product with a factor that stands for zero acts as 0, without a sign (R322 (d)). -/
theorem mac_zero_product {y x : Word} (h : fm.val32 y = 0 ∨ fm.val32 x = 0) :
    fm.mac t negT negP y x = fm.mac t negT false 0#32 0#32 := by
  have dirty := (fm.noProduct_iff y x).2 h
  have zero := (fm.noProduct_iff 0#32 0#32).2 (.inl fm.val32_zero)
  rw [mac_eq, mac_eq, dirty, zero]
  rfl

end FloatFormat

namespace Machine

/-- An exact sum of zero gives zero. -/
theorem macClean_of_zero {fm : FloatFormat} {t : Acc40} {negT negP : Bool} {y x : Word}
    (h : fm.macValue t negT negP y x = 0) : fm.macClean t negT negP y x = .zero false := by
  cases fm with
  | excess128 => exact mac_of_zero (((stands_exactMac t negT negP y x).eq_iff .zero).1 h)
  | other k => exact if_pos h

/-- The result of `mac` in another format, its flags being those of the exact sum. -/
theorem otherMac_of_ne {k : ℕ} {t : Acc40} {negT negP : Bool} {y x : Word}
    (h : (FloatFormat.other k).macValue t negT negP y x ≠ 0) :
    let v := (FloatFormat.other k).macValue t negT negP y x
    let range := otherRange k (otherReach k (v < 0)) v (Config.otherMacEdge k t negT negP y x)
    otherMac k t negT negP y x =
      (FloatFormat.other k).result (Config.otherMac k t negT negP y x) range.1 range.2 := if_neg h

theorem macClean_coherent (fm : FloatFormat) (t : Acc40) (negT negP : Bool) (y x : Word) :
    Coherent fm (fm.macClean t negT negP y x) := by
  cases fm with
  | excess128 =>
    obtain ⟨-, h⟩ | ⟨-, h⟩ | ⟨-, h⟩ | ⟨a, h⟩ := mac_cases t negT negP y x
    all_goals rw [FloatFormat.macClean, h]
    · exact .zero_result _ _
    · rw [saturated_eq]
      exact .result _ _ _ _
    · exact .zero_result _ _
    · rw [ofBits_eq]
      exact .result _ _ _ _
  | other k =>
    by_cases h : (FloatFormat.other k).macValue t negT negP y x = 0
    · rw [macClean_of_zero h]
      exact .zero_result _ _
    · rw [FloatFormat.macClean, otherMac_of_ne h]
      exact .result _ _ _ _

theorem mac_coherent (fm : FloatFormat) (t : Acc40) (negT negP : Bool) (y x : Word) :
    Coherent fm (fm.mac t negT negP y x) :=
  fm.mac_of_clean (p := fun _ => Coherent fm) t negT negP y x (macClean_coherent fm)

/-- A sum that 40 bits hold, in the default format. -/
theorem macClean_of_held {a t : Acc40} {negT negP : Bool} {y x : Word}
    (h : val40 a = macValue t negT negP y x) :
    let r := FloatFormat.excess128.macClean t negT negP y x
    val40 r.value = macValue t negT negP y x ∧ r.v = false ∧ r.u = false := by
  by_cases he : exponent40 a = 0
  · have zero : macValue t negT negP y x = 0 :=
      h.symm.trans (((stands_exact40 a).eq_iff .zero).2 (exact40_of_zero he))
    have result : FloatFormat.excess128.macClean t negT negP y x = .zero false := macClean_of_zero zero
    rw [zero, result]
    exact ⟨FloatFormat.excess128.val40_zero, rfl, rfl⟩
  · have hm := isMantissa_mantissa40 a
    have lt := exponent40_lt a
    have exact := ((stands_exact40 a).eq_iff (stands_exactMac t negT negP y x)).1 h
    rw [exact40_of_ne he] at exact
    have result : FloatFormat.excess128.macClean t negT negP y x = _ := mac_of_exact hm he lt exact.symm
    rw [result, ofBits_eq, ← h]
    refine ⟨(FloatFormat.excess128.val40_clean40 _).trans ?_, rfl, rfl⟩
    refine ((stands_exact40 _).eq_iff (stands_exact40 a)).2 ?_
    rw [exact40_of_ne (by rwa [exponent40_assemble lt]), exponent40_assemble lt, mantissa40_assemble _ hm,
      exact40_of_ne he]

end Machine

/-- Settles O47: what holds of clean operands holds of all, as these have the same exact sum. -/
theorem macIsExactWhereItCanBe : Obligations.MacIsExactWhereItCanBe := by
  refine ⟨fun fm t negT negP y x => ?every, fun t negT negP y x held => ?default⟩
  case every =>
    obtain ⟨n, z, zero⟩ := mac_coherent fm t negT negP y x
    exact ⟨n, z, zero, fun h => fm.mac_zero_term negT negP y x h, fun h => fm.mac_zero_product t negT negP h,
      fm.mac_of_clean (p := fun v r => v = 0 → r = .zero false) t negT negP y x
        fun _ _ _ _ _ => macClean_of_zero⟩
  case default =>
    obtain ⟨a, ha⟩ := held
    obtain ⟨n, z, -⟩ := mac_coherent .excess128 t negT negP y x
    obtain ⟨value, v, u⟩ := FloatFormat.excess128.mac_of_clean
      (p := fun q r => val40 a = q → val40 r.value = q ∧ r.v = false ∧ r.u = false) t negT negP y x
      (fun _ _ _ _ _ => macClean_of_held) ha
    rw [show FloatFormat.excess128.val40 _ = _ from value] at n z
    exact ⟨value, n, z, v, u⟩

end Sys2Proof
end

section
/-! SUPPORT. The extreme words, and where `mac` overflows and underflows, in every format (R322). -/

namespace Sys2Proof
open Machine

namespace Machine

/-! ### The extreme words (R322 (c), R323) -/

/-- A word at the machine's scale. -/
theorem exact40_to40 {w : Word} (h : exponent32 w ≠ 0) :
    exact40 (w ++ 0#8) = mantissa32 w * 2 ^ (exponent32 w + 151) := by
  rw [exact40_of_ne (by rwa [exponent40_to40]), exponent40_to40, mantissa40_to40, mul_assoc, ← pow_add,
    show 8 + (exponent32 w + 143) = exponent32 w + 151 by omega]

theorem mantissa32_bounds (w : Word) : -16777216 ≤ mantissa32 w ∧ mantissa32 w ≤ 16777215 := by
  have := (w.extractLsb' 8 23).isLt
  simp only [mantissa32]
  split <;> omega

/-- In the default format. -/
theorem exact40_to40_bounds (w : Word) :
    exact40 (0x800000FF#32 ++ 0#8) ≤ exact40 (w ++ 0#8) ∧
      exact40 (w ++ 0#8) ≤ exact40 (0x7FFFFFFF#32 ++ 0#8) := by
  rw [exact40_to40 (w := 0x800000FF#32) (by decide), exact40_to40 (w := 0x7FFFFFFF#32) (by decide),
    show mantissa32 0x800000FF#32 = -16777216 from rfl, show mantissa32 0x7FFFFFFF#32 = 16777215 from rfl,
    show exponent32 0x800000FF#32 = 255 from rfl, show exponent32 0x7FFFFFFF#32 = 255 from rfl]
  have most : (0 : ℤ) < 2 ^ (255 + 151) := pow_pos two_pos _
  by_cases h : exponent32 w = 0
  · rw [exact40_of_zero (by rwa [exponent40_to40])]
    generalize (2 : ℤ) ^ (255 + 151) = q at *
    omega
  · have lt : exponent32 w < 256 := (w.extractLsb' 0 8).isLt
    have positive : (0 : ℤ) < 2 ^ (exponent32 w + 151) := pow_pos two_pos _
    have le : (2 : ℤ) ^ (exponent32 w + 151) ≤ 2 ^ (255 + 151) := pow_le_pow_right₀ one_le_two (by omega)
    obtain ⟨lo, hi⟩ := mantissa32_bounds w
    rw [exact40_to40 h]
    generalize (2 : ℤ) ^ (255 + 151) = q at *
    generalize (2 : ℤ) ^ (exponent32 w + 151) = p at *
    exact ⟨by nlinarith, by nlinarith⟩

theorem otherVal32_greatest (k : ℕ) : otherVal32 k 0x7FFFFFFF#32 = otherBound k false := by
  simp [otherVal32, otherVal40]

theorem otherVal32_least (k : ℕ) : otherVal32 k 0x800000FF#32 = -otherBound k true := by
  simp [otherVal32, otherVal40]

/-- The values of another format by their sign. -/
theorem otherVal40_signs (k : ℕ) (a : Acc40) :
    let v := otherVal40 k a
    v = 0 ∨
    (0 < v ∧ otherLeast k false ≤ v ∧ v ≤ otherReach k false ∧
      (a.extractLsb' 0 8 = 0#8 → v ≤ otherBound k false)) ∨
    (v < 0 ∧ otherLeast k true ≤ -v ∧ -v ≤ otherReach k true ∧
      (a.extractLsb' 0 8 = 0#8 → -v ≤ otherBound k true)) := by
  have cases := otherVal40_cases k a
  dsimp only at cases ⊢
  obtain zero | bounds := cases
  · exact .inl zero
  obtain h | h | h := lt_trichotomy (otherVal40 k a) 0
  · rw [abs_of_neg h, decide_eq_true h] at bounds
    exact .inr (.inr ⟨h, bounds⟩)
  · exact .inl h
  · rw [abs_of_pos h, decide_eq_false h.not_gt] at bounds
    exact .inr (.inl ⟨h, bounds⟩)

/-- The words of another format. -/
theorem otherVal32_bounds (k : ℕ) (w : Word) :
    -otherBound k true ≤ otherVal32 k w ∧ otherVal32 k w ≤ otherBound k false := by
  have least := one_le_otherBound k true
  have greatest := one_le_otherBound k false
  have guard : (w ++ 0#8 : Acc40).extractLsb' 0 8 = 0#8 := (fields_to40 w).2.2.1
  rw [otherVal32]
  obtain zero | ⟨positive, -, -, bound⟩ | ⟨negative, -, -, bound⟩ := otherVal40_signs k (w ++ 0#8)
  · constructor <;> linarith
  · have := bound guard
    constructor <;> linarith
  · have := bound guard
    constructor <;> linarith

/-- No other word is given the bits of the constant 1.0. -/
theorem otherOneWord_ne (k : ℕ) :
    otherOneWord k ≠ 0#32 ∧ otherOneWord k ≠ 0x7FFFFFFF#32 ∧ otherOneWord k ≠ 0x800000FF#32 := by
  simp only [otherOneWord]
  split_ifs with h
  · decide
  · simpa only [not_or] using h

theorem to40_inj {v w : Word} (h : (v ++ 0#8 : Acc40) = w ++ 0#8) : v = w := by
  rw [← to32_to40 v, h, to32_to40]

theorem otherOneWord_value (k : ℕ) : otherVal32 k (otherOneWord k) = 1 := by
  obtain ⟨zero, greatest, least⟩ := otherOneWord_ne k
  have ne : ∀ {w : Word}, otherOneWord k ≠ w → otherOneWord k ++ 0#8 ≠ w ++ 0#8 := mt to40_inj
  exact (if_neg (ne zero)).trans ((if_neg (ne greatest)).trans ((if_neg (ne least)).trans (if_pos rfl)))

end Machine

namespace FloatFormat
variable (fm : FloatFormat)

/-- 0x7FFFFFFF is the largest word and 0x800000FF the most negative (R322 (c)). -/
theorem val32_bounds (w : Word) :
    fm.val32 0x800000FF#32 ≤ fm.val32 w ∧ fm.val32 w ≤ fm.val32 0x7FFFFFFF#32 := by
  cases fm with
  | excess128 =>
    have stands := fun v : Word => stands_exact40 (v ++ 0#8)
    obtain ⟨lo, hi⟩ := exact40_to40_bounds w
    simp only [val32_eq_val40]
    exact ⟨((stands _).le_iff (stands _)).2 lo, ((stands _).le_iff (stands _)).2 hi⟩
  | other k =>
    obtain ⟨lo, hi⟩ := otherVal32_bounds k w
    exact ⟨(otherVal32_least k).trans_le lo, hi.trans_eq (otherVal32_greatest k).symm⟩

/-- The constant 1.0 has the value 1 (R320). -/
theorem val32_oneWord : fm.val32 (oneWord fm) = 1 := by
  cases fm with
  | excess128 => 
    show Sys2Proof.val32 0x00000080#32 = 1
    rw [Sys2Proof.val32, if_neg (by decide), if_neg (by decide)]
    norm_num
  | other k => exact otherOneWord_value k

/-- The extreme words have their signs. -/
theorem val32_signs : fm.val32 0x800000FF#32 < 0 ∧ 0 < fm.val32 0x7FFFFFFF#32 := by
  have one := fm.val32_oneWord.symm.trans_le (fm.val32_bounds (oneWord fm)).2
  refine ⟨?_, one_pos.trans_le one⟩
  cases fm with
  | excess128 =>
    rw [val32_eq_val40]
    exact of_decide_eq_true ((excess128.sign_beq_lt _).symm.trans rfl)
  | other k =>
    exact (otherVal32_least k).trans_lt (neg_neg_of_pos (one_pos.trans_le (one_le_otherBound k true)))

end FloatFormat

/-! ### Overflow and underflow (R322) -/

/-- V is set only where the sum `v` lies beyond every value, U only where it lies between zero and every
other value of its sign. -/
structure Machine.FlagsMean (fm : FloatFormat) (v : ℚ) (r : DauResult) : Prop where
  overflow : r.v = true → ∀ a,
    0 < v ∧ fm.val40 a < v ∨ v < 0 ∧ v < fm.val40 a
  underflow : r.u = true → ∀ a,
    0 < v ∧ (0 < fm.val40 a → v < fm.val40 a) ∨
      v < 0 ∧ (fm.val40 a < 0 → fm.val40 a < v)

namespace Machine

theorem FlagsMean.of_clear {fm : FloatFormat} {v : ℚ} {r : DauResult} (hv : r.v = false) (hu : r.u = false) :
    FlagsMean fm v r where
  overflow h := absurd (hv.symm.trans h) Bool.false_ne_true
  underflow h := absurd (hu.symm.trans h) Bool.false_ne_true

/-- A sum beyond the range is beyond every value. -/
theorem Overflows.beyond {v : ℤ} (h : Overflows v) (a : Acc40) :
    0 < v ∧ exact40 a < v ∨ v < 0 ∧ v < exact40 a := by
  have values := exact40_cases a
  have signs := range40_signs
  unfold Overflows at h
  omega

/-- A sum below the smallest magnitude is nearer to zero than every other value of its sign. -/
theorem Underflows.below {v : ℤ} (h : Underflows v) (a : Acc40) :
    0 < v ∧ (0 < exact40 a → v < exact40 a) ∨ v < 0 ∧ (exact40 a < 0 → exact40 a < v) := by
  have values := exact40_cases a
  have signs := range40_signs
  unfold Underflows at h
  omega

/-- The flags of the default format. -/
theorem mac_flagsMean (t : Acc40) (negT negP : Bool) (y x : Word) :
    FlagsMean .excess128 (macValue t negT negP y x) (mac t negT negP y x) := by
  have sum := stands_exactMac t negT negP y x
  have positive := Stands.zero.lt_iff sum
  have negative := sum.lt_iff .zero
  obtain ⟨-, h⟩ | ⟨beyond, h⟩ | ⟨below, h⟩ | ⟨a, h⟩ := mac_cases t negT negP y x
  all_goals rw [h]
  · exact .of_clear rfl rfl
  · refine ⟨fun _ a => ?_, fun hu => absurd hu Bool.false_ne_true⟩
    have value := stands_exact40 a
    rw [positive, negative, FloatFormat.val40, value.lt_iff sum, sum.lt_iff value]
    exact beyond.beyond a
  · refine ⟨fun hv => absurd hv Bool.false_ne_true, fun _ a => ?_⟩
    have value := stands_exact40 a
    rw [positive, negative, FloatFormat.val40, value.lt_iff sum, sum.lt_iff value, value.lt_iff .zero,
      Stands.zero.lt_iff value]
    exact below.below a
  · rw [ofBits_eq]
    exact .of_clear rfl rfl

/-- In another format a magnitude beyond the largest one is beyond every value. -/
theorem otherVal40_beyond {k : ℕ} {v : ℚ} (h0 : v ≠ 0) (h : otherReach k (v < 0) < |v|) (a : Acc40) :
    0 < v ∧ otherVal40 k a < v ∨ v < 0 ∧ v < otherVal40 k a := by
  obtain hv | hv := lt_or_gt_of_ne h0
  · rw [decide_eq_true hv, abs_of_neg hv] at h
    obtain zero | ⟨positive, -⟩ | ⟨-, -, reach, -⟩ := otherVal40_signs k a
    all_goals exact .inr ⟨hv, by linarith⟩
  · rw [decide_eq_false hv.not_gt, abs_of_pos hv] at h
    obtain zero | ⟨-, -, reach, -⟩ | ⟨negative, -⟩ := otherVal40_signs k a
    all_goals exact .inl ⟨hv, by linarith⟩

/-- A magnitude below the smallest one is nearer to zero than every other value of its sign. -/
theorem otherVal40_below {k : ℕ} {v : ℚ} (h0 : v ≠ 0) (h : |v| < otherLeast k (v < 0)) (a : Acc40) :
    0 < v ∧ (0 < otherVal40 k a → v < otherVal40 k a) ∨
      v < 0 ∧ (otherVal40 k a < 0 → otherVal40 k a < v) := by
  obtain hv | hv := lt_or_gt_of_ne h0
  · rw [decide_eq_true hv, abs_of_neg hv] at h
    refine .inr ⟨hv, fun ha => ?_⟩
    obtain zero | ⟨positive, -⟩ | ⟨-, least, -⟩ := otherVal40_signs k a <;> linarith
  · rw [decide_eq_false hv.not_gt, abs_of_pos hv] at h
    refine .inl ⟨hv, fun ha => ?_⟩
    obtain zero | ⟨-, least, -⟩ | ⟨negative, -⟩ := otherVal40_signs k a <;> linarith

/-- V and U of another format (R322 (a)). -/
theorem otherRange_spec (k : ℕ) (top v : ℚ) (edge : Bool) :
    ((otherRange k top v edge).1 = true → top < |v|) ∧
    ((otherRange k top v edge).2 = true → |v| < otherLeast k (v < 0)) := by
  simp only [otherRange, Bool.and_eq_true, decide_eq_true_eq]
  exact ⟨And.left, fun h => h.1.2⟩

/-- The flags of `mac`, in every format. -/
theorem macClean_flagsMean (fm : FloatFormat) (t : Acc40) (negT negP : Bool) (y x : Word) :
    FlagsMean fm (fm.macValue t negT negP y x) (fm.macClean t negT negP y x) := by
  cases fm with
  | excess128 => exact mac_flagsMean t negT negP y x
  | other k =>
    by_cases h0 : (FloatFormat.other k).macValue t negT negP y x = 0
    · rw [macClean_of_zero h0]
      exact .of_clear rfl rfl
    · rw [FloatFormat.macClean, otherMac_of_ne h0]
      obtain ⟨beyond, below⟩ := otherRange_spec k _ _ _
      exact ⟨fun hv => otherVal40_beyond h0 (beyond hv), fun hu => otherVal40_below h0 (below hu)⟩

/-- The result `r` of a sum `v` at or beyond the ends of the default format's range: saturated with V, or zero
with U (R322). -/
def EndsOfRange (v : ℚ) (r : DauResult) : Prop :=
  (2 ^ 128 ≤ v → r = ⟨0x7FFFFFFFFF#40, false, false, true, false⟩) ∧
  (v < -2 ^ 128 → r = ⟨0x800000FF00#40, true, false, true, false⟩) ∧
  (0 < v ∧ v < 1 / 2 ^ 127 → r = ⟨0#40, false, true, false, true⟩) ∧
  (-(1 / 2 ^ 127) ≤ v ∧ v < 0 → r = ⟨0#40, false, true, false, true⟩)

theorem mac_endsOfRange (t : Acc40) (negT negP : Bool) (y x : Word) :
    EndsOfRange (macValue t negT negP y x) (mac t negT negP y x) := by
  have sum := stands_exactMac t negT negP y x
  have bottom := stands_mostNegative40
  have top : Stands (-mostNegative40) (2 ^ 128) := by simpa only [neg_neg] using bottom.neg
  have least := stands_smallestPositive40
  have signs := range40_signs
  rw [EndsOfRange, top.le_iff sum, sum.lt_iff bottom, Stands.zero.lt_iff sum, sum.lt_iff least,
    least.neg.le_iff sum,    sum.lt_iff .zero]
  refine ⟨fun h => ?_, fun h => ?_, fun h => mac_of_below (.inl h), fun h => mac_of_below (.inr h)⟩
  · exact (mac_of_beyond (.inl h)).trans (by rw [decide_eq_false (by omega)]; rfl)
  · exact (mac_of_beyond (.inr h)).trans (by rw [decide_eq_true (by omega)]; rfl)

end Machine

/-- Settles O48, by the range of the exact sum: the extreme words, the flags of every format, and the results
of the default format at its ends. -/
theorem macSaturatesAndUnderflows : Obligations.MacSaturatesAndUnderflows := by
  refine ⟨fun fm w => ?words, fun fm t negT negP y x a => ?flags, fun t negT negP y x => ?range⟩
  case words =>
    obtain ⟨least, greatest⟩ := fm.val32_bounds w
    obtain ⟨negative, positive⟩ := fm.val32_signs
    exact ⟨fm.val32_zero, least, greatest, negative, positive, fm.isZero_iff w, fm.val32_oneWord⟩
  case flags =>
    obtain ⟨beyond, below⟩ := fm.mac_of_clean (p := FlagsMean fm) t negT negP y x (macClean_flagsMean fm)
    exact ⟨fun hv => beyond hv a, fun hu => below hu a⟩
  case range =>
    exact FloatFormat.excess128.mac_of_clean (p := EndsOfRange) t negT negP y x mac_endsOfRange

end Sys2Proof
end

section
/-! SUPPORT. Integers to floats and back (R355 to R363): the conversions in the default format and in
others. -/

namespace Sys2Proof
open Machine

namespace Machine

/-! ### Integers to floats (R357) -/

/-- An integer shifted to bit 31 is a mantissa. -/
theorem isMantissa_shift {n : ℤ} (h0 : n ≠ 0) (h1 : n ≠ -1) (h : topBit n ≤ 31) :
    IsMantissa (n * 2 ^ (31 - topBit n)) := by
  have low : (2 : ℤ) ^ 31 = 2 ^ topBit n * 2 ^ (31 - topBit n) := by
    rw [← pow_add, Nat.add_sub_cancel' h]
  have high : (2 : ℤ) ^ 32 = 2 ^ (topBit n + 1) * 2 ^ (31 - topBit n) := by
    rw [← pow_add]
    congr 1
    omega
  have positive : (0 : ℤ) < 2 ^ (31 - topBit n) := pow_pos two_pos _
  rw [IsMantissa, low, high, ← neg_mul, ← neg_mul]
  simpa only [mul_le_mul_iff_left₀ positive, mul_lt_mul_iff_left₀ positive] using topBit_bounds h0 h1

theorem floatOfInt_eq {n : ℤ} (h0 : n ≠ 0) (h1 : n ≠ -1) :
    floatOfInt n = assemble (128 + topBit n) (n * 2 ^ (31 - topBit n)) := by
  rw [← Int.shiftLeft_eq]
  exact (if_neg h0).trans (if_neg h1)

/-- The float of an integer is exact (R357). -/
theorem exact40_floatOfInt {n : ℤ} (lo : -2 ^ 32 ≤ n) (hi : n < 2 ^ 32) :
    exact40 (floatOfInt n) = n * 2 ^ 302 := by
  obtain rfl | h0 := eq_or_ne n 0
  · rw [zero_mul]
    rfl
  obtain rfl | h1 := eq_or_ne n (-1)
  · have exact : exact40 (floatOfInt (-1)) = -2 ^ 32 * 2 ^ 270 :=
      exact40_of_ne (a := 0x8000007F00#40) (by decide)
    rw [exact, neg_mul, ← pow_add, neg_one_mul]
  have lt := topBit_lt (by decide) lo hi h0
  rw [floatOfInt_eq h0 h1, exact40_of_ne, exponent40_assemble (by omega),
    mantissa40_assemble _ (isMantissa_shift h0 h1 (by omega)), mul_assoc, ← pow_add]
  · congr 2
    omega
  · rw [exponent40_assemble (by omega)]
    omega

theorem val40_floatOfInt {n : ℤ} (lo : -2 ^ 32 ≤ n) (hi : n < 2 ^ 32) : val40 (floatOfInt n) = n := by
  have stands : Stands (n * 2 ^ 302) n := by
    rw [Stands, scale, Int.cast_mul, Int.cast_pow, Int.cast_ofNat]
  exact ((stands_exact40 _).eq_iff stands).2 (exact40_floatOfInt lo hi)

/-- The guard bits of an assembled accumulator are the low bits of its mantissa (R324). -/
theorem guard_assemble (e : ℕ) {m : ℤ} (h : (256 : ℤ) ∣ m) : (assemble e m).extractLsb' 0 8 = 0#8 := by
  obtain ⟨-, -, low, -⟩ := fields_assemble e m
  rw [low]
  apply BitVec.eq_of_toNat_eq
  rw [BitVec.extractLsb'_toNat, BitVec.toNat_setWidth, BitVec.toNat_ofInt]
  simp only [Nat.shiftRight_zero, BitVec.toNat_ofNat]
  split <;> omega

/-- The image of an accumulator with guard bits 0 has its value (R324). -/
theorem val32_to32 {a : Acc40} (h : a.extractLsb' 0 8 = 0#8) : val32 (to32 a) = val40 a := by
  have whole : a.extractLsb' 8 32 ++ a.extractLsb' 0 8 = a := by
    rw [BitVec.extractLsb'_append_extractLsb'_eq_extractLsb' (by rfl)]
    simp
  rw [val32_eq_val40, to32, ← h, whole]

/-- 24 bits and a sign need no guard bits (R355). -/
theorem guard_floatOfInt {n : ℤ} (lo : -2 ^ 24 ≤ n) (hi : n ≤ 2 ^ 24) :
    (floatOfInt n).extractLsb' 0 8 = 0#8 := by
  obtain rfl | h0 := eq_or_ne n 0
  · rfl
  obtain rfl | h1 := eq_or_ne n (-1)
  · rfl
  obtain rfl | h2 := eq_or_ne n (2 ^ 24)
  · rfl
  have lt := topBit_lt (k := 24) (by decide) lo (lt_of_le_of_ne hi h2) h0
  have split : (2 : ℤ) ^ (31 - topBit n) = 2 ^ 8 * 2 ^ (23 - topBit n) := by
    rw [← pow_add]
    congr 1
    omega
  rw [floatOfInt_eq h0 h1]
  exact guard_assemble _ (Dvd.dvd.mul_left ⟨_, split⟩ n)

theorem val32_wordOfInt {n : ℤ} (lo : -2 ^ 24 ≤ n) (hi : n ≤ 2 ^ 24) :
    val32 (to32 (floatOfInt n)) = n := by
  rw [val32_to32 (guard_floatOfInt lo hi), val40_floatOfInt (by omega) (by omega)]

/-- The word of an integer in another format. -/
theorem wordOfInt_nearest (k : ℕ) (n : ℤ) (w : Word) :
    let fm := FloatFormat.other k
    |fm.val32 (fm.wordOfInt n) - n| ≤ |fm.val32 w - n| := by
  simp only [FloatFormat.wordOfInt]
  split_ifs with h
  · rw [h, FloatFormat.val32_zero]
    simp
  · rw [FloatFormat.val32_clean32]
    exact (otherWordNear_spec k n _ w).1

/-- The float of an integer in another format. -/
theorem floatOfInt_nearest (k : ℕ) (n : ℤ) (w : Word) :
    let fm := FloatFormat.other k
    |fm.val40 (fm.floatOfInt n) - n| ≤ |fm.val32 w - n| := by
  simp only [FloatFormat.floatOfInt]
  split_ifs with h
  · rw [h, FloatFormat.val40_zero]
    simp
  · rw [FloatFormat.val40_clean40]
    exact otherAccNear_spec k n _ w

/-! ### Floats to integers (R359) -/

theorem roundBy_intCast (dauc : BitVec 8) (n : ℤ) : roundBy dauc n = n := by
  have half : ⌊(n : ℚ) + 1 / 2⌋ = n := by
    rw [Int.floor_intCast_add]
    norm_num
  simp only [roundBy, half, Int.floor_intCast, Int.ceil_intCast, ite_self]

/-- The rounding of a quotient. -/
theorem roundBy_div (dauc : BitVec 8) (m : ℤ) {k : ℕ} (hk : 0 < k) :
    roundBy dauc (m / 2 ^ k) =
      if dauc.getLsbD 4 then if dauc.getLsbD 5 && decide (m < 0) then -(-m / 2 ^ k) else m / 2 ^ k
      else (m + 2 ^ (k - 1)) / 2 ^ k := by
  have down : ∀ n : ℤ, ⌊(n : ℚ) / 2 ^ k⌋ = n / 2 ^ k := fun n => by
    have := Rat.floor_intCast_div_natCast n (2 ^ k)
    push_cast at this
    exact this
  have up : ⌈(m : ℚ) / 2 ^ k⌉ = -(-m / 2 ^ k) := by
    have := Rat.ceil_intCast_div_natCast m (2 ^ k)
    push_cast at this
    exact this
  have near : (m : ℚ) / 2 ^ k + 1 / 2 = ((m + 2 ^ (k - 1) : ℤ) : ℚ) / 2 ^ k := by
    obtain ⟨j, rfl⟩ : ∃ j, k = j + 1 := ⟨k - 1, by omega⟩
    rw [Nat.add_sub_cancel, pow_succ]
    push_cast
    field_simp
  have sign : 0 ≤ (m : ℚ) / 2 ^ k ↔ ¬ m < 0 := by
    rw [le_div_iff₀ (by positivity), zero_mul, Int.cast_nonneg_iff, not_lt]
  rw [roundBy, near, down, down, up]
  cases dauc.getLsbD 4
  · rfl
  cases dauc.getLsbD 5
  · rfl
  · by_cases h : m < 0 <;> simp [sign, h]

/-- The value of an accumulator by its fields (R324). -/
theorem val40_of_ne {a : Acc40} (h : exponent40 a ≠ 0) :
    val40 a * 2 ^ 159 = mantissa40 a * 2 ^ exponent40 a := by
  have exact := exact40_cast a
  have split : scale = 2 ^ 159 * 2 ^ 143 := pow_add 2 159 143
  rw [exact40_of_ne h, split, pow_add, ← mul_assoc, ← mul_assoc, Int.cast_mul, Int.cast_mul, Int.cast_pow,
    Int.cast_pow, Int.cast_ofNat] at exact
  exact (mul_right_cancel₀ (pow_ne_zero _ two_ne_zero) exact).symm

/-- In the default format: an integer stays, and a quotient of the mantissa is rounded (R359). -/
theorem roundInt_default (dauc : BitVec 8) (a : Acc40) : roundInt dauc a = roundBy dauc (val40 a) := by
  have power : (2 : ℚ) ^ 159 ≠ 0 := pow_ne_zero _ two_ne_zero
  by_cases zero : exponent40 a = 0
  · have value : val40 a = (0 : ℤ) := ((stands_exact40 a).eq_iff .zero).2 (exact40_of_zero zero)
    rw [value, roundBy_intCast]
    exact if_pos zero
  by_cases whole : 159 ≤ exponent40 a
  · have value : val40 a = (mantissa40 a * 2 ^ (exponent40 a - 159) : ℤ) := by
      apply mul_right_cancel₀ power
      rw [val40_of_ne zero]
      push_cast
      rw [mul_assoc, ← pow_add, Nat.sub_add_cancel whole]
    rw [value, roundBy_intCast, ← Int.shiftLeft_eq]
    exact (if_neg zero).trans (if_pos whole)
  · have value : val40 a = mantissa40 a / 2 ^ (159 - exponent40 a) := by
      apply mul_right_cancel₀ power
      have split : (2 : ℚ) ^ 159 = 2 ^ (159 - exponent40 a) * 2 ^ exponent40 a := by
        rw [← pow_add, Nat.sub_add_cancel (by omega)]
      rw [val40_of_ne zero, split, ← mul_assoc, div_mul_cancel₀ _ (pow_ne_zero _ two_ne_zero)]
    rw [value, roundBy_div dauc _ (by omega)]
    simp only [roundInt, if_neg zero, if_neg whole, Int.shiftRight_eq_div_pow, Int.shiftLeft_eq, one_mul,
      Nat.cast_pow, Nat.cast_ofNat]

end Machine

/-- The rounding is that of the value, in every format (R359). -/
theorem FloatFormat.roundInt_eq (fm : FloatFormat) (dauc : BitVec 8) (a : Acc40) :
    fm.roundInt dauc a = roundBy dauc (fm.val40 a) := by
  cases fm with
  | excess128 => exact roundInt_default dauc a
  | other k =>
    show roundRat dauc (otherVal40 k a) = roundBy dauc (otherVal40 k a)
    have up : ∀ x : ℚ, x.ceil = ⌈x⌉ := Rat.ceil_eq_neg_floor_neg
    rw [roundRat, roundBy, up]
    cases dauc.getLsbD 4
    · rfl
    cases dauc.getLsbD 5
    · rfl
    · by_cases h : otherVal40 k a < 0
      · simp [h, h.not_ge]
      · simp only [h, not_lt.1 h]
        rfl

end Sys2Proof
end

section
/-! SUPPORT. The special functions that convert integers, as instances of the common execution (R352 to
R363). -/

namespace Sys2Proof.Machine

/-! ### The limits of a companding law (R363) -/

/-- The code of a value beyond those of all codes, or below them, is a limiting one. -/
structure Limits (val : Byte → ℤ) (x : ℚ) (c : Byte) : Prop where
  above : (∀ b, val b < x) → ∀ b, val b ≤ val c
  below : (∀ b, x < val b) → ∀ b, val c ≤ val b

theorem saturate_limits (val : Byte → ℤ) (x : ℚ) (choice : Byte) :
    Limits val x (saturate val x choice) where
  above h b := by
    have high := h (limitCode val true 255)
    have low := h (limitCode val false 255)
    rw [saturate, if_neg low.not_gt, if_pos high]
    split_ifs with same
    · exact (limitCode_top val b).trans_eq same.symm
    · exact limitCode_top val b
  below h b := by
    have low := h (limitCode val false 255)
    rw [saturate, if_pos low]
    split_ifs with same
    · exact same.trans_le (limitCode_bottom val b)
    · exact limitCode_bottom val b

/-- Truncation keeps a value at or beyond a magnitude there (R363). -/
theorem le_natAbs_truncate {x : ℚ} {n : ℕ} (h : (n : ℚ) ≤ x ∨ x ≤ -n) :
    n ≤ (roundBy 0x30#8 x).natAbs := by
  have truncates : roundBy 0x30#8 x = if 0 ≤ x then ⌊x⌋ else ⌈x⌉ := rfl
  rw [truncates]
  obtain h | h := h
  · have le : (n : ℤ) ≤ ⌊x⌋ := Int.le_floor.2 h
    rw [if_pos ((Nat.cast_nonneg n).trans h)]
    omega
  · have le : ⌈x⌉ ≤ -(n : ℤ) := Int.ceil_le.2 (by push_cast; exact h)
    split_ifs with sign
    · have zero : n = 0 := by
        have nonpos : (n : ℚ) ≤ 0 := by linarith
        exact Nat.cast_nonpos.1 nonpos
      omega
    · omega

/-- The last µ-law code of each sign. -/
theorem compressMu_limit (neg : Bool) {mag : ℕ} (h : 8031 ≤ mag) :
    compressMu neg mag = if neg then 0x00#8 else 0x80#8 := by
  have seg : (min (mag + 33) 8191).log2 = 12 := (Nat.log2_eq_iff (by omega)).2 (by omega)
  have step : min (mag + 33) 8191 >>> 8 = 31 := by rw [Nat.shiftRight_eq_div_pow]; omega
  simp only [compressMu, seg, Nat.reduceSub, Nat.reduceAdd, step]
  cases neg <;> rfl

/-- The last A-law code of each sign. -/
theorem compressA_limit (neg : Bool) {mag : ℕ} (h : 4032 ≤ mag) :
    compressA neg mag = if neg then 0x2A#8 else 0xAA#8 := by
  have seg : (min mag 4095).log2 = 11 := (Nat.log2_eq_iff (by omega)).2 (by omega)
  have large : ¬ min mag 4095 < 32 := by omega
  have step : min mag 4095 >>> 7 = 31 := by rw [Nat.shiftRight_eq_div_pow]; omega
  simp only [compressA, seg, if_neg large, Nat.reduceSub, step]
  cases neg <;> rfl

theorem expandMu_bounds : ∀ b, expandMu 0x00#8 ≤ expandMu b ∧ expandMu b ≤ expandMu 0x80#8 := by decide

theorem expandA_bounds : ∀ b, expandA 0x2A#8 ≤ expandA b ∧ expandA b ≤ expandA 0xAA#8 := by decide

/-- A table whose codes `hi` and `lo` have the values `n` and -n, the greatest and the least, is limited by a
code that is `hi` or `lo`, by sign, from the magnitude `n` on. -/
theorem limits_of_last {val : Byte → ℤ} {lo hi : Byte} (n : ℕ) (values : val lo = -n ∧ val hi = n)
    (bounds : ∀ b, val lo ≤ val b ∧ val b ≤ val hi) {code : Bool → ℕ → Byte}
    (last : ∀ neg {mag}, n ≤ mag → code neg mag = if neg then lo else hi) (x : ℚ) :
    Limits val x (code (decide (x < 0)) (roundBy 0x30#8 x).natAbs) := by
  obtain ⟨least, greatest⟩ := values
  have positive : (0 : ℚ) ≤ n := n.cast_nonneg
  refine ⟨fun h b => ?_, fun h b => ?_⟩
  · have beyond := h hi
    rw [greatest, Int.cast_natCast] at beyond
    rw [last _ (le_natAbs_truncate (.inl beyond.le)), decide_eq_false (positive.trans beyond.le).not_gt]
    exact (bounds b).2
  · have beyond := h lo
    rw [least, Int.cast_neg, Int.cast_natCast] at beyond
    rw [last _ (le_natAbs_truncate (.inr beyond.le)), decide_eq_true (by linarith)]
    exact (bounds b).1

/-- `compress` of every table (R363). -/
theorem compress_limits (ct : CompandTables) (aLaw : Bool) (fm : FloatFormat) (a : Acc40) :
    Limits (ct.expand (if aLaw then .aLaw else .muLaw)) (fm.val40 a) (ct.compress aLaw fm a) := by
  cases ct with
  | g711 =>
    rw [CompandTables.compress, compress, fm.sign_beq_lt, fm.roundInt_eq]
    cases aLaw with
    | false => exact limits_of_last (val := expandMu) 8031 ⟨rfl, rfl⟩ expandMu_bounds compressMu_limit _
    | true => exact limits_of_last (val := expandA) 4032 ⟨rfl, rfl⟩ expandA_bounds compressA_limit _
  | other k =>
    rw [CompandTables.compress, fm.number_eq]
    cases aLaw <;> exact saturate_limits _ _ _

/-! ### The common execution of format 5 (R352) -/

/-- Counting free values keeps the frame. -/
theorem DaFrame.addDraws {s u t : State} {aN : AccNo} {ops : List (DaMem × Nat)} {z : DaDest} {zn : Nat}
    (h : DaFrame s u t aN ops z zn) (k : Nat) : DaFrame s u (t.addDraws k) aN ops z zn where
  mem := h.mem
  bytes b hb := (SameMap.readByte ⟨rfl, rfl, rfl⟩ rfl b).trans (h.bytes b hb)
  accs := h.accs
  moved := h.moved
  regs := h.regs
  rest := congrArg (State.addDraws · k) h.rest

theorem DaFrame.pushOptional {s u t : State} {aN : AccNo} {ops : List (DaMem × Nat)} {z : DaDest} {zn : Nat}
    (h : DaFrame s u t aN ops z zn) (e : Option FlagEntry) : DaFrame s u (t.pushOptional e) aN ops z zn := by
  cases e with
  | none => exact h
  | some e => exact h.pushFlags e

theorem State.queue_pushOptional (s : State) (e : Option FlagEntry) :
    (s.pushOptional e).queue = s.queue ++ e.toList := by
  cases e with
  | none => exact (List.append_nil _).symm
  | some e => rfl

theorem State.acc_pushOptional (s : State) (e : Option FlagEntry) (a : AccNo) :
    (s.pushOptional e).acc a = s.acc a := by cases e <;> rfl

/-- A special function that writes Z converts (R352). -/
theorem specialCommon_converts {yn zn : Nat} {aN : AccNo} {y : DaOperand} {z : DaDest}
    {f : DaValue → SpecialResult} {s : State} {d : DaValue → Word} {e : DaValue → List FlagEntry}
    {p : DaValue → Acc40 → Prop} (data : ∀ v, (f v).zdata = some (d v))
    (flags : ∀ v, (f v).flags.toList = e v) (value : ∀ v, p v (f v).value) :
    Converts s (specialCommon yn zn aN y z f s) yn zn aN y z (fun v => some (d v)) e p := by
  intro yv u hy (hu : s.interleave.daWrite z zn (d yv) = .ok u)
  have write : s.interleave.zWrite z zn (f yv).zdata = .ok u := by
    rw [data]
    exact hu
  have pointers : ((u.setAcc aN (f yv).value).postOperand y yn).postDest z zn =
      (u.setAcc aN (f yv).value).postAll (memOperands (.acc 0) y z yn zn) :=
    State.postAll_memOperands _ (.acc 0) y z yn zn
  have frame := DaFrame.of_write hu aN (f yv).value (memOperands (.acc 0) y z yn zn)
  have moved := (u.setAcc aN (f yv).value).postAll_frame (memOperands (.acc 0) y z yn zn)
  have written := State.daWrite_frame hu
  refine ⟨_, specialCommon_of hy write, ?_⟩
  rw [pointers]
  refine ⟨?value, ?queue, (frame.pushOptional _).addDraws _⟩
  case value =>
    have acc : ((u.setAcc aN (f yv).value).postAll (memOperands (.acc 0) y z yn zn)).acc aN = (f yv).value := by
      rw [moved]
      exact State.acc_setAcc_same u aN _
    rw [State.acc_addDraws, State.acc_pushOptional, acc]
    exact value yv
  case queue =>
    refine (State.queue_pushOptional _ _).trans ?_
    rw [flags, moved, written]
    exact congrArg (· ++ _) s.interleave_queue

/-! ### Conversions of integers (R355, R356, R358) -/

/-- The result of the conversion of an integer is also the Z word. -/
theorem specialCommon_ofInt {yn : Nat} {aN : AccNo} {y : DaOperand} {z : DaDest} {s : State}
    (float : ℤ → Acc40) (n : DaValue → ℤ) :
    Converts s (specialCommon yn 4 aN y z (fun v => .ofDau (.ofInt (float (n v)) (n v))) s) yn 4 aN y z
      (fun v => some ((float (n v)).extractLsb' 8 32)) (fun v => entryOf (n v < 0) (n v = 0) false false false)
      (fun v a => a = float (n v)) :=
  specialCommon_converts (fun _ => rfl) (fun _ => rfl) fun _ => rfl

/-- The number of a byte under the law of `ic` (R355). -/
theorem expand_inputLaw (ct : CompandTables) (dauc : BitVec 8) (b : Byte) :
    ct.expand (inputLaw dauc) b =
      if dauc.getLsbD 2 then (b.toNat : ℤ) else ct.expand (if dauc.getLsbD 0 then .aLaw else .muLaw) b := by
  rw [inputLaw]
  cases dauc.getLsbD 2 <;> rfl

theorem exec_ic (s : State) (aN : AccNo) (y : DaOperand) (z : DaDest) :
    exec (.ic aN y z) s = specialCommon 1 4 aN y z (fun v => .ofDau (s.params.float.wordResult
      (s.params.compand.expand (inputLaw s.dauc) v.byteOperand))) s := rfl

/-- Settles O51: the formula of R357 is exact where 32 bits and a sign hold the integer, the nearest number is
taken in another format, and the rows are the common execution with that float. -/
theorem integersConvertExactly : Obligations.IntegersConvertExactly := by
  refine ⟨fun n lo hi => val40_floatOfInt (by omega) (by omega), fun n lo hi => val32_wordOfInt lo hi,
    fun k n => ⟨wordOfInt_nearest k n, floatOfInt_nearest k n⟩,
    fun s aN y z => ⟨?ic, ?float16, ?float32⟩⟩
  case ic =>
    have row := fun n => specialCommon_ofInt (yn := 1) (aN := aN) (y := y) (z := z) (s := s)
      (fun n => s.params.float.wordOfInt n ++ 0#8) n
    simp only [to32_to40] at row
    simp only [exec_ic, expand_inputLaw]
    exact row _
  case float16 => exact specialCommon_ofInt s.params.float.floatOfInt fun v => v.halfOperand.toInt
  case float32 => exact specialCommon_ofInt s.params.float.floatOfInt fun v => v.wordOperand.toInt

/-! ### Conversions to integers (R359 to R361, R363) -/

theorem satInt_eq {w : Nat} (i : ℤ) : satInt w i = clampTo w i := by
  rw [satInt, clampTo, Int.shiftLeft_eq, one_mul]

/-- A saturated integer is that of its bits. -/
theorem toInt_clampTo {w : Nat} (hw : 0 < w) (i : ℤ) :
    (BitVec.ofInt w (clampTo w i)).toInt = clampTo w i := by
  have positive : (0 : ℤ) < 2 ^ (w - 1) := pow_pos two_pos _
  have lo : -2 ^ (w - 1) ≤ clampTo w i := le_max_left _ _
  have hi : clampTo w i ≤ 2 ^ (w - 1) - 1 := max_le (by omega) (min_le_right _ _)
  exact BitVec.toInt_ofInt_eq_self hw lo (by omega)

/-- An integer in the word view of an accumulator is read there (R353). -/
theorem wordView_fromWordView (i : Word) (rest : BitVec 8) : wordView (fromWordView i rest) = i := by
  have high : (fromWordView i rest).extractLsb' 16 24 = i.extractLsb' 8 24 :=
    (BitVec.extractLsb'_append_eq_of_le (by decide)).trans BitVec.extractLsb'_append_eq_left
  have low : (fromWordView i rest).extractLsb' 0 8 = i.extractLsb' 0 8 := BitVec.extractLsb'_append_eq_right
  rw [wordView, high, low, BitVec.extractLsb'_append_extractLsb'_eq_extractLsb' (by rfl)]
  exact BitVec.extractLsb'_eq_self

/-- The code of `oc` as a number (R363). -/
theorem ocCode_toNat (p : Params) (dauc : BitVec 8) (a : Acc40) :
    (p.ocCode dauc a).toNat =
      if dauc.getLsbD 3 then (max 0 (min 255 (p.float.roundInt dauc a))).toNat
      else (p.compand.compress (dauc.getLsbD 1) p.float a).toNat := by
  rw [Params.ocCode, outputLaw]
  cases dauc.getLsbD 3
  · cases dauc.getLsbD 1 <;> rfl
  · simp only [if_true, BitVec.toNat_ofInt]
    omega

/-- Settles O52: the rounding is that of the value in every format, the codes at the ends are the limiting ones,
and the rows are the common execution with the saturated integer or the code. -/
theorem floatsRoundAndSaturate : Obligations.FloatsRoundAndSaturate := by
  refine ⟨FloatFormat.excess128.roundInt_eq, fun ct aLaw fm a => ?limits,
    fun s aN y z => ⟨?int16, ?int32, ?oc⟩⟩
  case limits =>
    obtain ⟨above, below⟩ := compress_limits ct aLaw fm a
    exact ⟨above, below⟩
  case int16 =>
    refine specialCommon_converts (fun v => ?_) (fun _ => rfl) fun v => ?_
    · rw [satInt_eq, BitVec.ofNat_toNat]
    · rw [BitVec.extractLsb'_append_eq_left, satInt_eq]
      exact toInt_clampTo (by decide) _
  case int32 =>
    refine specialCommon_converts (fun v => ?_) (fun _ => rfl) fun v => ?_
    · rw [satInt_eq]
    · rw [satInt_eq]
      exact (congrArg BitVec.toInt (wordView_fromWordView _ _)).trans (toInt_clampTo (by decide) _)
  case oc =>
    refine specialCommon_converts (fun v => ?_) (fun _ => rfl) fun v => ?_
    · refine congrArg some (Eq.trans ?_ (congrArg (BitVec.ofNat 32) (ocCode_toNat _ _ _)))
      exact (BitVec.ofNat_toNat 32 _).symm
    · exact (congrArg BitVec.toNat BitVec.extractLsb'_append_eq_left).trans (ocCode_toNat _ _ _)

end Sys2Proof.Machine
end

section
/-! SUPPORT. The special functions whose result is a word of Y: `seed` and the conditional loads (R352, R366 to
R371). -/

namespace Sys2Proof
open Machine

namespace Machine

/-! ### A Z write that may be skipped (R352, R368) -/

/-- A skipped write is the write of no destination. -/
theorem State.zWrite_ok {s u : State} {z : DaDest} {n : Nat} {d : Option Word} (h : s.zWrite z n d = .ok u) :
    ∃ z' v, s.daWrite z' n v = .ok u ∧ ∀ m, z' = .mem m → z = .mem m := by
  cases d with
  | none => exact ⟨.none, 0#32, h, fun _ e => nomatch e⟩
  | some v => exact ⟨z, v, h, fun _ e => e⟩

/-- What an optional write leaves, with the accumulator written and the pointers moved. -/
theorem DaFrame.of_zWrite {s u : State} {z : DaDest} {zn : Nat} {d : Option Word}
    (hu : s.zWrite z zn d = .ok u) (aN : AccNo) (v : Acc40) (ops : List (DaMem × Nat)) :
    DaFrame s u ((u.setAcc aN v).postAll ops) aN ops z zn := by
  obtain ⟨z', w, write, dest⟩ := State.zWrite_ok hu
  obtain ⟨mem, bytes, accs, moved, regs, rest⟩ := DaFrame.of_write write aN v ops
  exact ⟨mem, fun b hb => bytes b fun m hm => hb m (dest m hm), accs, moved, regs, rest⟩

theorem State.queue_zWrite {s u : State} {z : DaDest} {n : Nat} {d : Option Word} (h : s.zWrite z n d = .ok u) :
    u.queue = s.queue := by
  obtain ⟨z', v, write, -⟩ := State.zWrite_ok h
  rw [State.daWrite_frame write]

theorem State.acc_postAll (s : State) (ops : List (DaMem × Nat)) (a : AccNo) :
    (s.postAll ops).acc a = s.acc a := by
  rw [s.postAll_frame ops]
  rfl

theorem State.queue_postAll (s : State) (ops : List (DaMem × Nat)) : (s.postAll ops).queue = s.queue := by
  rw [s.postAll_frame ops]

/-- A special function without flags converts, whether it writes Z or not (R352). -/
theorem specialCommon_converts_optional {yn zn : Nat} {aN : AccNo} {y : DaOperand} {z : DaDest} {s : State}
    (f : DaValue → SpecialResult) (flags : ∀ v, (f v).flags = none) :
    Converts s (specialCommon yn zn aN y z f s) yn zn aN y z (fun v => (f v).zdata) (fun _ => [])
      (fun v a => a = (f v).value) := by
  intro yv u hy written
  have write : s.interleave.zWrite z zn (f yv).zdata = .ok u := by
    rw [← written]
    dsimp only
    cases (f yv).zdata <;> rfl
  have pointers : ((u.setAcc aN (f yv).value).postOperand y yn).postDest z zn =
      (u.setAcc aN (f yv).value).postAll (memOperands (.acc 0) y z yn zn) :=
    State.postAll_memOperands _ (.acc 0) y z yn zn
  refine ⟨_, specialCommon_of hy write, ?_⟩
  rw [flags, pointers]
  refine ⟨?value, ?queue, (DaFrame.of_zWrite write aN _ _).addDraws _⟩
  case value => exact (State.acc_postAll _ _ _).trans (State.acc_setAcc_same u aN _)
  case queue =>
    calc ((u.setAcc aN (f yv).value).postAll (memOperands (.acc 0) y z yn zn)).queue
      _ = u.queue := State.queue_postAll _ _
      _ = s.queue := (State.queue_zWrite write).trans s.interleave_queue
      _ = s.queue ++ [] := (List.append_nil _).symm

/-! ### The conditional loads (R367, R368) -/

/-- The flags tested are the newest in flight, or the settled ones (R367). -/
theorem State.testedFlags_eq {s : State} {e : FlagEntry}
    (h : s.params.ifaSettled = false ∧ s.queue.getLast? = some e ∨
      (s.params.ifaSettled = true ∨ s.queue = []) ∧ e.n = s.ps.getLsbD 4 ∧ e.z = s.ps.getLsbD 5) :
    s.testedFlags = (e.n, e.z) := by
  obtain ⟨newest, last⟩ | ⟨settled | empty, n, z⟩ := h
  · simp only [State.testedFlags, newest, last, Bool.false_eq_true, if_false]
  · simp only [State.testedFlags, settled, if_true, n, z, State.dauN, State.dauZ]
  · simp only [State.testedFlags, empty, List.getLast?_nil, ite_self, n, z, State.dauN, State.dauZ]

/-- A conditional load, the test having the truth `b` (R368). -/
theorem specialCommon_ifResult {s : State} {t : IfTest} {b : Bool} (h : s.ifTest t = b) (aN : AccNo)
    (y : DaOperand) (z : DaDest) :
    Converts s (specialCommon 4 4 aN y z (s.ifResult t aN) s) 4 4 aN y z
      (fun v => if s.dauc.getLsbD 6 && !b then none
        else some ((if b then v.adder s.params.float else s.acc aN).extractLsb' 8 32))
      (fun _ => []) (fun v a => a = if b then v.adder s.params.float else s.acc aN) := by
  subst h
  exact specialCommon_converts_optional (s.ifResult t aN) fun _ => rfl

end Machine

/-- Settles O56: the rows are the common execution of their tests, and these look at the flags named. -/
theorem conditionalLoadsFollowTheNewestFlags : Obligations.ConditionalLoadsFollowTheNewestFlags := by
  intro s aN y z e h
  have tested := State.testedFlags_eq h
  have lt : s.ifTest .lt = e.n := congrArg Prod.fst tested
  have eq : s.ifTest .eq = e.z := congrArg Prod.snd tested
  have gt : s.ifTest .gt = (!e.n && !e.z) := by rw [← lt, ← eq]; rfl
  simp only [List.forall_mem_cons, List.not_mem_nil, false_imp_iff, implies_true, and_true]
  exact ⟨specialCommon_ifResult lt aN y z, specialCommon_ifResult eq aN y z, specialCommon_ifResult gt aN y z⟩

/-! ### The seed (R366) -/

/-- The inversion of every bit but the sign, as a number. -/
theorem xor_signless (w : Word) :
    w ^^^ 0x7FFFFFFF#32 = BitVec.ofNat 32 (w.toNat / 2 ^ 31 * 2 ^ 31 + (2 ^ 31 - 1 - w.toNat % 2 ^ 31)) := by
  obtain ⟨b, r, rfl⟩ : ∃ (b : Bool) (r : BitVec 31), w = BitVec.cons b r :=
    ⟨_, _, (BitVec.cons_msb_setWidth w).symm⟩
  have inverted : BitVec.cons b r ^^^ 0x7FFFFFFF#32 = BitVec.cons b (~~~r) := by
    have mask : 0x7FFFFFFF#32 = BitVec.cons false (BitVec.allOnes 31) := rfl
    rw [mask, BitVec.cons_xor_cons, BitVec.xor_allOnes, Bool.xor_false]
  apply BitVec.eq_of_toNat_eq
  rw [inverted, BitVec.toNat_ofNat, BitVec.toNat_cons', BitVec.toNat_cons', BitVec.toNat_not, Nat.shiftLeft_eq]
  have := r.isLt
  cases b <;> simp only [Bool.toNat_false, Bool.toNat_true] <;> omega

/-- A word as an accumulator is no dirty zero. -/
theorem FloatFormat.clean40_to40 (fm : FloatFormat) (w : Word) : fm.clean40 (fm.to40 w) = fm.to40 w := by
  by_cases zero : fm.isZero w = true
  · rw [to40, clean32, if_pos zero, clean40]
    exact ite_self 0#40
  · rw [to40, clean32, if_neg zero, clean40, ← isZero_eq, if_neg zero]

/-- `seed` of a word (R366). -/
theorem FloatFormat.seed_eq (fm : FloatFormat) (w : Word) :
    let r := fm.to40 (w ^^^ 0x7FFFFFFF#32)
    fm.seed w = ⟨r, fm.sign r == .lt, fm.sign r == .eq, false, fm.sign r == .eq⟩ := by
  simp only [seed, result, clean40_to40]

/-- Settles O55: the zeros and signs are those of the values, and the row is the common execution with the
inverted word. -/
theorem seedInvertsAllButTheSign : Obligations.SeedInvertsAllButTheSign := by
  refine ⟨fun w => ?zero, fun a => ⟨?negative, ?null⟩, fun s aN y z => ?row⟩
  case zero =>
    rw [FloatFormat.isZero, Bool.beq_eq_decide_eq, decide_eq_decide, ← BitVec.toNat_inj,
      BitVec.extractLsb'_toNat]
    rfl
  case negative =>
    rw [FloatFormat.sign_eq, compare_lt_iff_lt]
    rfl
  case null =>
    rw [FloatFormat.sign_eq, compare_eq_iff_eq]
    rfl
  case row =>
    have seed : ∀ v : DaValue, s.params.float.seed v.raw = _ := fun v => s.params.float.seed_eq v.raw
    simp only [xor_signless] at seed
    exact specialCommon_converts (fun v => by rw [seed]; exact congrArg some (to32_to40 _))
      (fun v => by rw [seed]; rfl) fun v => by rw [seed]; rfl

end Sys2Proof
end

section
/-! SUPPORT. `round` in the default format: the nearest mantissa of 24 bits, renormalized (R365). -/

namespace Sys2Proof.Machine

/-! ### The mantissa and the exponent of an accumulator (R324) -/

/-- The mantissa times 2^23 that the sign and the fraction of a word stand for (R323). -/
def leadMantissa (m : BitVec 24) : ℤ :=
  if 8388608 ≤ m.toNat then (m.toNat : ℤ) - 25165824 else m.toNat + 8388608

/-- The fields of an accumulator as `round` takes them apart. -/
theorem parts_append (m : BitVec 24) (e g : BitVec 8) {t : Acc40} (h : t = m ++ e ++ g) :
    t.extractLsb' 16 24 = m ∧ t.extractLsb' 8 8 = e ∧ t.extractLsb' 8 32 = m ++ e ∧ t.extractLsb' 0 8 = g ∧
      t.getLsbD 39 = decide (8388608 ≤ m.toNat) ∧ t.getLsbD 7 = decide (128 ≤ g.toNat) := by
  subst h
  have sign : (m ++ e ++ g).getLsbD 39 = m.msb := BitVec.getLsbD_append.trans BitVec.getLsbD_append
  have half : (m ++ e ++ g).getLsbD 7 = g.msb := BitVec.getLsbD_append
  refine ⟨?_, ?_, BitVec.extractLsb'_append_eq_left, BitVec.extractLsb'_append_eq_right, ?_, ?_⟩
  · exact (BitVec.extractLsb'_append_eq_of_le (by decide)).trans BitVec.extractLsb'_append_eq_left
  · exact (BitVec.extractLsb'_append_eq_of_le (by decide)).trans BitVec.extractLsb'_append_eq_right
  · rw [sign, BitVec.msb_eq_decide]
  · rw [half, BitVec.msb_eq_decide]

theorem exists_append (t : Acc40) : ∃ (m : BitVec 24) (e g : BitVec 8), t = m ++ e ++ g := by
  refine ⟨t.extractLsb' 16 24, t.extractLsb' 8 8, t.extractLsb' 0 8, ?_⟩
  rw [BitVec.extractLsb'_append_extractLsb'_eq_extractLsb' (by rfl),
    BitVec.extractLsb'_append_extractLsb'_eq_extractLsb' (by rfl)]
  exact BitVec.extractLsb'_eq_self.symm

variable (m : BitVec 24) (e g : BitVec 8)

theorem exponent40_append : exponent40 (m ++ e ++ g) = e.toNat :=
  congrArg BitVec.toNat (parts_append m e g rfl).2.1

theorem mantissa40_append : mantissa40 (m ++ e ++ g) = leadMantissa m * 256 + g.toNat := by
  obtain ⟨-, -, -, low, sign, -⟩ := parts_append m e g rfl
  have fraction : (m ++ e ++ g).extractLsb' 16 23 = m.extractLsb' 0 23 :=
    (BitVec.extractLsb'_append_eq_of_le (by decide)).trans (BitVec.extractLsb'_append_eq_of_le (by decide))
  have bits : ((m ++ e ++ g).extractLsb' 16 23 ++ (m ++ e ++ g).extractLsb' 0 8).toNat =
      m.toNat % 8388608 * 256 + g.toNat := by
    rw [fraction, low, BitVec.toNat_append, ← Nat.shiftLeft_add_eq_or_of_lt g.isLt, Nat.shiftLeft_eq,
      BitVec.extractLsb'_toNat]
    rfl
  have := m.isLt
  simp only [mantissa40, bits, sign, leadMantissa, decide_eq_true_eq]
  split <;> push_cast <;> omega

theorem exact40_append (h : e ≠ 0#8) :
    exact40 (m ++ e ++ 0#8) = leadMantissa m * 2 ^ (e.toNat + 151) := by
  have field : exponent40 (m ++ e ++ 0#8) ≠ 0 := by
    rw [exponent40_append]
    exact fun zero => h (BitVec.toNat_inj.1 zero)
  have place : (2 : ℤ) ^ (e.toNat + 151) = 256 * 2 ^ (e.toNat + 143) := by
    rw [show e.toNat + 151 = 8 + (e.toNat + 143) by omega, pow_add]
    rfl
  rw [exact40_of_ne field, exponent40_append, mantissa40_append, place, ← mul_assoc]
  exact congrArg (· * _) (add_zero _)

/-- The mantissa of 24 bits that is nearest, the greater of two (R365). -/
def roundedMantissa (t : Acc40) : ℤ := (mantissa40 t + 128) / 256

theorem roundedMantissa_append :
    roundedMantissa (m ++ e ++ g) = leadMantissa m + if 128 ≤ g.toNat then 1 else 0 := by
  have := g.isLt
  rw [roundedMantissa, mantissa40_append]
  split <;> omega

/-- `round` by the parts of its operand. -/
theorem round40_append : round40 (m ++ e ++ g) =
    if e = 0#8 then .zero false
    else if g.toNat < 128 then .ofBits (m ++ e ++ 0#8)
    else if m.toNat % 8388608 ≠ 8388607 then .ofBits ((m + 1#24) ++ e ++ 0#8)
    else if 8388608 ≤ m.toNat then
      if e = 1#8 then .zero true else .ofBits (0x800000#24 ++ (e - 1#8) ++ 0#8)
    else if e = 255#8 then ⟨0x7FFFFFFF00#40, false, false, true, false⟩
    else .ofBits (0x000000#24 ++ (e + 1#8) ++ 0#8) := by
  obtain ⟨high, field, word, -, sign, half⟩ := parts_append m e g rfl
  have ones : m.extractLsb' 0 23 ≠ 0x7FFFFF#23 ↔ m.toNat % 8388608 ≠ 8388607 := by
    rw [ne_eq, ← BitVec.toNat_inj, BitVec.extractLsb'_toNat]
    rfl
  simp only [round40, high, field, word, sign, half, ones, decide_eq_false_iff_not, not_le,
    decide_eq_true_eq]

/-- The mantissa with a carry out of the fraction, or without. -/
theorem leadMantissa_succ :
    m.toNat % 8388608 ≠ 8388607 ∧ leadMantissa (m + 1#24) = leadMantissa m + 1 ∨
    m.toNat % 8388608 = 8388607 ∧ leadMantissa m + 1 = if 8388608 ≤ m.toNat then -8388608 else 16777216 := by
  have lt := m.isLt
  have next : (m + 1#24).toNat = (m.toNat + 1) % 16777216 := BitVec.toNat_add m 1#24
  simp only [leadMantissa, next]
  split <;> split <;> omega

/-- The operand `t` lies within the format after rounding, and `r` is the word of its rounded mantissa. -/
def RoundsWithin (t : Acc40) (r : DauResult) : Prop :=
  ∃ w : Word, r = .ofBits (w ++ 0#8) ∧ exact40 (w ++ 0#8) = roundedMantissa t * 2 ^ (exponent40 t + 151)

theorem roundsWithin_of_value {t : Acc40} (he : e ≠ 0#8)
    (value : leadMantissa m * 2 ^ e.toNat = roundedMantissa t * 2 ^ exponent40 t) :
    RoundsWithin t (.ofBits (m ++ e ++ 0#8)) :=
  ⟨m ++ e, rfl, by rw [exact40_append m e he, pow_add, pow_add, ← mul_assoc, value, mul_assoc]⟩

/-- Everything `round` can do (R365). -/
theorem round40_cases (t : Acc40) :
    (exponent40 t = 0 ∧ round40 t = .zero false) ∨
    exponent40 t ≠ 0 ∧
      ((roundedMantissa t = 16777216 ∧ exponent40 t = 255 ∧
        round40 t = ⟨0x7FFFFFFF00#40, false, false, true, false⟩) ∨
      (roundedMantissa t = -8388608 ∧ exponent40 t = 1 ∧ round40 t = .zero true) ∨
      RoundsWithin t (round40 t)) := by
  obtain ⟨m, e, g, rfl⟩ := exists_append t
  have exponent := exponent40_append m e g
  have mantissa := roundedMantissa_append m e g
  rw [round40_append]
  by_cases he : e = 0#8
  · subst he
    exact .inl ⟨exponent, if_pos rfl⟩
  have field : e.toNat ≠ 0 := fun zero => he (BitVec.toNat_inj.1 zero)
  rw [if_neg he]
  refine .inr ⟨by rwa [exponent], ?_⟩
  by_cases low : g.toNat < 128
  · rw [if_neg (by omega), add_zero] at mantissa
    rw [if_pos low]
    exact .inr (.inr (roundsWithin_of_value m e he (by rw [exponent, mantissa])))
  rw [if_pos (by omega)] at mantissa
  rw [if_neg low]
  obtain ⟨ones, next⟩ | ⟨ones, next⟩ := leadMantissa_succ m
  · rw [if_pos ones]
    exact .inr (.inr (roundsWithin_of_value _ e he (by rw [exponent, mantissa, next])))
  rw [if_neg (not_not.2 ones)]
  rw [next] at mantissa
  by_cases sign : 8388608 ≤ m.toNat
  · rw [if_pos sign] at mantissa ⊢
    by_cases last : e = 1#8
    · subst last
      exact .inr (.inl ⟨mantissa, exponent, if_pos rfl⟩)
    have less : (e - 1#8).toNat + 1 = e.toNat := by bv_omega
    have lead : leadMantissa 0x800000#24 = -8388608 * 2 := rfl
    rw [if_neg last]
    refine .inr (.inr (roundsWithin_of_value _ _ (by bv_omega) ?_))
    rw [mantissa, exponent, ← less, lead, pow_succ', mul_assoc]
  · rw [if_neg sign] at mantissa ⊢
    by_cases last : e = 255#8
    · subst last
      exact .inl ⟨mantissa, exponent, if_pos rfl⟩
    have more : (e + 1#8).toNat = e.toNat + 1 := by bv_omega
    have lead : leadMantissa 0x000000#24 * 2 = 16777216 := rfl
    rw [if_neg last]
    refine .inr (.inr (roundsWithin_of_value _ _ (by bv_omega) ?_))
    rw [mantissa, exponent, more, ← lead, pow_succ', mul_assoc]

end Sys2Proof.Machine
end

section
/-! SUPPORT. In the default format `round` gives the nearest word, by integers at the machine's scale (R365). -/

namespace Sys2Proof
open Machine

/-! ### The nearest number (R365) -/

/-- `y` is as near to `x` as `z` is, and not less if both are equally near (R365). -/
def Machine.Nearest (x y z : ℚ) : Prop := |y - x| ≤ |z - x| ∧ (|y - x| = |z - x| → z ≤ y)

theorem Machine.Nearest.self (x z : ℚ) : Nearest x x z := by
  rw [Nearest, sub_self, abs_zero]
  exact ⟨abs_nonneg _, fun h => (sub_eq_zero.1 (abs_eq_zero.1 h.symm)).le⟩

/-- The same of the machine's integers, without magnitudes. -/
def Machine.RoundsTo (t r w : ℤ) : Prop := (w < r → w + r ≤ 2 * t) ∧ (r < w → 2 * t < w + r)

theorem Machine.Stands.add {v w : ℤ} {p q : ℚ} (h : Stands v q) (k : Stands w p) : Stands (v + w) (q + p) := by
  rw [Stands, Int.cast_add, h, k, add_mul]

theorem Machine.RoundsTo.nearest {t r w : ℤ} {x y z : ℚ} (h : RoundsTo t r w) (ht : Stands t x)
    (hr : Stands r y) (hw : Stands w z) : Nearest x y z := by
  obtain ⟨below, above⟩ := h
  rw [two_mul, ← (hw.add hr).le_iff (ht.add ht), ← hw.lt_iff hr] at below
  rw [two_mul, ← (ht.add ht).lt_iff (hw.add hr), ← hr.lt_iff hw] at above
  obtain less | rfl | greater := lt_trichotomy z y
  · have sum := below less
    refine ⟨?_, fun _ => less.le⟩
    rw [abs_of_nonpos (by linarith : z - x ≤ 0), abs_le]
    constructor <;> linarith
  · exact ⟨le_rfl, fun _ => le_rfl⟩
  · have sum := above greater
    have strict : |y - x| < |z - x| := by
      rw [abs_of_pos (by linarith : 0 < z - x), abs_lt]
      constructor <;> linarith
    exact ⟨strict.le, fun same => absurd same strict.ne⟩

/-! ### The default format (R365) -/

namespace Machine

theorem RoundsTo.mul {t r w d : ℤ} (h : RoundsTo t r w) (hd : 0 < d) : RoundsTo (t * d) (r * d) (w * d) := by
  obtain ⟨below, above⟩ := h
  rw [RoundsTo, ← add_mul, ← mul_assoc]
  simp only [mul_le_mul_iff_left₀ hd, mul_lt_mul_iff_left₀ hd]
  exact ⟨below, above⟩

/-- A word is a multiple of the last place at any exponent, or its magnitude is below all of that exponent. -/
theorem exact40_to40_cases (w : Word) (e : ℕ) :
    (∃ j, exact40 (w ++ 0#8) = j * 256 * 2 ^ (e + 143)) ∨
    -(2 ^ 31 * 2 ^ (e + 143)) ≤ exact40 (w ++ 0#8) ∧ exact40 (w ++ 0#8) < 2 ^ 31 * 2 ^ (e + 143) := by
  by_cases zero : exponent32 w = 0
  · have value : exact40 (w ++ 0#8) = 0 := exact40_of_zero (by rwa [exponent40_to40])
    exact .inl ⟨0, by rw [value]; ring⟩
  rw [exact40_to40 zero]
  by_cases le : e ≤ exponent32 w
  · refine .inl ⟨mantissa32 w * 2 ^ (exponent32 w - e), ?_⟩
    have split : exponent32 w + 151 = (exponent32 w - e) + 8 + (e + 143) := by omega
    rw [split, pow_add, pow_add]
    ring
  · obtain ⟨lo, hi⟩ := mantissa32_bounds w
    have top : (2 : ℤ) ^ 31 * 2 ^ (e + 143) =
        2 ^ 24 * 2 ^ (e - 1 - exponent32 w) * 2 ^ (exponent32 w + 151) := by
      rw [← pow_add, ← pow_add, ← pow_add]
      congr 1
      omega
    have one : (1 : ℤ) ≤ 2 ^ (e - 1 - exponent32 w) := one_le_pow₀ one_le_two
    have positive : (0 : ℤ) < 2 ^ (exponent32 w + 151) := pow_pos two_pos _
    rw [top, ← neg_mul, mul_le_mul_iff_left₀ positive, mul_lt_mul_iff_left₀ positive]
    omega

/-- The rounded mantissa, at the place of the operand, is nearest to it (R365). -/
theorem roundsTo_roundedMantissa {t : Acc40} (h : exponent40 t ≠ 0) (w : Word) :
    RoundsTo (exact40 t) (roundedMantissa t * 2 ^ (exponent40 t + 151)) (exact40 (w ++ 0#8)) := by
  have place : roundedMantissa t * 2 ^ (exponent40 t + 151) =
      256 * roundedMantissa t * 2 ^ (exponent40 t + 143) := by
    rw [show exponent40 t + 151 = 8 + (exponent40 t + 143) by omega, pow_add]
    ring
  have positive : (0 : ℤ) < 2 ^ (exponent40 t + 143) := pow_pos two_pos _
  have mantissa := isMantissa_mantissa40 t
  have rounded : roundedMantissa t = (mantissa40 t + 128) / 256 := rfl
  rw [place, exact40_of_ne h]
  obtain ⟨j, hj⟩ | ⟨lo, hi⟩ := exact40_to40_cases w (exponent40 t)
  · rw [hj]
    exact RoundsTo.mul (by unfold RoundsTo; omega) positive
  · unfold IsMantissa at mantissa
    generalize (2 : ℤ) ^ (exponent40 t + 143) = d at *
    generalize roundedMantissa t = n at *
    generalize mantissa40 t = m at *
    obtain ⟨least, -⟩ | ⟨-, greatest⟩ := mantissa
    · have up : 2 ^ 31 ≤ 256 * n ∧ 2 ^ 31 + 256 * n ≤ 2 * m := by omega
      constructor <;> intro <;> nlinarith
    · have down : 256 * n ≤ -2 ^ 31 ∧ 2 * m < -2 ^ 31 + 256 * n := by omega
      constructor <;> intro <;> nlinarith

/-- The midpoint above the largest word (R365). -/
theorem stands_overflow : Stands (4294967168 * 2 ^ 398) ((2 - 1 / 2 ^ 24) * 2 ^ 127) := by
  have split : (2 : ℚ) ^ 127 * scale = 2 ^ 31 * 2 ^ 398 := by rw [scale, ← pow_add, ← pow_add]
  rw [Stands, mul_assoc, split, Int.cast_mul, Int.cast_pow, ← mul_assoc]
  congr 1
  norm_num

/-- The midpoint between the two negative numbers of the smallest magnitude that a mantissa of 24 bits allows:
-(1 + 2^-23) * 2^-127, and -2^-127, which is no word (R365). -/
theorem stands_underflow : Stands (-2147483776 * 2 ^ 144) (-(1 + 1 / 2 ^ 24) / 2 ^ 127) := by
  have split : scale = 2 ^ 158 * 2 ^ 144 := pow_add 2 158 144
  rw [Stands, split, Int.cast_mul, Int.cast_pow, ← mul_assoc]
  congr 1
  norm_num

/-- The rounded mantissa reaches 2 with the largest exponent. -/
theorem overflow_iff (t : Acc40) :
    4294967168 * 2 ^ 398 ≤ exact40 t ↔ roundedMantissa t = 16777216 ∧ exponent40 t = 255 := by
  have mantissa := isMantissa_mantissa40 t
  have top : (0 : ℤ) < 2 ^ 397 := pow_pos two_pos _
  have double : (2 : ℤ) ^ 398 = 2 ^ 397 * 2 := pow_succ 2 397
  unfold IsMantissa at mantissa
  by_cases zero : exponent40 t = 0
  · rw [exact40_of_zero zero, double]
    constructor <;> intro <;> omega
  rw [exact40_of_ne zero, roundedMantissa]
  by_cases last : exponent40 t = 255
  · rw [last, mul_le_mul_iff_left₀ (pow_pos two_pos _)]
    omega
  · have le : (2 : ℤ) ^ (exponent40 t + 143) ≤ 2 ^ 397 :=
      pow_le_pow_right₀ one_le_two (by have := exponent40_lt t; omega)
    have positive : (0 : ℤ) < 2 ^ (exponent40 t + 143) := pow_pos two_pos _
    refine iff_of_false (not_le.2 ?_) fun h => last h.2
    calc mantissa40 t * 2 ^ (exponent40 t + 143)
      _ ≤ 2 ^ 32 * 2 ^ (exponent40 t + 143) := mul_le_mul_of_nonneg_right (by omega) positive.le
      _ ≤ 2 ^ 32 * 2 ^ 397 := mul_le_mul_of_nonneg_left le (by decide)
      _ < 4294967168 * 2 ^ 398 := by omega

/-- The rounded mantissa reaches -1 with the smallest exponent. -/
theorem underflow_iff (t : Acc40) :
    -2147483776 * 2 ^ 144 ≤ exact40 t ∧ exact40 t < 0 ↔
      roundedMantissa t = -8388608 ∧ exponent40 t = 1 := by
  have mantissa := isMantissa_mantissa40 t
  unfold IsMantissa at mantissa
  by_cases zero : exponent40 t = 0
  · rw [exact40_of_zero zero]
    omega
  rw [exact40_of_ne zero, roundedMantissa]
  by_cases last : exponent40 t = 1
  · rw [last, mul_le_mul_iff_left₀ (pow_pos two_pos _), mul_neg_iff]
    omega
  · have le : (2 : ℤ) ^ 145 ≤ 2 ^ (exponent40 t + 143) := pow_le_pow_right₀ one_le_two (by omega)
    have least : (0 : ℤ) < 2 ^ 144 := pow_pos two_pos _
    have double : (2 : ℤ) ^ 145 = 2 ^ 144 * 2 := pow_succ 2 144
    refine iff_of_false (fun ⟨lo, negative⟩ => ?_) fun h => last h.2
    have sign : mantissa40 t < 0 := neg_of_mul_neg_left negative (pow_pos two_pos _).le
    have high : mantissa40 t * 2 ^ (exponent40 t + 143) ≤ -2 ^ 31 * 2 ^ 145 :=
      calc mantissa40 t * 2 ^ (exponent40 t + 143)
        _ ≤ -2 ^ 31 * 2 ^ (exponent40 t + 143) := mul_le_mul_of_nonneg_right (by omega) (pow_pos two_pos _).le
        _ ≤ -2 ^ 31 * 2 ^ 145 := mul_le_mul_of_nonpos_left le (by decide)
    omega

/-- A result that is a word has neither flag, as its value is none of the two beyond the ends. -/
theorem RoundsWithin.noFlags {t : Acc40} {r : DauResult} (h : RoundsWithin t r) :
    ¬ (roundedMantissa t = 16777216 ∧ exponent40 t = 255) ∧
      ¬ (roundedMantissa t = -8388608 ∧ exponent40 t = 1) ∧ r.v = false ∧ r.u = false := by
  obtain ⟨w, rfl, value⟩ := h
  have range := exact40_cases (w ++ 0#8)
  have signs := range40_signs
  rw [ofBits_eq]
  refine ⟨fun ⟨mantissa, exponent⟩ => ?_, fun ⟨mantissa, exponent⟩ => ?_, rfl, rfl⟩
  · have beyond : largest40 < 16777216 * 2 ^ (255 + 151) := by
      rw [show 255 + 151 = 8 + 398 from rfl, pow_add, ← mul_assoc, largest40]
      exact mul_lt_mul_of_pos_right (by decide) (pow_pos two_pos _)
    rw [value, mantissa, exponent] at range
    omega
  · have below : greatestNegative40 < -8388608 * 2 ^ (1 + 151) ∧ (-8388608 : ℤ) * 2 ^ (1 + 151) < 0 := by
      rw [show 1 + 151 = 8 + 144 from rfl, pow_add, ← mul_assoc, greatestNegative40]
      exact ⟨mul_lt_mul_of_pos_right (by decide) (pow_pos two_pos _),
        mul_neg_of_neg_of_pos (by decide) (pow_pos two_pos _)⟩
    rw [value, mantissa, exponent] at range
    omega

/-- V and U of `round`, with their results (R365). -/
theorem round40_flags (t : Acc40) :
    let r := round40 t
    (r.v = true ↔ (2 - 1 / 2 ^ 24) * 2 ^ 127 ≤ val40 t) ∧
    (r.v = true → r = ⟨0x7FFFFFFF00#40, false, false, true, false⟩) ∧
    (r.u = true ↔ -(1 + 1 / 2 ^ 24) / 2 ^ 127 ≤ val40 t ∧ val40 t < 0) ∧
    (r.u = true → r = ⟨0#40, false, true, false, true⟩) := by
  have value := stands_exact40 t
  rw [stands_overflow.le_iff value, stands_underflow.le_iff value, value.lt_iff .zero, overflow_iff,
    underflow_iff]
  obtain ⟨zero, h⟩ | ⟨-, ⟨mantissa, exponent, h⟩ | ⟨mantissa, exponent, h⟩ | within⟩ := round40_cases t
  · simp [h, zero, DauResult.zero]
  · simp [h, mantissa, exponent]
  · simp [h, mantissa, exponent, DauResult.zero]
  · obtain ⟨noOverflow, noUnderflow, v, u⟩ := within.noFlags
    simp [v, u, noOverflow, noUnderflow]

/-- A result without V and U is a word, nearest to the operand, with its flags (R365). -/
theorem round40_nearest (t : Acc40) (w : Word) (hv : (round40 t).v = false) (hu : (round40 t).u = false) :
    let r := round40 t
    r.value.extractLsb' 0 8 = 0#8 ∧ RoundsTo (exact40 t) (exact40 r.value) (exact40 (w ++ 0#8)) ∧
      Coherent .excess128 r := by
  obtain ⟨zero, h⟩ | ⟨nonzero, ⟨-, -, h⟩ | ⟨-, -, h⟩ | ⟨r, h, value⟩⟩ := round40_cases t
  · rw [h, exact40_of_zero zero]
    refine ⟨rfl, ?_, .zero_result _ _⟩
    show RoundsTo 0 0 _
    unfold RoundsTo
    omega
  · rw [h] at hv
    exact absurd hv.symm Bool.false_ne_true
  · rw [h] at hu
    exact absurd hu.symm Bool.false_ne_true
  · have same : exact40 (FloatFormat.excess128.clean40 (r ++ 0#8)) = exact40 (r ++ 0#8) :=
      ((stands_exact40 _).eq_iff (stands_exact40 _)).1 (FloatFormat.excess128.val40_clean40 _)
    rw [h, ofBits_eq]
    refine ⟨?_, ?_, .result _ _ _ _⟩
    · show (FloatFormat.excess128.clean40 (r ++ 0#8)).extractLsb' 0 8 = 0#8
      rw [FloatFormat.clean40]
      split
      · rfl
      · exact (fields_to40 r).2.2.1
    · show RoundsTo _ (exact40 (FloatFormat.excess128.clean40 (r ++ 0#8))) _
      rw [same, value]
      exact roundsTo_roundedMantissa nonzero w

end Machine

end Sys2Proof
end

section
/-! SUPPORT. `round` in the other formats, and the row (R365). -/

namespace Sys2Proof
open Machine

namespace Machine

/-! ### The other formats (R365) -/

/-- An accumulator with guard bits 0 is a word. -/
theorem exists_to40 {a : Acc40} (h : a.extractLsb' 0 8 = 0#8) : ∃ w : Word, a = w ++ 0#8 := by
  refine ⟨to32 a, ?_⟩
  rw [to32, ← h, BitVec.extractLsb'_append_extractLsb'_eq_extractLsb' (by rfl)]
  exact BitVec.extractLsb'_eq_self.symm

/-- The result for an operand of value `v` is a word that is not zero, nearest to it, and overflows only where
`v` is beyond the largest magnitude. -/
structure RoundsToWord (k : ℕ) (v : ℚ) (r : DauResult) (w : Word) (ovf : Bool) : Prop where
  result : r = (FloatFormat.other k).result (w ++ 0#8) ovf false
  nonzero : otherVal32 k w ≠ 0
  nearest : ∀ u, Nearest v (otherVal32 k w) (otherVal32 k u)
  beyond : ovf = true → otherBound k (v < 0) < |v|

/-- Everything `round` can do in another format. -/
theorem otherRound_cases (k : ℕ) (t : Acc40) :
    otherVal40 k t = 0 ∧ otherRound k t = .zero false ∨
    otherVal40 k t ≠ 0 ∧
      (otherRound k t = .zero true ∨ ∃ w ovf, RoundsToWord k (otherVal40 k t) (otherRound k t) w ovf) := by
  simp only [otherRound]
  split_ifs with zero guard low
  · exact .inl ⟨zero, rfl⟩
  · obtain ⟨w, rfl⟩ := exists_to40 guard
    exact .inr ⟨zero, .inr ⟨w, false, rfl, zero, fun u => .self _ _, fun h => absurd h Bool.false_ne_true⟩⟩
  · exact .inr ⟨zero, .inl rfl⟩
  · exact .inr ⟨zero, .inr ⟨_, _, rfl, fun h => low (.inl h), otherWordNear_spec k _ _,
      (otherRange_spec k _ _ _).1⟩⟩

/-- A value of a magnitude beyond that of the extreme word of its sign is beyond that word. -/
theorem beyond_extreme {k : ℕ} {v : ℚ} (h : otherBound k (v < 0) < |v|) :
    otherVal32 k 0x7FFFFFFF#32 < v ∨ v < otherVal32 k 0x800000FF#32 := by
  rw [otherVal32_greatest, otherVal32_least]
  by_cases negative : v < 0
  · rw [decide_eq_true negative, abs_of_neg negative] at h
    exact .inr (by linarith)
  · rw [decide_eq_false negative, abs_of_nonneg (not_lt.1 negative)] at h
    exact .inl h

namespace RoundsToWord
variable {k : ℕ} {v : ℚ} {r : DauResult} {w : Word} {ovf : Bool} (h : RoundsToWord k v r w ovf)
include h

/-- A word that is not zero stays as a result. -/
theorem value : r.value = w ++ 0#8 := by
  have nonzero : ¬ (FloatFormat.other k).isZero40 (w ++ 0#8) = true := by
    rw [FloatFormat.isZero40_iff]
    exact h.nonzero
  rw [h.result]
  exact if_neg nonzero

theorem val40_value : otherVal40 k r.value = otherVal32 k w := congrArg (otherVal40 k) h.value

theorem flags : r.v = ovf ∧ r.u = false := by
  rw [h.result]
  exact ⟨rfl, rfl⟩

end RoundsToWord

section
variable (k : ℕ) (t : Acc40)

theorem otherRound_coherent : Coherent (.other k) (otherRound k t) := by
  obtain ⟨-, h⟩ | ⟨-, h | ⟨w, ovf, h⟩⟩ := otherRound_cases k t
  · exact h ▸ .zero_result _ _
  · exact h ▸ .zero_result _ _
  · exact h.result ▸ .result _ _ _ _

theorem otherRound_guard : (otherRound k t).value.extractLsb' 0 8 = 0#8 := by
  obtain ⟨-, h⟩ | ⟨-, h | ⟨w, ovf, h⟩⟩ := otherRound_cases k t
  · exact h ▸ rfl
  · exact h ▸ rfl
  · rw [h.value, (fields_to40 w).2.2.1]

theorem otherRound_nearest (hu : (otherRound k t).u = false) (w : Word) :
    Nearest (otherVal40 k t) (otherVal40 k (otherRound k t).value) (otherVal32 k w) := by
  obtain ⟨zero, h⟩ | ⟨-, h | ⟨r, ovf, h⟩⟩ := otherRound_cases k t
  · rw [zero, h]
    exact .self 0 _
  · rw [h] at hu
    exact absurd hu.symm Bool.false_ne_true
  · rw [h.val40_value]
    exact h.nearest w

theorem otherRound_underflow :
    (otherRound k t).u = true ↔ otherVal40 k t ≠ 0 ∧ (otherRound k t).value = 0#40 := by
  obtain ⟨zero, h⟩ | ⟨nonzero, h | ⟨w, ovf, h⟩⟩ := otherRound_cases k t
  · rw [h]
    exact iff_of_false Bool.false_ne_true fun both => both.1 zero
  · rw [h]
    exact iff_of_true rfl ⟨nonzero, rfl⟩
  · rw [h.flags.2]
    refine iff_of_false Bool.false_ne_true fun both => h.nonzero ?_
    rw [← h.val40_value, both.2, otherVal40_zero]

theorem otherRound_overflow (hv : (otherRound k t).v = true) :
    otherVal32 k 0x7FFFFFFF#32 < otherVal40 k t ∨ otherVal40 k t < otherVal32 k 0x800000FF#32 := by
  obtain ⟨-, h⟩ | ⟨-, h | ⟨w, ovf, h⟩⟩ := otherRound_cases k t
  · rw [h] at hv
    exact absurd hv Bool.false_ne_true
  · rw [h] at hv
    exact absurd hv Bool.false_ne_true
  · exact beyond_extreme (h.beyond (h.flags.1.symm.trans hv))

end

end Machine

/-- Settles O53: by the cases of `round`, the rounded mantissa of 24 bits being nearest in the default format, and
`otherWordNear` in the others. -/
theorem roundGivesTheNearestFloat : Obligations.RoundGivesTheNearestFloat := by
  refine ⟨fun t w => ?default, fun k t w => ?other, fun s aN y z => ?row⟩
  case default =>
    obtain ⟨v, overflow, u, underflow⟩ := round40_flags t
    refine ⟨v, overflow, u, underflow, fun hv hu => ?_⟩
    obtain ⟨guard, nearest, n, z, -⟩ := round40_nearest t w hv hu
    have value := val32_eq_val40 w ▸ stands_exact40 (w ++ 0#8)
    obtain ⟨near, tie⟩ := nearest.nearest (stands_exact40 t) (stands_exact40 _) value
    exact ⟨guard, near, tie, n, z⟩
  case other =>
    obtain ⟨n, z, -⟩ := otherRound_coherent k t
    exact ⟨otherRound_guard k t, n, z, fun hu => otherRound_nearest k t hu w, otherRound_underflow k t,
      otherRound_overflow k t⟩
  case row => exact specialCommon_converts (fun _ => rfl) (fun _ => rfl) fun _ => rfl

end Sys2Proof
end

section
/-! SUPPORT. Words by their fields in the default format and in that of IEEE, and the numbers they stand for
(R323, R362, R364). -/

namespace Sys2Proof
open Machine

namespace Machine

/-! ### Words by their fields -/

/-- A word of the default format: sign, fraction, exponent (R323). -/
def dspWord (s : Bool) (f : BitVec 23) (e : BitVec 8) : Word := BitVec.ofBool s ++ f ++ e

/-- An IEEE word: sign, exponent, mantissa (R362). -/
def ieeeWord (s : Bool) (e : BitVec 8) (f : BitVec 23) : Word := BitVec.ofBool s ++ e ++ f

/-- A word of three fields, the first of them one bit. -/
theorem fields_of_append {m n : ℕ} (s : Bool) (x : BitVec m) (y : BitVec n) :
    (BitVec.ofBool s ++ x ++ y).extractLsb' 0 n = y ∧ (BitVec.ofBool s ++ x ++ y).extractLsb' n m = x ∧
      (BitVec.ofBool s ++ x ++ y).getLsbD (m + n) = s := by
  refine ⟨BitVec.extractLsb'_append_eq_right, ?_, ?_⟩
  · rw [BitVec.extractLsb'_append_eq_of_le le_rfl, Nat.sub_self, BitVec.extractLsb'_append_eq_right]
  · rw [BitVec.getLsbD_append, if_neg (by omega), Nat.add_sub_cancel, BitVec.getLsbD_append,
      if_neg (lt_irrefl m), Nat.sub_self]
    cases s <;> rfl

/-- Every word has such fields. -/
theorem exists_append_fields {m n : ℕ} (w : BitVec (1 + m + n)) :
    ∃ (s : Bool) (x : BitVec m) (y : BitVec n), w = BitVec.ofBool s ++ x ++ y := by
  have bit : ∀ b : BitVec 1, BitVec.ofBool (b.getLsbD 0) = b := by decide
  refine ⟨(w.extractLsb' (n + m) 1).getLsbD 0, w.extractLsb' n m, w.extractLsb' 0 n, ?_⟩
  rw [bit, BitVec.extractLsb'_append_extractLsb'_eq_extractLsb' rfl,
    BitVec.extractLsb'_append_extractLsb'_eq_extractLsb' (Nat.zero_add n).symm]
  exact BitVec.extractLsb'_eq_self.symm

section
variable (s : Bool) (f : BitVec 23) (e : BitVec 8)

theorem dspWord_fields : (dspWord s f e).extractLsb' 0 8 = e ∧ (dspWord s f e).extractLsb' 8 23 = f ∧
    (dspWord s f e).getLsbD 31 = s := fields_of_append s f e

theorem ieeeWord_fields : (ieeeWord s e f).extractLsb' 0 23 = f ∧
    (ieeeWord s e f).extractLsb' 23 8 = e ∧ (ieeeWord s e f).getLsbD 31 = s := fields_of_append s e f

end

theorem exists_dspWord (w : Word) : ∃ s f e, w = dspWord s f e := exists_append_fields (m := 23) (n := 8) w

theorem exists_ieeeWord (w : Word) : ∃ s e f, w = ieeeWord s e f := exists_append_fields (m := 8) (n := 23) w

/-! ### Their values -/

theorem mantissa32_dspWord (s : Bool) (f : BitVec 23) (e : BitVec 8) :
    mantissa32 (dspWord s f e) = if s then (f.toNat : ℤ) - 16777216 else f.toNat + 8388608 := by
  obtain ⟨-, fraction, sign⟩ := dspWord_fields s f e
  rw [mantissa32, fraction, sign]

theorem exponent32_dspWord (s : Bool) (f : BitVec 23) (e : BitVec 8) :
    exponent32 (dspWord s f e) = e.toNat := by
  rw [exponent32, (dspWord_fields s f e).1]

/-- The mantissa of an IEEE number times 2^23. -/
def ieeeMantissa (s : Bool) (f : BitVec 23) : ℤ :=
  if s then -((f.toNat : ℤ) + 8388608) else f.toNat + 8388608

theorem ieeeVal_ieeeWord (s : Bool) (e : BitVec 8) (f : BitVec 23) :
    ieeeVal (ieeeWord s e f) = (ieeeMantissa s f : ℚ) * 2 ^ e.toNat / 2 ^ 150 := by
  obtain ⟨mantissa, exponent, sign⟩ := ieeeWord_fields s f e
  have split : (2 : ℚ) ^ 150 = 2 ^ 127 * 2 ^ 23 := pow_add 2 127 23
  rw [ieeeVal, mantissa, exponent, sign, zpow_sub₀ two_ne_zero, zpow_natCast, split, ieeeMantissa]
  generalize (2 : ℚ) ^ e.toNat = p
  cases s
  · rw [if_neg Bool.false_ne_true, if_neg Bool.false_ne_true]
    push_cast
    field_simp
    ring
  · rw [if_pos rfl, if_pos rfl]
    push_cast
    field_simp
    ring

/-- The value of a word that is not zero, beside those of IEEE. -/
theorem val32_dspWord (s : Bool) (f : BitVec 23) {e : BitVec 8} (h : e ≠ 0#8) :
    val32 (dspWord s f e) = (mantissa32 (dspWord s f e) : ℚ) * 2 ^ e.toNat / 2 ^ 151 := by
  have field : e.toNat ≠ 0 := fun zero => h (BitVec.toNat_inj.1 zero)
  rw [val32_eq, exponent32_dspWord, if_neg field]

/-! ### The same number in both formats (R362, R364) -/

/-- A normal IEEE number and the word of the same value, by their fields: the exponent is one more, a negative
mantissa is inverted, and -1 times a power of two is -2 times half of it (R362). -/
inductive SameNumber : Word → Word → Prop
  | positive {e : BitVec 8} (f : BitVec 23) (h0 : e ≠ 0#8) (h1 : e ≠ 255#8) :
      SameNumber (ieeeWord false e f) (dspWord false f (e + 1#8))
  | negative {e : BitVec 8} {f : BitVec 23} (hf : f ≠ 0#23) (h0 : e ≠ 0#8) (h1 : e ≠ 255#8) :
      SameNumber (ieeeWord true e f) (dspWord true (0#23 - f) (e + 1#8))
  | power {e : BitVec 8} (h0 : e ≠ 0#8) (h1 : e ≠ 255#8) :
      SameNumber (ieeeWord true e 0#23) (dspWord true 0#23 e)

theorem ieeeIsNormal_ieeeWord (s : Bool) (e : BitVec 8) (f : BitVec 23) :
    ieeeIsNormal (ieeeWord s e f) = true ↔ e ≠ 0#8 ∧ e ≠ 255#8 := by
  rw [ieeeIsNormal, (ieeeWord_fields s f e).2.1, Bool.and_eq_true, bne_iff_ne, bne_iff_ne]

/-- The conversion of a normal number by its fields (R362). -/
theorem dspNormal_ieeeWord (s : Bool) (e : BitVec 8) (f : BitVec 23) :
    dspNormal (ieeeWord s e f) =
      dspWord s (if s then 0#23 - f else f) (if s && f == 0#23 then e else e + 1#8) := by
  obtain ⟨mantissa, exponent, sign⟩ := ieeeWord_fields s f e
  have field : BitVec.ofNat 8 (if s && f == 0#23 then e.toNat else e.toNat + 1) =
      if s && f == 0#23 then e else e + 1#8 := by
    split
    · rw [BitVec.ofNat_toNat, BitVec.setWidth_eq]
    · rw [BitVec.ofNat_add, BitVec.ofNat_toNat, BitVec.setWidth_eq]
  simp only [dspNormal, mantissa, exponent, sign, field]
  rfl

/-- The conversion to IEEE by its fields, of a word that is not zero (R364). -/
theorem ieeeNormal_dspWord (s : Bool) (f : BitVec 23) {e : BitVec 8} (h : e ≠ 0#8) :
    ieeeNormal (dspWord s f e) =
      let ex := if s && f == 0#23 then e else e - 1#8
      if ex = 0#8 then 0#32 else ieeeWord s ex (if s then 0#23 - f else f) := by
  obtain ⟨-, fraction, sign⟩ := dspWord_fields s f e
  have field : (if s && f == 0#23 then e.toNat else e.toNat - 1) =
      (if s && f == 0#23 then e else e - 1#8).toNat := by
    split
    · rfl
    · bv_omega
  have zero : ∀ x : BitVec 8, x.toNat = 0 ↔ x = 0#8 := fun x => BitVec.toNat_inj (y := 0#8)
  simp only [ieeeNormal, fraction, sign, exponent32_dspWord, field, zero, BitVec.ofNat_toNat,
    BitVec.setWidth_eq]
  rfl

theorem sameNumber_dspNormal {w : Word} (h : ieeeIsNormal w = true) : SameNumber w (dspNormal w) := by
  obtain ⟨s, e, f, rfl⟩ := exists_ieeeWord w
  obtain ⟨h0, h1⟩ := (ieeeIsNormal_ieeeWord s e f).1 h
  rw [dspNormal_ieeeWord]
  cases s with
  | false => exact .positive f h0 h1
  | true =>
    by_cases hf : f = 0#23
    · subst hf
      exact .power h0 h1
    · have e := SameNumber.negative hf h0 h1
      rw [if_pos rfl, if_neg (by simpa using hf)]
      exact e

namespace SameNumber
variable {u w : Word} (h : SameNumber u w)
include h

theorem isNormal : ieeeIsNormal u = true := by
  cases h <;> exact (ieeeIsNormal_ieeeWord _ _ _).2 ⟨‹_›, ‹_›⟩

theorem exponent32_ne : exponent32 w ≠ 0 := by
  cases h with
  | positive f h0 h1 | negative hf h0 h1 =>
    rw [exponent32_dspWord]
    bv_omega
  | power h0 h1 =>
    rw [exponent32_dspWord]
    bv_omega

/-- The exponent is one more, or the mantissa is twice as large. -/
theorem value : val32 w = ieeeVal u := by
  have half : (2 : ℚ) ^ 151 = 2 ^ 150 * 2 := pow_succ 2 150
  have next : ∀ (m : ℚ) (n : ℕ), m * 2 ^ (n + 1) / (2 ^ 150 * 2) = m * 2 ^ n / 2 ^ 150 := fun m n => by
    rw [pow_succ, ← mul_assoc, mul_div_mul_right _ _ two_ne_zero]
  cases h with
  | @positive e f h0 h1 =>
    have more : (e + 1#8).toNat = e.toNat + 1 := by bv_omega
    have mantissa : mantissa32 (dspWord false f (e + 1#8)) = ieeeMantissa false f := by
      rw [mantissa32_dspWord, ieeeMantissa, if_neg Bool.false_ne_true, if_neg Bool.false_ne_true]
    rw [ieeeVal_ieeeWord, val32_dspWord _ _ (by bv_omega), mantissa, more, half, next]
  | @negative e f hf h0 h1 =>
    have more : (e + 1#8).toNat = e.toNat + 1 := by bv_omega
    have mantissa : mantissa32 (dspWord true (0#23 - f) (e + 1#8)) = ieeeMantissa true f := by
      have := f.isLt
      have inverted : (0#23 - f).toNat + f.toNat = 8388608 := by bv_omega
      rw [mantissa32_dspWord, ieeeMantissa, if_pos rfl, if_pos rfl]
      omega
    rw [ieeeVal_ieeeWord, val32_dspWord _ _ (by bv_omega), mantissa, more, half, next]
  | @power e h0 h1 =>
    have mantissa : mantissa32 (dspWord true 0#23 e) = ieeeMantissa true 0#23 * 2 := by
      rw [mantissa32_dspWord, ieeeMantissa, if_pos rfl, if_pos rfl, BitVec.toNat_zero]
      norm_num
    rw [ieeeVal_ieeeWord, val32_dspWord _ _ h0, mantissa, half, Int.cast_mul, Int.cast_ofNat, mul_right_comm,
      mul_div_mul_right _ _ two_ne_zero]

theorem ieeeNormal_eq : ieeeNormal w = u := by
  cases h with
  | @positive e f h0 h1 =>
    rw [ieeeNormal_dspWord _ _ (by bv_omega)]
    simp [h0]
  | @negative e f hf h0 h1 =>
    rw [ieeeNormal_dspWord _ _ (by bv_omega)]
    simp [h0, hf]
  | @power e h0 h1 =>
    rw [ieeeNormal_dspWord _ _ h0]
    simp [h0]

end SameNumber

theorem mantissa32_neg_iff (s : Bool) (f : BitVec 23) (e : BitVec 8) :
    mantissa32 (dspWord s f e) < 0 ↔ s = true := by
  have := f.isLt
  rw [mantissa32_dspWord]
  split
  · next sign => exact iff_of_true (by omega) sign
  · next sign => exact iff_of_false (by omega) sign

/-- The sign and the fraction of a word are those of its mantissa (R323). -/
theorem eq_of_fields {v w : Word} (exponent : exponent32 v = exponent32 w)
    (mantissa : mantissa32 v = mantissa32 w) : v = w := by
  obtain ⟨s, f, e, rfl⟩ := exists_dspWord v
  obtain ⟨s', f', e', rfl⟩ := exists_dspWord w
  rw [exponent32_dspWord, exponent32_dspWord, BitVec.toNat_inj] at exponent
  have sign : s = s' := Bool.eq_iff_iff.2 (by rw [← mantissa32_neg_iff, mantissa, mantissa32_neg_iff])
  subst exponent sign
  have fraction : f.toNat = f'.toNat := by
    rw [mantissa32_dspWord, mantissa32_dspWord] at mantissa
    split at mantissa <;> omega
  rw [BitVec.eq_of_toNat_eq fraction]

/-- Only one word has the value of a word that is not zero: the exponent is that of the leading bit. -/
theorem eq_of_val32_eq {v w : Word} (hv : exponent32 v ≠ 0) (hw : exponent32 w ≠ 0) (h : val32 v = val32 w) :
    v = w := by
  have exact : exact40 (v ++ 0#8) = exact40 (w ++ 0#8) := by
    rw [← (stands_exact40 _).eq_iff (stands_exact40 _), ← val32_eq_val40, ← val32_eq_val40, h]
  rw [exact40_of_ne (by rwa [exponent40_to40]), exact40_of_ne (by rwa [exponent40_to40])] at exact
  have bits := congrArg topBit exact
  rw [topBit_mul_pow (isMantissa_mantissa40 _), topBit_mul_pow (isMantissa_mantissa40 _), exponent40_to40,
    exponent40_to40] at bits
  have exponent : exponent32 v = exponent32 w := by omega
  refine eq_of_fields exponent ?_
  rw [exponent40_to40, exponent40_to40, exponent, mul_left_inj' (pow_ne_zero _ two_ne_zero), mantissa40_to40,
    mantissa40_to40] at exact
  omega

end Machine

end Sys2Proof
end

section
/-! SUPPORT. The range of the normal IEEE numbers, and the words that stand for them in the default format and in
others (R362, R364). -/

namespace Sys2Proof
open Machine

namespace Machine

/-! ### The range of the normal numbers -/

theorem abs_ieeeMantissa (s : Bool) (f : BitVec 23) : |ieeeMantissa s f| = f.toNat + 8388608 := by
  have positive : (0 : ℤ) ≤ f.toNat + 8388608 := by omega
  rw [ieeeMantissa]
  cases s
  · rw [if_neg Bool.false_ne_true, abs_of_nonneg positive]
  · rw [if_pos rfl, abs_neg, abs_of_nonneg positive]

/-- A normal number is at least 2^-126 and below 2^128 in magnitude. -/
theorem ieeeVal_bounds {u : Word} (h : ieeeIsNormal u = true) :
    1 / 2 ^ 126 ≤ |ieeeVal u| ∧ |ieeeVal u| < 2 ^ 128 := by
  obtain ⟨s, e, f, rfl⟩ := exists_ieeeWord u
  obtain ⟨h0, h1⟩ := (ieeeIsNormal_ieeeWord s e f).1 h
  have field : 1 ≤ e.toNat ∧ e.toNat ≤ 254 := by bv_omega
  have least : (2 : ℚ) ^ 1 ≤ 2 ^ e.toNat := pow_le_pow_right₀ one_le_two field.1
  have most : (2 : ℚ) ^ e.toNat ≤ 2 ^ 254 := pow_le_pow_right₀ one_le_two field.2
  have magnitude : |(ieeeMantissa s f : ℚ)| = f.toNat + 8388608 := by
    rw [← Int.cast_abs, abs_ieeeMantissa]
    push_cast
    rfl
  have fraction : (f.toNat : ℚ) < 8388608 := by exact_mod_cast f.isLt
  have positive : (0 : ℚ) ≤ f.toNat := Nat.cast_nonneg _
  have ends : (2 : ℚ) ^ 150 = 2 ^ 126 * 2 ^ 24 ∧ (2 : ℚ) ^ 128 * 2 ^ 150 = 2 ^ 24 * 2 ^ 254 := by
    rw [← pow_add, ← pow_add, ← pow_add]
    exact ⟨rfl, rfl⟩
  rw [ieeeVal_ieeeWord, abs_div, abs_mul, magnitude, abs_of_pos (pow_pos two_pos _),
    abs_of_pos (pow_pos two_pos _), div_lt_iff₀ (pow_pos two_pos _), ends.2, ends.1, div_le_div_iff₀ (pow_pos two_pos _) (by positivity)]
  generalize (2 : ℚ) ^ e.toNat = p at *
  constructor
  · nlinarith
  · generalize (2 : ℚ) ^ 254 = q at *
    nlinarith

/-- A mantissa other than -2 is below 2 in magnitude. -/
theorem abs_val32_lt {w : Word} (exponent : exponent32 w = 1) (h : mantissa32 w ≠ -16777216) :
    |val32 w| < 1 / 2 ^ 126 := by
  have bounds := mantissa32_bounds w
  have lt : |(mantissa32 w : ℚ)| < 16777216 := by
    rw [← Int.cast_abs]
    exact_mod_cast abs_lt.2 ⟨by omega, by omega⟩
  have split : (2 : ℚ) ^ 151 = 2 ^ 126 * 2 ^ 25 := pow_add 2 126 25
  rw [val32_eq, if_neg (by omega), exponent, split, pow_one, abs_div, abs_mul, abs_two,
    abs_of_pos (a := (2 : ℚ) ^ 126 * 2 ^ 25) (by positivity), div_lt_div_iff₀ (by positivity) (by positivity)]
  have positive : (0 : ℚ) < 2 ^ 126 := pow_pos two_pos _
  generalize (2 : ℚ) ^ 126 = p at *
  nlinarith

/-- Everything the conversion to IEEE can do with a word that is not zero (R364). -/
theorem ieeeNormal_cases {w : Word} (h : exponent32 w ≠ 0) :
    |val32 w| < 1 / 2 ^ 126 ∧ ieeeNormal w = 0#32 ∨ w = 0x800000FF#32 ∨ SameNumber (ieeeNormal w) w := by
  obtain ⟨s, f, e, rfl⟩ := exists_dspWord w
  have nonzero : e ≠ 0#8 := by
    rintro rfl
    exact h (exponent32_dspWord s f _)
  have converted := ieeeNormal_dspWord s f nonzero
  by_cases power : s = true ∧ f = 0#23
  · obtain ⟨rfl, rfl⟩ := power
    by_cases last : e = 255#8
    · subst last
      exact .inr (.inl rfl)
    · have same : ieeeNormal (dspWord true 0#23 e) = ieeeWord true e 0#23 := converted.trans (if_neg nonzero)
      rw [same]
      exact .inr (.inr (.power nonzero last))
  have mantissa : mantissa32 (dspWord s f e) ≠ -16777216 := by
    rw [mantissa32_dspWord]
    split
    · next sign =>
      have fraction : f.toNat ≠ 0 := fun zero => power ⟨sign, BitVec.eq_of_toNat_eq zero⟩
      omega
    · omega
  have less : (if s && f == 0#23 then e else e - 1#8) = e - 1#8 := if_neg (by simpa using power)
  rw [less] at converted
  by_cases first : e = 1#8
  · subst first
    exact .inl ⟨abs_val32_lt (exponent32_dspWord s f _) mantissa, converted⟩
  have h0 : e - 1#8 ≠ 0#8 := by bv_omega
  have h1 : e - 1#8 ≠ 255#8 := by bv_omega
  rw [converted.trans (if_neg h0)]
  refine .inr (.inr ?_)
  cases s with
  | false =>
    have same := SameNumber.positive f h0 h1
    rw [BitVec.sub_add_cancel] at same
    exact same
  | true =>
    have fraction : 0#23 - f ≠ 0#23 := sub_ne_zero.2 fun zero => power ⟨rfl, zero.symm⟩
    have same := SameNumber.negative fraction h0 h1
    rw [BitVec.sub_add_cancel, BitVec.zero_sub, BitVec.zero_sub, BitVec.neg_neg, ← BitVec.zero_sub] at same
    exact same

theorem SameNumber.bounds {u w : Word} (h : SameNumber u w) :
    1 / 2 ^ 126 ≤ |val32 w| ∧ |val32 w| < 2 ^ 128 := by
  rw [h.value]
  exact ieeeVal_bounds h.isNormal

/-- A word with the value of a normal number is the one it converts to, and converts back. -/
theorem ieeeNormal_of_value {u w : Word} (hu : ieeeIsNormal u = true) (h : val32 w = ieeeVal u) :
    exponent32 w ≠ 0 ∧ ieeeNormal w = u := by
  have same := sameNumber_dspNormal hu
  have nonzero : exponent32 w ≠ 0 := by
    intro zero
    rw [val32_eq, if_pos zero] at h
    have least := (ieeeVal_bounds hu).1
    rw [← h, abs_zero] at least
    exact absurd least (not_le.2 (by positivity))
  refine ⟨nonzero, ?_⟩
  rw [eq_of_val32_eq nonzero same.exponent32_ne (h.trans same.value.symm)]
  exact same.ieeeNormal_eq

/-- Normal numbers with the same value are the same word. -/
theorem eq_of_ieeeVal_eq {u v : Word} (hu : ieeeIsNormal u = true) (hv : ieeeIsNormal v = true)
    (h : ieeeVal u = ieeeVal v) : u = v := by
  have same := sameNumber_dspNormal hu
  rw [← same.ieeeNormal_eq]
  exact (ieeeNormal_of_value hv (same.value.trans h)).2

/-- The number of a word, for the other formats, is the value of a normal number. -/
theorem ieeeNumber_of_normal {u : Word} (h : ieeeIsNormal u = true) : ieeeNumber u = ieeeVal u := by
  obtain ⟨s, e, f, rfl⟩ := exists_ieeeWord u
  obtain ⟨mantissa, exponent, sign⟩ := ieeeWord_fields s f e
  rw [ieeeNumber, if_pos h, ieeeVal_ieeeWord, mantissa, exponent, sign, zpow_sub₀ two_ne_zero, zpow_natCast,
    mul_div_assoc, ieeeMantissa]
  congr 1
  cases s
  · rw [if_neg Bool.false_ne_true, if_neg Bool.false_ne_true]
    push_cast
    ring
  · rw [if_pos rfl, if_pos rfl]
    push_cast
    ring

theorem ieeeNumber_of_not_normal {u : Word} (h : ¬ ieeeIsNormal u = true) : ieeeNumber u = 0 := if_neg h

/-! ### The IEEE word of a value, in the other formats (R364) -/

/-- The nearest normal number is a number of that value, if there is one. -/
theorem nearest_ieeeNumber {u : Word} (h : ieeeIsNormal u = true) :
    BitVec.ofNat 32 (nearest (fun i => ieeeNumber (BitVec.ofNat 32 i)) (ieeeVal u) (2 ^ 32)) = u := by
  have spec := (nearest_spec (fun i => ieeeNumber (BitVec.ofNat 32 i)) (ieeeVal u) (2 ^ 32) u.toNat u.isLt).1
  generalize nearest (fun i => ieeeNumber (BitVec.ofNat 32 i)) (ieeeVal u) (2 ^ 32) = i at spec ⊢
  simp only [BitVec.ofNat_toNat, BitVec.setWidth_eq] at spec
  rw [ieeeNumber_of_normal h, sub_self, abs_zero, abs_nonpos_iff, sub_eq_zero] at spec
  have normal : ieeeIsNormal (BitVec.ofNat 32 i) = true := by
    by_contra notNormal
    have least := (ieeeVal_bounds h).1
    rw [← spec, ieeeNumber_of_not_normal notNormal, abs_zero] at least
    exact absurd least (not_le.2 (by positivity))
  exact eq_of_ieeeVal_eq normal h ((ieeeNumber_of_normal normal).symm.trans spec)

/-- The value of a normal number gives that number. -/
theorem ieeeOfValue_ieeeVal {u : Word} (h : ieeeIsNormal u = true) (choice : Word) :
    ieeeOfValue (ieeeVal u) choice = u := by
  rw [ieeeOfValue, nearest_ieeeNumber h]
  exact (if_neg (not_lt.2 (ieeeVal_bounds h).1)).trans (if_pos (ieeeNumber_of_normal h))

/-- The word is no NaN: with exponent 255 its mantissa is 0 (R364). -/
def NoNan (w : Word) : Prop := w.extractLsb' 23 8 = 255#8 → w.extractLsb' 0 23 = 0#23

theorem noNan_of_normal {u : Word} (h : ieeeIsNormal u = true) : NoNan u := by
  obtain ⟨s, e, f, rfl⟩ := exists_ieeeWord u
  intro last
  rw [(ieeeWord_fields s f e).2.1] at last
  exact absurd last ((ieeeIsNormal_ieeeWord s e f).1 h).2

theorem noNan_ieeeOfValue (v : ℚ) (choice : Word) : NoNan (ieeeOfValue v choice) := by
  simp only [ieeeOfValue]
  split_ifs with small held
  · exact fun _ => rfl
  · refine noNan_of_normal ?_
    by_contra notNormal
    rw [ieeeNumber_of_not_normal notNormal] at held
    rw [← held, abs_zero] at small
    exact small (by positivity)
  · exact notNan_spec choice

end Machine

end Sys2Proof
end

section
/-! SUPPORT. The conversions from and to IEEE in every format, and the rows (R362, R364). -/

namespace Sys2Proof
open Machine

/-! ### To IEEE (R364) -/

namespace FloatFormat

theorem ieeeOfDsp_of_zero (fm : FloatFormat) {w : Word} (h : fm.val32 w = 0) : fm.ieeeOfDsp w = 0#32 :=
  if_pos ((fm.isZero_iff w).2 h)

/-- In the default format (R364). -/
theorem ieeeOfDsp_default {w : Word} (h : exponent32 w ≠ 0) : excess128.ieeeOfDsp w = ieeeNormal w := by
  have nonzero : excess128.isZero w ≠ true := by
    rw [isZero, ne_eq, beq_iff_eq]
    exact fun zero => h (congrArg BitVec.toNat zero)
  exact if_neg nonzero

/-- Everything the conversion of the default format can do (R364). -/
theorem ieeeOfDsp_default_cases (w : Word) :
    |Sys2Proof.val32 w| < 1 / 2 ^ 126 ∧ excess128.ieeeOfDsp w = 0#32 ∨
    w = 0x800000FF#32 ∧ excess128.ieeeOfDsp w = 0xFF800000#32 ∨
    SameNumber (excess128.ieeeOfDsp w) w := by
  by_cases zero : exponent32 w = 0
  · have value : Sys2Proof.val32 w = 0 := by rw [val32_eq, if_pos zero]
    exact .inl ⟨by rw [value, abs_zero]; positivity, excess128.ieeeOfDsp_of_zero value⟩
  · rw [ieeeOfDsp_default zero]
    obtain h | rfl | h := ieeeNormal_cases zero
    · exact .inl h
    · exact .inr (.inl ⟨rfl, rfl⟩)
    · exact .inr (.inr h)

/-- The most negative word. -/
theorem abs_val32_extreme : |Sys2Proof.val32 0x800000FF#32| = 2 ^ 128 := by
  rw [val32_eq, if_neg (by decide), show mantissa32 0x800000FF#32 = -16777216 from rfl,
    show exponent32 0x800000FF#32 = 255 from rfl]
  norm_num

/-- What another format does with a word that is not zero (R364). -/
theorem ieeeOfDsp_other {k : ℕ} {w : Word} (h : otherVal32 k w ≠ 0) :
    (FloatFormat.other k).ieeeOfDsp w =
      if w = 0x800000FF#32 ∧ otherVal32 k w ≤ -2 ^ 128 then 0xFF800000#32
      else ieeeOfValue (otherVal32 k w) (Config.otherToIeee k w) :=
  if_neg (mt ((FloatFormat.other k).isZero_iff w).1 h)

/-- The conversion gives no NaN. -/
theorem noNan_ieeeOfDsp (fm : FloatFormat) (w : Word) : NoNan (fm.ieeeOfDsp w) := by
  cases fm with
  | excess128 =>
    obtain ⟨-, h⟩ | ⟨-, h⟩ | h := ieeeOfDsp_default_cases w
    · exact h ▸ fun _ => rfl
    · exact h ▸ fun _ => rfl
    · exact noNan_of_normal h.isNormal
  | other k =>
    by_cases zero : otherVal32 k w = 0
    · exact (FloatFormat.other k).ieeeOfDsp_of_zero zero ▸ fun _ => rfl
    · rw [ieeeOfDsp_other zero]
      split
      · exact fun _ => rfl
      · exact noNan_ieeeOfValue _ _

/-- The conversion of the value of a normal number gives that number. -/
theorem ieeeOfDsp_of_normal (fm : FloatFormat) {u w : Word} (hu : ieeeIsNormal u = true)
    (h : fm.val32 w = ieeeVal u) : fm.ieeeOfDsp w = u := by
  have bounds := ieeeVal_bounds hu
  cases fm with
  | excess128 =>
    obtain ⟨nonzero, converted⟩ := ieeeNormal_of_value hu h
    exact (ieeeOfDsp_default nonzero).trans converted
  | other k =>
    have value : otherVal32 k w = ieeeVal u := h
    have nonzero : otherVal32 k w ≠ 0 := by
      intro zero
      rw [← value, zero, abs_zero] at bounds
      exact absurd bounds.1 (not_le.2 (by positivity))
    rw [ieeeOfDsp_other nonzero, value, if_neg, ieeeOfValue_ieeeVal hu]
    exact fun extreme => absurd extreme.2 (not_le.2 (abs_lt.1 bounds.2).1)

end FloatFormat

/-! ### From IEEE (R362) -/

namespace Machine

theorem ieeeIsNormal_iff (w : Word) :
    ieeeIsNormal w = true ↔ 1 ≤ (w.extractLsb' 23 8).toNat ∧ (w.extractLsb' 23 8).toNat ≤ 254 := by
  rw [ieeeIsNormal, Bool.and_eq_true, bne_iff_ne, bne_iff_ne]
  bv_omega

theorem dspSpecial_of_normal {w : Word} (h : ieeeIsNormal w = true) : dspSpecial w = none := by
  obtain ⟨least, most⟩ := (ieeeIsNormal_iff w).1 h
  exact (if_neg (by omega)).trans (if_neg (by omega))

end Machine

namespace FloatFormat

theorem dspOfIeee_default {w : Word} (h : ieeeIsNormal w = true) :
    excess128.dspOfIeee w = (⟨w.getLsbD 31, false, false, false, false, 4⟩, dspNormal w) := by
  rw [dspOfIeee, dspSpecial_of_normal h]
  rfl

theorem dspOfIeee_other (k : ℕ) {w : Word} (h : ieeeIsNormal w = true) :
    (FloatFormat.other k).dspOfIeee w = (⟨w.getLsbD 31, false, false, false, false, 4⟩,
      (FloatFormat.other k).clean32 (otherWordNear k (ieeeNumber w) (Config.otherOfIeee k w))) := by
  rw [dspOfIeee, dspSpecial_of_normal h]
  rfl

/-- No word is nearer to a normal number than its conversion. -/
theorem dspOfIeee_nearest (fm : FloatFormat) {w : Word} (h : ieeeIsNormal w = true) (u : Word) :
    |fm.val32 (fm.dspOfIeee w).2 - ieeeVal w| ≤ |fm.val32 u - ieeeVal w| := by
  cases fm with
  | excess128 =>
    have exact : excess128.val32 (dspNormal w) = ieeeVal w := (sameNumber_dspNormal h).value
    rw [dspOfIeee_default h, exact, sub_self, abs_zero]
    exact abs_nonneg _
  | other k =>
    rw [dspOfIeee_other k h, val32_clean32, ← ieeeNumber_of_normal h]
    exact (otherWordNear_spec k _ _ u).1

theorem dspOfIeee_of_special (fm : FloatFormat) {w : Word} {r : FlagEntry × Word} (h : dspSpecial w = some r) :
    fm.dspOfIeee w = r := by
  unfold dspOfIeee
  rw [h]

/-- An infinity or a NaN (R362). -/
theorem dspOfIeee_of_infinite (fm : FloatFormat) {w : Word} (h : (w.extractLsb' 23 8).toNat = 255) :
    fm.dspOfIeee w =
      (⟨w.getLsbD 31, false, !w.getLsbD 31 || w.extractLsb' 0 23 != 0#23, false,
        w.extractLsb' 0 23 != 0#23, 4⟩, if w.getLsbD 31 then 0x800000FF#32 else 0x7FFFFFFF#32) :=
  fm.dspOfIeee_of_special (if_pos h)

/-- A zero or a denormalized number (R362). -/
theorem dspOfIeee_of_denormalized (fm : FloatFormat) {w : Word} (h : (w.extractLsb' 23 8).toNat = 0) :
    fm.dspOfIeee w = (⟨false, true, false, w.extractLsb' 0 23 != 0#23, false, 4⟩, 0#32) :=
  fm.dspOfIeee_of_special ((if_neg (by omega)).trans (if_pos h))

end FloatFormat

/-- Settles O54: by the cases of both conversions, the normal numbers being in bijection with words of the same
value in the default format, and the rows being the common execution. -/
theorem ieeeConversionsFollowTheirTables : Obligations.IeeeConversionsFollowTheirTables := by
  refine ⟨fun fm w => ?fromIeee, fun fm w => ?toIeee, fun w => ?default, fun s aN y z => ?rows⟩
  case fromIeee =>
    dsimp only
    have normal := fun lo hi => (ieeeIsNormal_iff w).2 ⟨lo, hi⟩
    have mantissa : (!decide (w.extractLsb' 0 23 = 0#23)) = (w.extractLsb' 0 23 != 0#23) := rfl
    refine ⟨fun lo hi => ?flags, fun lo hi e => ?exact, fun lo hi => fm.dspOfIeee_nearest (normal lo hi),
      fun h => ?infinite, fun h => ?zero⟩
    case flags =>
      cases fm with
      | excess128 => rw [FloatFormat.dspOfIeee_default (normal lo hi)]
      | other k => rw [FloatFormat.dspOfIeee_other k (normal lo hi)]
    case exact =>
      subst e
      have same := (sameNumber_dspNormal (normal lo hi)).value
      rw [FloatFormat.dspOfIeee_default (normal lo hi)]
      exact ⟨same, FloatFormat.ieeeOfDsp_of_normal .excess128 (normal lo hi) same⟩
    case infinite => rw [fm.dspOfIeee_of_infinite h, Bool.not_and, mantissa]
    case zero => rw [fm.dspOfIeee_of_denormalized h, mantissa]
  case toIeee =>
    exact ⟨fm.noNan_ieeeOfDsp w, fm.ieeeOfDsp_of_zero, fun u hu h => fm.ieeeOfDsp_of_normal hu h⟩
  case default =>
    have extreme := FloatFormat.abs_val32_extreme
    obtain ⟨small, h⟩ | ⟨rfl, h⟩ | same := FloatFormat.ieeeOfDsp_default_cases w
    · refine ⟨fun _ => h, ?_, fun large => absurd small (not_lt.2 large)⟩
      rintro rfl
      rw [extreme] at small
      exact absurd small (by norm_num)
    · refine ⟨fun small => ?_, fun _ => h, fun _ other => absurd rfl other⟩
      rw [extreme] at small
      exact absurd small (by norm_num)
    · obtain ⟨least, most⟩ := same.bounds
      refine ⟨fun small => absurd small (not_lt.2 least), ?_, fun _ _ => same.value.symm⟩
      rintro rfl
      exact absurd extreme most.ne
  case rows =>
    refine ⟨fun m hm => ?dsp, fun a ha => ?accumulator, ?ieee⟩
    case dsp =>
      subst hm
      exact specialCommon_converts (fun _ => rfl) (fun _ => rfl) fun _ => rfl
    case accumulator =>
      subst ha
      rfl
    case ieee => exact specialCommon_converts (fun _ => rfl) (fun _ => rfl) fun _ => trivial

end Sys2Proof
end

section
/-! SUPPORT. Exceptions at the boundary: the priority of the interrupts and the entry of an error (R383 to
R390). -/

namespace Sys2Proof.Machine

variable {s : State}

/-! ### Priority (R388) -/

/-- In a rising list the first number with a property is the least one with it. -/
theorem find?_eq_some_iff_of_rising (p : ℕ → Bool) (i : ℕ) : ∀ {l : List ℕ}, l.Pairwise (· < ·) →
    (l.find? p = some i ↔ i ∈ l ∧ p i = true ∧ ∀ j, j < i → j ∈ l → ¬ p j = true)
  | [], _ => by simp
  | a :: l, h => by
    obtain ⟨above, rising⟩ := List.pairwise_cons.1 h
    have ih := find?_eq_some_iff_of_rising p i rising
    cases ha : p a with
    | true =>
      rw [List.find?_cons_of_pos ha, Option.some_inj]
      constructor
      · rintro rfl
        refine ⟨List.mem_cons_self, ha, fun j hj hm => ?_⟩
        obtain rfl | hm := List.mem_cons.1 hm
        · exact absurd hj (lt_irrefl j)
        · exact absurd (above j hm) hj.asymm
      · rintro ⟨hi, -, least⟩
        obtain rfl | hi := List.mem_cons.1 hi
        · rfl
        · exact absurd ha (least a (above i hi) List.mem_cons_self)
    | false =>
      have hna := ne_true_of_eq_false ha
      rw [List.find?_cons_of_neg hna, ih]
      constructor
      · rintro ⟨hi, hp, least⟩
        refine ⟨List.mem_cons_of_mem a hi, hp, fun j hj hm => ?_⟩
        obtain rfl | hm := List.mem_cons.1 hm
        · exact hna
        · exact least j hj hm
      · rintro ⟨hi, hp, least⟩
        obtain rfl | hi := List.mem_cons.1 hi
        · exact absurd hp hna
        · exact ⟨hi, hp, fun j hj hm => least j hj (List.mem_cons_of_mem a hm)⟩

/-- The sources with a request, as a mask (R384). -/
theorem getLsbD_sources (i : ℕ) : (0xFB60#16).getLsbD i = decide (i ∈ interruptSources) := by
  by_cases h : i < 16
  · revert i
    decide
  · rw [BitVec.getLsbD_of_ge _ i (Nat.not_lt.1 h), eq_comm, decide_eq_false_iff_not]
    have below : ∀ j ∈ interruptSources, j < 16 := by decide
    exact fun hi => h (below i hi)

/-- An enabled request is one of a source that is pending and enabled (R384, R386). -/
theorem State.getLsbD_enabledRequests (s : State) (i : ℕ) :
    s.enabledRequests.getLsbD i = true ↔
      i ∈ interruptSources ∧ s.pending.getLsbD i = true ∧ s.emr.getLsbD i = true := by
  rw [State.enabledRequests, BitVec.getLsbD_and, BitVec.getLsbD_and, getLsbD_sources]
  simp only [Bool.and_eq_true, decide_eq_true_eq]
  tauto

/-- Settles O20: `interruptSources` rises, so the first enabled request is the lowest. -/
theorem lowestIndexHasPriority : Obligations.LowestIndexHasPriority := by
  intro s i
  have rising : interruptSources.Pairwise (· < ·) := by decide
  rw [State.candidate, find?_eq_some_iff_of_rising _ i rising, State.getLsbD_enabledRequests]
  refine ⟨fun ⟨hi, ⟨_, hp, he⟩, least⟩ => ⟨hi, hp, he, fun j hj hm both => ?_⟩,
    fun ⟨hi, hp, he, least⟩ => ⟨hi, ⟨hi, hp, he⟩, fun j hj hm enabled => ?_⟩⟩
  · exact least j hj hm ((s.getLsbD_enabledRequests j).2 ⟨hm, both⟩)
  · exact least j hj hm ((s.getLsbD_enabledRequests j).1 enabled).2

/-! ### The entry of an error (R383, R390) -/

/-- The level after an error (R383). -/
theorem Level.afterError_eq {l : Level} (h : l ≠ .doubleError) :
    l.afterError = some (if l = .error then .doubleError else .error) := by
  cases l with
  | doubleError => exact absurd rfl h
  | base | interrupt | error => rfl

/-- A requested error is taken before anything else (R386, R388). -/
theorem State.recognize_error_request {e : ErrorSource} (he : s.errorRequest = some e) :
    s.recognize = s.takeException (.error e) := by
  rw [State.recognize, he]

/-- By default the shadow set and pcsh are free values after an error (R390). -/
theorem State.saveAtError_unknown (h : s.params.exc.errorShadow = .unknown) :
    s.saveAtError = { s with
      pcsh := s.drawn 32
      shadow := drawnShadow (s.draws + 1)
      draws := s.draws + 14 } := by
  rw [State.saveAtError, h]

theorem State.saveAtError_kept (h : s.params.exc.errorShadow = .kept) : s.saveAtError = s := by
  rw [State.saveAtError, h]

/-- Settles O21: the boundary is the entry of `State.takeError`, and the fetch sees the same map. -/
theorem errorEntryRaisesTheLevel : Obligations.ErrorEntryRaisesTheLevel := by
  intro s e henv he
  let o : State := { s with out := [], latch := Latch.empty }
  have taken : s.boundary = o.takeException (.error e) :=
    (State.boundary_of_nil henv).trans (State.recognize_error_request (s := o) he)
  refine ⟨fun double => ?refused, fun single => ?entered⟩
  all_goals
    obtain ⟨noLevel, answer⟩ | ⟨l, after, answer⟩ := o.takeError e
    all_goals rw [answer] at taken
  case refused.inl => simp only [step, cycle, taken, resolve_refuse]
  case refused.inr => exact absurd after (by simp [o, double, Level.afterError])
  case entered.inl => exact absurd noLevel (by simp [o, Level.afterError_eq single])
  case entered.inr =>
    refine ⟨_, taken, ?level, rfl, rfl, rfl, rfl, rfl, rfl, rfl, fun unknown => ?unknown, fun kept => ?kept,
      ?vector, rfl, ?fetched, rfl, rfl, rfl, rfl, rfl, rfl, rfl, rfl, rfl⟩
    case level => exact Option.some_inj.1 (after.symm.trans (Level.afterError_eq single))
    case unknown =>
      dsimp only
      rw [State.saveAtError_unknown (s := o) unknown]
      exact ⟨s.draws, Nat.le_refl _, by simp [o], rfl, rfl⟩
    case kept =>
      dsimp only
      rw [State.saveAtError_kept (s := o) kept]
      exact ⟨rfl, rfl⟩
    case vector => cases e <;> rfl
    case fetched => exact SameMap.fetch ⟨rfl, rfl, rfl⟩ rfl rfl _

end Sys2Proof.Machine
end

section
/-! SUPPORT. The processor-control instructions at their levels, and what waiti settles (R392 to R398, R446). -/

namespace Sys2Proof.Machine

variable {s : State}

/-! ### Settling everything in flight (R446) -/

theorem State.settleAll_concat (s : State) (es : List FlagEntry) (e : FlagEntry) :
    s.settleAll (es ++ [e]) = (s.settleAll es).settle e := List.foldl_concat State.settle s e es

/-- A settled N flag shifts into ctr (R39, R446). -/
theorem State.toNat_ctr_settle (s : State) (e : FlagEntry) :
    (s.settle e).ctr.toNat = (2 * s.ctr.toNat + e.n.toNat) % 64 := by
  have flag := e.n.toNat_lt
  have shifted : (s.settle e).ctr.toNat = 2 * (s.ctr.toNat % 32) + e.n.toNat := by
    show (0#2 ++ s.ctr.extractLsb' 0 5 ++ BitVec.ofBool e.n : BitVec 8).toNat = _
    rw [BitVec.toNat_append, BitVec.toNat_append, ← Nat.shiftLeft_add_eq_or_of_lt (BitVec.isLt _)]
    simp [Nat.shiftLeft_eq, BitVec.extractLsb'_toNat, Nat.mul_comm]
  omega

/-- So do those of entries that settle one after the other. -/
theorem State.toNat_ctr_settleAll : ∀ (es : List FlagEntry) (s : State) (c : ℕ),
    s.ctr.toNat % 64 = c % 64 →
    (s.settleAll es).ctr.toNat % 64 = es.foldl (fun c f => 2 * c + f.n.toNat) c % 64
  | [], _, _, h => h
  | e :: es, s, c, h => by
    refine State.toNat_ctr_settleAll es (s.settle e) (2 * c + e.n.toNat) ?_
    rw [State.toNat_ctr_settle]
    omega

/-- Each V or U requests source 5, each NaN source 6 (R384, R446). -/
theorem State.getLsbD_pending_settleAll (j : ℕ) : ∀ (es : List FlagEntry) (s : State),
    (s.settleAll es).pending.getLsbD j = (s.pending.getLsbD j
      || (j == 5 && es.any fun f => f.v || f.u) || (j == 6 && es.any (·.nan)))
  | [], s => by simp [State.settleAll]
  | e :: es, s => by
    have first : (s.settle e).pending.getLsbD j =
        (s.pending.getLsbD j || (j == 5 && (e.v || e.u)) || (j == 6 && e.nan)) := by
      show (request (request s.pending 5 (e.v || e.u)) 6 e.nan).getLsbD j = _
      rw [getLsbD_request, getLsbD_request]
      have five : decide (j < 16 ∧ j = 5) = (j == 5) := by rw [beq_eq_decide]; congr 1; simp; omega
      have six : decide (j < 16 ∧ j = 6) = (j == 6) := by rw [beq_eq_decide]; congr 1; simp; omega
      rw [five, six, Bool.and_comm, Bool.and_comm e.nan]
    refine (State.getLsbD_pending_settleAll j es (s.settle e)).trans ?_
    rw [first, List.any_cons, List.any_cons]
    simp only [Bool.and_or_distrib_left]
    ac_rfl

/-- No request is enabled just where no source is both pending and enabled (R384, R396). -/
theorem State.enabledRequests_eq_zero_iff (s : State) :
    s.enabledRequests = 0#16 ↔ ∀ i, i ∈ interruptSources →
      ¬ (s.pending.getLsbD i = true ∧ s.emr.getLsbD i = true) := by
  constructor
  · intro h i hi both
    have enabled := (s.getLsbD_enabledRequests i).2 ⟨hi, both⟩
    rw [h, BitVec.getLsbD_zero] at enabled
    exact Bool.noConfusion enabled
  · intro h
    refine BitVec.eq_of_getLsbD_eq fun i _ => ?_
    rw [BitVec.getLsbD_zero, Bool.eq_false_iff]
    intro enabled
    obtain ⟨hi, both⟩ := (s.getLsbD_enabledRequests i).1 enabled
    exact h i hi both

/-! ### The commands at their levels (R392 to R398) -/

/-- With everything in flight settled: what waiti leaves but for the wait (R396). -/
def settledAll (s : State) : State := { s.settleAll s.queue with queue := [] }

theorem settledAll_of_nil (h : s.queue = []) : settledAll s = s := by
  have nothing : s.settleAll s.queue = s := by rw [h]; rfl
  rw [settledAll, nothing, ← h]

/-- waiti at base level (R396). -/
theorem State.waitForInterrupt_of_base (h : s.level = .base) :
    s.waitForInterrupt = .ok { settledAll s with
      waiting := s.waiting || decide ((settledAll s).enabledRequests = 0#16) } := by
  have kept : (settledAll s).waiting = s.waiting := by rw [settledAll, State.settleAll_eq]
  show (if s.level = .base then if (settledAll s).enabledRequests = 0#16 then
      .ok { settledAll s with waiting := true } else .ok (settledAll s)
    else .error (.refuse .waitiLevel) : Res State) = _
  rw [if_pos h]
  split
  · next idle => rw [decide_eq_true idle, Bool.or_true]
  · next busy => rw [decide_eq_false busy, Bool.or_false, ← kept]

/-- sftrst above interrupt level (R394). -/
theorem State.softReset_of_level (h : s.level = .error ∨ s.level = .doubleError) :
    s.softReset = .ok (s.setLevel .base) := by
  obtain h | h := h <;> rw [State.softReset, h]

/-- sftrst at the other levels (R394). -/
theorem State.softReset_refused (h : s.level = .base ∨ s.level = .interrupt) :
    s.softReset = .error (.refuse .sftrstLevel) := by
  obtain h | h := h <;> rw [State.softReset, h]

/-- The newest entry is then in the DAU flags of ps, and the N flags of all are in ctr (R39, R446). -/
theorem settledAll_flags {e : FlagEntry} (h : s.queue.getLast? = some e) :
    (settledAll s).dauN = e.n ∧ (settledAll s).dauZ = e.z ∧ (settledAll s).dauV = e.v ∧
      (settledAll s).dauU = e.u ∧ (settledAll s).cau = s.cau ∧
      (settledAll s).ctr.toNat = s.queue.foldl (fun c f => 2 * c + f.n.toNat) s.ctr.toNat % 64 := by
  obtain ⟨es, queue⟩ := List.getLast?_eq_some_iff.1 h
  have newest : s.settleAll s.queue = (s.settleAll es).settle e := by rw [queue, State.settleAll_concat]
  obtain ⟨n, z, u, v⟩ := (s.settleAll es).dau_settle e
  rw [← newest] at n z u v
  refine ⟨n, z, v, u, State.cau_congr (State.settleAll_cau s.queue s), ?_⟩
  have earlier := State.toNat_ctr_settleAll es s _ rfl
  show (s.settleAll s.queue).ctr.toNat = _
  rw [newest, State.toNat_ctr_settle, queue, List.foldl_concat]
  omega

/-- Settles O23: each command is its operation at the level where it completes, and waiti leaves
`settledAll`. -/
theorem processorControlCompletes : Obligations.ProcessorControlCompletes := by
  intro s
  refine ⟨fun level => ?ireturn, fun level => ?ireturnRefused, fun b level => ?sftrst,
    fun b level => ?sftrstRefused, fun b => rfl, fun level => ?waiti, fun level => ?waitiRefused⟩
  case ireturn =>
    obtain ⟨t, ht⟩ := State.returnFromInterrupt_of_level level
    have done : exec .ireturn s = .next t := by rw [exec, execIreturn, ht, resolve_ok]
    obtain ⟨-, rfl⟩ := State.returnFromInterrupt_ok ht
    exact ⟨_, done, rfl, rfl, rfl, rfl, rfl, rfl, rfl, rfl, rfl, rfl, rfl, rfl⟩
  case ireturnRefused =>
    rw [exec, execIreturn, State.returnFromInterrupt, if_neg level, resolve_refuse]
  case sftrst =>
    rw [exec, execSftrst, State.softReset_of_level level, resolve_ok, State.setLevel_eq]
  case sftrstRefused =>
    rw [exec, execSftrst, State.softReset_refused level, resolve_refuse]
  case waitiRefused =>
    rw [exec, execWaiti, State.waitForInterrupt, if_neg level, resolve_refuse]
  case waiti =>
    have run := State.waitForInterrupt_of_base level
    refine ⟨_, by rw [exec, execWaiti, run, resolve_ok], rfl, ?waits, fun empty => ?nothing,
      fun e newest => ?settles, ?frame⟩
    case waits =>
      show (s.waiting || decide _) = true ↔ _
      rw [Bool.or_eq_true, decide_eq_true_eq]
      exact or_congr_right (State.enabledRequests_eq_zero_iff _)
    case nothing => rw [settledAll_of_nil empty]
    case settles =>
      obtain ⟨n, z, v, u, cau, ctr⟩ := settledAll_flags newest
      exact ⟨n, z, v, u, cau, ctr, fun j => State.getLsbD_pending_settleAll j s.queue s⟩
    case frame =>
      rw [settledAll, State.settleAll_eq]

end Sys2Proof.Machine
end

section
/-! SUPPORT. The errors of an access: BERRN at one of its bytes (R104), and an error of a store whatever its
data. -/

namespace Sys2Proof.Machine

variable {s t : State}

/-! ### BERRN at one byte of an access (R104) -/

/-- A register is mapped only where the map says so. -/
theorem State.mmioAt_of_berr {a : Word} (h : s.place a = .berr) : s.mmioAt a = none := by
  cases he : s.mmioAt a with
  | none => rfl
  | some e =>
    have inside : s.onchip a = true := by
      by_contra outside
      rw [State.mmioAt, if_neg outside] at he
      cases he
    simp [State.place, inside, he] at h

/-- Byte `j` from `a` on is the first that is no read-write memory, and is answered with BERRN. -/
def BerrAt (s : State) (a : Word) (j : ℕ) : Prop :=
  (∀ i, i < j → ∃ k, s.place (a + BitVec.ofNat 32 i) = .ram k) ∧ s.place (a + BitVec.ofNat 32 j) = .berr

namespace BerrAt

variable {a : Word} {j : ℕ}

theorem place_zero (h : BerrAt s a 0) : s.place a = .berr := by simpa using h.2

theorem place_succ (h : BerrAt s a (j + 1)) : ∃ k, s.place a = .ram k := by simpa using h.1 0 (Nat.succ_pos j)

theorem rest (h : BerrAt s a (j + 1)) : BerrAt s (a + 1) j := by
  refine ⟨fun i hi => ?_, ?_⟩
  · rw [← addr_succ]
    exact h.1 (i + 1) (Nat.succ_lt_succ hi)
  · rw [← addr_succ]
    exact h.2

theorem sameMap (h : BerrAt s a j) (m : SameMap s t) : BerrAt t a j := by
  simpa only [BerrAt, m.place] using h

/-- No register is mapped at the start of such an access. -/
theorem mmioAt (h : BerrAt s a j) : s.mmioAt a = none := by
  cases j with
  | zero => exact State.mmioAt_of_berr h.place_zero
  | succ j =>
    obtain ⟨k, hk⟩ := h.place_succ
    exact State.mmioAt_of_ram hk

theorem readBytes : ∀ {n j : ℕ} {a : Word}, BerrAt s a j → j < n →
    s.readBytes a n = .error (.raise .busError)
  | n + 1, 0, a, h, _ => by
    simp only [State.readBytes, State.readByte, h.place_zero]
    rfl
  | n + 1, j + 1, a, h, hn => by
    obtain ⟨k, hk⟩ := h.place_succ
    simp only [State.readBytes, State.readByte_ram hk, readBytes h.rest (Nat.lt_of_succ_lt_succ hn)]
    rfl

theorem writeBytes {bs : List Byte} (h : BerrAt s a j) (hj : j < bs.length) :
    s.writeBytes a bs = .error (.raise .busError) := by
  induction bs generalizing s a j with
  | nil => exact absurd hj (Nat.not_lt_zero j)
  | cons b bs ih =>
    cases j with
    | zero =>
      simp only [State.writeBytes, State.writeByte, h.place_zero]
      rfl
    | succ j =>
      obtain ⟨k, hk⟩ := h.place_succ
      have first := State.writeByte_ram hk b
      simp only [State.writeBytes, first]
      exact ih (h.rest.sameMap (State.writeByte_map first)) (Nat.lt_of_succ_lt_succ hj)

/-- An aligned access meets the Bus Error. -/
theorem access {n : ℕ} (h : BerrAt s a j) (hj : j < n) (ha : a.toNat % n = 0) :
    s.load a n = .error (.raise .busError) ∧ (∀ v, s.store a n v = .error (.raise .busError)) ∧
      (n = 4 → s.fetch a = .trouble (.raise .busError)) := by
  have aligned := s.checkAlign_of_aligned ha
  refine ⟨?_, fun v => ?_, ?_⟩
  · simp only [State.load, aligned, h.mmioAt, h.readBytes hj]
    rfl
  · simp only [State.store, aligned, h.mmioAt]
    exact h.writeBytes (by rwa [length_bytesOf])
  · rintro rfl
    simp only [State.fetch, aligned, h.readBytes hj]
    rfl

end BerrAt

/-! ### What a store meets does not depend on its data -/

theorem State.writeByte_error_congr {a : Word} {v w : Byte} {x : Trouble} (m : SameMap s t)
    (h : s.writeByte a v = .error x) : t.writeByte a w = .error x := by
  unfold State.writeByte at h ⊢
  rw [m.place]
  cases hp : s.place a with
  | ram => simp only [hp] at h; cases h
  | _ => simpa only [hp] using h

theorem State.writeBytes_error_congr {bs cs : List Byte} {a : Word} {x : Trouble} (m : SameMap s t)
    (len : bs.length = cs.length) (h : s.writeBytes a bs = .error x) : t.writeBytes a cs = .error x := by
  induction bs generalizing s t a cs with
  | nil => cases h
  | cons b bs ih =>
    obtain ⟨c, cs, rfl⟩ := List.exists_cons_of_length_eq_add_one len.symm
    simp only [State.writeBytes] at h ⊢
    cases hb : s.writeByte a b with
    | error y =>
      rw [hb] at h
      rw [State.writeByte_error_congr m hb]
      exact h
    | ok u =>
      rw [hb] at h
      obtain ⟨k, hk, rfl⟩ := State.writeByte_ok hb
      rw [State.writeByte_ram ((m.place a).trans hk) c]
      exact ih (s := { s with mem := s.mem.write k b }) ⟨m.pcw, m.params, m.pins⟩ (Nat.succ.inj len) h

/-- The error of a store is that of its address and size. -/
theorem State.store_error_congr {a : Word} {n : ℕ} {v : Word} {e : ErrorSource}
    (h : s.store a n v = .error (.raise e)) (w : Word) : s.store a n w = .error (.raise e) := by
  unfold State.store at h ⊢
  cases hc : s.checkAlign a n with
  | error x => rw [hc] at h; exact h
  | ok u =>
    rw [hc] at h
    cases hm : s.mmioAt a with
    | some r =>
      simp only [hm] at h
      change (if s.mmioFits r a n then _ else _) = _ at h
      split at h <;> cases h
    | none =>
      simp only [hm] at h ⊢
      exact State.writeBytes_error_congr .rfl (by rw [length_bytesOf, length_bytesOf]) h

/-- So is that of a Z write. -/
theorem State.daWrite_error_congr {z : DaDest} {n : ℕ} {v : Word} {e : ErrorSource}
    (h : s.daWrite z n v = .error (.raise e)) (w : Word) : s.daWrite z n w = .error (.raise e) := by
  cases z with
  | none => cases h
  | mem m => exact State.store_error_congr h w

end Sys2Proof.Machine
end

section
/-! SUPPORT. Instructions and steps that request an error and make no write (R387 to R390). -/

namespace Sys2Proof.Machine

variable {s t : State}

/-! ### Instructions with one access (R390) -/

theorem exec_loadDirect_error {w : Width} {l : Half} {e : ErrorSource}
    (h : s.load (directOf s l) (bytesMoved w) = .error (.raise e)) (rH : LoadDest) :
    exec (.loadDirect w rH l) s = .next (requesting s e) := by
  simp only [exec, execLoadDirect, State.directAddress_eq, widthBytes_eq, h]
  rfl

theorem exec_storeDirect_error {w : Width} {rH : Source} {l : Half} {e : ErrorSource}
    (h : s.store (directOf s l) (bytesMoved w) (storedWord w (sourceOf s rH)) = .error (.raise e)) :
    exec (.storeDirect w rH l) s = .next (requesting s e) := by
  simp only [exec, execStoreDirect, State.directAddress_eq, widthBytes_eq, placeStore_eq, State.sourceValue_eq,
    h]
  rfl

section
variable {w : Width} {rP : Reg} {e : ErrorSource}

theorem exec_loadMem_error (hsp : spFits rP w) (h : s.load (s.reg rP) (bytesMoved w) = .error (.raise e))
    (rH : LoadDest) (rI : Increment) : exec (.loadMem w rH rP rI) s = .next (requesting s e) := by
  simp only [exec, execLoadMem, checkSp_of_spFits hsp, widthBytes_eq, h]
  rfl

theorem exec_storeMem_error {rH : Source} (hsp : spFits rP w)
    (h : s.store (s.reg rP) (bytesMoved w) (storedWord w (sourceOf s rH)) = .error (.raise e))
    (rI : Increment) : exec (.storeMem w rH rP rI) s = .next (requesting s e) := by
  simp only [exec, execStoreMem, checkSp_of_spFits hsp, widthBytes_eq, placeStore_eq, State.sourceValue_eq, h]
  rfl

theorem exec_loadIor_error {io : IoReg} (hio : io ≠ .spc) (hw : w ≠ .hbyte) (hsp : spFits rP w)
    (h : s.load (s.reg rP) (bytesMoved w) = .error (.raise e)) (rI : Increment) :
    exec (.loadIor w io rP rI) s = .next (requesting s e) := by
  simp only [exec, execLoadIor, checkIor, hio, hw, if_false, checkSp_of_spFits hsp, widthBytes_eq, h]
  rfl

theorem exec_storeIor_error {io : IoReg} (hio : io ≠ .spc) (hw : w ≠ .hbyte) (hsp : spFits rP w)
    (h : s.store (s.reg rP) (bytesMoved w) (ioData s io (bytesMoved w)) = .error (.raise e))
    (rI : Increment) : exec (.storeIor w io rP rI) s = .next (requesting s e) := by
  simp only [exec, execStoreIor, checkIor, hio, hw, if_false, checkSp_of_spFits hsp, State.ioRead_eq,
    widthBytes_eq, h]
  rfl

end

/-! ### DA instructions (R338, R352, R390) -/

/-- The accesses of a DA instruction: X and Y are read, Z takes the data `zd` of both unless that is none, and
`close` does the rest. -/
def daRun (s : State) (d : DaView) (zd : DaValue → DaValue → Option Word)
    (close : DaValue → DaValue → State → State) : Host.Outcome State Fault Refusal :=
  let sz := (yState s d).interleave
  resolve sz do
    let xv ← s.daRead (d.x.getD (.acc 0)) 4
    let yv ← (yState s d).daRead d.y d.yBytes
    let t ← sz.zWrite d.z d.zBytes (zd xv yv)
    .ok (close xv yv t)

/-- `o` makes the accesses of `d` and requests no error after them; only a failed test skips the Z write
(R368). -/
def RunsAsDa (s : State) (d : DaView) (o : Host.Outcome State Fault Refusal) : Prop :=
  ∃ zd close, o = daRun s d zd close ∧
    (∀ xv yv u, (close xv yv u).errorRequest = u.errorRequest) ∧
    ∀ xv yv, zd xv yv = none → ∃ k, d.test = some k ∧ s.ifSkipsZ k = true

@[simp] theorem State.postOperand_errorRequest (s : State) (o : DaOperand) (n : Nat) :
    (s.postOperand o n).errorRequest = s.errorRequest := by
  rw [s.postOperand_frame]

@[simp] theorem State.postDest_errorRequest (s : State) (z : DaDest) (n : Nat) :
    (s.postDest z n).errorRequest = s.errorRequest := by
  rw [s.postDest_frame]

@[simp] theorem State.pushOptional_errorRequest (s : State) (e : Option FlagEntry) :
    (s.pushOptional e).errorRequest = s.errorRequest := by
  cases e <;> rfl

/-- Formats 1 to 4 (R338). -/
theorem macCommon_runsAsDa (zk : ZKind) (aN : AccNo) (x y : DaOperand) (z : DaDest)
    (f : DaValue → DaValue → DauResult) (s : State) (xMul yMul : Bool) (m : Option AccNo) :
    RunsAsDa s (macView aN x y z xMul yMul m) (macCommon zk aN x y z f s) := by
  refine ⟨fun xv yv => some (zData zk (f xv yv).value yv), fun xv yv t =>
    ((((t.setAcc aN (f xv yv).value).postOperand x 4).postOperand y 4).postDest z 4).pushFlags (f xv yv).entry,
    rfl, fun xv yv u => by simp, fun _ _ h => nomatch h⟩

/-- Format 5 (R352). -/
theorem specialCommon_runsAsDa {yn zn : Nat} {aN : AccNo} {y : DaOperand} {z : DaDest}
    {f : DaValue → SpecialResult} {s : State} {sets : Bool} {test : Option IfTest}
    (h : ∀ yv, (f yv).zdata = none → ∃ k, test = some k ∧ s.ifSkipsZ k = true) :
    RunsAsDa s (specialView aN y z yn zn sets test) (specialCommon yn zn aN y z f s) := by
  refine ⟨fun _ yv => (f yv).zdata, fun _ yv t =>
    ((((t.setAcc aN (f yv).value).postOperand y yn).postDest z zn).pushOptional (f yv).flags).addDraws
      (f yv).draws, rfl, fun xv yv u => by simp, fun _ yv => h yv⟩

/-- An if-instruction skips the Z write where its test fails and dauc[6] is set (R368). -/
theorem ifResult_zdata {k : IfTest} {aN : AccNo} {yv : DaValue} (h : (s.ifResult k aN yv).zdata = none) :
    ∃ k', some k = some k' ∧ s.ifSkipsZ k' = true := by
  refine ⟨k, rfl, ?_⟩
  by_contra writes
  rw [State.ifResult, if_neg writes] at h
  cases h

/-- Every DA instruction makes the accesses of its view; dsp of an accumulator is refused (R362). -/
theorem exec_runsAsDa {i : Instr} {d : DaView} (h : daView i = some d)
    (hdsp : ∀ aN a z, i ≠ .dsp aN (.acc a) z) (s : State) : RunsAsDa s d (exec i s) := by
  cases i with
  | fmultAccStore | fmultAccTap | fmultAddStore | fmultStore | fmultTap | faddStore | faddTap | floadStore
  | fzeroAddStore | fconstTap | fconstStore =>
    cases h
    exact macCommon_runsAsDa ..
  | ic | oc | float16 | int16 | round | float32 | int32 | ieee | seed =>
    cases h
    exact specialCommon_runsAsDa fun _ e => nomatch e
  | ifalt | ifaeq | ifagt =>
    cases h
    exact specialCommon_runsAsDa fun _ => ifResult_zdata
  | dsp aN y z =>
    cases h
    cases y with
    | acc a => exact absurd rfl (hdsp aN a z)
    | mem m => exact specialCommon_runsAsDa fun _ e => nomatch e
  | _ => cases h

theorem lastAccess_of_daView {i : Instr} {d : DaView} (h : daView i = some d) (s : State) :
    lastAccess s i = (yState s d).interleave := by
  rw [lastAccess, h]

namespace RunsAsDa

variable {d : DaView} {o : Host.Outcome State Fault Refusal} {e : ErrorSource} {xv yv : DaValue}

theorem of_x (h : RunsAsDa s d o) (hx : s.daRead (d.x.getD (.acc 0)) 4 = .error (.raise e)) :
    o = .next (requesting (yState s d).interleave e) := by
  obtain ⟨zd, close, rfl, -, -⟩ := h
  simp only [daRun, hx]
  rfl

theorem of_y (h : RunsAsDa s d o) (hx : s.daRead (d.x.getD (.acc 0)) 4 = .ok xv)
    (hy : (yState s d).daRead d.y d.yBytes = .error (.raise e)) :
    o = .next (requesting (yState s d).interleave e) := by
  obtain ⟨zd, close, rfl, -, -⟩ := h
  simp only [daRun, hx, hy]
  rfl

theorem of_z (h : RunsAsDa s d o) (hx : s.daRead (d.x.getD (.acc 0)) 4 = .ok xv)
    (hy : (yState s d).daRead d.y d.yBytes = .ok yv) (ht : ∀ k, d.test = some k → s.ifSkipsZ k = false)
    {v : Word} (hz : (yState s d).interleave.daWrite d.z d.zBytes v = .error (.raise e)) :
    o = .next (requesting (yState s d).interleave e) := by
  obtain ⟨zd, close, rfl, -, skips⟩ := h
  obtain ⟨w, hw⟩ : ∃ w, zd xv yv = some w := by
    refine Option.ne_none_iff_exists'.1 fun skipped => ?_
    obtain ⟨k, hk, skip⟩ := skips xv yv skipped
    exact Bool.noConfusion (skip.symm.trans (ht k hk))
  have write : (yState s d).interleave.zWrite d.z d.zBytes (zd xv yv) = .error (.raise e) := by
    rw [hw]
    exact State.daWrite_error_congr hz w
  simp only [daRun, hx, hy]
  show resolve _ ((yState s d).interleave.zWrite d.z d.zBytes (zd xv yv) >>= _) = _
  rw [write]
  rfl

end RunsAsDa

/-! ### A changed error request (R390) -/

/-- `t` has the error request of `s`, or is `b` with an error requested. -/
def RequestsAt (b s t : State) : Prop := t.errorRequest = s.errorRequest ∨ ∃ e, t = requesting b e

theorem RequestsAt.of_resolve {b : State} {r : Res State} (h : resolve b r = .next t)
    (hr : r = .ok t → t.errorRequest = s.errorRequest) : RequestsAt b s t := by
  obtain ok | ⟨e, -, rfl⟩ := resolve_next h
  · exact .inl (hr ok)
  · exact .inr ⟨e, rfl⟩

theorem RequestsAt.of_next {b u : State}
    (h : Host.Outcome.next u = (.next t : Host.Outcome State Fault Refusal))
    (hu : u.errorRequest = s.errorRequest) : RequestsAt b s t := by
  cases h
  exact .inl hu

theorem RequestsAt.of_conditionally {b : State} {c : Cond} {u v : State} (h : conditionally c u v = .next t)
    (hu : u.errorRequest = s.errorRequest) (hv : v.errorRequest = s.errorRequest) : RequestsAt b s t := by
  obtain ⟨-, rfl⟩ | ⟨-, rfl⟩ := conditionally_next h
  · exact .inl hv
  · exact .inl hu

theorem State.bumpPointer_errorRequest (s : State) (rP : Reg) (rI : Increment) (n : Nat) :
    (s.bumpPointer rP rI n).errorRequest = s.errorRequest := rfl

theorem State.store_errorRequest {a : Word} {n : Nat} {v : Word} (h : s.store a n v = .ok t) :
    t.errorRequest = s.errorRequest := by
  rw [State.store_frame h]

theorem State.zWrite_errorRequest {z : DaDest} {n : Nat} {d : Option Word} (h : s.zWrite z n d = .ok t) :
    t.errorRequest = s.errorRequest := by
  obtain ⟨z', v, write, -⟩ := State.zWrite_ok h
  rw [State.daWrite_frame write]

theorem branch_errorRequest (taken : Bool) (a : Word) (s : State) :
    (branch taken a s).errorRequest = s.errorRequest := by
  cases taken <;> rfl

theorem State.softReset_errorRequest (h : s.softReset = .ok t) : t.errorRequest = s.errorRequest := by
  obtain ⟨-, rfl⟩ := State.softReset_ok h
  rfl

theorem State.waitForInterrupt_errorRequest (h : s.waitForInterrupt = .ok t) :
    t.errorRequest = s.errorRequest := by
  obtain ⟨-, ht⟩ := State.waitForInterrupt_ok h
  rw [ht]

/-- A DA instruction requests an error in the state of its last access. -/
theorem RunsAsDa.requestsAt {d : DaView} {o : Host.Outcome State Fault Refusal} (h : RunsAsDa s d o)
    (ht : o = .next t) : RequestsAt (yState s d).interleave s t := by
  obtain ⟨zd, close, rfl, closes, -⟩ := h
  refine .of_resolve ht fun hr => ?_
  obtain ⟨xv, -, hr⟩ := Res.bind_ok hr
  obtain ⟨yv, -, hr⟩ := Res.bind_ok hr
  obtain ⟨u, hu, hr⟩ := Res.bind_ok hr
  cases hr
  rw [closes, State.zWrite_errorRequest hu, State.interleave_errorRequest]
  unfold yState
  split
  · exact s.interleave_errorRequest
  · rfl

theorem exec_requestsAt_of_daView {i : Instr} {d : DaView} (view : daView i = some d)
    (h : exec i s = .next t) : RequestsAt (lastAccess s i) s t := by
  have noDsp : ∀ aN a z, i ≠ .dsp aN (.acc a) z := by
    rintro aN a z rfl
    cases h
  rw [lastAccess_of_daView view]
  exact (exec_runsAsDa view noDsp s).requestsAt h

/-- A store to spc is a command, and no command requests an error. -/
theorem execStoreIo_requestsAt {w : Width} {rH : Source} {io : IoReg} (h : execStoreIo w rH io s = .next t) :
    RequestsAt s s t := by
  refine .of_resolve h fun hr => ?_
  split at hr
  · cases w with
    | long => exact State.waitForInterrupt_errorRequest hr
    | ushort | short => cases hr; rfl
    | byte | char => exact State.softReset_errorRequest hr
    | hbyte => cases hr
  · obtain ⟨_, -, hr⟩ := Res.bind_ok hr
    cases hr
    rw [State.ioWrite_eq]

/-- Every instruction leaves the error request, or is its last access's state with an error requested. -/
theorem exec_requestsAt {i : Instr} (h : exec i s = .next t) : RequestsAt (lastAccess s i) s t := by
  cases i with
  | ifGoto | goto | nop | ret | goto24 | loopGoto | call | call24 => exact .of_next h (branch_errorRequest ..)
  | ireturn =>
    refine .of_resolve h fun hr => ?_
    obtain ⟨-, rfl⟩ := State.returnFromInterrupt_ok hr
    rfl
  | doImm | doReg | dolockImm | dolockReg | doblockImm | doblockReg | bkpt | set24 => exact .of_next h rfl
  | sftrst => exact .of_resolve h State.softReset_errorRequest
  | waiti => exact .of_resolve h State.waitForInterrupt_errorRequest
  | add3 | set | subImm | rsubImm | cmpImm | crAddImm | andImm | bitImm | orImm | xorImm | shlImm | shrImm
  | sarImm | shiftOr => exact .of_next h rfl
  | addReg | incDec | subReg | neg | cmpReg | crAddReg | andReg | bitReg | andcReg | orReg | xorReg | shlReg
  | shrReg | sarReg | shl1 | shr1 | half | ror1 | rol1 | spIncDec => exact .of_conditionally h rfl rfl
  | loadDirect =>
    refine .of_resolve h fun hr => ?_
    obtain ⟨d, -, hr⟩ := Res.bind_ok hr
    cases hr
    rfl
  | storeDirect => exact .of_resolve h State.store_errorRequest
  | loadMem =>
    refine .of_resolve h fun hr => ?_
    obtain ⟨_, -, hr⟩ := Res.bind_ok hr
    obtain ⟨d, -, hr⟩ := Res.bind_ok hr
    cases hr
    rfl
  | storeMem =>
    refine .of_resolve h fun hr => ?_
    obtain ⟨_, -, hr⟩ := Res.bind_ok hr
    obtain ⟨u, hu, hr⟩ := Res.bind_ok hr
    cases hr
    exact (State.bumpPointer_errorRequest u ..).trans (State.store_errorRequest hu)
  | loadIo =>
    refine .of_resolve h fun hr => ?_
    split at hr
    · cases hr
    · cases hr
      rfl
  | storeIo => exact execStoreIo_requestsAt h
  | loadIor =>
    refine .of_resolve h fun hr => ?_
    obtain ⟨_, -, hr⟩ := Res.bind_ok hr
    obtain ⟨_, -, hr⟩ := Res.bind_ok hr
    obtain ⟨d, -, hr⟩ := Res.bind_ok hr
    obtain ⟨_, -, hr⟩ := Res.bind_ok hr
    cases hr
    rfl
  | storeIor =>
    refine .of_resolve h fun hr => ?_
    obtain ⟨_, -, hr⟩ := Res.bind_ok hr
    obtain ⟨_, -, hr⟩ := Res.bind_ok hr
    obtain ⟨u, hu, hr⟩ := Res.bind_ok hr
    cases hr
    exact (State.bumpPointer_errorRequest u ..).trans (State.store_errorRequest hu)
  | fmultAccStore | fmultAccTap | fmultAddStore | fmultStore | fmultTap | faddStore | faddTap | floadStore
  | fzeroAddStore | fconstTap | fconstStore | ic | oc | float16 | int16 | round | ifalt | ifaeq | ifagt
  | float32 | int32 | ieee | dsp | seed => exact exec_requestsAt_of_daView rfl h

/-! ### A fetch that met an error -/

/-- The step requests it and does nothing else (R387). -/
theorem State.execute_of_fetch_error {e : ErrorSource} (ir : s.ir = .trouble (.raise e))
    (hf : s.fetchTooEarly = false) : s.execute = .next (requesting s e) := by
  simp only [State.execute, hf, ir, Bool.false_eq_true, if_false]
  rfl

/-! ### The statement -/

/-- Settles O16: `exec_requestsAt` for the frame; each access of a CA instruction by its own lemma, those of a
DA instruction by `exec_runsAsDa`; and the bytes of an access are met in order. -/
theorem faultingInstructionWritesNothing : Obligations.FaultingInstructionWritesNothing := by
  refine ⟨fun i s t h changed => (exec_requestsAt h).resolve_left changed, fun s e w => ?moves,
    fun s e i d view noDsp => ?da, fun s e quiet ir early => ?fetch,
    fun s a n j _ aligned hj memory berr => BerrAt.access ⟨memory, berr⟩ hj aligned⟩
  case moves =>
    refine ⟨fun rH l h => exec_loadDirect_error h rH, fun rH l => exec_storeDirect_error,
      fun rP rI fits => ⟨fun h => ⟨fun rH => exec_loadMem_error fits h rH rI,
        fun io hio hw => exec_loadIor_error hio hw fits h rI⟩,
        fun rH h => exec_storeMem_error fits h rI, fun io hio hw h => exec_storeIor_error hio hw fits h rI⟩⟩
  case da =>
    have run := exec_runsAsDa view noDsp s
    dsimp only
    rw [lastAccess_of_daView view]
    exact ⟨run.of_x, fun ⟨_, hx⟩ hy => run.of_y hx hy,
      fun ⟨_, hx⟩ ⟨_, hy⟩ ht ⟨_, hz⟩ => run.of_z hx hy ht hz⟩
  case fetch =>
    have still : (opened s).interleave = opened s := State.interleave_of_nil quiet.env
    have run : (opened s).interleave.interleave.execute = .next (requesting (opened s) e) := by
      rw [still, still]
      exact State.execute_of_fetch_error (s := opened s) ir early
    rw [step_of_execute (State.boundary_of_quiet quiet) quiet.awake run, still, still]

end Sys2Proof.Machine
end
